-- ==== Sys2Proof/Word.lean ====
section
/-! DEFINITION. The word types of the part and the closed sets of names that the other files share:
register tags (R97), scopes (R159), rounding modes (R112), TDISP states (R292) and the like. -/

namespace Sys2Proof

/-- One instruction word, one 32-bit register value or one lane of a vector register (R8, R93). -/
abbrev Word := BitVec 32
/-- A 64-bit value: a register pair, a virtual address, a side-file entry (R14, R41, R96). -/
abbrev DWord := BitVec 64
/-- One byte of memory, scratchpad or overlay. -/
abbrev Byte := BitVec 8
/-- The guard field G (R10). -/
abbrev Guard := BitVec 4
/-- A register operand code (R12): 0-95 vector, 96-127 uniform. -/
abbrev Code := BitVec 7
/-- The thirty-two lanes of a vector register (R93). -/
abbrev Lanes := Vector Word 32

/-- The tags a register may hold (R97); no register ever holds a reserved tag. -/
inductive Tag where
  | void | b32 | s32 | n32 | s64 | n64 | m64 | f32 | f64
  | bf16x2 | f16x2 | e4m3x4 | e5m2x4 | s8x4 | s16x2
  | bfp2 | bfp3 | bfp4 | bfp5 | bfp6 | bfp7 | bfp8
  deriving DecidableEq, Repr

/-- The scopes of ordered operations (R159). -/
inductive Scope where
  | core | die | pkg | sys
  deriving DecidableEq, Repr

/-- The four rounding modes (R112). -/
inductive Rm where
  | rne | rtz | rdn | rup
  deriving DecidableEq, Repr

/-- The states of a TDISP interface (R292). -/
inductive Tdi where
  | unlocked | locked | run | error
  deriving DecidableEq, Repr

/-- The four operating classes (R207, R274). -/
inductive OpClass where
  | floor | efficient | sustain | burst
  deriving DecidableEq, Repr

/-- What a queue's record concerns when it is named from outside: the queue id (R264). -/
abbrev QueueId := Nat

/-- The resident group slot of a core (R210): die 0-31, core 0-191, slot 0-31. -/
structure Key where
  die  : Nat
  core : Nat
  slot : Nat
  deriving DecidableEq, Repr

/-- One core of the package. -/
structure CoreId where
  die  : Nat
  core : Nat
  deriving DecidableEq, Repr

/-- One quad of the package (R2): die 0-31, quad 0-47. -/
structure QuadId where
  die  : Nat
  quad : Nat
  deriving DecidableEq, Repr

/-- The answer of the host to a page request group (R52). -/
inductive PrgAnswer where
  | success | failure | invalid
  deriving DecidableEq, Repr

/-- The cache that a way or an eviction belongs to (R57, R71). -/
inductive CacheId where
  | l1 (die core : Nat)
  | rdc (die : Nat)
  | l2 (die : Nat)
  deriving DecidableEq, Repr

/-- A thing that is power-gated and wakes: a cache way or a scratchpad bank (R71-R73). -/
inductive PowerUnit where
  | way (c : CacheId) (n : Nat)
  | bank (die core n : Nat)
  deriving DecidableEq, Repr

/-- A host translation as an ATS completion carries it (R47, R51): the page, its frame in the host window and what
it permits. -/
structure HostPage where
  base  : Nat
  size  : Nat
  frame : Nat
  r     : Bool
  w     : Bool
  x     : Bool
  deriving DecidableEq, Repr

/-- A meridian heartbeat (R278, R280): the limit in force, a pending lower limit with its effective stamp, a raise. -/
structure Beat where
  limit    : Nat
  announce : Option (Nat × Nat)
  raise    : Option Nat
  deriving DecidableEq, Repr

/-- What Derdieb gives a world when it creates it: the translation record (R42), the two vectors (R231), the home address of
the protected page that holds its secret slots (R291), and the world's collective groups, each with its number and its
members as (package, die) in rank order (R268). -/
structure WorldConfig where
  xlat       : BitVec 128
  tvec       : Word
  svec       : Word
  secretPage : Nat
  colls      : List (Nat × List (Nat × Nat))
  deriving DecidableEq, Repr

/-- A firmware image as the boot ROM meets it (R295): whether its LMS signature verifies against the fused key,
its version, its digest. -/
structure BootImage where
  signed  : Bool
  version : Nat
  digest  : BitVec 384
  deriving DecidableEq, Repr

/-- The signed configuration record (R40, R52, R56, R239): whether it verifies, its digest, the backed size of each
CXL slot, the protected range and the metadata carve-out of each die (base and length of its die offsets), the range of
each CXL slot that the carve-out of its port's die is sized to include (base and length of its slot offsets), the
page-request timeout and the watchdog time, both in ns. -/
structure BootConfig where
  signed      : Bool
  digest      : BitVec 384
  cxl         : List Nat
  protect     : List (Nat × Nat)
  carve       : List (Nat × Nat)
  cxlProtect  : List (Nat × Nat)
  pageTimeout : Nat
  watchdog    : Nat
  deriving DecidableEq, Repr

end Sys2Proof
end

