-- ==== Sys2Proof/Syntax.lean ====
section
/-! DEFINITION. The instructions and events of the part: one constructor per row of the opcode table, nothing else.
A word's constructor holds its operand fields as the word holds them (R8), for an operand code that makes the word
illegal is still a word the front end meets (R17). An event's constructor holds what the step is about: which core,
queue, line, message. -/

namespace Sys2Proof

/-- A post of a collective by a member in another package, as its message tells it: the rank, the post's place in the
member's order, the 64-byte record, the queue's bytes the match looks at and how far the member's part has gone (R272). -/
structure RemotePost where
  rank : Nat
  seq : Nat
  desc : BitVec 512
  q : Nat
  done : Nat
  deriving DecidableEq, Repr

/-- What the MAC of a protected sector was made over (R56, R285): the world and number of its key, the version, and the
sector's bytes, which stand for the ciphertext (log entry 91). -/
structure Seal where
  world : Nat
  key : Nat
  version : Nat
  data : BitVec 512
  deriving DecidableEq, Repr

/-- What Derdieb does to a granule of a protected range (R56, R286): it gives it to a world, sends a 4 KiB page of it to the
host, or puts such a page back with its MACs as the host returned them. -/
inductive GranuleWrite where
  | give (world : Nat)
  | out (page : Nat)
  | back (page : Nat) (sectors : List (BitVec 512 × Option Seal))
  deriving DecidableEq, Repr

/-- What the patrol scrubber reads (R39, R38): a word of bonded DRAM, a bay of a die's shadow region, or an image that
Derdieb has moved to device memory. -/
inductive ScrubAt where
  | word (w : Nat)
  | bay (die bay : Nat)
  | moved (image : Nat)
  deriving DecidableEq, Repr

/-- What it finds there: nothing that its code does not correct, an uncorrectable error, or contents that were altered and
still pass the code, which only a MAC or a version shows (R39, R56). -/
inductive Finding where
  | clean | uncorrectable | altered
  deriving DecidableEq, Repr

/-- A read of the patrol scrubber: where, and what it finds. -/
structure Patrol where
  at_   : ScrubAt
  found : Finding
  deriving DecidableEq, Repr

/-- A slot of a die's collective engine whose operation may be complete, and what the fabric says then of the posts of members of
other packages (R272; log entry 19). -/
structure Completion where
  slot  : Nat
  posts : List RemotePost
  deriving DecidableEq, Repr

/-- One row of the opcode table: a word (R33) or a step of the part that has no encoding. -/
inductive Instr where
  /-- `ZERO` (R33). -/
  | zero (g : Guard) (x : BitVec 22)
  /-- `ADD` (R129). -/
  | add (g : Guard) (d : Code) (a : Code) (b : Code)
  /-- `ADD_SAT` (R129). -/
  | addSat (g : Guard) (d : Code) (a : Code) (b : Code)
  /-- `SUB` (R129). -/
  | sub (g : Guard) (d : Code) (a : Code) (b : Code)
  /-- `SUB_SAT` (R129). -/
  | subSat (g : Guard) (d : Code) (a : Code) (b : Code)
  /-- `MUL` (R130). -/
  | mul (g : Guard) (d : Code) (a : Code) (b : Code)
  /-- `MUL_HI` (R130). -/
  | mulHi (g : Guard) (d : Code) (a : Code) (b : Code)
  /-- `FMA` (R131). -/
  | fma (g : Guard) (d : Code) (a : Code) (b : Code)
  /-- `FMA_NEG` (R131). -/
  | fmaNeg (g : Guard) (d : Code) (a : Code) (b : Code)
  /-- `MIN` (R132). -/
  | min (g : Guard) (d : Code) (a : Code) (b : Code)
  /-- `MIN_NAN` (R132). -/
  | minNan (g : Guard) (d : Code) (a : Code) (b : Code)
  /-- `MAX` (R132). -/
  | max (g : Guard) (d : Code) (a : Code) (b : Code)
  /-- `MAX_NAN` (R132). -/
  | maxNan (g : Guard) (d : Code) (a : Code) (b : Code)
  /-- `ADDI` (R133). -/
  | addi (g : Guard) (d : Code) (a : Code) (i : BitVec 8)
  /-- `MULI` (R133). -/
  | muli (g : Guard) (d : Code) (a : Code) (i : BitVec 8)
  /-- `AND` (R134). -/
  | and (g : Guard) (d : Code) (a : Code) (b : Code)
  /-- `ANDN` (R134). -/
  | andn (g : Guard) (d : Code) (a : Code) (b : Code)
  /-- `OR` (R134). -/
  | or (g : Guard) (d : Code) (a : Code) (b : Code)
  /-- `ORN` (R134). -/
  | orn (g : Guard) (d : Code) (a : Code) (b : Code)
  /-- `XOR` (R134). -/
  | xor (g : Guard) (d : Code) (a : Code) (b : Code)
  /-- `XNOR` (R134). -/
  | xnor (g : Guard) (d : Code) (a : Code) (b : Code)
  /-- `SHL` (R135). -/
  | shl (g : Guard) (d : Code) (a : Code) (b : Code)
  /-- `ROL` (R135). -/
  | rol (g : Guard) (d : Code) (a : Code) (b : Code)
  /-- `SHR` (R135). -/
  | shr (g : Guard) (d : Code) (a : Code) (b : Code)
  /-- `SAR` (R135). -/
  | sar (g : Guard) (d : Code) (a : Code) (b : Code)
  /-- `SHI_SHL` (R135). -/
  | shiShl (g : Guard) (d : Code) (a : Code) (c : BitVec 6)
  /-- `SHI_SHR` (R135). -/
  | shiShr (g : Guard) (d : Code) (a : Code) (c : BitVec 6)
  /-- `SHI_SAR` (R135). -/
  | shiSar (g : Guard) (d : Code) (a : Code) (c : BitVec 6)
  /-- `SHI_ROL` (R135). -/
  | shiRol (g : Guard) (d : Code) (a : Code) (c : BitVec 6)
  /-- `CMP` (R136). -/
  | cmp (g : Guard) (c : BitVec 3) (p : BitVec 3) (a : Code) (b : Code)
  /-- `CMP_AND` (R136). -/
  | cmpAnd (g : Guard) (c : BitVec 3) (p : BitVec 3) (a : Code) (b : Code)
  /-- `SEL` (R137). -/
  | sel (g : Guard) (d : Code) (a : Code) (b : Code)
  /-- `NEG` (R138). -/
  | neg (g : Guard) (d : Code) (a : Code)
  /-- `ABS` (R138). -/
  | abs (g : Guard) (d : Code) (a : Code)
  /-- `RCP` (R138). -/
  | rcp (g : Guard) (d : Code) (a : Code)
  /-- `RSQ` (R138). -/
  | rsq (g : Guard) (d : Code) (a : Code)
  /-- `SQRT` (R138). -/
  | sqrt (g : Guard) (d : Code) (a : Code)
  /-- `EXP2` (R138). -/
  | exp2 (g : Guard) (d : Code) (a : Code)
  /-- `LOG2` (R138). -/
  | log2 (g : Guard) (d : Code) (a : Code)
  /-- `FLOOR` (R138). -/
  | floor (g : Guard) (d : Code) (a : Code)
  /-- `CEIL` (R138). -/
  | ceil (g : Guard) (d : Code) (a : Code)
  /-- `TRUNC` (R138). -/
  | trunc (g : Guard) (d : Code) (a : Code)
  /-- `RINT` (R138). -/
  | rint (g : Guard) (d : Code) (a : Code)
  /-- `POPC` (R138). -/
  | popc (g : Guard) (d : Code) (a : Code)
  /-- `CLZ` (R138). -/
  | clz (g : Guard) (d : Code) (a : Code)
  /-- `BREV` (R138). -/
  | brev (g : Guard) (d : Code) (a : Code)
  /-- `NOT` (R138). -/
  | not (g : Guard) (d : Code) (a : Code)
  /-- `FRACT` (R138). -/
  | fract (g : Guard) (d : Code) (a : Code)
  /-- `MOVI` (R142). -/
  | movi (g : Guard) (d : Code) (i : BitVec 15)
  /-- `MOV` (R143). -/
  | mov (g : Guard) (d : Code) (a : Code)
  /-- `GTAG` (R143). -/
  | gtag (g : Guard) (d : Code) (a : Code)
  /-- `STAG` (R143). -/
  | stag (g : Guard) (d : Code) (a : Code)
  /-- `MOVP` (R143). -/
  | movp (g : Guard) (d : Code) (n : BitVec 3)
  /-- `PMOV` (R143). -/
  | pmov (g : Guard) (a : Code) (n : BitVec 3)
  /-- `NTTP_X` (R144). -/
  | nttpX (g : Guard) (d : Code) (a : Code) (k : BitVec 4)
  /-- `NTTP_BR` (R144). -/
  | nttpBr (g : Guard) (d : Code) (a : Code) (k : BitVec 4)
  /-- `SPLIT` (R139). -/
  | split (g : Guard) (d : Code) (a : Code) (j : BitVec 3)
  /-- `LD` (R105). -/
  | ld (g : Guard) (d : Code) (a : Code) (k : BitVec 4) (o : BitVec 4)
  /-- `LDS` (R105). -/
  | lds (g : Guard) (d : Code) (a : Code) (k : BitVec 4) (o : BitVec 4)
  /-- `LDA` (R172). -/
  | lda (g : Guard) (d : Code) (a : Code) (s : BitVec 2) (w : BitVec 1)
  /-- `LDA_P` (R178). -/
  | ldaP (g : Guard) (d : Code) (a : Code) (s : BitVec 1) (w : BitVec 1)
  /-- `STL` (R173). -/
  | stl (g : Guard) (d : Code) (a : Code) (s : BitVec 2) (w : BitVec 1)
  /-- `ATOM_ADD` (R155). -/
  | atomAdd (g : Guard) (d : Code) (a : Code) (w : BitVec 1) (s : BitVec 2)
  /-- `ATOM_MIN` (R155). -/
  | atomMin (g : Guard) (d : Code) (a : Code) (w : BitVec 1) (s : BitVec 2)
  /-- `ATOM_MAX` (R155). -/
  | atomMax (g : Guard) (d : Code) (a : Code) (w : BitVec 1) (s : BitVec 2)
  /-- `ATOM_AND` (R155). -/
  | atomAnd (g : Guard) (d : Code) (a : Code) (w : BitVec 1) (s : BitVec 2)
  /-- `ATOM_OR` (R155). -/
  | atomOr (g : Guard) (d : Code) (a : Code) (w : BitVec 1) (s : BitVec 2)
  /-- `ATOM_XOR` (R155). -/
  | atomXor (g : Guard) (d : Code) (a : Code) (w : BitVec 1) (s : BitVec 2)
  /-- `ATOM_EXCH` (R155). -/
  | atomExch (g : Guard) (d : Code) (a : Code) (w : BitVec 1) (s : BitVec 2)
  /-- `ATOM_CAS` (R155). -/
  | atomCas (g : Guard) (d : Code) (a : Code) (w : BitVec 1) (s : BitVec 2)
  /-- `ATOM_INCW` (R155). -/
  | atomIncw (g : Guard) (d : Code) (a : Code) (w : BitVec 1) (s : BitVec 2)
  /-- `RED_ADD_SCOPE` (R155). -/
  | redAddScope (g : Guard) (d : Code) (a : Code) (w : BitVec 1) (s : BitVec 2)
  /-- `RED_MIN_SCOPE` (R155). -/
  | redMinScope (g : Guard) (d : Code) (a : Code) (w : BitVec 1) (s : BitVec 2)
  /-- `RED_MAX_SCOPE` (R155). -/
  | redMaxScope (g : Guard) (d : Code) (a : Code) (w : BitVec 1) (s : BitVec 2)
  /-- `RED_AND_SCOPE` (R155). -/
  | redAndScope (g : Guard) (d : Code) (a : Code) (w : BitVec 1) (s : BitVec 2)
  /-- `RED_OR_SCOPE` (R155). -/
  | redOrScope (g : Guard) (d : Code) (a : Code) (w : BitVec 1) (s : BitVec 2)
  /-- `RED_XOR_SCOPE` (R155). -/
  | redXorScope (g : Guard) (d : Code) (a : Code) (w : BitVec 1) (s : BitVec 2)
  /-- `RED_EXCH_SCOPE` (R155). -/
  | redExchScope (g : Guard) (d : Code) (a : Code) (w : BitVec 1) (s : BitVec 2)
  /-- `RED_CAS_SCOPE` (R155). -/
  | redCasScope (g : Guard) (d : Code) (a : Code) (w : BitVec 1) (s : BitVec 2)
  /-- `RED_INCW_SCOPE` (R155). -/
  | redIncwScope (g : Guard) (d : Code) (a : Code) (w : BitVec 1) (s : BitVec 2)
  /-- `FENCE_CORE` (R174). -/
  | fenceCore (g : Guard)
  /-- `FENCE_DIE` (R174). -/
  | fenceDie (g : Guard)
  /-- `FENCE_PKG` (R174). -/
  | fencePkg (g : Guard)
  /-- `FENCE_SYS` (R174). -/
  | fenceSys (g : Guard)
  /-- `FENCE_ORF` (R174). -/
  | fenceOrf (g : Guard)
  /-- `FENCE_TFENCE` (R174). -/
  | fenceTfence (g : Guard)
  /-- `LDU` (R105). -/
  | ldu (g : Guard) (d : Code) (a : Code) (k : BitVec 4) (o : BitVec 4)
  /-- `BARI` (R201). -/
  | bari (g : Guard) (a : Code) (b : BitVec 4)
  /-- `BARA` (R202). -/
  | bara (g : Guard) (d : Code) (a : Code) (b : BitVec 4)
  /-- `BARW` (R203). -/
  | barw (g : Guard) (n : BitVec 3) (a : Code) (b : BitVec 4)
  /-- `BART` (R204). -/
  | bart (g : Guard) (d : Code) (b : BitVec 4)
  /-- `COLL_POST` (R271). -/
  | collPost (g : Guard) (d : Code) (a : Code)
  /-- `COLL_WAIT` (R272). -/
  | collWait (g : Guard) (d : Code) (a : Code)
  /-- `COLL_STAT` (R272). -/
  | collStat (g : Guard) (d : Code) (a : Code)
  /-- `CFETCH` (R197). -/
  | cfetch (g : Guard) (d : Code) (a : Code)
  /-- `CWAIT` (R197). -/
  | cwait (g : Guard) (a : Code)
  /-- `CDROP` (R197). -/
  | cdrop (g : Guard) (a : Code)
  /-- `BRA` (R193). -/
  | bra (g : Guard) (i : BitVec 22)
  /-- `BRD` (R194). -/
  | brd (g : Guard) (i : BitVec 22)
  /-- `CALL` (R193). -/
  | call (g : Guard) (i : BitVec 22)
  /-- `JMPI` (R195). -/
  | jmpi (g : Guard) (a : Code)
  /-- `CALLI` (R195). -/
  | calli (g : Guard) (d : Code) (a : Code)
  /-- `RET` (R195). -/
  | ret (g : Guard) (a : Code)
  /-- `JMPF` (R193). -/
  | jmpf (g : Guard) (i : BitVec 15)
  /-- `PPRI` (R196). -/
  | ppri (g : Guard) (n : BitVec 4)
  /-- `YIELD` (R190). -/
  | yield (g : Guard)
  /-- `SETEM` (R196). -/
  | setem (g : Guard) (a : Code)
  /-- `GETEM` (R196). -/
  | getem (g : Guard) (d : Code)
  /-- `SPAWN` (R213). -/
  | spawn (g : Guard) (d : Code) (a : Code)
  /-- `BTIME` (R213). -/
  | btime (g : Guard) (a : Code)
  /-- `BFLUSH` (R213). -/
  | bflush (g : Guard)
  /-- `MFSR` (R214). -/
  | mfsr (g : Guard) (d : Code) (n : BitVec 7)
  /-- `MTSR` (R213). -/
  | mtsr (g : Guard) (a : Code)
  /-- `REGQ` (R95). -/
  | regq (g : Guard) (k : BitVec 4)
  /-- `ELECT` (R213). -/
  | elect (g : Guard) (n : BitVec 3)
  /-- `MODSET` (R140). -/
  | modset (g : Guard) (a : Code)
  /-- `FMODE` (R213). -/
  | fmode (g : Guard) (r : BitVec 2)
  /-- `WAITR` (R242). -/
  | waitr (g : Guard) (d : Code)
  /-- `XDONE` (R262). -/
  | xdone (g : Guard) (a : Code)
  /-- `EDONE` (R256). -/
  | edone (g : Guard)
  /-- `CTXB` (R264). -/
  | ctxb (g : Guard) (d : Code)
  /-- `RMASK` (R265). -/
  | rmask (g : Guard) (d : Code) (k : BitVec 4)
  /-- `NOP` (R21). -/
  | nop
  /-- `HIMM` (R23). -/
  | himm (i : BitVec 22)
  /-- `HSTALL` (R27). -/
  | hstall (c : BitVec 21)
  /-- `HRCV` (R24). -/
  | hrcv (o : BitVec 22)
  /-- `HKEEP` (R31). -/
  | hkeep (k : BitVec 7) (j : BitVec 7) (n : BitVec 7)
  /-- `HMOD` (R25). -/
  | hmod (r : BitVec 3) (c : BitVec 3) (l : BitVec 3)
  /-- `LAND` (R192). -/
  | land
  /-- `REGION` (R241). -/
  | region (i : BitVec 10)
  /-- `HSCORE` (R29). -/
  | hscore (m : BitVec 1)
  /-- `LEASE_EXPIRY` (R63). -/
  | leaseExpiry (c : CacheId) (word : Nat)
  /-- `EVICTION` (R58). -/
  | eviction (c : CacheId) (word : Nat)
  /-- `MERGE_AT_HOME` (R66). -/
  | mergeAtHome (c : CacheId) (word : Nat)
  /-- `WAY_GATE` (R71). -/
  | wayGate (c : CacheId) (way : Nat) (words : List Nat)
  /-- `WAY_WAKE` (R73). -/
  | wayWake (u : PowerUnit)
  /-- `BANK_GATE` (R72). -/
  | bankGate (c : CoreId) (bank : Nat)
  /-- `PATROL_SCRUB` (R39). -/
  | patrolScrub (read : Patrol)
  /-- `WALK_COMPLETE` (R48). -/
  | walkComplete (c : CoreId) (world : Nat) (va : DWord)
  /-- `ATS_TRANSLATION_COMPLETION` (R47). -/
  | atsTranslationCompletion (world : Nat) (page : HostPage)
  /-- `ATS_INVALIDATION_REQUEST` (R50); Global Invalidate names no PASID (R51). -/
  | atsInvalidationRequest (pasid : Option (BitVec 20)) (range : Option (Nat × Nat))
  /-- `DEVICE_INVALIDATION` (R50). -/
  | deviceInvalidation (world : Nat) (range : Option (Nat × Nat))
  /-- `INVALIDATION_COMPLETION` (R50). -/
  | invalidationCompletion (id : Nat)
  /-- `PRG_RESPONSE` (R52). -/
  | prgResponse (id : Nat) (answer : PrgAnswer)
  /-- `PAGE_REQUEST_TIMEOUT` (R52). -/
  | pageRequestTimeout (id : Nat)
  /-- `SNPINV` (R266). -/
  | snpinv (line : Nat) (written : Option (BitVec 512))
  /-- `SNPDATA` (R266). -/
  | snpdata (line : Nat)
  /-- `SNPCUR` (R266). -/
  | snpcur (line : Nat)
  /-- `OWNERSHIP_GRANT` (R69). -/
  | ownershipGrant (line : Nat)
  /-- `BACK_INVALIDATE_RESPONSE` (R70). -/
  | backInvalidateResponse (line : Nat) (data : Option (BitVec 512))
  /-- `HOST_HDM_ACCESS` (R263). -/
  | hostHdmAccess (pa : Nat) (store : Option Byte) (holds : Bool)
  /-- `TILE_FILL_COMPLETE` (R85). -/
  | tileFillComplete (q : QuadId) (op : Nat)
  /-- `TILE_DRAIN_COMPLETE` (R89). -/
  | tileDrainComplete (q : QuadId) (op : Nat)
  /-- `TRANSFER_FATAL_FAULT` (R90). -/
  | transferFatalFault (q : QuadId) (op : Nat) (code : Byte)
  /-- `PASS_GRANT` (R139). -/
  | passGrant (q : QuadId)
  /-- `BAND_RISE` (R139). -/
  | bandRise (q : QuadId) (entry : Nat)
  /-- `OPERATION_RETIRE` (R145). -/
  | operationRetire (q : QuadId)
  /-- `SLOT_RELEASE` (R138). -/
  | slotRelease (q : QuadId) (slot : Nat)
  /-- `SEGMENT_LANDED` (R197). -/
  | segmentLanded (c : CoreId) (slot : Nat)
  /-- `WORKGROUP_PLACEMENT` (R210). -/
  | workgroupPlacement (launch : Nat)
  /-- `NEIGHBOURHOOD_PLACEMENT` (R211). -/
  | neighbourhoodPlacement (launch : Nat)
  /-- `BIN_TIMER_EXPIRY` (R212). -/
  | binTimerExpiry (c : CoreId) (bin : Nat)
  /-- `BIN_LAUNCH` (R212). -/
  | binLaunch (c : CoreId) (bin : Nat)
  /-- `REGQ_GROW_GRANT` (R95). -/
  | regqGrowGrant (c : CoreId)
  /-- `ISSUE_AGE_BOOST` (R215). -/
  | issueAgeBoost (k : Key) (slot1 : Bool)
  /-- `WITHHOLD_EXEMPTION` (R216). -/
  | withholdExemption (k : Key) (slot1 : Bool)
  /-- `YIELD_EXPIRY` (R190). -/
  | yieldExpiry (k : Key) (slot1 : Bool)
  /-- `QUAD_POOL_REASSIGN` (R216). -/
  | quadPoolReassign (q : QuadId) (cls : OpClass) (rate : Nat)
  /-- `DOORBELL` (R264). -/
  | doorbell (q : QueueId)
  /-- `QUEUE_POLL` (R223). -/
  | queuePoll (q : QueueId)
  /-- `KERNEL` (R224). -/
  | kernel (q : QueueId)
  /-- `COPY` (R224). -/
  | copy (q : QueueId)
  /-- `BARRIER` (R224). -/
  | barrier (q : QueueId)
  /-- `SIGNAL` (R224). -/
  | signal (q : QueueId)
  /-- `MARKER` (R224). -/
  | marker (q : QueueId)
  /-- `KERNEL_COMPLETION` (R224). -/
  | kernelCompletion (launch : Nat)
  /-- `COPY_COMPLETION` (R224). -/
  | copyCompletion (q : QueueId) (pidx : Nat)
  /-- `BARRIER_SIGNAL_REREAD` (R224). -/
  | barrierSignalReread (q : QueueId) (pidx : Nat)
  /-- `QUEUE_CREATE` (R219). -/
  | queueCreate (q : QueueId) (r : BitVec 512)
  /-- `QUEUE_DESTROY` (R225). -/
  | queueDestroy (q : QueueId)
  /-- `REPLICA_INVALIDATION_ACK` (R220). -/
  | replicaInvalidationAck (q : QueueId) (die : Nat)
  /-- `HELD_RECORD_WRITE` (R227). -/
  | heldRecordWrite (q : QueueId)
  /-- `ANSWER_RESUME` (R228). -/
  | answerResume (q : QueueId) (n : Nat)
  /-- `ANSWER_SKIP` (R228). -/
  | answerSkip (q : QueueId) (n : Nat)
  /-- `ANSWER_ABORT` (R228). -/
  | answerAbort (q : QueueId) (n : Nat)
  /-- `TEARDOWN` (R238). -/
  | teardown (world : Nat)
  /-- `TEARDOWN_SCRUB` (R238). -/
  | teardownScrub (world : Nat)
  /-- `TEARDOWN_CORE_HALT` (R238). -/
  | teardownCoreHalt (world : Nat)
  /-- `HANG` (R239). -/
  | hang (q : QueueId) (pidx : Nat)
  /-- `PREEMPT_IMMEDIATE` (R246). -/
  | preemptImmediate (part : Nat)
  /-- `PREEMPT_BOUNDARY` (R245). -/
  | preemptBoundary (part : Nat)
  /-- `EXIT_ROUTINE_ENTRY` (R248). -/
  | exitRoutineEntry (k : Key)
  /-- `EXIT_ROUTINE_OVERRUN` (R250). -/
  | exitRoutineOverrun (k : Key)
  /-- `HALT_AND_DRAIN` (R246). -/
  | haltAndDrain (part : Nat)
  /-- `SWAP` (R253). -/
  | swap (part : Nat)
  /-- `RESUMPTION` (R254). -/
  | resumption (image : Nat) (quads : List (Nat × Nat))
  /-- `IMAGE_MOVE` (R253). -/
  | imageMove (image : Nat)
  /-- `PROMOTION_REQUEST` (R178). -/
  | promotionRequest (c : CoreId)
  /-- `PROMOTION_ACKNOWLEDGE` (R178). -/
  | promotionAcknowledge (c : CoreId)
  /-- `PROMOTION_ACK_RECEIPT` (R178). -/
  | promotionAckReceipt (k : Key) (c : CoreId)
  /-- `PROMOTION_STALL_TIMEOUT` (R181). -/
  | promotionStallTimeout (c : CoreId)
  /-- `COLL_OPERATION_COMPLETE` (R272). -/
  | collOperationComplete (die : Nat) (x : Completion)
  /-- `COLL_NO_PROGRESS` (R273). -/
  | collNoProgress (group : Nat) (rank : Nat)
  /-- `PEER_FAULT` (R273). -/
  | peerFault (group : Nat) (rank : Nat)
  /-- `MERIDIAN_HEARTBEAT` (R278). -/
  | meridianHeartbeat (fabric : Bool) (member : Nat) (beat : Beat)
  /-- `CLAMP` (R280). -/
  | clamp (die : Nat) (limit : Nat)
  /-- `CLAMP_RECEIPT` (R280). -/
  | clampReceipt (fabric : Bool) (member : Nat) (limit : Nat)
  /-- `JOIN` (R281). -/
  | join (member : Nat) (limit : Nat)
  /-- `LEAVE` (R281). -/
  | leave (member : Nat)
  /-- `DROOP` (R275). -/
  | droop (q : QuadId) (ns : Nat)
  /-- `ENERGY_LO_READ` (R276): a read of a register of BAR0, by its offset; that of an energy counter's LO latches. -/
  | energyLoRead (addr : Nat)
  /-- `MONITOR_CTL_WRITE` (R277). -/
  | monitorCtlWrite (die : Nat) (m : Nat) (v : Word)
  /-- `MONITOR_SAMPLE` (R277). -/
  | monitorSample (die : Nat) (m : Nat) (x : Word)
  /-- `REGISTER_WRITE` (R4). -/
  | registerWrite (addr : Nat) (v : Word)
  /-- `NEGOTIATE_ALGORITHMS` (R288). -/
  | negotiateAlgorithms (body : List Byte)
  /-- `GET_CERTIFICATE` (R288). -/
  | getCertificate (slot : Nat)
  /-- `CHALLENGE` (R289). -/
  | challenge (nonce : List Byte)
  /-- `GET_MEASUREMENTS` (R290). -/
  | getMeasurements (index : Nat) (signed : Bool)
  /-- `KEY_EXCHANGE` (R288). -/
  | keyExchange (body : List Byte)
  /-- `FINISH` (R288). -/
  | finish (session : Nat)
  /-- `HEARTBEAT` (R288). -/
  | heartbeat (session : Nat)
  /-- `KEY_UPDATE` (R288). -/
  | keyUpdate (session : Nat)
  /-- `END_SESSION` (R288). -/
  | endSession (session : Nat)
  /-- `DELIVER_SECRET` (R291). -/
  | deliverSecret (session : Nat) (world : Nat) (slot : Nat) (bytes : List Byte)
  /-- `UNSUPPORTED_REQUEST` (R288). -/
  | unsupportedRequest (code : Byte)
  /-- `LOCK_INTERFACE_REQUEST` (R292). -/
  | lockInterfaceRequest (world : Nat)
  /-- `START_INTERFACE_REQUEST` (R292). -/
  | startInterfaceRequest (world : Nat)
  /-- `STOP_INTERFACE_REQUEST` (R294). -/
  | stopInterfaceRequest (world : Nat)
  /-- `FUNCTION_LEVEL_RESET` (R294). -/
  | functionLevelReset (world : Nat)
  /-- `LOCKED_CONFIG_WRITE` (R292). -/
  | lockedConfigWrite (world : Nat)
  /-- `IDE_INTEGRITY_FAILURE` (R292). -/
  | ideIntegrityFailure (world : Nat)
  /-- `WORLD_CREATE` (R285). -/
  | worldCreate (world : Nat) (w : WorldConfig)
  /-- `OWNERSHIP_TABLE_WRITE` (R286). -/
  | ownershipTableWrite (granule : Nat) (what : GranuleWrite)
  /-- `POWER_ON` (R295). -/
  | powerOn (flash : BootImage) (cfg : BootConfig)
  /-- `RECOVERY_IMAGE` (R295). -/
  | recoveryImage (img : BootImage)
  /-- `RESERVED_ENCODING` (R33). -/
  | reservedEncoding (w : Word)
  /-- `WAIT_UNTIL_PACKAGE_TIME_PASSES` (R162). -/
  | waitUntilPackageTimePasses (t : Nat)
  /-- `ACCESS_COMPLETE` (R50). -/
  | accessComplete (id : Nat)
  /-- `SCRUB_COMPLETE` (R284). -/
  | scrubComplete (id : Nat)
  /-- `SURVEY` (R278). -/
  | survey
  /-- `CEILING_APPLY` (R280). -/
  | ceilingApply
  /-- `GET_VERSION` (R288). -/
  | getVersion
  /-- `GET_CAPABILITIES` (R288). -/
  | getCapabilities
  /-- `GET_DIGESTS` (R288). -/
  | getDigests
  /-- `DEBUG_SESSION_CONNECT` (R293). -/
  | debugSessionConnect
  /-- `RECOVERY_COMMIT` (R295). -/
  | recoveryCommit
  deriving DecidableEq, Repr

end Sys2Proof
end

