-- ==== Sys2Proof/Beside.lean ====
section
/-! DEFINITION. The words that the opcode map (R33) defines and the opcode table leaves out. They decode, run and
encode as the table's words do; they stand in a type of their own because Instr holds the table's rows only. -/

namespace Sys2Proof

/-- A word of the opcode map that has no row in the opcode table. Minor and operand fields stand as in the word. -/
inductive Beside where
  /-- CVT, MAJ 0x12: `t` is the target tag (R328). -/
  | cvt (g : Guard) (d a : Code) (t : BitVec 8)
  /-- XLANE, MAJ 0x15: X = 0 PICK, 1 FLIP (R329). -/
  | xlane (g : Guard) (d a b : Code) (x : BitVec 1)
  /-- SLIDE, MAJ 0x16: X = 0 FWD, 1 BWD (R330). -/
  | slide (g : Guard) (d a b : Code) (x : BitVec 1)
  /-- LANEOP, MAJ 0x17, minors 0-9 (R331). -/
  | laneop (g : Guard) (d a : Code) (m : BitVec 4)
  /-- MADDM and MSUBM, MAJ 0x18 (R334). -/
  | maddm (g : Guard) (d a b : Code) (x : BitVec 1)
  /-- MMULM and MMULM.M, MAJ 0x19 (R334). -/
  | mmulm (g : Guard) (d a b : Code) (x : BitVec 1)
  /-- NTTB and NTTB.INV, MAJ 0x1A (R335). -/
  | nttb (g : Guard) (d a b : Code) (x : BitVec 1)
  /-- BFP minors 0-2 (GEXP, SEXP, NORM), MAJ 0x1C, with their I4 (R133 of 08). -/
  | bfp (g : Guard) (d a : Code) (m : BitVec 4) (i : BitVec 4)
  /-- ST, MAJ 0x21: width and offset (R326). -/
  | st (g : Guard) (d a : Code) (m : BitVec 4) (o : BitVec 4)
  /-- STS, MAJ 0x23 (R326). -/
  | sts (g : Guard) (d a : Code) (m : BitVec 4) (o : BitVec 4)
  /-- PREF, MAJ 0x29: kind and offset (R327). -/
  | pref (g : Guard) (a : Code) (m : BitVec 4) (o : BitVec 4)
  /-- STU, MAJ 0x2B (R326). -/
  | stu (g : Guard) (d a : Code) (m : BitVec 4) (o : BitVec 4)
  /-- TILE minors 0-7, MAJ 0x2C (R320-R325). -/
  | tile (g : Guard) (d a : Code) (m : BitVec 4) (i : BitVec 4)
  /-- SPOOL minors 0-5, MAJ 0x2D (R347-R350). -/
  | spool (g : Guard) (d a : Code) (m : BitVec 4) (q : BitVec 4)
  /-- MTX minors 0-13, MAJ 0x2F (R336-R345). -/
  | mtx (g : Guard) (d a : Code) (m : BitVec 4) (i : BitVec 4)
  /-- EXIT, MAJ 0x37 (R346). -/
  | exit (g : Guard)
  /-- SYS minors 0, 1 and 3-6 (SYSC, TRAP, ERET, LRD, LWR, SRV), MAJ 0x3B (R237). -/
  | sys (g : Guard) (d a : Code) (m : BitVec 4) (i : BitVec 4)
  deriving DecidableEq, Repr

/-- What a 32-bit word decodes to: a row of the opcode table or a word beside it. -/
inductive Decoded where
  | row (i : Instr)
  | beside (b : Beside)
  deriving DecidableEq, Repr

end Sys2Proof
end

