-- ==== Sys2Proof/Decode.lean ====
section
/-! DEFINITION. The decoder and, after it, the encoder, both written from the encoding tables of the opcode map (R33)
and of each instruction's entry. The decoder is total: a word of no defined encoding is `reservedEncoding`, which the
machine refuses at the legality check (R17, R18). -/

namespace Sys2Proof

/-! ### The fields of a word (R8, R20) -/

/-- MAJ, bits 31:26. -/
def majOf (w : Word) : BitVec 6 := w.extractLsb' 26 6
/-- G, bits 25:22; the kind of a hint word (R20). -/
def gOf (w : Word) : Guard := w.extractLsb' 22 4
/-- D, bits 21:15. -/
def dOf (w : Word) : Code := w.extractLsb' 15 7
/-- A, bits 14:8. -/
def aOf (w : Word) : Code := w.extractLsb' 8 7
/-- B, bits 7:1 (RRR). -/
def bOf (w : Word) : Code := w.extractLsb' 1 7
/-- X, bit 0 (RRR). -/
def xOf (w : Word) : BitVec 1 := w.extractLsb' 0 1
/-- M, bits 7:4 (RRM). -/
def mOf (w : Word) : BitVec 4 := w.extractLsb' 4 4
/-- I4, bits 3:0 (RRM). -/
def i4Of (w : Word) : BitVec 4 := w.extractLsb' 0 4
/-- I of RRI, bits 7:0. -/
def i8Of (w : Word) : BitVec 8 := w.extractLsb' 0 8
/-- I of RI, bits 14:0. -/
def i15Of (w : Word) : BitVec 15 := w.extractLsb' 0 15
/-- I of BR and the payload of a hint, bits 21:0. -/
def i22Of (w : Word) : BitVec 22 := w.extractLsb' 0 22

/-! ### The decoder -/

/-- RRR words with two X variants. -/
def byX (w : Word) (f0 f1 : Guard → Code → Code → Code → Instr) : Decoded :=
  if xOf w = 0 then .row (f0 (gOf w) (dOf w) (aOf w) (bOf w)) else .row (f1 (gOf w) (dOf w) (aOf w) (bOf w))

/-- A row whose remaining condition holds, else a reserved encoding. -/
def rowIf (c : Prop) [Decidable c] (i : Instr) (w : Word) : Decoded :=
  if c then .row i else .row (.reservedEncoding w)

/-- A word beside the table whose remaining condition holds, else a reserved encoding. -/
def besideIf (c : Prop) [Decidable c] (b : Beside) (w : Word) : Decoded :=
  if c then .beside b else .row (.reservedEncoding w)

/-- SHI, MAJ 0x0E: I[7:6] is the kind and I[5:0] the count (R135). -/
def decodeShi (w : Word) : Decoded :=
  let c := w.extractLsb' 0 6
  match (w.extractLsb' 6 2).toNat with
  | 0 => .row (.shiShl (gOf w) (dOf w) (aOf w) c)
  | 1 => .row (.shiShr (gOf w) (dOf w) (aOf w) c)
  | 2 => .row (.shiSar (gOf w) (dOf w) (aOf w) c)
  | _ => .row (.shiRol (gOf w) (dOf w) (aOf w) c)

/-- CMP, MAJ 0x0F: COND in D[21:19], AND in D[18], PD in D[17:15] (R136). -/
def decodeCmp (w : Word) : Decoded :=
  let c := w.extractLsb' 19 3
  let p := w.extractLsb' 15 3
  if xOf w ≠ 0 then .row (.reservedEncoding w)
  else if w.extractLsb' 18 1 = 0 then .row (.cmp (gOf w) c p (aOf w) (bOf w))
  else .row (.cmpAnd (gOf w) c p (aOf w) (bOf w))

/-- UNOP, MAJ 0x11 (R138 of 07). -/
def decodeUnop (w : Word) : Decoded :=
  if i4Of w ≠ 0 then .row (.reservedEncoding w)
  else
    let g := gOf w; let d := dOf w; let a := aOf w
    match (mOf w).toNat with
    | 0 => .row (.neg g d a)
    | 1 => .row (.abs g d a)
    | 2 => .row (.rcp g d a)
    | 3 => .row (.rsq g d a)
    | 4 => .row (.sqrt g d a)
    | 5 => .row (.exp2 g d a)
    | 6 => .row (.log2 g d a)
    | 7 => .row (.floor g d a)
    | 8 => .row (.ceil g d a)
    | 9 => .row (.trunc g d a)
    | 10 => .row (.rint g d a)
    | 11 => .row (.popc g d a)
    | 12 => .row (.clz g d a)
    | 13 => .row (.brev g d a)
    | 14 => .row (.not g d a)
    | _ => .row (.fract g d a)

/-- MOVX, MAJ 0x14 (R143 of 07). -/
def decodeMovx (w : Word) : Decoded :=
  let g := gOf w; let d := dOf w; let a := aOf w; let n := w.extractLsb' 0 3
  match (mOf w).toNat with
  | 0 => rowIf (i4Of w = 0) (.mov g d a) w
  | 1 => rowIf (i4Of w = 0) (.gtag g d a) w
  | 2 => rowIf (i4Of w = 0) (.stag g d a) w
  | 3 => rowIf (a = 0 ∧ w.extractLsb' 3 1 = 0) (.movp g d n) w
  | 4 => rowIf (d = 0 ∧ w.extractLsb' 3 1 = 0) (.pmov g a n) w
  | _ => .row (.reservedEncoding w)

/-- NTTP, MAJ 0x1B (R144 of 08). -/
def decodeNttp (w : Word) : Decoded :=
  match (mOf w).toNat with
  | 0 => .row (.nttpX (gOf w) (dOf w) (aOf w) (i4Of w))
  | 1 => .row (.nttpBr (gOf w) (dOf w) (aOf w) (i4Of w))
  | _ => .row (.reservedEncoding w)

/-- BFP, MAJ 0x1C (R133 of 08). -/
def decodeBfp (w : Word) : Decoded :=
  match (mOf w).toNat with
  | 0 | 1 | 2 => .beside (.bfp (gOf w) (dOf w) (aOf w) (mOf w) (i4Of w))
  | 3 => rowIf (w.extractLsb' 3 1 = 0) (.split (gOf w) (dOf w) (aOf w) (w.extractLsb' 0 3)) w
  | _ => .row (.reservedEncoding w)

/-- LDA, MAJ 0x24: the scope in M[3:1], promote in M[0], W64 in I4[3] (R172 of 11). -/
def decodeLda (w : Word) : Decoded :=
  let g := gOf w; let d := dOf w; let a := aOf w; let w64 := w.extractLsb' 3 1
  if w.extractLsb' 0 3 ≠ 0 ∨ w.extractLsb' 7 1 ≠ 0 then .row (.reservedEncoding w)
  else if w.extractLsb' 4 1 = 0 then .row (.lda g d a (w.extractLsb' 5 2) w64)
  else rowIf (w.extractLsb' 6 1 = 1) (.ldaP g d a (w.extractLsb' 5 1) w64) w

/-- STL, MAJ 0x25 (R173 of 11). -/
def decodeStl (w : Word) : Decoded :=
  rowIf (w.extractLsb' 0 3 = 0 ∧ w.extractLsb' 7 1 = 0 ∧ w.extractLsb' 4 1 = 0)
    (.stl (gOf w) (dOf w) (aOf w) (w.extractLsb' 5 2) (w.extractLsb' 3 1)) w

/-- ATOM, MAJ 0x26 (R152, R153). -/
def decodeAtom (w : Word) : Decoded :=
  let g := gOf w; let d := dOf w; let a := aOf w; let w64 := w.extractLsb' 3 1; let s := w.extractLsb' 0 2
  if w.extractLsb' 2 1 ≠ 0 then .row (.reservedEncoding w)
  else match (mOf w).toNat with
  | 0 => .row (.atomAdd g d a w64 s)
  | 1 => .row (.atomMin g d a w64 s)
  | 2 => .row (.atomMax g d a w64 s)
  | 3 => .row (.atomAnd g d a w64 s)
  | 4 => .row (.atomOr g d a w64 s)
  | 5 => .row (.atomXor g d a w64 s)
  | 6 => .row (.atomExch g d a w64 s)
  | 7 => .row (.atomCas g d a w64 s)
  | 8 => .row (.atomIncw g d a w64 s)
  | _ => .row (.reservedEncoding w)

/-- RED, MAJ 0x27 (R152, R153). -/
def decodeRed (w : Word) : Decoded :=
  let g := gOf w; let d := dOf w; let a := aOf w; let w64 := w.extractLsb' 3 1; let s := w.extractLsb' 0 2
  if w.extractLsb' 2 1 ≠ 0 then .row (.reservedEncoding w)
  else match (mOf w).toNat with
  | 0 => .row (.redAddScope g d a w64 s)
  | 1 => .row (.redMinScope g d a w64 s)
  | 2 => .row (.redMaxScope g d a w64 s)
  | 3 => .row (.redAndScope g d a w64 s)
  | 4 => .row (.redOrScope g d a w64 s)
  | 5 => .row (.redXorScope g d a w64 s)
  | 6 => .row (.redExchScope g d a w64 s)
  | 7 => .row (.redCasScope g d a w64 s)
  | 8 => .row (.redIncwScope g d a w64 s)
  | _ => .row (.reservedEncoding w)

/-- FENCE, MAJ 0x28: D, A and I4 are zero (R174 of 11). -/
def decodeFence (w : Word) : Decoded :=
  if dOf w ≠ 0 ∨ aOf w ≠ 0 ∨ i4Of w ≠ 0 then .row (.reservedEncoding w)
  else match (mOf w).toNat with
  | 0 => .row (.fenceCore (gOf w))
  | 1 => .row (.fenceDie (gOf w))
  | 2 => .row (.fencePkg (gOf w))
  | 3 => .row (.fenceSys (gOf w))
  | 4 => .row (.fenceOrf (gOf w))
  | 5 => .row (.fenceTfence (gOf w))
  | _ => .row (.reservedEncoding w)

/-- BAR, MAJ 0x2E (R200). -/
def decodeBar (w : Word) : Decoded :=
  let g := gOf w; let d := dOf w; let a := aOf w; let b := i4Of w
  match (mOf w).toNat with
  | 0 => rowIf (d = 0) (.bari g a b) w
  | 1 => .row (.bara g d a b)
  | 2 => rowIf (w.extractLsb' 18 4 = 0) (.barw g (w.extractLsb' 15 3) a b) w
  | 3 => rowIf (a = 0) (.bart g d b) w
  | _ => .row (.reservedEncoding w)

/-- COLL, MAJ 0x30 (R268). -/
def decodeColl (w : Word) : Decoded :=
  let g := gOf w; let d := dOf w; let a := aOf w
  if i4Of w ≠ 0 then .row (.reservedEncoding w)
  else match (mOf w).toNat with
  | 0 => .row (.collPost g d a)
  | 1 => .row (.collWait g d a)
  | 2 => .row (.collStat g d a)
  | _ => .row (.reservedEncoding w)

/-- CODE, MAJ 0x31 (R197). -/
def decodeCode (w : Word) : Decoded :=
  let g := gOf w; let d := dOf w; let a := aOf w
  if i4Of w ≠ 0 then .row (.reservedEncoding w)
  else match (mOf w).toNat with
  | 0 => .row (.cfetch g d a)
  | 1 => rowIf (d = 0) (.cwait g a) w
  | 2 => rowIf (d = 0) (.cdrop g a) w
  | _ => .row (.reservedEncoding w)

/-- JMPI, CALLI, RET, MAJ 0x35 (R194 of 13). -/
def decodeJmpi (w : Word) : Decoded :=
  let g := gOf w; let d := dOf w; let a := aOf w
  if i4Of w ≠ 0 then .row (.reservedEncoding w)
  else match (mOf w).toNat with
  | 0 => rowIf (d = 0) (.jmpi g a) w
  | 1 => .row (.calli g d a)
  | 2 => rowIf (d = 0) (.ret g a) w
  | _ => .row (.reservedEncoding w)

/-- PATH, MAJ 0x38 (R196). -/
def decodePath (w : Word) : Decoded :=
  let g := gOf w; let d := dOf w; let a := aOf w
  match (mOf w).toNat with
  | 0 => rowIf (d = 0 ∧ a = 0) (.ppri g (i4Of w)) w
  | 1 => rowIf (d = 0 ∧ a = 0 ∧ i4Of w = 0) (.yield g) w
  | 2 => rowIf (d = 0 ∧ i4Of w = 0) (.setem g a) w
  | 3 => rowIf (a = 0 ∧ i4Of w = 0) (.getem g d) w
  | _ => .row (.reservedEncoding w)

/-- SPAWN, MAJ 0x39 (R213). -/
def decodeSpawn (w : Word) : Decoded :=
  let g := gOf w; let d := dOf w; let a := aOf w
  if i4Of w ≠ 0 then .row (.reservedEncoding w)
  else match (mOf w).toNat with
  | 0 => .row (.spawn g d a)
  | 1 => rowIf (d = 0) (.btime g a) w
  | 2 => rowIf (d = 0 ∧ a = 0) (.bflush g) w
  | _ => .row (.reservedEncoding w)

/-- GRP, MAJ 0x3A (R213, R140 of 08). MFSR's A holds the special register's number, MTSR's D is 10. -/
def decodeGrp (w : Word) : Decoded :=
  let g := gOf w; let d := dOf w; let a := aOf w
  match (mOf w).toNat with
  | 0 => rowIf (i4Of w = 0) (.mfsr g d a) w
  | 1 => rowIf (d = 10 ∧ i4Of w = 0) (.mtsr g a) w
  | 2 => rowIf (d = 0 ∧ a = 0) (.regq g (i4Of w)) w
  | 3 => rowIf (w.extractLsb' 18 4 = 0 ∧ a = 0 ∧ i4Of w = 0) (.elect g (w.extractLsb' 15 3)) w
  | 4 => rowIf (d = 0 ∧ i4Of w = 0) (.modset g a) w
  | 5 => rowIf (d = 0 ∧ a = 0 ∧ w.extractLsb' 2 2 = 0) (.fmode g (w.extractLsb' 0 2)) w
  | _ => .row (.reservedEncoding w)

/-- SYS, MAJ 0x3B (R237): WAITR is a row of the table, the other minors stand beside it. -/
def decodeSys (w : Word) : Decoded :=
  let g := gOf w; let d := dOf w; let a := aOf w
  match (mOf w).toNat with
  | 0 | 1 | 3 | 4 | 5 | 6 => .beside (.sys g d a (mOf w) (i4Of w))
  | 2 => rowIf (a = 0 ∧ i4Of w = 0) (.waitr g d) w
  | _ => .row (.reservedEncoding w)

/-- CTX, MAJ 0x3C (R261). -/
def decodeCtx (w : Word) : Decoded :=
  let g := gOf w; let d := dOf w; let a := aOf w
  match (mOf w).toNat with
  | 0 => rowIf (d = 0 ∧ i4Of w = 0) (.xdone g a) w
  | 1 => rowIf (d = 0 ∧ a = 0 ∧ i4Of w = 0) (.edone g) w
  | 2 => rowIf (a = 0 ∧ i4Of w = 0) (.ctxb g d) w
  | 3 => rowIf (a = 0) (.rmask g d (i4Of w)) w
  | _ => .row (.reservedEncoding w)

/-- Hint words, MAJ 0x3F: kind in bits 25:22, payload below (R20, R21). -/
def decodeHint (w : Word) : Decoded :=
  let p := i22Of w
  match (gOf w).toNat with
  | 0 => rowIf (p = 0) .nop w
  | 1 => .row (.himm p)
  | 2 => rowIf (w.extractLsb' 21 1 = 0) (.hstall (w.extractLsb' 0 21)) w
  | 3 => .row (.hrcv p)
  | 4 => rowIf (w.extractLsb' 21 1 = 0) (.hkeep (w.extractLsb' 14 7) (w.extractLsb' 7 7) (w.extractLsb' 0 7)) w
  | 5 => rowIf (w.extractLsb' 0 13 = 0) (.hmod (w.extractLsb' 19 3) (w.extractLsb' 16 3) (w.extractLsb' 13 3)) w
  | 6 => rowIf (p = 0) .land w
  | 7 => rowIf (w.extractLsb' 10 12 = 0) (.region (w.extractLsb' 0 10)) w
  | 8 => rowIf (w.extractLsb' 1 21 = 0) (.hscore (w.extractLsb' 0 1)) w
  | _ => .row (.reservedEncoding w)

/-- The decoder, by major opcode (R33). -/
def decodeWord (w : Word) : Decoded :=
  let g := gOf w; let d := dOf w; let a := aOf w; let b := bOf w
  match (majOf w).toNat with
  | 0x00 => .row (.zero g (i22Of w))
  | 0x01 => byX w .add .addSat
  | 0x02 => byX w .sub .subSat
  | 0x03 => byX w .mul .mulHi
  | 0x04 => byX w .fma .fmaNeg
  | 0x05 => byX w .min .minNan
  | 0x06 => byX w .max .maxNan
  | 0x07 => .row (.addi g d a (i8Of w))
  | 0x08 => .row (.muli g d a (i8Of w))
  | 0x09 => byX w .and .andn
  | 0x0A => byX w .or .orn
  | 0x0B => byX w .xor .xnor
  | 0x0C => byX w .shl .rol
  | 0x0D => byX w .shr .sar
  | 0x0E => decodeShi w
  | 0x0F => decodeCmp w
  | 0x10 => rowIf (xOf w = 0) (.sel g d a b) w
  | 0x11 => decodeUnop w
  | 0x12 => .beside (.cvt g d a (i8Of w))
  | 0x13 => .row (.movi g d (i15Of w))
  | 0x14 => decodeMovx w
  | 0x15 => .beside (.xlane g d a b (xOf w))
  | 0x16 => .beside (.slide g d a b (xOf w))
  | 0x17 => besideIf (i4Of w = 0 ∧ (mOf w).toNat < 10) (.laneop g d a (mOf w)) w
  | 0x18 => .beside (.maddm g d a b (xOf w))
  | 0x19 => .beside (.mmulm g d a b (xOf w))
  | 0x1A => .beside (.nttb g d a b (xOf w))
  | 0x1B => decodeNttp w
  | 0x1C => decodeBfp w
  | 0x20 => .row (.ld g d a (mOf w) (i4Of w))
  | 0x21 => besideIf ((mOf w).toNat < 5) (.st g d a (mOf w) (i4Of w)) w
  | 0x22 => .row (.lds g d a (mOf w) (i4Of w))
  | 0x23 => besideIf ((mOf w).toNat < 5) (.sts g d a (mOf w) (i4Of w)) w
  | 0x24 => decodeLda w
  | 0x25 => decodeStl w
  | 0x26 => decodeAtom w
  | 0x27 => decodeRed w
  | 0x28 => decodeFence w
  | 0x29 => besideIf (d = 0 ∧ (mOf w).toNat < 4) (.pref g a (mOf w) (i4Of w)) w
  | 0x2A => .row (.ldu g d a (mOf w) (i4Of w))
  | 0x2B => besideIf ((mOf w).toNat < 5) (.stu g d a (mOf w) (i4Of w)) w
  | 0x2C => besideIf ((mOf w).toNat < 8) (.tile g d a (mOf w) (i4Of w)) w
  | 0x2D => besideIf ((mOf w).toNat < 6) (.spool g d a (mOf w) (i4Of w)) w
  | 0x2E => decodeBar w
  | 0x2F => besideIf ((mOf w).toNat < 14) (.mtx g d a (mOf w) (i4Of w)) w
  | 0x30 => decodeColl w
  | 0x31 => decodeCode w
  | 0x32 => .row (.bra g (i22Of w))
  | 0x33 => .row (.brd g (i22Of w))
  | 0x34 => .row (.call g (i22Of w))
  | 0x35 => decodeJmpi w
  | 0x36 => rowIf (w.extractLsb' 15 7 = 0) (.jmpf g (i15Of w)) w
  | 0x37 => besideIf (i22Of w = 0) (.exit g) w
  | 0x38 => decodePath w
  | 0x39 => decodeSpawn w
  | 0x3A => decodeGrp w
  | 0x3B => decodeSys w
  | 0x3C => decodeCtx w
  | 0x3F => decodeHint w
  | _ => .row (.reservedEncoding w)

/-- The instruction of a word as the opcode table numbers its bits. A word of another length, and a word that has no
row in the table, gives none. -/
def decodeTableWord (nbits w : Nat) : Option Instr :=
  if nbits = 32 then
    match decodeWord (BitVec.ofNat 32 w) with
    | .row (.reservedEncoding _) => none
    | .row i => some i
    | .beside _ => none
  else none

/-! ### The encoder -/

/-- RRR (R8). -/
def packRRR (maj : BitVec 6) (g : Guard) (d a b : Code) (x : BitVec 1) : Word := maj ++ g ++ d ++ a ++ b ++ x
/-- RRI (R8). -/
def packRRI (maj : BitVec 6) (g : Guard) (d a : Code) (i : BitVec 8) : Word := maj ++ g ++ d ++ a ++ i
/-- RRM (R8). -/
def packRRM (maj : BitVec 6) (g : Guard) (d a : Code) (m i : BitVec 4) : Word := maj ++ g ++ d ++ a ++ m ++ i
/-- RI (R8). -/
def packRI (maj : BitVec 6) (g : Guard) (d : Code) (i : BitVec 15) : Word := maj ++ g ++ d ++ i
/-- BR (R8) and hint words (R20). -/
def packBR (maj : BitVec 6) (g : Guard) (i : BitVec 22) : Word := maj ++ g ++ i

/-- The word of an instruction; an event has none, and a reserved encoding is its own word. -/
def encode : Instr → Option Word
  | .zero g x => some (packBR 0x00 g x)
  | .add g d a b => some (packRRR 0x01 g d a b 0)
  | .addSat g d a b => some (packRRR 0x01 g d a b 1)
  | .sub g d a b => some (packRRR 0x02 g d a b 0)
  | .subSat g d a b => some (packRRR 0x02 g d a b 1)
  | .mul g d a b => some (packRRR 0x03 g d a b 0)
  | .mulHi g d a b => some (packRRR 0x03 g d a b 1)
  | .fma g d a b => some (packRRR 0x04 g d a b 0)
  | .fmaNeg g d a b => some (packRRR 0x04 g d a b 1)
  | .min g d a b => some (packRRR 0x05 g d a b 0)
  | .minNan g d a b => some (packRRR 0x05 g d a b 1)
  | .max g d a b => some (packRRR 0x06 g d a b 0)
  | .maxNan g d a b => some (packRRR 0x06 g d a b 1)
  | .addi g d a i => some (packRRI 0x07 g d a i)
  | .muli g d a i => some (packRRI 0x08 g d a i)
  | .and g d a b => some (packRRR 0x09 g d a b 0)
  | .andn g d a b => some (packRRR 0x09 g d a b 1)
  | .or g d a b => some (packRRR 0x0A g d a b 0)
  | .orn g d a b => some (packRRR 0x0A g d a b 1)
  | .xor g d a b => some (packRRR 0x0B g d a b 0)
  | .xnor g d a b => some (packRRR 0x0B g d a b 1)
  | .shl g d a b => some (packRRR 0x0C g d a b 0)
  | .rol g d a b => some (packRRR 0x0C g d a b 1)
  | .shr g d a b => some (packRRR 0x0D g d a b 0)
  | .sar g d a b => some (packRRR 0x0D g d a b 1)
  | .shiShl g d a c => some (packRRI 0x0E g d a (0#2 ++ c))
  | .shiShr g d a c => some (packRRI 0x0E g d a (1#2 ++ c))
  | .shiSar g d a c => some (packRRI 0x0E g d a (2#2 ++ c))
  | .shiRol g d a c => some (packRRI 0x0E g d a (3#2 ++ c))
  | .cmp g c p a b => some (packRRR 0x0F g (c ++ 0#1 ++ p) a b 0)
  | .cmpAnd g c p a b => some (packRRR 0x0F g (c ++ 1#1 ++ p) a b 0)
  | .sel g d a b => some (packRRR 0x10 g d a b 0)
  | .neg g d a => some (packRRM 0x11 g d a 0 0)
  | .abs g d a => some (packRRM 0x11 g d a 1 0)
  | .rcp g d a => some (packRRM 0x11 g d a 2 0)
  | .rsq g d a => some (packRRM 0x11 g d a 3 0)
  | .sqrt g d a => some (packRRM 0x11 g d a 4 0)
  | .exp2 g d a => some (packRRM 0x11 g d a 5 0)
  | .log2 g d a => some (packRRM 0x11 g d a 6 0)
  | .floor g d a => some (packRRM 0x11 g d a 7 0)
  | .ceil g d a => some (packRRM 0x11 g d a 8 0)
  | .trunc g d a => some (packRRM 0x11 g d a 9 0)
  | .rint g d a => some (packRRM 0x11 g d a 10 0)
  | .popc g d a => some (packRRM 0x11 g d a 11 0)
  | .clz g d a => some (packRRM 0x11 g d a 12 0)
  | .brev g d a => some (packRRM 0x11 g d a 13 0)
  | .not g d a => some (packRRM 0x11 g d a 14 0)
  | .fract g d a => some (packRRM 0x11 g d a 15 0)
  | .movi g d i => some (packRI 0x13 g d i)
  | .mov g d a => some (packRRM 0x14 g d a 0 0)
  | .gtag g d a => some (packRRM 0x14 g d a 1 0)
  | .stag g d a => some (packRRM 0x14 g d a 2 0)
  | .movp g d n => some (packRRM 0x14 g d 0 3 (0#1 ++ n))
  | .pmov g a n => some (packRRM 0x14 g 0 a 4 (0#1 ++ n))
  | .nttpX g d a k => some (packRRM 0x1B g d a 0 k)
  | .nttpBr g d a k => some (packRRM 0x1B g d a 1 k)
  | .split g d a j => some (packRRM 0x1C g d a 3 (0#1 ++ j))
  | .ld g d a k o => some (packRRM 0x20 g d a k o)
  | .lds g d a k o => some (packRRM 0x22 g d a k o)
  | .lda g d a s w => some (packRRM 0x24 g d a (0#1 ++ s ++ 0#1) (w ++ 0#3))
  | .ldaP g d a s w => some (packRRM 0x24 g d a (1#2 ++ s ++ 1#1) (w ++ 0#3))
  | .stl g d a s w => some (packRRM 0x25 g d a (0#1 ++ s ++ 0#1) (w ++ 0#3))
  | .atomAdd g d a w s => some (packRRM 0x26 g d a 0 (w ++ 0#1 ++ s))
  | .atomMin g d a w s => some (packRRM 0x26 g d a 1 (w ++ 0#1 ++ s))
  | .atomMax g d a w s => some (packRRM 0x26 g d a 2 (w ++ 0#1 ++ s))
  | .atomAnd g d a w s => some (packRRM 0x26 g d a 3 (w ++ 0#1 ++ s))
  | .atomOr g d a w s => some (packRRM 0x26 g d a 4 (w ++ 0#1 ++ s))
  | .atomXor g d a w s => some (packRRM 0x26 g d a 5 (w ++ 0#1 ++ s))
  | .atomExch g d a w s => some (packRRM 0x26 g d a 6 (w ++ 0#1 ++ s))
  | .atomCas g d a w s => some (packRRM 0x26 g d a 7 (w ++ 0#1 ++ s))
  | .atomIncw g d a w s => some (packRRM 0x26 g d a 8 (w ++ 0#1 ++ s))
  | .redAddScope g d a w s => some (packRRM 0x27 g d a 0 (w ++ 0#1 ++ s))
  | .redMinScope g d a w s => some (packRRM 0x27 g d a 1 (w ++ 0#1 ++ s))
  | .redMaxScope g d a w s => some (packRRM 0x27 g d a 2 (w ++ 0#1 ++ s))
  | .redAndScope g d a w s => some (packRRM 0x27 g d a 3 (w ++ 0#1 ++ s))
  | .redOrScope g d a w s => some (packRRM 0x27 g d a 4 (w ++ 0#1 ++ s))
  | .redXorScope g d a w s => some (packRRM 0x27 g d a 5 (w ++ 0#1 ++ s))
  | .redExchScope g d a w s => some (packRRM 0x27 g d a 6 (w ++ 0#1 ++ s))
  | .redCasScope g d a w s => some (packRRM 0x27 g d a 7 (w ++ 0#1 ++ s))
  | .redIncwScope g d a w s => some (packRRM 0x27 g d a 8 (w ++ 0#1 ++ s))
  | .fenceCore g => some (packRRM 0x28 g 0 0 0 0)
  | .fenceDie g => some (packRRM 0x28 g 0 0 1 0)
  | .fencePkg g => some (packRRM 0x28 g 0 0 2 0)
  | .fenceSys g => some (packRRM 0x28 g 0 0 3 0)
  | .fenceOrf g => some (packRRM 0x28 g 0 0 4 0)
  | .fenceTfence g => some (packRRM 0x28 g 0 0 5 0)
  | .ldu g d a k o => some (packRRM 0x2A g d a k o)
  | .bari g a b => some (packRRM 0x2E g 0 a 0 b)
  | .bara g d a b => some (packRRM 0x2E g d a 1 b)
  | .barw g n a b => some (packRRM 0x2E g (0#4 ++ n) a 2 b)
  | .bart g d b => some (packRRM 0x2E g d 0 3 b)
  | .collPost g d a => some (packRRM 0x30 g d a 0 0)
  | .collWait g d a => some (packRRM 0x30 g d a 1 0)
  | .collStat g d a => some (packRRM 0x30 g d a 2 0)
  | .cfetch g d a => some (packRRM 0x31 g d a 0 0)
  | .cwait g a => some (packRRM 0x31 g 0 a 1 0)
  | .cdrop g a => some (packRRM 0x31 g 0 a 2 0)
  | .bra g i => some (packBR 0x32 g i)
  | .brd g i => some (packBR 0x33 g i)
  | .call g i => some (packBR 0x34 g i)
  | .jmpi g a => some (packRRM 0x35 g 0 a 0 0)
  | .calli g d a => some (packRRM 0x35 g d a 1 0)
  | .ret g a => some (packRRM 0x35 g 0 a 2 0)
  | .jmpf g i => some (packRI 0x36 g 0 i)
  | .ppri g n => some (packRRM 0x38 g 0 0 0 n)
  | .yield g => some (packRRM 0x38 g 0 0 1 0)
  | .setem g a => some (packRRM 0x38 g 0 a 2 0)
  | .getem g d => some (packRRM 0x38 g d 0 3 0)
  | .spawn g d a => some (packRRM 0x39 g d a 0 0)
  | .btime g a => some (packRRM 0x39 g 0 a 1 0)
  | .bflush g => some (packRRM 0x39 g 0 0 2 0)
  | .mfsr g d n => some (packRRM 0x3A g d n 0 0)
  | .mtsr g a => some (packRRM 0x3A g 10 a 1 0)
  | .regq g k => some (packRRM 0x3A g 0 0 2 k)
  | .elect g n => some (packRRM 0x3A g (0#4 ++ n) 0 3 0)
  | .modset g a => some (packRRM 0x3A g 0 a 4 0)
  | .fmode g r => some (packRRM 0x3A g 0 0 5 (0#2 ++ r))
  | .waitr g d => some (packRRM 0x3B g d 0 2 0)
  | .xdone g a => some (packRRM 0x3C g 0 a 0 0)
  | .edone g => some (packRRM 0x3C g 0 0 1 0)
  | .ctxb g d => some (packRRM 0x3C g d 0 2 0)
  | .rmask g d k => some (packRRM 0x3C g d 0 3 k)
  | .nop => some (packBR 0x3F 0 0)
  | .himm i => some (packBR 0x3F 1 i)
  | .hstall c => some (packBR 0x3F 2 (0#1 ++ c))
  | .hrcv o => some (packBR 0x3F 3 o)
  | .hkeep k j n => some (packBR 0x3F 4 (0#1 ++ k ++ j ++ n))
  | .hmod r c l => some (packBR 0x3F 5 (r ++ c ++ l ++ 0#13))
  | .land => some (packBR 0x3F 6 0)
  | .region i => some (packBR 0x3F 7 (0#12 ++ i))
  | .hscore m => some (packBR 0x3F 8 (0#21 ++ m))
  | .reservedEncoding w => some w
  | .leaseExpiry _ _ => none
  | .eviction _ _ => none
  | .mergeAtHome _ _ => none
  | .wayGate _ _ _ => none
  | .wayWake _ => none
  | .bankGate _ _ => none
  | .patrolScrub _ => none
  | .walkComplete _ _ _ => none
  | .atsTranslationCompletion _ _ => none
  | .atsInvalidationRequest _ _ => none
  | .deviceInvalidation _ _ => none
  | .invalidationCompletion _ => none
  | .prgResponse _ _ => none
  | .pageRequestTimeout _ => none
  | .snpinv _ _ => none
  | .snpdata _ => none
  | .snpcur _ => none
  | .ownershipGrant _ => none
  | .backInvalidateResponse _ _ => none
  | .hostHdmAccess _ _ _ => none
  | .tileFillComplete _ _ => none
  | .tileDrainComplete _ _ => none
  | .transferFatalFault _ _ _ => none
  | .passGrant _ => none
  | .bandRise _ _ => none
  | .operationRetire _ => none
  | .slotRelease _ _ => none
  | .segmentLanded _ _ => none
  | .workgroupPlacement _ => none
  | .neighbourhoodPlacement _ => none
  | .binTimerExpiry _ _ => none
  | .binLaunch _ _ => none
  | .regqGrowGrant _ => none
  | .issueAgeBoost _ _ => none
  | .withholdExemption _ _ => none
  | .yieldExpiry _ _ => none
  | .quadPoolReassign _ _ _ => none
  | .doorbell _ => none
  | .queuePoll _ => none
  | .kernel _ => none
  | .copy _ => none
  | .barrier _ => none
  | .signal _ => none
  | .marker _ => none
  | .kernelCompletion _ => none
  | .copyCompletion _ _ => none
  | .barrierSignalReread _ _ => none
  | .queueCreate _ _ => none
  | .queueDestroy _ => none
  | .replicaInvalidationAck _ _ => none
  | .heldRecordWrite _ => none
  | .answerResume _ _ => none
  | .answerSkip _ _ => none
  | .answerAbort _ _ => none
  | .teardown _ => none
  | .teardownScrub _ => none
  | .teardownCoreHalt _ => none
  | .hang _ _ => none
  | .preemptImmediate _ => none
  | .preemptBoundary _ => none
  | .exitRoutineEntry _ => none
  | .exitRoutineOverrun _ => none
  | .haltAndDrain _ => none
  | .swap _ => none
  | .resumption _ _ => none
  | .imageMove _ => none
  | .promotionRequest _ => none
  | .promotionAcknowledge _ => none
  | .promotionAckReceipt _ _ => none
  | .promotionStallTimeout _ => none
  | .collOperationComplete _ _ => none
  | .collNoProgress _ _ => none
  | .peerFault _ _ => none
  | .survey => none
  | .meridianHeartbeat _ _ _ => none
  | .ceilingApply => none
  | .clamp _ _ => none
  | .clampReceipt _ _ _ => none
  | .join _ _ => none
  | .leave _ => none
  | .droop _ _ => none
  | .energyLoRead _ => none
  | .monitorCtlWrite _ _ _ => none
  | .monitorSample _ _ _ => none
  | .registerWrite _ _ => none
  | .getVersion => none
  | .getCapabilities => none
  | .negotiateAlgorithms _ => none
  | .getDigests => none
  | .getCertificate _ => none
  | .challenge _ => none
  | .getMeasurements _ _ => none
  | .keyExchange _ => none
  | .finish _ => none
  | .heartbeat _ => none
  | .keyUpdate _ => none
  | .endSession _ => none
  | .deliverSecret _ _ _ _ => none
  | .unsupportedRequest _ => none
  | .lockInterfaceRequest _ => none
  | .startInterfaceRequest _ => none
  | .stopInterfaceRequest _ => none
  | .functionLevelReset _ => none
  | .lockedConfigWrite _ => none
  | .ideIntegrityFailure _ => none
  | .debugSessionConnect => none
  | .worldCreate _ _ => none
  | .ownershipTableWrite _ _ => none
  | .powerOn _ _ => none
  | .recoveryImage _ => none
  | .recoveryCommit => none
  | .waitUntilPackageTimePasses _ => none
  | .accessComplete _ => none
  | .scrubComplete _ => none

/-- The word of a word beside the table. -/
def encodeBeside : Beside → Word
  | .cvt g d a t => packRRI 0x12 g d a t
  | .xlane g d a b x => packRRR 0x15 g d a b x
  | .slide g d a b x => packRRR 0x16 g d a b x
  | .laneop g d a m => packRRM 0x17 g d a m 0
  | .maddm g d a b x => packRRR 0x18 g d a b x
  | .mmulm g d a b x => packRRR 0x19 g d a b x
  | .nttb g d a b x => packRRR 0x1A g d a b x
  | .bfp g d a m i => packRRM 0x1C g d a m i
  | .st g d a m o => packRRM 0x21 g d a m o
  | .sts g d a m o => packRRM 0x23 g d a m o
  | .pref g a m o => packRRM 0x29 g 0 a m o
  | .stu g d a m o => packRRM 0x2B g d a m o
  | .tile g d a m i => packRRM 0x2C g d a m i
  | .spool g d a m q => packRRM 0x2D g d a m q
  | .mtx g d a m i => packRRM 0x2F g d a m i
  | .exit g => packRRM 0x37 g 0 0 0 0
  | .sys g d a m i => packRRM 0x3B g d a m i

end Sys2Proof
end

