-- ==== Sys2Proof/Config.lean ====
section
/-! DEFINITION. What one implementation of the part fixes and the spec leaves open. Every constant here is a free
value: it has no body, so no proof can rest on what it is. Each is applied to the model's tick, or to the operands
it depends on. -/

namespace Sys2Proof.Config

/-- The default lease length, chosen by the part (R64): an exponent 0-5, the length being 64 shifted left by it. -/
opaque leaseExp : Nat → Fin 6
/-- What MFSR of a per-lane register writes to a uniform destination when no lane is enabled (R214): from the model's
tick and the register's number. -/
opaque laneOpen : Nat → Nat → BitVec 32
/-- A byte of an SPDM response whose bytes the spec does not give (R288-R290): from the request's code, the number
of the response and the byte's place. -/
opaque spdmByte : Nat → Nat → Nat → BitVec 8
/-- A digest computed by the part over data the spec names but whose encoding it does not give (R290). -/
opaque digest : List Nat → BitVec 384
/-- A byte of the part of a BFP tile's slot whose contents the spec calls unspecified (R121): from the model's tick and
the byte's place. -/
opaque slotByte : Nat → Nat → BitVec 8
/-- What the matrix engine uses in place of a record value, a side operand or a destination element that the spec calls
unspecified (R144): from the model's tick and a number of the value. -/
opaque engineOpen : Nat → Nat → BitVec 64
/-- The size of an element of a BFP tile in a copy operation, as a power of two (R82 gives none): from the tag. -/
opaque bfpElem : Nat → Fin 4
/-- A byte that a member of another package contributes to a collective operation (R267-R271): from the model's tick, the
member's rank and the byte's place. -/
opaque fabricByte : Nat → Nat → Nat → BitVec 8
/-- The energy in uJ that a counter has counted since it was last looked at (R276): from the model's tick and the counter, 0
for the package, 1 + d for die d. -/
opaque energyUsed : Nat → Nat → BitVec 64
/-- The set of an 8-way quad TLB in which a translation stands (R47 gives no index): from its world and its page number. -/
opaque tlbSet : Nat → Nat → Fin 256
/-- The TDISP interface report of a world's interface (R290), whose contents the spec does not give. -/
opaque interfaceReport : Nat → List Nat
/-- What a read through a page with PROT = 0 finds in a word that a world's key encrypts (R285): from the model's tick and the
word. -/
opaque sealedWord : Nat → Nat → BitVec 256
/-- Words in one way of an L1 and of a remote-data cache (R71 gates ways; R57 gives no number of them). -/
opaque l1Way : Nat
opaque rdcWay : Nat

/-- Stretched cycles beyond the least number that a stretched time can hold (R275 bounds their length): from the model's
tick. -/
opaque stretchedMore : Nat → Nat
/-- What a monitor's source measures of the silicon: a quad's supply, a die's hot spot, its power (R277): from the model's
tick, the die, and CTL. -/
opaque sensor : Nat → Nat → BitVec 32 → BitVec 32

end Sys2Proof.Config
end

