-- ==== Sys2Proof/Machine/Numeric.lean ====
section
/-! DEFINITION. Exact arithmetic on the floating-point formats of R109 and one rounding at the end (R112, R113):
decoding to sign, mantissa and exponent, sums, products, quotients, roots, powers and logarithms, conversions (R116)
and block floating point (R117-R120). Everything is Nat and Int arithmetic that the kernel can evaluate. -/

namespace Sys2Proof.Machine

/-- The flags of `%flags` (R114). -/
def fNV : Word := 1
def fDZ : Word := 2
def fOF : Word := 4
def fUF : Word := 8
def fNX : Word := 16
def fAUF : Word := 32

/-- A floating-point format (R109): exponent and fraction bits; `nanAll` for e4m3, whose one NaN is all ones and
which has no infinity; `quiet` for the formats without signalling NaNs. -/
structure Fmt where
  eb   : Nat
  fb   : Nat
  e4   : Bool
  sig  : Bool
  deriving DecidableEq, Repr

def fmtF64  : Fmt := { eb := 11, fb := 52, e4 := false, sig := true }
def fmtF32  : Fmt := { eb := 8, fb := 23, e4 := false, sig := true }
def fmtF16  : Fmt := { eb := 5, fb := 10, e4 := false, sig := true }
def fmtBF16 : Fmt := { eb := 8, fb := 7, e4 := false, sig := true }
def fmtE5M2 : Fmt := { eb := 5, fb := 2, e4 := false, sig := false }
def fmtE4M3 : Fmt := { eb := 4, fb := 3, e4 := true, sig := false }

/-- The exponent bias (R109). -/
def Fmt.bias (f : Fmt) : Nat := 2 ^ (f.eb - 1) - 1
/-- The exponent of the smallest normal value (R109). -/
def Fmt.emin (f : Fmt) : Int := 1 - (f.bias : Int)
/-- The exponent of the least significant bit of a subnormal. -/
def Fmt.qmin (f : Fmt) : Int := f.emin - f.fb
/-- Width in bits. -/
def Fmt.width (f : Fmt) : Nat := 1 + f.eb + f.fb
/-- The sign bit as a number. -/
def Fmt.signBit (f : Fmt) : Nat := 2 ^ (f.eb + f.fb)
/-- The bits of the largest finite magnitude (R109). -/
def Fmt.maxBits (f : Fmt) : Nat :=
  if f.e4 then 0x7E else (2 ^ f.eb - 1) * 2 ^ f.fb - 1
/-- The bits of +infinity; e4m3 has none and saturates (R113). -/
def Fmt.infBits (f : Fmt) : Nat := if f.e4 then 0x7E else (2 ^ f.eb - 1) * 2 ^ f.fb
/-- The default NaN (R111). -/
def Fmt.nan (f : Fmt) : Nat :=
  if f.e4 then 0x7F else (2 ^ f.eb - 1) * 2 ^ f.fb + 2 ^ (f.fb - 1)

/-- A decoded value: a NaN (signalling or not), an infinity, or `±m·2^e` with the sign of a zero kept. -/
inductive FVal where
  | nan (sig : Bool)
  | inf (neg : Bool)
  | fin (neg : Bool) (m : Nat) (e : Int)
  deriving DecidableEq, Repr

/-- The value of a bit pattern (R109). -/
def Fmt.decode (f : Fmt) (bits : Nat) : FVal :=
  let neg := decide (f.signBit ≤ bits % (2 * f.signBit))
  let mag := bits % f.signBit
  let ex := mag / 2 ^ f.fb
  let fr := mag % 2 ^ f.fb
  if f.e4 && mag == 0x7F then .nan false
  else if !f.e4 && ex == 2 ^ f.eb - 1 then
    (if fr == 0 then .inf neg else .nan (f.sig && decide (fr < 2 ^ (f.fb - 1))))
  else if ex == 0 then .fin neg fr f.qmin
  else .fin neg (2 ^ f.fb + fr) (f.qmin + ((ex : Int) - 1))

/-- The sign put on a magnitude. -/
def Fmt.signed (f : Fmt) (neg : Bool) (mag : Nat) : Nat := if neg then f.signBit + mag else mag

/-- Whether a discarded part makes the kept integer go up by one (R112): `n` is the kept part, `lt` and `eq` compare
the discarded part with a half, `inexact` says it is not zero. -/
def roundsUp (rm : Rm) (neg : Bool) (n : Nat) (lt eq inexact : Bool) : Bool :=
  match rm with
  | .rne => !lt && (!eq || n % 2 == 1) && inexact
  | .rtz => false
  | .rdn => neg && inexact
  | .rup => !neg && inexact

/-- The integer nearest `m·2^e` (strictly above it by less than one unit of `m` when `sticky`), in units of `2^q`,
under the mode, and whether it is inexact. -/
def roundAt (rm : Rm) (neg : Bool) (m : Nat) (e : Int) (sticky : Bool) (q : Int) : Nat × Bool :=
  if q ≤ e then
    let n := m * 2 ^ (e - q).toNat
    (if roundsUp rm neg n true false sticky then n + 1 else n, sticky)
  else
    let s := (q - e).toNat
    let n := m / 2 ^ s
    let r := m % 2 ^ s
    let half := 2 ^ (s - 1)
    let inexact := r != 0 || sticky
    let up := roundsUp rm neg n (decide (r < half)) (r == half && !sticky) inexact
    (if up then n + 1 else n, inexact)

/-- Bits and flags of an overflowing result (R113). -/
def Fmt.overflow (f : Fmt) (rm : Rm) (neg : Bool) : Nat × Word :=
  let big := f.e4 || rm == .rtz || (rm == .rdn && !neg) || (rm == .rup && neg)
  (f.signed neg (if big then f.maxBits else f.infBits), fOF ||| fNX)

/-- Rounds `±m·2^e` (with `sticky` as in `roundAt`) once into the format (R112, R113): bits and flags. -/
def Fmt.round (f : Fmt) (rm : Rm) (neg : Bool) (m : Nat) (e : Int) (sticky : Bool) : Nat × Word :=
  if m == 0 && !sticky then (f.signed neg 0, 0)
  else
    let top : Int := (Nat.log2 m : Int) + e
    let qu := top - f.fb
    let q := if qu < f.qmin then f.qmin else qu
    let (n, inexact) := roundAt rm neg m e sticky q
    let mag := ((q - f.qmin).toNat) * 2 ^ f.fb + n
    if f.maxBits < mag then f.overflow rm neg
    else
      let (nu, _) := roundAt rm neg m e sticky qu
      -- below the smallest normal with unbounded exponent range
      let tiny := decide (qu < f.qmin) && decide ((nu : Int) < 2 ^ (f.emin - qu).toNat)
      (f.signed neg mag,
        (if inexact then fNX else 0) ||| (if tiny && inexact then fUF else 0))

/-- Rounds a decoded value; a NaN becomes the default NaN, NV if it signals; an infinity saturates in e4m3 (R111,
R113, R116). -/
def Fmt.ofVal (f : Fmt) (rm : Rm) : FVal → Nat × Word
  | .nan sig => (f.nan, if sig then fNV else 0)
  | .inf neg => (f.signed neg f.infBits, if f.e4 then fOF ||| fNX else 0)
  | .fin neg m e => f.round rm neg m e false

def FVal.isNan : FVal → Bool
  | .nan _ => true
  | _ => false
def FVal.isSig : FVal → Bool
  | .nan s => s
  | _ => false
def FVal.isInf : FVal → Bool
  | .inf _ => true
  | _ => false
def FVal.isFin : FVal → Bool
  | .fin _ _ _ => true
  | _ => false
def FVal.isZero : FVal → Bool
  | .fin _ m _ => m == 0
  | _ => false
def FVal.neg? : FVal → Bool
  | .nan _ => false
  | .inf n => n
  | .fin n _ _ => n
def FVal.negate : FVal → FVal
  | .nan s => .nan s
  | .inf n => .inf (!n)
  | .fin n m e => .fin (!n) m e

/-- NV for a signalling NaN among the operands (R111). -/
def sigFlag (xs : List FVal) : Word := if xs.any FVal.isSig then fNV else 0

/-- An exact finite value as an integer in units of `2^q`, where `q` is at most its exponent. -/
def scaled (neg : Bool) (m : Nat) (e q : Int) : Int :=
  let n : Int := (m * 2 ^ (e - q).toNat : Nat)
  if neg then -n else n

/-- The exact sum of two values before rounding (R129, R131): a special result, or sign, magnitude and exponent. -/
def addVal (rm : Rm) (x y : FVal) : FVal × Word :=
  match x, y with
  | .nan a, .nan b => (.nan false, if a || b then fNV else 0)
  | .nan a, _ => (.nan false, if a then fNV else 0)
  | _, .nan b => (.nan false, if b then fNV else 0)
  | .inf a, .inf b => if a == b then (.inf a, 0) else (.nan false, fNV)
  | .inf a, _ => (.inf a, 0)
  | _, .inf b => (.inf b, 0)
  | .fin a m e, .fin b n d =>
    let q := min e d
    let s := scaled a m e q + scaled b n d q
    if s == 0 then (.fin (if a == b then a else rm == .rdn) 0 q, 0)
    else (.fin (decide (s < 0)) s.natAbs q, 0)

/-- The exact product (R130). -/
def mulVal (x y : FVal) : FVal × Word :=
  match x, y with
  | .nan a, .nan b => (.nan false, if a || b then fNV else 0)
  | .nan a, _ => (.nan false, if a then fNV else 0)
  | _, .nan b => (.nan false, if b then fNV else 0)
  | .inf a, .inf b => (.inf (a != b), 0)
  | .inf a, .fin b n _ => if n == 0 then (.nan false, fNV) else (.inf (a != b), 0)
  | .fin a m _, .inf b => if m == 0 then (.nan false, fNV) else (.inf (a != b), 0)
  | .fin a m e, .fin b n d => (.fin (a != b) (m * n) (e + d), 0)

/-- `x + y` rounded once (R129). -/
def Fmt.add (f : Fmt) (rm : Rm) (x y : Nat) : Nat × Word :=
  let (v, fl) := addVal rm (f.decode x) (f.decode y)
  let (b, fl') := f.ofVal rm v
  (b, fl ||| fl')

/-- `x · y` rounded once (R130). -/
def Fmt.mul (f : Fmt) (rm : Rm) (x y : Nat) : Nat × Word :=
  let (v, fl) := mulVal (f.decode x) (f.decode y)
  let (b, fl') := f.ofVal rm v
  (b, fl ||| fl')

/-- `±(x·y) + z` rounded once (R131). A product of zero and infinity is the default NaN with NV whatever `z` is. -/
def Fmt.fma (f : Fmt) (rm : Rm) (negp : Bool) (x y z : Nat) : Nat × Word :=
  let zv := f.decode z
  let (p, fl) := mulVal (f.decode x) (f.decode y)
  let p := if negp then p.negate else p
  let (v, fl') := addVal rm p zv
  let (b, fl'') := f.ofVal rm v
  (b, fl ||| fl' ||| fl'')

/-- The sign bit inverted (R138, NEG). -/
def Fmt.negBits (f : Fmt) (x : Nat) : Nat := if f.signBit ≤ x then x - f.signBit else x + f.signBit
/-- The sign bit cleared (R138, ABS). -/
def Fmt.absBits (f : Fmt) (x : Nat) : Nat := if f.signBit ≤ x then x - f.signBit else x

/-- The order of two numbers: `-1`, `0` or `1` (zeros equal); NaNs are not ordered. -/
def cmpVal (x y : FVal) : Option Int :=
  match x, y with
  | .nan _, _ => none
  | _, .nan _ => none
  | .inf a, .inf b => some (if a == b then 0 else if a then -1 else 1)
  | .inf a, _ => some (if a then -1 else 1)
  | _, .inf b => some (if b then 1 else -1)
  | .fin a m e, .fin b n d =>
    let q := min e d
    let s := scaled a m e q - scaled b n d q
    some (if s < 0 then -1 else if s == 0 then 0 else 1)

/-- MIN and MAX of two elements (R132): selected bits and NV. `nanProp` is X = 1. -/
def Fmt.minMax (f : Fmt) (isMax nanProp : Bool) (x y : Nat) : Nat × Word :=
  let a := f.decode x
  let b := f.decode y
  let fl := sigFlag [a, b]
  match a.isNan, b.isNan with
  | true, true => (f.nan, fl)
  | true, false => (if nanProp then f.nan else y, fl)
  | false, true => (if nanProp then f.nan else x, fl)
  | false, false =>
    let less := match cmpVal a b with
      | some c => if c == 0 then a.neg? && !b.neg? else decide (c < 0)
      | none => false
    (if less == isMax then y else x, fl)

/-! ### Quotients and roots -/

/-- `2^k / m` and whether a remainder is left, with enough bits for one rounding into the format. -/
def quotient (f : Fmt) (num den : Nat) : Nat × Int × Bool :=
  let k := Nat.log2 den + f.fb + 4
  let n := num * 2 ^ k
  (n / den, -(k : Int), n % den != 0)

/-- `x / y` for finite numbers, `y` not zero, rounded once. -/
def Fmt.divFin (f : Fmt) (rm : Rm) (sx : Bool) (m : Nat) (e : Int) (sy : Bool) (n : Nat) (d : Int) : Nat × Word :=
  let (q, k, st) := quotient f m n
  f.round rm (sx != sy) q (e - d + k) st

/-- `1/x` (R138, R129 of 07). -/
def Fmt.rcp (f : Fmt) (rm : Rm) (x : Nat) : Nat × Word :=
  match f.decode x with
  | .nan s => (f.nan, if s then fNV else 0)
  | .inf n => (f.signed n 0, 0)
  | .fin n m e => if m == 0 then (f.signed n f.infBits, fDZ) else f.divFin rm false 1 0 n m e

/-- The bits of a square root from bit `i` down: `r` is the root found so far. -/
def isqrtGo (n : Nat) : Nat → Nat → Nat
  | 0, r => r
  | i + 1, r => let c := r + 2 ^ i; if c * c ≤ n then isqrtGo n i c else isqrtGo n i r

/-- The integer square root. -/
def isqrt (n : Nat) : Nat := isqrtGo n (Nat.log2 n / 2 + 1) 0

/-- Mantissa and exponent with an even exponent. -/
def evenExp (m : Nat) (e : Int) : Nat × Int := if e % 2 == 0 then (m, e) else (2 * m, e - 1)

/-- `√x` (R138). -/
def Fmt.sqrt (f : Fmt) (rm : Rm) (x : Nat) : Nat × Word :=
  match f.decode x with
  | .nan s => (f.nan, if s then fNV else 0)
  | .inf n => if n then (f.nan, fNV) else (f.infBits, 0)
  | .fin n m e =>
    if m == 0 then (f.signed n 0, 0)
    else if n then (f.nan, fNV)
    else
      let (m, e) := evenExp m e
      let t := f.fb + 4
      let r := isqrt (m * 2 ^ (2 * t))
      f.round rm false r (e / 2 - t) (r * r != m * 2 ^ (2 * t))

/-- `1/√x` (R138). -/
def Fmt.rsq (f : Fmt) (rm : Rm) (x : Nat) : Nat × Word :=
  match f.decode x with
  | .nan s => (f.nan, if s then fNV else 0)
  | .inf n => if n then (f.nan, fNV) else (0, 0)
  | .fin n m e =>
    if m == 0 then (f.signed n f.infBits, fDZ)
    else if n then (f.nan, fNV)
    else
      let (m, e) := evenExp m e
      let k := Nat.log2 m + f.fb + 4
      let r := isqrt (2 ^ (2 * k) / m)
      f.round rm false r (-(k : Int) - e / 2) (r * r * m != 2 ^ (2 * k))

/-! ### Powers and logarithms of two -/

/-- The product, in `p` fraction bits, of the roots `2^(2^-1), 2^(2^-2), …` for the set bits of `frac` (of `k` bits,
most significant first), rounded down, and `up` units added at each root and product so that it stays above. -/
def exp2Go (p up : Nat) (frac : Nat) : Nat → Nat → Nat → Nat
  | 0, _, acc => acc
  | k + 1, root, acc =>
    let root := isqrt (root * 2 ^ p) + up
    let acc := if frac / 2 ^ k % 2 == 1 then acc * root / 2 ^ p + up else acc
    exp2Go p up frac k root acc

/-- `⌊2^(n/2^k) · 2^p⌋`, which lies from `lo` to `hi`, by the comparison of integers that defines it. -/
def exp2Floor (p k n lo hi : Nat) : Nat :=
  lo + ((List.range (hi - lo)).filter (fun i => decide ((lo + i + 1) ^ 2 ^ k ≤ 2 ^ (n + p * 2 ^ k)))).length

/-- `2^x` for a finite `x` that is not an integer, rounded once (R138). Two bounds are rounded; where they round differently
the exact floor decides. The value is irrational, so that no rounding is a tie. -/
def Fmt.exp2Frac (f : Fmt) (rm : Rm) (neg : Bool) (m : Nat) (e : Int) : Nat × Word :=
  let k := 2 * f.fb + 24
  let p := k + 24
  -- x·2^k rounded down, and whether bits below were dropped
  let dropped := decide (e < -(k : Int)) && m % 2 ^ (-(e + k)).toNat != 0
  let mag : Nat := if -(k : Int) ≤ e then m * 2 ^ (e + k).toNat else m / 2 ^ (-(e + k)).toNat
  let fx : Int := if neg then -(mag : Int) - (if dropped then 1 else 0) else mag
  let n := fx / 2 ^ k
  let fr := (fx - n * 2 ^ k).toNat
  let lo := exp2Go p 0 fr k (2 * 2 ^ p) (2 ^ p)
  let hi := exp2Go p 1 (if dropped then fr + 1 else fr) k (2 * 2 ^ p) (2 ^ p)
  -- the bound above when the fraction carried into one
  let hi := if dropped && fr + 1 == 2 ^ k then 2 ^ (p + 1) else hi
  let hi := min (hi + 1) (2 ^ (p + 1)) - 1
  let a := f.round rm false lo (n - p) true
  let b := f.round rm false hi (n - p) true
  if a == b then a
  else
    let j := (-e).toNat
    let part := if neg then (2 ^ j - m % 2 ^ j) % 2 ^ j else m % 2 ^ j
    f.round rm false (exp2Floor p j part lo hi) (n - p) true

/-- `2^x` (R138, R129 of 07). -/
def Fmt.exp2 (f : Fmt) (rm : Rm) (x : Nat) : Nat × Word :=
  match f.decode x with
  | .nan s => (f.nan, if s then fNV else 0)
  | .inf n => if n then (0, 0) else (f.infBits, 0)
  | .fin n m e =>
    let one := f.bias * 2 ^ f.fb
    if m == 0 then (one, 0)
    else if 14 ≤ (Nat.log2 m : Int) + e then
      -- beyond every exponent of the formats
      (if n then f.round rm false 1 (-20000) true else f.round rm false 1 20000 true)
    else if 0 ≤ e ∨ m % 2 ^ (-e).toNat = 0 then
      let i : Int := scaled n m e (min e 0) / 2 ^ (-(min e 0)).toNat
      f.round rm false 1 i false
    else f.exp2Frac rm n m e

/-- Fraction bits of a logarithm by squaring: `lo ≤ y ≤ hi` in `p` fraction bits, `1 ≤ y < 2`; none when the bounds
part. -/
def log2Go (p : Nat) : Nat → Nat → Nat → Nat → Option Nat
  | 0, _, _, acc => some acc
  | k + 1, lo, hi, acc =>
    let l := lo * lo / 2 ^ p
    let h := hi * hi / 2 ^ p + 1
    if 2 ^ (p + 1) ≤ l then log2Go p k (l / 2) (h / 2 + 1) (2 * acc + 1)
    else if h < 2 ^ (p + 1) then log2Go p k l h (2 * acc)
    else none

/-- `⌊log₂(m/2^t) · 2^k⌋` by the comparison of integers that defines it. -/
def log2Floor (k m t : Nat) : Nat := Nat.log2 (m ^ 2 ^ k) - t * 2 ^ k

/-- `log₂ x` (R138, R129 of 07): fraction bits by squaring bounds, or, where the bounds part, by the exact floor. The value
of an `x` that is no power of two is irrational. -/
def Fmt.log2 (f : Fmt) (rm : Rm) (x : Nat) : Nat × Word :=
  match f.decode x with
  | .nan s => (f.nan, if s then fNV else 0)
  | .inf n => if n then (f.nan, fNV) else (f.infBits, 0)
  | .fin n m e =>
    if m == 0 then (f.signed true f.infBits, fDZ)
    else if n then (f.nan, fNV)
    else
      let t := Nat.log2 m
      let ex : Int := (t : Int) + e
      if m == 2 ^ t then f.round rm (decide (ex < 0)) ex.natAbs 0 false
      else
        let k := 2 * f.fb + 24
        let p := k + 88
        let y := m * 2 ^ (p - t)
        let fr := (log2Go p k y y 0).getD (log2Floor k m t)
        let v := ex * 2 ^ k + fr
        if v < 0 then f.round rm true (-v - 1).toNat (-(k : Int)) true
        else f.round rm false v.toNat (-(k : Int)) true

/-! ### Integral values -/

/-- The value rounded to an integer under a mode: sign kept, and whether it is inexact. -/
def integral (rm : Rm) (neg : Bool) (m : Nat) (e : Int) : Nat × Bool := roundAt rm neg m e false 0

/-- FLOOR, CEIL, TRUNC (`rm` fixed) and RINT (`nx` set): R138. -/
def Fmt.toIntegral (f : Fmt) (rm : Rm) (nx : Bool) (x : Nat) : Nat × Word :=
  match f.decode x with
  | .nan s => (f.nan, if s then fNV else 0)
  | .inf _ => (x, 0)
  | .fin n m e =>
    if m == 0 then (x, 0)
    else
      let (i, inexact) := integral rm n m e
      ((f.round rm n i 0 false).1, if nx && inexact then fNX else 0)

/-- FRACT (R138, R129 of 07): `x − ⌊x⌋` rounded, below 1.0; ±0 gives +0. -/
def Fmt.fract (f : Fmt) (rm : Rm) (x : Nat) : Nat × Word :=
  match f.decode x with
  | .nan s => (f.nan, if s then fNV else 0)
  | .inf _ => (f.nan, fNV)
  | .fin n m e =>
    if m == 0 then (0, 0)
    else
      let (i, _) := integral .rdn n m e
      let (v, _) := addVal rm (.fin n m e) (.fin (!n) i 0)
      let (b, fl) := f.ofVal rm v
      let one := f.bias * 2 ^ f.fb
      (if one ≤ b && b < f.signBit then one - 1 else b, fl)

/-! ### Integers -/

/-- Lower and upper bounds of a `w`-bit integer. -/
def intMin (sgn : Bool) (w : Nat) : Int := if sgn then -(2 ^ (w - 1) : Int) else 0
def intMax (sgn : Bool) (w : Nat) : Int := if sgn then 2 ^ (w - 1) - 1 else 2 ^ w - 1
/-- A `w`-bit pattern as an integer. -/
def intOf (sgn : Bool) (w bits : Nat) : Int :=
  if sgn && decide (2 ^ (w - 1) ≤ bits) then (bits : Int) - 2 ^ w else bits
/-- An integer modulo `2^w`, as a bit pattern. -/
def wrap (w : Nat) (x : Int) : Nat := (x % 2 ^ w).toNat
/-- Clamped to the range of a `w`-bit integer (R129). -/
def clampInt (sgn : Bool) (w : Nat) (x : Int) : Int := max (intMin sgn w) (min (intMax sgn w) x)

/-- Float to integer (R116): rounded, saturated with NV, NaN gives 0 with NV, else NX if inexact. -/
def floatToInt (rm : Rm) (sgn : Bool) (w : Nat) : FVal → Nat × Word
  | .nan _ => (0, fNV)
  | .inf n => (wrap w (if n then intMin sgn w else intMax sgn w), fNV)
  | .fin n m e =>
    let (i, inexact) := integral rm n m e
    let v : Int := if n then -(i : Int) else i
    if v < intMin sgn w ∨ intMax sgn w < v then (wrap w (clampInt sgn w v), fNV)
    else (wrap w v, if inexact then fNX else 0)

/-- Integer to float (R116). -/
def Fmt.ofInt (f : Fmt) (rm : Rm) (x : Int) : Nat × Word := f.round rm (decide (x < 0)) x.natAbs 0 false

/-! ### Block floating point -/

/-- The exponent of the unit of a block: `s(E) = 2^(E − 127 − (m − 2))` (R117). -/
def bfpUnit (m : Nat) (ex : Nat) : Int := (ex : Int) - 127 - ((m : Int) - 2)

/-- An `m`-bit mantissa as an integer (R117). -/
def bfpMant (m : Nat) (bits : Nat) : Int := intOf true m (bits % 2 ^ m)

/-- An element expanded to f32 (R117, R119): bits and OF. DEDUCED (log entry 106): −2^128, the one element that overflows, sets OF
alone, as R119 and R139 of 08 name it, and not the NX that R113 gives an overflow besides. -/
def bfpExpand (m ex bits : Nat) : Nat × Word :=
  if ex == 0 then (0, 0)
  else if ex == 0xFF then (fmtF32.nan, 0)
  else
    let v := bfpMant m bits
    if v == 0 then (0, 0)
    else
      let (b, fl) := fmtF32.round .rne (decide (v < 0)) v.natAbs (bfpUnit m ex) false
      (b, fl &&& fOF)

/-- Magnitude order with infinity largest (R120, R122). -/
def magLe (x y : FVal) : Bool :=
  match x, y with
  | _, .inf _ => true
  | .inf _, _ => false
  | .fin _ m e, .fin _ n d => let q := min e d; decide (scaled false m e q ≤ scaled false n d q)
  | _, _ => false

/-- The magnitude of a value. -/
def FVal.mag : FVal → FVal
  | .nan s => .nan s
  | .inf _ => .inf false
  | .fin _ m e => .fin false m e

/-- The largest magnitude of a list, NaNs left out. -/
def magMax (xs : List FVal) : FVal :=
  xs.foldl (fun a x => if x.isNan then a else if magLe a x then x.mag else a) (.fin false 0 0)

/-- `RNE(|x| / s(E))`; infinities have none. -/
def bfpScale (m ex : Nat) : FVal → Option Nat
  | .fin _ n e => some (roundAt .rne false n (e - bfpUnit m ex) false 0).1
  | _ => none

/-- The smallest exponent from `ex` on, at most `fuel` steps, that fits (R120 step 3). -/
def bfpFind (m : Nat) (a : FVal) : Nat → Nat → Nat
  | 0, _ => 0xFE
  | fuel + 1, ex =>
    match bfpScale m ex a with
    | some n => if n ≤ 2 ^ (m - 1) - 1 then ex else bfpFind m a fuel (ex + 1)
    | none => 0xFE

/-- Quantisation of the values of one block (R120): exponent, mantissas as `m`-bit patterns, flags. In a block that holds a
NaN every mantissa is zero: the NaN and every other element but a zero differ from what the block holds (NX) and have gone
to zero (UF; log entry 83), and an infinity sets OF. -/
def bfpQuant (m : Nat) (xs : List FVal) : Nat × List Nat × Word :=
  if xs.any FVal.isNan then
    (0xFF, xs.map (fun _ => 0), fNX ||| fUF ||| if xs.any FVal.isInf then fOF else 0)
  else if xs.all FVal.isZero then (0, xs.map (fun _ => 0), 0)
  else
    let ex := bfpFind m (magMax xs) 254 1
    let top : Nat := 2 ^ (m - 1) - 1
    let one (x : FVal) : Nat × Word :=
      match x with
      | .inf n => (wrap m (if n then -(top : Int) else top), fOF ||| fNX)
      | .fin n a e =>
        let (k, inexact) := roundAt .rne false a (e - bfpUnit m ex) false 0
        let c := min k top
        (wrap m (if n then -(c : Int) else c),
          (if inexact || top < k then fNX else 0) ||| (if a != 0 && c == 0 then fUF else 0) |||
          (if top < k then fOF else 0))
      | .nan _ => (0, 0)
    let rs := xs.map one
    (ex, rs.map (·.1), rs.foldl (fun f r => f ||| r.2) 0)

end Sys2Proof.Machine
end

