-- ==== Sys2Proof/Machine/State.lean ====
section
/-! DEFINITION. The state of the part as plain data, the reasons a step can stop, and the state after reset.
Every piece of state the spec names has a field here; INVENTORY.md lists them with their rules. Units that a package
has many of (cores, dies, quads) are listed sparsely: one that is not listed is as it is at reset. -/

namespace Sys2Proof.Machine

/-- Why a step stops. -/
inductive Fault where
  /-- Raised by a word when no group of the part is issuing (no word can be executed without a group). Safe: the part
  issues words only for a resident group (R215). -/
  | noIssuer
  deriving DecidableEq, Repr

/-- Why a step has no meaning. -/
inductive Refusal where
  /-- Raised by an arm of exec whose instruction has no meaning yet. Safe. -/
  | notModelled (mnemonic : String)
  deriving DecidableEq, Repr

/-- A translated address: physical address, CP of its page (R44), whether the page has PROT = 1 (R56, R285). -/
structure Place where
  pa   : Nat
  cp   : Nat
  prot : Bool
  deriving DecidableEq, Repr

/-- A vector register: lanes, tag, exponent side-file entry (R93, R96, R97). -/
structure VReg where
  lanes : Lanes
  tag   : Tag
  side  : DWord
  deriving DecidableEq, Repr

/-- A uniform register (R93, R96, R97). -/
structure UReg where
  bits : Word
  tag  : Tag
  side : DWord
  deriving DecidableEq, Repr

/-- The value that a register or predicate held before a fixed-latency result (R29). -/
inductive OldVal where
  | vec (n : Nat) (old : VReg)
  | uni (n : Nat) (old : UReg)
  | pred (n : Nat) (old : Word)
  deriving DecidableEq, Repr

/-- A result written while results of its register are pending (R26, R28, R29): what it replaced, the lanes it wrote,
whether it wrote the tag and the side-file entry, the cycle of its path slot at which a consumer may read it (0 once it
may), and that slot. -/
structure PendWrite where
  what : OldVal
  mask : Word
  tags : Bool
  side : Bool
  due  : Nat
  path : Int
  deriving DecidableEq, Repr

/-- An entry of the spill stack (R186): a runnable path or a join. -/
structure Entry where
  join : Bool
  pc   : Word
  mask : Word
  pend : Word
  pri  : BitVec 4
  rpc  : Option Word
  deriving DecidableEq, Repr

/-- A promoting LDA in progress at its issuer (R178): when it sent its requests, acknowledgements awaited and the
largest time so far. -/
structure Promoting where
  since   : Nat
  waiting : List CoreId
  latest  : Nat
  deriving DecidableEq, Repr

/-- What a word that waits read at its issue (R28): the lanes of L ∧ em and of its guard, and its source registers by operand
code; a uniform register is the same in every lane; the word itself, which is not fetched again (R197); and when it issued
(R277). -/
structure Sources where
  word  : Word
  since : Nat
  en   : Word
  grd  : Word
  regs : List (Nat × VReg)
  deriving DecidableEq, Repr

/-- A path in a path slot (R185) with its issue state: pending prefixes and the PC of the first (R22), stall counts
left (R27), its own cycle count, HKEEP coverage (R31), and its waiting, yielding and selection marks (R28, R190,
R215, R216). `awaits` is the package time that a release in progress waits for once its pushes are made (R162); `phase` is
the barrier and token that a BARW waits on, and whether the phase has completed (R203 of 14). `late` is the variable-latency
results of the path (operand codes, and predicates as 128 + n) with the cycle from which a consumer goes on (R28, log
entry 5). `id` is the stamp with which the path was created: it names the path for as long as it exists (R151, R204).
`read` is what a waiting word has read at its issue (R28), `spool` the live spool queue that it waits on (R202), `placed`
the places that a releasing store's lanes have been translated to (R172), `grows` marks a REGQ that waits
for its grow (R95), `aged` counts the cycles for which the slot has been eligible without issuing (R215). `holdTo` is the tick up to which the
count of its last word holds it (R27), `loose` the words still to issue of a coverage by stall counts that was cut short by a
trap, a stop or a displacement: each of them waits until the path's fixed-latency results are written (R28; log entry 103). -/
structure Path where
  pc      : Word
  live    : Word
  pri     : BitVec 4
  rpc     : Option Word
  stamp   : Int
  id      : Int
  himm    : Option (BitVec 22)
  hrcv    : Option (BitVec 22)
  hmod    : Option (BitVec 22)
  unitPc  : Option Word
  stalls  : List (BitVec 3)
  cycle   : Nat
  keep    : Option (Code × Code × BitVec 7)
  issued  : Nat
  aged    : Nat
  parked  : Option Nat
  yielded : List (Nat × Bool)
  boost   : Bool
  exempt  : Bool
  promo   : Option Promoting
  awaits  : Option Nat
  phase   : Option (Nat × Nat × Bool)
  read    : Option Sources
  spool   : Option Nat
  placed  : Option (List (Nat × Place))
  grows   : Bool
  spawned : Word
  late    : List (Nat × Nat)
  holdTo  : Nat
  loose   : Nat
  deriving DecidableEq, Repr

/-- A spilled entry as the path unit ranks it; the entry's bytes stand in the spill area of memory (R185, R186). `path` is
the path that was displaced, so that a word that was waiting goes on where it stood once the path is back in a slot. -/
structure Spilled where
  stamp : Int
  entry : Entry
  path  : Option Path
  deriving DecidableEq, Repr

/-- The service registers (R232). -/
structure Service where
  tcause : Word
  tpc    : Word
  tmask  : Word
  taddrl : Word
  taddrh : Word
  mboxl  : Word
  mboxh  : Word
  lsel   : Word
  hsave0 : UReg
  hsave1 : UReg
  deriving DecidableEq, Repr

/-- Single-lane mode (R231, R234): the handler lane, the trapping slot, the SYSC number if the entry is a service
call, the mask still to be served (h included), TPC as the entry loaded it, and the path as it was, which the return
restores. -/
structure Single where
  h     : Nat
  slot1 : Bool
  svc   : Option (BitVec 4)
  left  : Word
  ret   : Word
  held  : Path
  deriving DecidableEq, Repr

/-- What an exit or entry routine reinstates when it ends (R248). -/
structure Snapshot where
  p     : Vector Word 7
  em    : Word
  flags : Word
  score : Bool
  slot0 : Option Path
  slot1 : Option Path
  spill : List Spilled
  deriving DecidableEq, Repr

/-- Whether the group runs ordinary code, its exit routine (with the end of its budget) or its entry routine. -/
inductive Routine where
  | normal
  | exit (snap : Snapshot) (deadline : Nat)
  | entry (snap : Snapshot)
  deriving DecidableEq, Repr

/-- Where a group stands in a pre-emption (R246-R250). -/
inductive SaveStage where
  | running | stopped (brute : Bool) | saved (brute : Bool)
  deriving DecidableEq, Repr

/-- An operation in the engine's reservation table (R139): its minor and I4, the record values with VLEN as an integer,
the first register of the record, the issuing group (by its slot and its serial) and path, the band at which it enters the
table, its band and the time it last rose or arrived, passes granted since, whether it runs, and the modulus at issue. `spoiled` marks one whose handles or addresses the group has
overwritten since issue, `spots` the bytes (workgroup, offset, length) of scratchpads that the group has written since
(R144). -/
structure EngEntry where
  id      : Nat
  minor   : BitVec 4
  i4      : BitVec 4
  record  : List Word
  vlen    : Int
  first   : Nat
  key     : Key
  serial  : Nat
  path    : Int
  world   : Nat
  launch  : Nat
  wg      : Nat
  start   : Nat
  band    : Nat
  arrived : Nat
  passes  : Nat
  granted : Bool
  q       : Nat
  spoiled : Bool
  spots   : List (Nat × Nat × Nat)
  deriving DecidableEq, Repr

/-- A reuse latch (R31): the operand code, and the value and tag that the word which filled it read; where that was an old
value (R29), the cycle at which the pending result lands. -/
structure Latch where
  code  : Code
  lanes : Lanes
  tag   : Tag
  lands : Option Nat
  deriving DecidableEq, Repr

/-- The reuse latches L0 and L1 of an issue port and the path slot that they serve (R31, R32). -/
structure Port where
  key   : Key
  slot1 : Bool
  l0    : Option Latch
  l1    : Option Latch
  deriving DecidableEq, Repr

/-- A group (R185-R187, R93-R97, R114, R232, R241, R251). `serial` tells it from every other group that ever stood in its
slot (the model's own field). `last0` and `last1` are the ticks at which its path slots last issued (R215), `spillHeld` the slot
whose word has met a recoverable fault of the spill area that is not resolved yet (R186). -/
structure Group where
  key       : Key
  serial    : Nat
  world     : Nat
  launch    : Nat
  wg        : Nat
  quota     : Nat
  v         : Vector VReg 96
  u         : Vector UReg 32
  p         : Vector Word 7
  em        : Word
  flags     : Word
  q         : DWord
  wct       : Nat
  region    : Option (BitVec 10)
  score     : Bool
  slot0     : Option Path
  slot1     : Option Path
  spill     : List Spilled
  spillPtr  : DWord
  context   : DWord
  nextStamp : Int
  svc       : Service
  single    : Option Single
  routine   : Routine
  stage     : SaveStage
  rebuiltV  : BitVec 96
  rebuiltU  : Word
  rebuiltS  : BitVec 1024
  saved     : Word
  pending   : List PendWrite
  lvl       : Vector Lanes 8
  cls       : OpClass
  spawnPri  : BitVec 4
  withdrawn : List EngEntry
  last0     : Nat
  last1     : Nat
  spillHeld : Option Bool
  deriving DecidableEq, Repr

/-- A deferred access (R50, R105): a load whose value has not come back (each lane with its place, and the scope, CPOL and LEASE of the word), or an atomic's result on its way. `since` is when an LD issued (R277). -/
structure Inflight where
  id    : Nat
  key   : Key
  kind  : BitVec 4
  dest  : Code
  lanes : Word
  addrs : List (Nat × Place)
  scope : Scope
  cpol  : Nat
  lease : Nat
  vals  : Option (List Lanes)
  tag   : Tag
  va    : Nat
  pc    : Word
  since : Option Nat
  deriving DecidableEq, Repr

/-- A clean copy of a 32-byte word with its lease (R62, R63): home word index, bytes, expiry. -/
structure Copy where
  word   : Nat
  data   : BitVec 256
  expiry : Nat
  deriving DecidableEq, Repr

/-- An entry of the basting log (R173): a sector is named by its home address divided by 256. -/
structure LogEntry where
  world  : Nat
  sector : Nat
  wmask  : Byte
  deriving DecidableEq, Repr

/-- A request of a promoting LDA (R178), with the group and path that wait for its acknowledgement; none waits once the
group has been stopped (R184). -/
structure PromoReq where
  world : Nat
  scope : Scope
  who   : Option (Key × Int)
  deriving DecidableEq, Repr

/-- A promotion in progress at a core (R178, R180): its world and scope, the entries taken, the time it was taken up,
who joined it, whether R181's stall has timed out, and the time T of the core once its pushes have merged. -/
structure Promo where
  world    : Nat
  scope    : Scope
  entries  : List LogEntry
  since    : Nat
  joined   : List (Key × Int)
  timedOut : Bool
  time     : Option Nat
  deriving DecidableEq, Repr

/-- Who issued what the part does for a group (R90, R145, R197, R238): the group's slot and serial, its world and launch, and
the queue and index of the packet that launched it. -/
structure Issuer where
  key    : Key
  serial : Nat
  world  : Nat
  launch : Nat
  packet : Option (QueueId × Nat)
  deriving DecidableEq, Repr

/-- States of an overlay slot (R191). -/
inductive SlotState where
  | absent | fetching | landed
  deriving DecidableEq, Repr

/-- An overlay slot (R191): the world it is allotted to, its bytes, the address it was landed from, the group whose
CFETCH is in flight and the frame it reads, which a slot that the part itself brings in translates when it lands (`again`,
R207, R254); `initial` marks an initial segment of a launch (R356). -/
structure OverlaySlot where
  state : SlotState
  world : Option Nat
  bytes : List Host.Cell
  src   : DWord
  by_   : Option Issuer
  frame : Option Place
  again : Bool
  initial : Bool
  deriving DecidableEq, Repr

/-- A spawn bin in use (R212): its key, its threads (argument and level values), its due time. -/
structure Bin where
  launch  : Nat
  wg      : Nat
  entry   : Word
  tag     : Tag
  threads : List (Word × List Word)
  due     : Nat
  expired : Bool
  deriving DecidableEq, Repr

/-- What a retired group's registers keep until the next grant of its slot (R357). -/
structure OldRegs where
  world : Nat
  v     : Vector VReg 96
  u     : Vector UReg 32
  p     : Vector Word 7
  flags : Word
  deriving DecidableEq, Repr

/-- A core (R57, R161, R173, R191, R212, R95): its L1, completion times, basting log, promotions, the acknowledgements on
their way from it, overlay, bins, pending register grows, and what the registers of retired groups keep, by slot (R357). -/
structure Core where
  id      : CoreId
  dirty   : List Host.Cell
  copies  : List Copy
  leaving : List Nat
  stored  : List (Nat × Nat)
  cd      : Nat
  cw      : Nat
  log     : List LogEntry
  promo   : Option Promo
  waiting : List PromoReq
  acks    : List (Key × Int × Nat)
  overlay : List (Nat × OverlaySlot)
  bins    : List (Nat × Bin)
  grows   : List (Key × Nat)
  kept    : List (Nat × OldRegs)
  deriving DecidableEq, Repr

/-- States of a tile entry (R85). -/
inductive TileState where
  | empty | filling | ready | draining
  deriving DecidableEq, Repr

/-- An allocated tile entry (R78, R81): state, descriptor, ERR, READERS, owner, and the count of its duplication map
(R123, R341). -/
structure Tile where
  state   : TileState
  desc    : BitVec 256
  err     : Byte
  readers : Nat
  world   : Nat
  launch  : Nat
  wg      : Nat
  mapN    : Nat
  deriving DecidableEq, Repr

/-- An entry of the tile table: its generation survives freeing (R78). -/
structure TileSlot where
  gen  : Byte
  tile : Option Tile
  deriving DecidableEq, Repr

/-- The four kinds of copy operation (R92). -/
inductive CopyKind where
  | load | store | gather | scatter
  deriving DecidableEq, Repr

/-- A queued copy operation (R88): row addresses are the base plus strides, or the row table read at issue (R322). `rebuilds`
marks a fill that an entry routine issued (R255); `stalled` one that waits until something changes, `absent` one whose wait is for a
translation, which a save records (R91). -/
structure CopyOp where
  id      : Nat
  kind    : CopyKind
  tile    : Nat
  base    : DWord
  rows    : List DWord
  by_     : Issuer
  rebuilds : Bool
  stalled : Bool
  absent : Bool
  deriving DecidableEq, Repr

/-- A claimed operand slot (R135, R343): owner, pair mark, bytes; `ended` marks a slot whose workgroup has ended. -/
structure OpSlot where
  world  : Nat
  launch : Nat
  wg     : Nat
  pair   : Bool
  ended  : Bool
  bytes  : List Host.Cell
  deriving DecidableEq, Repr

/-- An accumulator allocation (R136): base, count, tag, owner, data by element number, side registers. -/
structure Acc where
  base   : Nat
  count  : Nat
  m64    : Bool
  owner  : Key
  world  : Nat
  launch : Nat
  data   : List (Nat × DWord)
  rmax   : Vector Word 64
  rsum   : Vector Word 64
  dlt    : Vector Word 64
  deriving DecidableEq, Repr

/-- A word that waits on a spool queue (R204): its group's serial, its path, and the code of the register that takes the
handle, or the handle that it pushes. -/
structure SpoolWait where
  serial : Nat
  path   : Int
  arg    : Nat
  deriving DecidableEq, Repr

/-- A live spool queue (R202): its own number (the model's, one for each QINIT), owner, ring, head, count, allowance, and
the words that wait on it in order. -/
structure Spool where
  id     : Nat
  world  : Nat
  launch : Nat
  wg     : Nat
  base   : Nat
  cap    : Nat
  head   : Nat
  n      : Nat
  allow  : Nat
  pops   : List SpoolWait
  pushes : List SpoolWait
  deriving DecidableEq, Repr

/-- A quad (R78, R88, R135-R139, R202, R216, R275): tile table, copy engine, matrix engine, spools, pool, the recent
closings of its charge-injection switch (time and ns), and its recent stretched cycles (time and number). -/
structure Quad where
  id        : QuadId
  tiles     : List (Nat × TileSlot)
  ops       : List CopyOp
  slots     : List (Nat × OpSlot)
  accGen    : List (Nat × Byte)
  accs      : List Acc
  entries   : List EngEntry
  ownDue    : Bool
  spools    : List (Nat × Spool)
  cls       : OpClass
  allowance : Nat
  refill    : Nat
  closings  : List (Nat × Nat)
  stretched : List (Nat × Nat)
  deriving DecidableEq, Repr

/-- A slot of the collective engine (R268-R272): descriptor, rank, sequence number in the group, q at POST, STATE, CAUSE,
FCODE, the group that posted it, when it was posted and the time its writes' WCTs pass. -/
structure CollOp where
  world   : Nat
  desc    : BitVec 512
  group   : Nat
  rank    : Nat
  seq     : Nat
  q       : Nat
  state   : Nat
  cause   : Nat
  fcode   : Byte
  by_     : Issuer
  since   : Nat
  due     : Nat
  deriving DecidableEq, Repr

/-- A monitor (R277). `window` is the window of 1 us in which a source that is sampled every 1 us was last looked at. -/
structure Monitor where
  ctl   : Word
  base  : Word
  width : Word
  min   : Word
  max   : Word
  count : Word
  bins  : Vector Word 16
  window : Nat
  deriving DecidableEq, Repr

/-- A walk of a die (R48): its world and page, and the cores whose misses have joined it. -/
structure Walk where
  world  : Nat
  page   : Nat
  joined : List CoreId
  deriving DecidableEq, Repr

/-- A die (R57, R39, R48, R161, R268, R276, R277, R286): remote-data cache with the cores that wrote each dirty word (R60) and
those whose bytes each dirty byte carries (R161), lease record of its L1s, error log (physical address and home), walks
in progress, collective slots, monitors, energy, ownership table, the tree over the versions of its protected sectors (its nodes
in the carve-out, and the root, which is on the die, R56), and the bays of its shadow region: bay `b` of quad `q` as `2q + b`, the
image that holds each one in use, and how often each has been written, which is the version of what it holds (R38, R253). -/
structure Die where
  id       : Nat
  dirty    : List Host.Cell
  writer   : List (Nat × List Nat)
  author   : List (Nat × List Nat)
  copies   : List Copy
  eDie     : List (Nat × Nat)
  errors   : List (Nat × Nat)
  walks    : List Walk
  collGen  : List (Nat × Byte)
  coll     : List (Nat × CollOp)
  monitors : List (Nat × Monitor)
  energy   : DWord
  latch    : Word
  owners   : List (Nat × Nat)
  nodes    : List (Nat × Nat)
  root     : Nat
  bays     : List (Nat × Nat)
  written  : List (Nat × Nat)
  deriving DecidableEq, Repr

/-- MESI states of a host line at its proxy die (R69, R266). -/
inductive Mesi where
  | m | e | s | i
  deriving DecidableEq, Repr

/-- A cached translation (R46, R47): which TLB holds it, world, half, page, frame, rights, attributes, whether D is set, and
for the device half the home address of its leaf's entry and what the walk read there. -/
structure TlbEntry where
  core  : Option CoreId
  quad  : QuadId
  world : Nat
  host  : Bool
  base  : Nat
  size  : Nat
  frame : Nat
  r     : Bool
  w     : Bool
  x     : Bool
  cp    : Nat
  prot  : Bool
  d     : Bool
  leaf  : Nat
  bits  : Nat
  deriving DecidableEq, Repr

/-- A Translation Request that the host has not answered (R47, R51): its world and page, whether it asks for execute
permission, the cores whose misses it serves, and whether the firmware waits for it (R356). -/
structure AtsReq where
  world  : Nat
  page   : Nat
  exec   : Bool
  joined : List CoreId
  fw     : Bool
  deriving DecidableEq, Repr

/-- A page request (R52): its world, page, the right wanted, the successful answers so far, whether it waits for an answer
and since when, whether it has been sent (those beyond the host's allocation wait in the part), whether it has failed. -/
structure PageReq where
  id        : Nat
  world     : Nat
  page      : Nat
  write     : Bool
  exec      : Bool
  successes : Nat
  waiting   : Bool
  sent      : Bool
  since     : Nat
  failed    : Bool
  deriving DecidableEq, Repr

/-- An XLATE_DEMAND record (R55): world, page, queue, number of the record once written, and whether it was answered
ABORT, so that the accesses replay into a fatal fault. -/
structure Demand where
  world   : Nat
  page    : Nat
  queue   : QueueId
  n       : Option Nat
  aborted : Bool
  deriving DecidableEq, Repr

/-- An invalidation in progress (R50): its worlds, half and range, and what it waits for: the accesses in flight, the
words (group and path) that hold translations, and the code fetches (core and slot) that were under way. -/
structure Invalidation where
  id     : Nat
  worlds : List Nat
  host   : Bool
  range  : Option (Nat × Nat)
  after  : List Nat
  words  : List (Nat × Int)
  codes  : List (CoreId × Nat)
  deriving DecidableEq, Repr

/-- Translation state of the package (R47, R50-R52, R55): the TLBs, the host pages that the firmware holds for its own
accesses (R356), Translation Requests, pages whose last answer permitted nothing, those that edges in
progress have asked about (R171), page requests and how many of them the
host has allowed to be outstanding, demand records, invalidations. -/
structure Xlat where
  tlb    : List TlbEntry
  host   : List (Nat × HostPage)
  ats    : List AtsReq
  denied : List (Nat × Nat)
  asked  : List (Nat × Nat)
  reqs   : List PageReq
  alloc  : Nat
  demand : List Demand
  invs   : List Invalidation
  deriving DecidableEq, Repr

/-- What memory keeps beside its bytes (R39, R56, R65, R69, R70): E_max per word, uncorrectable words, sectors of the protected
ranges whose MAC is known not to match, the carve-out's version and MAC of a sector, words of the protected ranges whose dirty
bytes in the L1s were stored through a page with PROT = 0 (`plain`) and those last written through one (`bare`, R285), host
lines' MESI states, lines the host holds (and whether modified), lines for which ownership or a back-invalidate is outstanding,
host snoops that wait (R266). -/
structure Lines where
  eMax    : List (Nat × Nat)
  bad     : List Nat
  forged  : List Nat
  version : List (Nat × Nat)
  mac     : List (Nat × Seal)
  plain   : List Nat
  bare    : List Nat
  mesi    : List (Nat × Mesi)
  rdOwn   : List Nat
  held    : List (Nat × Bool)
  backInv : List Nat
  snoops  : List Instr
  deriving DecidableEq, Repr

/-- A barrier (R199). -/
structure Barrier where
  phase : BitVec 16
  expect : Nat
  count : Nat
  deriving DecidableEq, Repr

/-- A resident workgroup (R75, R76, R199, R208, R211, R213): its place, scratchpad bytes, membership, barriers. `closed` marks
one whose last group has exited and whose bytes operations in flight still use (R80). -/
structure Workgroup where
  launch : Nat
  wg     : Nat
  world  : Nat
  core   : CoreId
  banks  : Nat
  scr    : List Host.Cell
  nbhd   : Option (Nat × Nat)
  bars   : Vector Barrier 16
  btime  : Nat
  closed : Bool
  deriving DecidableEq, Repr

/-- A launch (R207, R224, R242): its record, arguments, region table, and how far placement and exit have come. -/
structure Launch where
  id     : Nat
  world  : Nat
  queue  : QueueId
  pidx   : Nat
  record : BitVec 512
  args   : DWord
  table  : Option (List (BitVec 512))
  next   : Nat
  ended  : Nat
  dead   : Bool
  deriving DecidableEq, Repr

/-- States of a meridian member (R281), and the time between a LEAVE and the next survey. -/
inductive MemberState where
  | joining | active | silent | evicted | leaving
  deriving DecidableEq, Repr

/-- A member of a meridian group (R278-R281): its limit in force, pending lower limits with their stamps, a raise asked for,
whether its heartbeat of the survey at hand has come, surveys missed in a row, and when a joiner becomes ACTIVE. -/
structure Member where
  id       : Nat
  limit    : Nat
  announce : List (Nat × Nat)
  raise    : Option Nat
  beat     : Bool
  missed   : Nat
  state    : MemberState
  joinAt   : Nat
  deriving DecidableEq, Repr

/-- A meridian group as this package sees it (R278-R280): its members, the ceiling in force, and the rises that have
entered the minimum, each with the survey time at which it applies and the minimum as it then was. -/
structure Meridian where
  members : List Member
  ceiling : Nat
  rise    : List (Nat × Nat)
  deriving DecidableEq, Repr

/-- Power and the meridian (R276-R281): the package's energy counter and HI latch, the die group and the fabric group, the
ceiling C, the number of the last survey, the queue named for notices (R282), the package's id in its fabric group, and the
clamp that it has made since its last heartbeat, with its stamp (R278). -/
structure Power where
  energy  : DWord
  latch   : Word
  dies    : Meridian
  fabric  : Meridian
  ceiling : Nat
  survey  : Nat
  notify  : Option QueueId
  self    : Nat
  clamped : Option (Nat × Nat)
  deriving DecidableEq, Repr

/-- A record due on an exception queue that waits for a free slot (R227). -/
structure ExRecord where
  kind  : Byte
  code  : Byte
  pidx  : Nat
  qtag  : BitVec 16
  addr  : DWord
  pc    : DWord
  lmask : Word
  deriving DecidableEq, Repr

/-- A world (R42, R231, R283, R285, R291, R292): translation record, vectors, key, interface, secret slots, how
far a teardown or reset of it has come (`resetting`: when a reset began that is not at its end, R294), and the notices of fatal faults that the teardown posts (R238), each on the queue of
the packet it concerns, or on every queue. -/
structure World where
  id      : Nat
  xlat    : BitVec 128
  tvec    : Word
  svec    : Word
  keyGen  : Nat
  keyed   : Bool
  page    : Nat
  tdi     : Tdi
  secrets : List Nat
  dying   : Option Nat
  resetting : Option Nat
  failed  : Bool
  notices : List (Option QueueId × ExRecord)
  deriving DecidableEq, Repr

/-- A packet that has started and not finished (R223, R224): index, words, the copies of the region entries of its CSIG
and of its wait signals (R170), its launch, when it started, and the time that it waits for: the WCT to pass, or a
barrier's next reading; `moved` is the WCT of a COPY's bytes once they have moved, `reading` marks a barrier whose last reading had
to wait (R356). -/
structure Packet where
  pidx    : Nat
  words   : List DWord
  regions : List (BitVec 128)
  waits   : List (BitVec 128)
  launch  : Option Nat
  since   : Nat
  wctDue  : Option Nat
  moved   : Option Nat
  reading : Bool
  deriving DecidableEq, Repr

/-- A die's replica of a queue's record (R220): the version, and the fields that a change may have changed. -/
structure Replica where
  version : Word
  ridx    : Nat
  state   : Nat
  dropped : Word
  deriving DecidableEq, Repr

/-- A signal that the firmware still has to complete (`code` none) or abort, because its line or page was not free (R69,
R70, R222, R356): the packet and its QTAG, and the signal's address. `bad` marks one whose access broke R218 and that
stands until its CAPABILITY record is answered. -/
structure Owed where
  pidx : Nat
  tag  : BitVec 16
  va   : Nat
  code : Option Int
  bad  : Bool
  deriving DecidableEq, Repr

/-- Packets that have not started and have to abort (R225): the code, the next of them, and where they end (none until
WIDX has been read). `retire` marks those that RIDX passes over when they have, `bad` a read that broke R218 and stands until its
CAPABILITY record is answered. -/
structure Doom where
  code : Int
  next : Nat
  stop : Option Nat
  retire : Bool
  bad : Bool
  deriving DecidableEq, Repr

/-- A queue (R219, R220, R223, R227): its record, the replicas still to acknowledge and those that dies hold, wake mark and
time of the last poll, packets started, records held, number of the next record, the MALFORMED and CAPABILITY records
written and not answered (number and packet), whether a packet with BAR holds the next one back and the abort code that it
left, the signals that the firmware owes, and the packets that it still has to abort. -/
structure Queue where
  id      : QueueId
  ring    : DWord
  exq     : DWord
  wptr    : DWord
  ridx    : Nat
  version : Word
  dropped : Word
  owner   : Nat
  world   : Nat
  rlog    : Nat
  elog    : Nat
  state   : Nat
  acks    : List Nat
  replicas : List (Nat × Replica)
  wake    : Bool
  polled  : Nat
  started : List Packet
  held    : List ExRecord
  exNext  : Nat
  halted  : List (Nat × Nat)
  barred  : Option Int
  blocked : Bool
  owed    : List Owed
  doom    : Option Doom
  deriving DecidableEq, Repr

/-- A partition and the pre-emption in progress in it (R245, R246): quads of one die, the worlds whose contexts run on it
at the request, whether a BOUNDARY request stands and the launches started before it, and the stage that an IMMEDIATE one
has reached: 0 none, 1 stop and exit routines, 3 halted and drained. -/
structure Partition where
  id       : Nat
  die      : Nat
  quads    : List Nat
  worlds   : List Nat
  boundary : Bool
  started  : List Nat
  stage    : Nat
  deadline : Nat
  deriving DecidableEq, Repr

/-- A saved image (R251-R253, R38): its number, the groups with the kind of their save, the parts of quads, cores and workgroups
that the save keeps, the bays that hold it, each with the version that was written, the keys of its worlds under which it is
encrypted, and the fault that a read of it meets where the scrubber found one; `moved` marks one moved to device memory. -/
structure Image where
  id     : Nat
  part   : Nat
  die    : Nat
  groups : List Group
  wgs    : List Workgroup
  quads  : List Quad
  cores  : List Core
  bays   : List (Nat × Nat)
  keys   : List (Nat × Nat)
  fault  : Option Nat
  moved  : Bool
  deriving DecidableEq, Repr

/-- A collective group (R268): number, world, members as (package, die), operations posted by each rank, members evicted from
the meridian group, and what the fabric has said of the posts of members of other packages (R272). -/
structure CollGroup where
  id      : Nat
  world   : Nat
  members : List (Nat × Nat)
  posted  : List (Nat × Nat)
  gone    : List Nat
  there   : List RemotePost
  deriving DecidableEq, Repr

/-- An SPDM session (R288). -/
structure Session where
  id      : Nat
  secured : Bool
  keyNo   : Nat
  deriving DecidableEq, Repr

/-- Trust and boot (R288-R295). -/
structure Trust where
  versioned  : Bool
  negotiated : Bool
  sessions   : List Session
  nextId     : Nat
  responses  : Nat
  leaf       : Nat
  debugOpen  : Bool
  debugOn    : Bool
  powered    : Bool
  recovery   : Bool
  running    : Option BootImage
  flash      : Option BootImage
  config     : BootConfig
  rollback   : Nat
  pkgKey     : Nat
  deriving DecidableEq, Repr

/-- What the part sends out: to the host, the fabric, the SPDM requester (R39, R50-R52, R263-R266, R280, R288). -/
inductive Msg where
  | deviceEvent (code addr : Nat)
  | atsRequest (pasid page : Nat) (exec : Bool)
  | pageRequest (id pasid page : Nat) (write exec : Bool)
  | invalidated (id : Nat)
  | cxl (line : Nat) (response : String) (data : Option (BitVec 512))
  | hdm (pa : Nat) (data : Option Byte)
  | spdm (session : Option Nat) (code : Byte) (body : List Byte)
  | tdisp (world : Nat) (ok : Bool)
  | page (addr : Nat) (sectors : List (BitVec 512 × Option Seal))
  | fabric (pkg die world addr : Nat) (bytes : List Byte)
  | heartbeat (stamp limit : Nat) (announce : List (Nat × Nat)) (clamp : Option (Nat × Nat))
  | clamp (limit stamp : Nat)
  | read (v : Word)
  deriving DecidableEq, Repr

/-- Values that an agent outside the model may fix for the step at hand (the model's own field): whether an access or
a walk completes in a later step, the lease length in ns, the host's answer to a read for sharing. -/
structure Given where
  deferAccess : Bool
  deferWalk   : Bool
  lease       : Option Nat
  deriving DecidableEq, Repr

/-- Resources released and not yet zeroed (R284): an id, the core, scratchpad banks and registers that wait. -/
structure Scrub where
  id    : Nat
  core  : CoreId
  banks : Nat
  deriving DecidableEq, Repr

/-- The state of the part. `closing` is the cache ways that are closed to new allocations and not yet gated (R71). `unsealed`
marks, within a step, an access made through a page with PROT = 0 (R285); it is false between steps. -/
structure State where
  now     : Nat
  tick    : Nat
  given   : Given
  agenda  : List Instr
  cur     : Option (Key × Bool)
  turn    : Bool
  mem     : List Host.Cell
  lines   : Lines
  cores   : List Core
  dies    : List Die
  quads   : List Quad
  groups  : List Group
  wgs     : List Workgroup
  launches : List Launch
  worlds  : List World
  xlat    : Xlat
  flight  : List Inflight
  queues  : List Queue
  parts   : List Partition
  images  : List Image
  colls   : List CollGroup
  power   : Power
  trust   : Trust
  ports   : List (Nat × Port)
  closing : List PowerUnit
  gated   : List PowerUnit
  waking  : List PowerUnit
  scrubs  : List Scrub
  nbhdDie : Nat
  pkg     : BitVec 20
  nextId  : Nat
  outbox  : List Msg
  unsealed : Bool
  deriving DecidableEq, Repr

/-- A member as it stands at reset: limit 2,100 MHz, ACTIVE (log entry 3). -/
def Member.fresh (id : Nat) : Member :=
  { id := id, limit := 2100, announce := [], raise := none, beat := false, missed := 0, state := .active, joinAt := 0 }

/-- The state right after reset: package time 1 ns (log entry 1), no world created, nothing resident, nothing cached,
no line of memory listed, the dies' meridian group at 2,100 MHz (log entry 3), the part waiting for its boot ROM. -/
def State.reset : State :=
  { now := 1, tick := 0, given := { deferAccess := false, deferWalk := false, lease := none }
    agenda := [], cur := none, turn := false, mem := []
    lines := { eMax := [], bad := [], forged := [], version := [], mac := [], plain := [], bare := [], mesi := [], rdOwn := [], held := [],
               backInv := [], snoops := [] }
    cores := [], dies := [], quads := [], groups := [], wgs := [], launches := [], worlds := []
    xlat := { tlb := [], host := [], ats := [], denied := [], asked := [], reqs := [], alloc := 1024, demand := [], invs := [] }
    flight := [], queues := [], parts := [], images := [], colls := []
    power := { energy := 0, latch := 0, ceiling := 2100, survey := 0, notify := none, self := 0, clamped := none,
               dies := { members := (List.range 32).map Member.fresh, ceiling := 2100, rise := [] },
               fabric := { members := [], ceiling := 2100, rise := [] } }
    trust := { versioned := false, negotiated := false, sessions := [], nextId := 0, responses := 0, leaf := 0,
               debugOpen := true, debugOn := false, powered := false, recovery := false, running := none, flash := none,
               config := { signed := false, digest := 0, cxl := [0, 0, 0, 0], protect := [],
                           carve := [], cxlProtect := [], pageTimeout := 1000000000, watchdog := 10000000000 },
               rollback := 0, pkgKey := 0 }
    ports := [], closing := [], gated := [], waking := [], scrubs := [], nbhdDie := 31, pkg := 0, nextId := 0, outbox := [], unsealed := false }

end Sys2Proof.Machine
end

