-- ==== Sys2Proof/Machine/Access.lean ====
section
/-! DEFINITION. The smallest operations on the state: byte maps in canonical form, little-endian words, the sparse
lists of cores, dies and quads, and the stop reasons of an operation that can wait or fault. -/

namespace Sys2Proof.Machine

/-! ### Byte maps -/

/-- The byte at an address; an unlisted address reads as zero (log entry 2). -/
def readCell (m : List Host.Cell) (a : Nat) : Byte :=
  match m with
  | [] => 0
  | (k, b) :: r => if k == a then b else if a < k then 0 else readCell r a

/-- A byte put into a rising list, in its place; the list keeps every byte put, zero or not. -/
def putCell (m : List Host.Cell) (a : Nat) (b : Byte) : List Host.Cell :=
  match m with
  | [] => [(a, b)]
  | (k, c) :: r => if a < k then (a, b) :: (k, c) :: r else if k == a then (a, b) :: r else (k, c) :: putCell r a b

/-- The entry of an address taken out. -/
def dropCell (m : List Host.Cell) (a : Nat) : List Host.Cell :=
  match m with
  | [] => []
  | (k, c) :: r => if a < k then (k, c) :: r else if k == a then r else (k, c) :: dropCell r a

/-- A byte of memory written, in canonical form: writing what an unlisted address reads as removes the entry. -/
def writeCell (m : List Host.Cell) (a : Nat) (b : Byte) : List Host.Cell :=
  if b = 0 then dropCell m a else putCell m a b

/-- The byte of a list of present bytes, if it is there. -/
def findCell (m : List Host.Cell) (a : Nat) : Option Byte :=
  match m with
  | [] => none
  | (k, b) :: r => if k == a then some b else if a < k then none else findCell r a

/-- Addresses strictly rising. -/
def rising : List Host.Cell → Bool
  | [] => true
  | [_] => true
  | (a, _) :: (b, y) :: r => decide (a < b) && rising ((b, y) :: r)

/-- The canonical form of a memory: rising addresses, no entry equal to what an unlisted address reads as. -/
def memoryWf (m : List Host.Cell) : Bool := rising m && m.all (fun c => c.2 != 0)

/-- `n` bytes from an address, lowest first, as a little-endian number. -/
def readLE (m : List Host.Cell) (a : Nat) : Nat → Nat
  | 0 => 0
  | n + 1 => (readCell m a).toNat + 256 * readLE m (a + 1) n

/-- The `n` low bytes of a number written little-endian. -/
def writeLE (m : List Host.Cell) (a v : Nat) : Nat → List Host.Cell
  | 0 => m
  | n + 1 => writeLE (writeCell m a (BitVec.ofNat 8 v)) (a + 1) (v / 256) n

/-- The bytes of a number, lowest first. -/
def bytesLE (v : Nat) : Nat → List Byte
  | 0 => []
  | n + 1 => BitVec.ofNat 8 v :: bytesLE (v / 256) n

/-- A number from its bytes, lowest first. -/
def ofBytesLE : List Byte → Nat
  | [] => 0
  | b :: r => b.toNat + 256 * ofBytesLE r

/-- A list of bytes written from an address on. -/
def writeBytes (m : List Host.Cell) (a : Nat) : List Byte → List Host.Cell
  | [] => m
  | b :: r => writeBytes (writeCell m a b) (a + 1) r

/-- A field of a number: `n` bits from bit `lo`. -/
def bitsOf (v lo n : Nat) : Nat := v / 2 ^ lo % 2 ^ n

/-- Bit `i` of a mask. -/
def hasBit (m : Word) (i : Nat) : Bool := m.getLsbD i

/-- The mask of one lane. -/
def laneBit (i : Nat) : Word := BitVec.ofNat 32 (2 ^ i)

/-- The mask of the lanes where a predicate holds. -/
def maskOf (f : Nat → Bool) : Word :=
  BitVec.ofNat 32 ((List.range 32).foldl (fun acc i => if f i then acc + 2 ^ i else acc) 0)

/-- The lanes of a mask, ascending. -/
def lanesOf (m : Word) : List Nat := (List.range 32).filter (hasBit m)

/-- The lowest lane of a mask. -/
def lowest (m : Word) : Option Nat := (List.range 32).find? (hasBit m)

/-- An association list by number: looked up, and put in place of what was there. -/
def lookupN {α : Type} (l : List (Nat × α)) (k : Nat) : Option α := (l.find? (fun p => p.1 == k)).map (·.2)
def putN {α : Type} (l : List (Nat × α)) (k : Nat) (v : α) : List (Nat × α) :=
  (k, v) :: l.filter (fun p => p.1 != k)
def dropN {α : Type} (l : List (Nat × α)) (k : Nat) : List (Nat × α) := l.filter (fun p => p.1 != k)

/-- Put the larger of what is there and `v`. -/
def raiseN (l : List (Nat × Nat)) (k v : Nat) : List (Nat × Nat) :=
  match lookupN l k with
  | some w => if v ≤ w then l else putN l k v
  | none => putN l k v

/-! ### Stops -/

/-- A fault as its record carries it (R226, R232): code of R230, logged address, lowest offending lane, mask; `home` is the
home address of the uncorrectable word that the access met, and `pa` the physical address by which it met it (R39). -/
structure FaultInfo where
  code : Nat
  addr : Nat
  lane : Option Nat
  mask : Word
  home : Option Nat := none
  pa   : Option Nat := none
  deriving DecidableEq, Repr

/-- Why an operation does not complete: it waits (for a package time, or for another step), it meets a translation
fault that the part stalls and replays (R229; code and address as a record would carry them), `all` where the whole group
stalls (R186), it is a store that an exit routine may not make (R249), or it meets a fault. -/
inductive Stop where
  | wait (t : Option Nat)
  | recover (code addr : Nat) (all : Bool)
  | refuse (addr : Nat)
  | fault (f : FaultInfo)
  deriving DecidableEq, Repr

/-- Operations on the state that can wait or fault. A wait keeps what the operation has done so far (R52, R172,
R213); a fault is precise and the caller discards it (R17). -/
abbrev M := EStateM Stop State

/-- A fault without lanes. -/
def failCode {α : Type} (code : Nat) (addr : Nat := 0) : M α :=
  throw (.fault { code := code, addr := addr, lane := none, mask := 0 })
/-- A fault of the lanes of a mask: the lowest one is named, the mask carried (R105, R232). -/
def failLanes {α : Type} (code : Nat) (mask : Word) (addr : Nat := 0) : M α :=
  throw (.fault { code := code, addr := addr, lane := lowest mask, mask := mask })
/-- The fault of an access that meets an uncorrectable word (R39). -/
def failWord {α : Type} (h : Nat) : M α :=
  throw (.fault { code := 7, addr := h, lane := none, mask := 0, home := some h })
/-- An access by a physical address: the error log names that address (R39). -/
def byPa {α : Type} (pa : Nat) (m : M α) : M α := fun s =>
  match m s with
  | .error (.fault f) s' => .error (.fault (if f.home.isSome then { f with pa := some pa } else f)) s'
  | r => r
/-- An access at a place: by its physical address, under the cipher that its page names (R285). -/
def atPlace {α : Type} (p : Place) (m : M α) : M α := fun s =>
  match byPa p.pa m { s with unsealed := !p.prot } with
  | .ok a s' => .ok a { s' with unsealed := false }
  | .error e s' => .error e { s' with unsealed := false }
/-- A recoverable translation stall (R52, R55, R229). -/
def recover {α : Type} (code addr : Nat) : M α := throw (.recover code addr false)
/-- An access of the path unit: a recoverable stall of it stalls the whole group (R186). -/
def wholeGroup {α : Type} (m : M α) : M α := fun s =>
  match m s with
  | .error (.recover code addr _) s' => .error (.recover code addr true) s'
  | r => r
/-- Wait for another step. -/
def waitStep {α : Type} : M α := throw (.wait none)
/-- Wait until package time passes `t`. -/
def waitUntil (t : Nat) : M Unit := do
  let s ← get
  if t < s.now then pure () else throw (.wait (some t))

/-- The codes of R230. -/
def cAddr := 1
def cAbsent := 2
def cPerm := 3
def cMalformed := 4
def cHost := 5
def cIntegrity := 6
def cMemError := 7
def cIllegal := 8
def cStallShort := 9
def cNonuniform := 10
def cVoid := 11
def cMismatch := 12
def cAlign := 13
def cSegAbsent := 14
def cJmpTarget := 15
def cModRange := 16
def cScrRange := 17
def cTileHandle := 18
def cTileDesc := 19
def cTileEmpty := 20
def cAccHandle := 21
def cAccShort := 22
def cAccLeak := 23
def cSeamRole := 24
def cMapConflict := 25
def cPathDepth := 26
def cCodeSlot := 27
def cCodeBusy := 28
def cBarCount := 29
def cSpoolQueue := 30
def cSpoolBusy := 31
def cSpoolArg := 32
def cDomHandle := 33
def cSpawnArg := 34
def cTrap := 35
def cSysc := 36
def cPathCorrupt := 64
def cRebuildShort := 65
def cDoubleFault := 66
def cTrapVector := 67
def cHang := 68
def cTeardown := 69

/-! ### Units that are listed sparsely -/

/-- A core as at reset. -/
def Core.fresh (c : CoreId) : Core :=
  { id := c, dirty := [], copies := [], leaving := [], stored := [], cd := 0, cw := 0, log := [], promo := none, waiting := [],
    acks := [], overlay := [], bins := [], grows := [], kept := [] }
/-- A die as at reset. -/
def Die.fresh (d : Nat) : Die :=
  { id := d, dirty := [], writer := [], author := [], copies := [], eDie := [], errors := [], walks := [], collGen := [],
    coll := [], monitors := [], energy := 0, latch := 0, owners := [], nodes := [], root := 0, bays := [], written := [] }
/-- A quad as at reset: pooled BURST (log entry 4). -/
def Quad.fresh (q : QuadId) : Quad :=
  { id := q, tiles := [], ops := [], slots := [], accGen := [], accs := [], entries := [], ownDue := false,
    spools := [], cls := .burst, allowance := 0, refill := 0, closings := [], stretched := [] }
/-- A monitor as at reset (R277). -/
def Monitor.fresh : Monitor :=
  { ctl := 0, base := 0, width := 0, min := 0xFFFFFFFF, max := 0, count := 0, bins := Vector.replicate 16 0, window := 0 }

def State.core (s : State) (c : CoreId) : Core := (s.cores.find? (fun x => x.id == c)).getD (Core.fresh c)
def State.setCore (s : State) (c : Core) : State :=
  { s with cores := c :: s.cores.filter (fun x => x.id != c.id) }
def State.die (s : State) (d : Nat) : Die := (s.dies.find? (fun x => x.id == d)).getD (Die.fresh d)
def State.setDie (s : State) (d : Die) : State := { s with dies := d :: s.dies.filter (fun x => x.id != d.id) }
def State.quad (s : State) (q : QuadId) : Quad := (s.quads.find? (fun x => x.id == q)).getD (Quad.fresh q)
def State.setQuad (s : State) (q : Quad) : State := { s with quads := q :: s.quads.filter (fun x => x.id != q.id) }
def State.group (s : State) (k : Key) : Option Group := s.groups.find? (fun g => g.key == k)
def State.setGroup (s : State) (g : Group) : State :=
  { s with groups := s.groups.map (fun x => if x.key == g.key then g else x) }
def State.world (s : State) (w : Nat) : Option World := s.worlds.find? (fun x => x.id == w)
def State.setWorld (s : State) (w : World) : State :=
  { s with worlds := s.worlds.map (fun x => if x.id == w.id then w else x) }
/-- Whether a world's queues accept packets: the host's do, a guest's while its interface is in RUN (R283, R292). -/
def World.accepts (w : World) : Bool := w.id == 0 || w.tdi == .run
def State.queue (s : State) (q : QueueId) : Option Queue := s.queues.find? (fun x => x.id == q)
def State.setQueue (s : State) (q : Queue) : State :=
  { s with queues := s.queues.map (fun x => if x.id == q.id then q else x) }
def State.launch (s : State) (l : Nat) : Option Launch := s.launches.find? (fun x => x.id == l)
def State.setLaunch (s : State) (l : Launch) : State :=
  { s with launches := s.launches.map (fun x => if x.id == l.id then l else x) }
def State.wg (s : State) (l w : Nat) : Option Workgroup := s.wgs.find? (fun x => x.launch == l && x.wg == w)
def State.setWg (s : State) (w : Workgroup) : State :=
  { s with wgs := s.wgs.map (fun x => if x.launch == w.launch && x.wg == w.wg then w else x) }
def State.send (s : State) (m : Msg) : State := { s with outbox := s.outbox ++ [m] }
def State.due (s : State) (is : List Instr) : State := { s with agenda := s.agenda ++ is }

/-- Core of a key. -/
def keyCore (k : Key) : CoreId := { die := k.die, core := k.core }
/-- Quad of a core: `⌊c/4⌋` (R176, R210). -/
def coreQuad (c : CoreId) : QuadId := { die := c.die, quad := c.core / 4 }
/-- Quad of a key. -/
def keyQuad (k : Key) : QuadId := coreQuad (keyCore k)

/-! ### Clocks and monitors (R274, R277) -/

/-- F_class in MHz (R274). -/
def classCap : OpClass → Nat
  | .floor => 600 | .efficient => 1300 | .sustain => 1800 | .burst => 2100
/-- The arithmetic clock of a quad in MHz (R274). -/
def State.clock (s : State) (q : QuadId) : Nat := min (classCap (s.quad q).cls) s.power.ceiling

/-- A monitor of a die. -/
def monitorOf (s : State) (die m : Nat) : Monitor := (lookupN (s.die die).monitors m).getD Monitor.fresh
def setMonitor (s : State) (die m : Nat) (x : Monitor) : State :=
  let d := s.die die
  s.setDie { d with monitors := putN d.monitors m x }

/-- EN, SRC and UNIT of CTL. -/
def Monitor.on (x : Monitor) : Bool := hasBit x.ctl 30
def Monitor.src (x : Monitor) : Nat := bitsOf x.ctl.toNat 0 4
def Monitor.unit (x : Monitor) : Nat := bitsOf x.ctl.toNat 8 6

/-- The bin of a sample (R277). -/
def binOf (x : Monitor) (v : Nat) : Nat :=
  let b := x.base.toNat
  let w := max 1 x.width.toNat
  if v < b then 0 else min 15 ((v - b) / w + 1)

/-- A counter that saturates. -/
def satInc (x : Word) : Word := if x = 0xFFFFFFFF then x else x + 1

/-- A sample counted. -/
def Monitor.sample (x : Monitor) (v : Word) : Monitor :=
  let b := binOf x v.toNat
  { x with
    min := if v.toNat < x.min.toNat then v else x.min
    max := if x.max.toNat < v.toNat then v else x.max
    count := satInc x.count
    bins := x.bins.setIfInBounds b (satInc ((x.bins[b]?).getD 0)) }

/-- A measurement of a source at a die, counted by every monitor of the die that samples the source (R277). -/
def State.measure (s : State) (die src v : Nat) : State :=
  let d := s.die die
  let takes (x : Monitor) : Bool := x.on && x.src == src
  if d.monitors.any (fun x => takes x.2) then
    s.setDie { d with monitors := d.monitors.map (fun x =>
      if takes x.2 then (x.1, x.2.sample (BitVec.ofNat 32 (min v (2 ^ 32 - 1)))) else x) }
  else s

end Sys2Proof.Machine
end

