-- ==== Sys2Proof/Machine/Memory.lean ====
section
/-! DEFINITION. Homes (R35-R37), the caches above them (R57-R60), leases (R62-R65), merges and completion times
(R66-R68, R161), reads at home (R355), and reads and writes at the point of performance of a scope (R156, R159).
Bytes are named by home address: a bonded-DRAM byte by its local-window address, every other byte by its own. -/

namespace Sys2Proof.Machine

/-! ### Homes -/

/-- Start of the host window (R35). -/
def hostBase : Nat := 0x8000000000000
/-- Start of the CXL window (R35). -/
def cxlBase : Nat := 0x100000000000

/-- The home address of a physical address (R36, R37). -/
def homeOf (pa : Nat) : Nat :=
  if 0x8000000000 ≤ pa ∧ pa < 0x10000000000 then
    let o := pa - 0x8000000000
    (o / 0x10000 % 32) * 0x400000000 + (o / 0x200000) * 0x10000 + o % 0x10000
  else pa

/-- Whether a home address lies in host memory. -/
def isHost (h : Nat) : Bool := decide (hostBase ≤ h)
/-- Whether a home address lies in bonded DRAM. -/
def isDram (h : Nat) : Bool := decide (h < 0x8000000000)

/-- The die that owns a CXL port (R40). -/
def portDie (p : Nat) : Nat := match p with | 0 => 0 | 1 => 7 | 2 => 24 | _ => 31

/-- The home die, or for host lines the proxy die (R36, R40, R69). -/
def homeDie (h : Nat) : Nat :=
  if isDram h then h / 0x400000000
  else if isHost h then h / 256 % 32
  else portDie ((h - cxlBase) / 0x40000000000 % 4)

/-- Home die of a 32-byte word. -/
def wordDie (w : Nat) : Nat := homeDie (32 * w)
/-- The 64-byte line of a word. -/
def wordLine (w : Nat) : Nat := w / 2

/-- Whether an offset lies in one of a list of ranges (base and length) that a die or port has its own of. -/
def inRange (rs : List (Nat × Nat)) (i o : Nat) : Bool :=
  match rs[i]? with
  | some (b, n) => decide (b ≤ o ∧ o < b + n)
  | none => false

/-- Whether a home address lies in its die's protected range, or in the range of its CXL slot that the carve-out of the
port's die includes (R56, R286). -/
def isProtected (s : State) (h : Nat) : Bool :=
  if isDram h then inRange s.trust.config.protect (homeDie h) (h % 0x400000000)
  else !isHost h && decide (cxlBase ≤ h) &&
    inRange s.trust.config.cxlProtect ((h - cxlBase) / 0x40000000000) ((h - cxlBase) % 0x40000000000)

/-- Whether a home address lies in the metadata carve-out of its die (R56). -/
def isCarve (s : State) (h : Nat) : Bool := isDram h && inRange s.trust.config.carve (homeDie h) (h % 0x400000000)

/-- The world that owns the granule of a protected address (R286); 64, no world, where Derdieb gave it to none (log entry
21). -/
def granuleOwner (s : State) (h : Nat) : Nat := (lookupN (s.die (homeDie h)).owners (h / 0x10000)).getD 64

/-! ### Words -/

/-- The 32 bytes of a word at home. -/
def homeWord (s : State) (w : Nat) : BitVec 256 := BitVec.ofNat 256 (readLE s.mem (32 * w) 32)

/-- The dirty bytes of one word. -/
def wordCells (m : List Host.Cell) (w : Nat) : List Host.Cell := m.filter (fun c => c.1 / 32 == w)
/-- The dirty bytes of every other word. -/
def otherCells (m : List Host.Cell) (w : Nat) : List Host.Cell := m.filter (fun c => c.1 / 32 != w)

/-- The cells of `n` bytes of a value from an address. -/
def cellsOf (h v n : Nat) : List Host.Cell := (List.range n).map (fun i => (h + i, BitVec.ofNat 8 (v / 256 ^ i)))

/-- Byte `i` of a word. -/
def wordByte (d : BitVec 256) (i : Nat) : Byte := d.extractLsb' (8 * i) 8
/-- Byte `i` of a word replaced. -/
def setByte (d : BitVec 256) (i : Nat) (b : Byte) : BitVec 256 :=
  BitVec.ofNat 256 (d.toNat - (wordByte d i).toNat * 2 ^ (8 * i) + b.toNat * 2 ^ (8 * i))
/-- Bytes laid over a word. -/
def overlay (d : BitVec 256) (cells : List Host.Cell) : BitVec 256 :=
  cells.foldl (fun d c => setByte d (c.1 % 32) c.2) d

/-- The copy of a word whose lease is in force (R63). -/
def liveCopy (now : Nat) (cs : List Copy) (w : Nat) : Option Copy :=
  cs.find? (fun c => c.word == w && decide (now < c.expiry))
/-- A copy put in place of the word's former one. -/
def putCopy (cs : List Copy) (c : Copy) : List Copy := c :: cs.filter (fun x => x.word != c.word)
/-- The copies of a word dropped. -/
def dropCopy (cs : List Copy) (w : Nat) : List Copy := cs.filter (fun x => x.word != w)
/-- Bytes laid over the copy of a word: a copy never reads older than what its own core or die has pushed (R67; log
entry 12). -/
def patchCopy (cs : List Copy) (w : Nat) (cells : List Host.Cell) : List Copy :=
  cs.map (fun c => if c.word == w then { c with data := overlay c.data cells } else c)

/-! ### Completion times -/

/-- `%wct` of every group of a core raised (R68: the part may fold a WCT into more groups than the authors'). -/
def foldWct (s : State) (p : Group → Bool) (t : Nat) : State :=
  { s with groups := s.groups.map (fun g => if p g && decide (g.wct < t) then { g with wct := t } else g) }

/-- CD and CW of a core raised, and `%wct` of its groups (R68, R161). -/
def noteMerge (s : State) (c : CoreId) (t : Nat) : State :=
  let k := s.core c
  foldWct (s.setCore { k with cd := max k.cd t, cw := max k.cw t })
    (fun g => g.key.die == c.die && g.key.core == c.core) t

/-- As `noteMerge` for every core of a list on a die: a word marked MANY carries bytes of several (R60). -/
def noteMerges (s : State) (d : Nat) (cs : List Nat) (t : Nat) : State :=
  cs.foldl (fun (s : State) c => noteMerge s { die := d, core := c } t) s

/-- CD of a core raised (R161). -/
def noteDct (s : State) (c : CoreId) (t : Nat) : State :=
  let k := s.core c
  s.setCore { k with cd := max k.cd t }

/-! ### Merging at home -/

/-- Whether bytes of a word can merge at home now; if not, the request that must be answered first is sent: ownership
of a host line (R69), a back-invalidate of a device line that the host holds (R70). -/
def mayMerge (w : Nat) : M Unit := do
  let s ← get
  let line := wordLine w
  if isHost (32 * w) then
    if lookupN s.lines.mesi line = some .m then pure ()
    else
      if s.lines.rdOwn.contains line then pure ()
      else set ({ s with lines := { s.lines with rdOwn := line :: s.lines.rdOwn } }.send (.cxl line "RdOwn" none))
      waitStep
  else if (lookupN s.lines.held line).isSome then
    if s.lines.backInv.contains line then pure ()
    else set ({ s with lines := { s.lines with backInv := line :: s.lines.backInv } }.send (.cxl line "BISnp" none))
    waitStep
  else pure ()

/-! ### Protected sectors (R56, R285, R287) -/

/-- The place of a protected sector among those that its die covers: a bonded-DRAM sector of the die, or one of the CXL slot
of its port (R56). -/
def leafIndex (sec : Nat) : Nat :=
  if isDram (64 * sec) then sec % 2 ^ 28 else 2 ^ 36 + (sec - cxlBase / 64) % 2 ^ 36
/-- The sector at a place of a die's tree. -/
def leafSector (d i : Nat) : Nat :=
  if i < 2 ^ 36 then d * 2 ^ 28 + i
  else cxlBase / 64 + (match d with | 0 => 0 | 7 => 1 | 24 => 2 | _ => 3) * 2 ^ 36 + (i - 2 ^ 36)

/-- Levels of a die's tree below its root: 8^13 places (R56; the sizes of the tree: log entry 91). -/
def treeLevels : Nat := 12
/-- The number of node `i` of a level. -/
def nodeKey (level i : Nat) : Nat := level * 2 ^ 40 + i

/-- What stands at a level of a die's tree: a sector's version at level 0, above it the sum that a node keeps. -/
def treeAt (s : State) (d level i : Nat) : Nat :=
  match level with
  | 0 => (lookupN s.lines.version (leafSector d i)).getD 0
  | l + 1 => (lookupN (s.die d).nodes (nodeKey (l + 1) i)).getD 0

/-- The eight children of a node. -/
def childSum (s : State) (d level i : Nat) : Nat :=
  ((List.range 8).map (fun j => treeAt s d level (8 * i + j))).foldl (· + ·) 0

/-- Whether the version of a place agrees with the tree up to the root on the die (R56). -/
def treeOk (s : State) (d i : Nat) : Bool :=
  (List.range treeLevels).all (fun l => treeAt s d (l + 1) (i / 8 ^ (l + 1)) == childSum s d l (i / 8 ^ (l + 1))) &&
  (s.die d).root == childSum s d treeLevels 0

/-- The path of a place raised by one, from the leaf's parent to the root. -/
def raisePath (s : State) (d i : Nat) : State :=
  let die := s.die d
  s.setDie { die with
    root := die.root + 1
    nodes := (List.range treeLevels).foldl (fun n l =>
      let k := nodeKey (l + 1) (i / 8 ^ (l + 1))
      putN n k ((lookupN n k).getD 0 + 1)) die.nodes }

/-- The number of a world's key, while it has one (R285). -/
def keyNumber (s : State) (w : Nat) : Nat :=
  match s.world w with | some x => if x.keyed then x.keyGen else 0 | none => 0

/-- The 64 bytes of a sector. -/
def sectorData (s : State) (sec : Nat) : BitVec 512 := BitVec.ofNat 512 (readLE s.mem (64 * sec) 64)

/-- What the MAC of a sector has to have been made over. -/
def sealNow (s : State) (sec : Nat) : Seal :=
  let w := granuleOwner s (64 * sec)
  { world := w, key := keyNumber s w, version := (lookupN s.lines.version sec).getD 0, data := sectorData s sec }

/-- Whether a protected sector fails its check: its MAC, or its version against the tree (R56). One that nothing has written
under a world's key since its granule was last scrubbed has no MAC to fail (log entry 91). -/
def sectorBad (s : State) (sec : Nat) : Bool :=
  s.lines.forged.contains sec ||
  (match lookupN s.lines.mac sec with
   | none => false
   | some m => m != sealNow s sec || !treeOk s (homeDie (64 * sec)) (leafIndex sec))

/-- Words whose dirty bytes are about to be stored: through a page with PROT = 0, or not (R285). -/
def markWords (s : State) (ws : List Nat) : State :=
  let ws := ws.filter (fun w => isProtected s (32 * w))
  if ws.isEmpty then s
  else
    let rest := s.lines.plain.filter (fun x => !ws.contains x)
    { s with lines := { s.lines with plain := if s.unsealed then ws ++ rest else rest } }

/-- The effect on a protected sector of a write below the encryption boundary (R56, R285): under the world's key its version
rises with its path of the tree, and its MAC is made anew; under the package key, for an access through a page with PROT = 0,
the MAC stays as it was and matches no more. A sector that had failed its check goes on failing it. -/
def protectWrite (s : State) (w : Nat) (failed : Bool) : State :=
  let sec := w / 2
  if !isProtected s (32 * w) then s
  else if s.lines.plain.contains w then
    { s with lines := { s.lines with
        plain := s.lines.plain.filter (· != w)
        bare := w :: s.lines.bare.filter (· != w), forged := sec :: s.lines.forged.filter (· != sec) } }
  else
    let s : State := { s with lines := { s.lines with bare := s.lines.bare.filter (· != w) } }
    if failed then { s with lines := { s.lines with forged := sec :: s.lines.forged.filter (· != sec) } }
    else
      let s : State := { s with lines := { s.lines with
        version := putN s.lines.version sec ((lookupN s.lines.version sec).getD 0 + 1) } }
      let s := raisePath s (homeDie (64 * sec)) (leafIndex sec)
      { s with lines := { s.lines with mac := putN s.lines.mac sec (sealNow s sec) } }

/-- What stands in a word before bytes are laid over it through a page with PROT = 0: what a world's key had encrypted is no
longer there to be read by either key (R285). -/
def bareWord (s : State) (w : Nat) : BitVec 256 :=
  if (lookupN s.lines.mac (w / 2)).isSome && !s.lines.bare.contains w then Config.sealedWord s.tick w
  else homeWord s w

/-- Bytes of one word merged at home: the coherence order's next value (R59, R67), its WCT (R66). A merge that covers
the whole word clears a data error, any other merge logs it (R39). A merge into a protected sector that fails its check tears
down the world that owns it (R287). -/
def mergeNow (s : State) (w : Nat) (cells : List Host.Cell) : State × Nat :=
  let wct := max s.now ((lookupN s.lines.eMax w).getD 0) + 4
  let bad := s.lines.bad.contains w
  let plain := isProtected s (32 * w) && s.lines.plain.contains w
  let failed := isProtected s (32 * w) && !plain && sectorBad s (w / 2)
  let under := if plain then cellsOf (32 * w) (bareWord s w).toNat 32 else []
  let s := { s with mem := (under ++ cells).foldl (fun m c => writeCell m c.1 c.2) s.mem }
  let s := if bad && decide (32 ≤ cells.length) then
      { s with lines := { s.lines with bad := s.lines.bad.filter (· != w) } }
    else if bad then
      let d := s.die (wordDie w)
      (s.setDie { d with errors := (32 * w, 32 * w) :: d.errors }).send (.deviceEvent cMemError (32 * w))
    else s
  let s := protectWrite s w failed
  (if failed then s.due [.teardown (granuleOwner s (32 * w))] else s, wct)

/-! ### What the caches hold (R57, R69) -/

/-- Words of an L1: 128 KiB (R57). -/
def l1Words : Nat := 4096
/-- Words of a remote-data cache: 16 MiB (R57). -/
def rdcWords : Nat := 524288

/-- Whether a power unit is a way of a cache. -/
def ofCache (c : CacheId) : PowerUnit → Bool
  | .way x _ => x == c
  | .bank _ _ _ => false

/-- Ways of a cache that are closed or gated: they take no new allocation (R71). -/
def waysShut (s : State) (c : CacheId) : Nat :=
  (s.closing.filter (ofCache c)).length + (s.gated.filter (ofCache c)).length

/-- The words that an L1 may hold while some of its ways are shut (R57, R71; the size of a way: log entry 99). -/
def l1Cap (s : State) (c : CoreId) : Nat := l1Words - Config.l1Way * waysShut s (.l1 c.die c.core)

/-- Words of host lines in a remote-data cache: those of the lines that the die is proxy for (R57, R69). -/
def hostWords (s : State) (d : Nat) : Nat := 2 * (s.lines.mesi.filter (fun x => homeDie (64 * x.1) == d)).length

/-- The words of lines homed on other dies that a remote-data cache may hold (R57, R69, R71). -/
def rdcCap (s : State) (d : Nat) : Nat := rdcWords - Config.rdcWay * waysShut s (.rdc d) - hostWords s d

/-- Whether a die's remote-data cache may hold a word: one homed on another die. Of host lines it holds only those that the
die is proxy for, and there it is their home (R57, R69). -/
def rdcHolds (d w : Nat) : Bool := wordDie w != d && !isHost (32 * w)

/-- The words that a list of dirty bytes touches, each once. -/
def dirtyWords (m : List Host.Cell) : List Nat := (m.map (fun c => c.1 / 32)).eraseDups

/-- A copy put into a cache of `n` words that also holds dirty words: the copy that came first leaves a full cache (log
entry 78). -/
def fillCopy (n : Nat) (dirty : List Host.Cell) (cs : List Copy) (c : Copy) : List Copy :=
  (putCopy cs c).take (n - (dirtyWords dirty).length)

/-- Copies that no longer fit beside a cache's dirty words and host lines leave it (R57). -/
def trimRdc (s : State) (d : Nat) : State :=
  let die := s.die d
  s.setDie { die with copies := die.copies.take (rdcCap s d - (dirtyWords die.dirty).length) }

/-- The cores whose bytes stand, or stood before others replaced them, at some addresses of a remote-data cache (R161; log
entry 79). -/
def authorsOf (die : Die) (cells : List Host.Cell) : List Nat :=
  (cells.flatMap (fun c => (lookupN die.author c.1).getD [])).eraseDups

/-- The authors of some bytes forgotten: the bytes have merged. -/
def dropAuthors (l : List (Nat × List Nat)) (cells : List Host.Cell) : List (Nat × List Nat) :=
  l.filter (fun x => !cells.any (fun c => c.1 == x.1))

/-- A core named among the authors of some bytes. -/
def addAuthor (l : List (Nat × List Nat)) (core : Nat) (cells : List Host.Cell) : List (Nat × List Nat) :=
  cells.foldl (fun l c =>
    let who := (lookupN l c.1).getD []
    putN l c.1 (if who.contains core then who else core :: who)) l

/-- The copies of a word brought up to what a read at a later point returned: an acquire invalidates nothing, and no later
load of the path returns an older value (R63, R67, R163; log entry 12). -/
def refreshCopy (cs : List Copy) (w : Nat) (d : BitVec 256) : List Copy :=
  cs.map (fun c => if c.word == w then { c with data := d } else c)

/-! ### Pushes -/

/-- The remote-data cache's dirty bytes of a word pushed home (R60). -/
def pushRdc (d w : Nat) : M Unit := do
  let s ← get
  let die := s.die d
  let cells := wordCells die.dirty w
  if cells.isEmpty then pure ()
  else
    mayMerge w
    let s ← get
    let who := authorsOf die cells
    let (s, wct) := mergeNow s w cells
    let die := s.die d
    let s := s.setDie { die with dirty := otherCells die.dirty w, writer := dropN die.writer w,
                                 author := dropAuthors die.author cells,
                                 copies := patchCopy die.copies w cells }
    set (noteMerges s d who wct)

/-- Bytes of a word that pass a die's remote-data cache on their way home replace those that it holds dirty at the same
addresses: they were stored before them (R67; log entry 79). -/
def supersede (die : Die) (w : Nat) (cells : List Host.Cell) : Die :=
  let left := die.dirty.filter (fun x => !cells.any (fun c => c.1 == x.1))
  { die with
    dirty := left
    writer := if (wordCells left w).isEmpty then dropN die.writer w else die.writer
    author := dropAuthors die.author cells
    copies := patchCopy die.copies w cells }

/-- The L1's dirty bytes of a word pushed home (R58). -/
def pushL1Home (c : CoreId) (w : Nat) : M Unit := do
  let s ← get
  let cells := wordCells (s.core c).dirty w
  if cells.isEmpty then pure ()
  else
    mayMerge w
    let s ← get
    let (s, wct) := mergeNow s w cells
    let k := s.core c
    let s := s.setCore { k with dirty := otherCells k.dirty w, copies := patchCopy k.copies w cells
                                leaving := k.leaving.filter (fun x => x != w) }
    let die := s.die c.die
    set (noteMerge (noteMerges (s.setDie (supersede die w cells)) c.die (authorsOf die cells) wct) c wct)

/-- Pushes made for each word in turn; one that must wait does not hold up the others, and the wait is met at the
end (R162). -/
def pushAll (ws : List Nat) (push : Nat → M Unit) : M Unit := do
  let blocked ← ws.foldlM (fun (b : Bool) w => fun s =>
    match push w s with
    | .ok _ s' => .ok b s'
    | .error (.fault f) s' => .error (.fault f) s'
    | .error _ s' => .ok true s') false
  if blocked then waitStep else pure ()

/-- Room in a die's remote-data cache for the words that are about to be dirtied: a full one evicts other words first (R57,
R58; log entry 78). -/
def roomRdc (d : Nat) (ws : List Nat) : M Unit := do
  let s ← get
  let have_ := dirtyWords (s.die d).dirty
  let new := ws.eraseDups.filter (fun w => !have_.contains w)
  pushAll ((have_.filter (fun w => !ws.contains w)).take (have_.length + new.length - rdcCap s d)) (pushRdc d)

/-- The L1's dirty bytes of a word pushed to the die's L2 if it is home there, else to the remote-data cache (R58,
R161). Bytes of a host line go to its proxy die, which alone caches it (R69; log entry 80). -/
def pushL1Die (c : CoreId) (w : Nat) : M Unit := do
  let s ← get
  let cells := wordCells (s.core c).dirty w
  if cells.isEmpty then pure ()
  else if !rdcHolds c.die w then pushL1Home c w
  else
    roomRdc c.die [w]
    let s ← get
    let die := s.die c.die
    let dct := max s.now ((lookupN die.eDie w).getD 0) + 4
    let who := (lookupN die.writer w).getD []
    let s := s.setDie { die with dirty := cells.foldl (fun m b => putCell m b.1 b.2) die.dirty,
                                 writer := putN die.writer w (if who.contains c.core then who else c.core :: who)
                                 author := addAuthor die.author c.core cells }
    let s := trimRdc s c.die
    let k := s.core c
    let s := s.setCore { k with dirty := otherCells k.dirty w, copies := patchCopy k.copies w cells
                                leaving := k.leaving.filter (fun x => x != w) }
    set (noteDct s c dct)

/-- Every dirty byte of the core's L1 to its die (R162, DIE row). -/
def pushCoreDie (c : CoreId) : M Unit := do
  let s ← get
  pushAll (dirtyWords (s.core c).dirty) (pushL1Die c)

/-- The remote-data-cache words that a PACKAGE release of core `c` pushes: dirtied by the core, or marked MANY, that is by
more than one core (R60). -/
def rdcOwn (s : State) (c : CoreId) : List Nat :=
  ((s.die c.die).writer.filter (fun p => p.2.contains c.core || decide (2 ≤ p.2.length))).map (·.1)

/-- The pushes of a PACKAGE release (R162). -/
def pushCoreHome (c : CoreId) : M Unit := do
  let s ← get
  pushAll (rdcOwn s c) (pushRdc c.die)
  let s ← get
  pushAll (dirtyWords (s.core c).dirty) (pushL1Home c)

/-- The pushes before a read at home (R355): what a word held dirty with another single core's id keeps. -/
def pushForRead (c : CoreId) (w : Nat) : M Unit := do
  let s ← get
  if rdcHolds c.die w && (rdcOwn s c).contains w then pushRdc c.die w else pure ()
  pushL1Home c w

/-! ### Leases and reads -/

/-- How a load treats the caches: CP of its page (R44), CPOL and LEASE of its HMOD (R25). -/
structure Policy where
  cp    : Nat
  cpol  : Nat
  lease : Nat
  deriving DecidableEq, Repr

/-- Bypasses the L1 (R58). -/
def Policy.noL1 (p : Policy) : Bool := decide (1 ≤ p.cp) || p.cpol == 1 || p.cpol == 2
/-- Served at home (R58). -/
def Policy.atHome (p : Policy) : Bool := p.cp == 2 || p.cpol == 2

/-- The largest lease length that is at most `n` ns: a power of two from 64 to 2,048 (R64); none where `n` is below 64. -/
def leaseFit (n : Nat) : Option Nat := [2048, 1024, 512, 256, 128, 64].find? (fun l => decide (l ≤ n))

/-- The lease length asked for (R64, R69): the one that HMOD names, else one that the part chooses (a free value), at most
256 ns on a host line. -/
def leaseLen (s : State) (p : Policy) (w : Nat) : Nat :=
  let n := if 1 ≤ p.lease then 64 * 2 ^ (p.lease - 1)
    else match s.given.lease with
      | some n => (leaseFit n).getD 64
      | none => 64 * 2 ^ (Config.leaseExp s.tick).val
  if isHost (32 * w) then min n 256 else n

/-- What a read at home returns: it faults on a data error and on a failed check (R39, R56, R287), which a read through a page
with PROT = 0 does not make: it finds nothing of what a world's key encrypts (R285); and it waits for the
host's data where the host holds a device line modified (R70). -/
def readHome (w : Nat) : M (BitVec 256) := do
  let s ← get
  if s.lines.bad.contains w then failWord (32 * w)
  else if isProtected s (32 * w) && s.unsealed then pure (bareWord s w)
  else if isProtected s (32 * w) && sectorBad s (w / 2) then failCode cIntegrity (32 * w)
  else if lookupN s.lines.held (wordLine w) = some true then
    if s.lines.backInv.contains (wordLine w) then pure ()
    else set ({ s with lines := { s.lines with backInv := wordLine w :: s.lines.backInv } }.send
      (.cxl (wordLine w) "BISnp" none))
    waitStep
  else
    if isHost (32 * w) ∧ (lookupN s.lines.mesi (wordLine w)).getD .i = .i then
      -- the line takes room in its proxy's cache
      set (trimRdc ({ s with lines := { s.lines with mesi := putN s.lines.mesi (wordLine w) .s } }.send
        (.cxl (wordLine w) "RdShared" none)) (wordDie w))
    let s ← get
    pure (homeWord s w)

/-- A lease on a word granted by its home: E_max rises to its end (R65). -/
def grantLease (w e : Nat) : M Unit :=
  modify (fun s => { s with lines := { s.lines with eMax := raiseN s.lines.eMax w e } })

/-- The word as the die serves it to its L1s, and the end of the lease that it grants one of them where one is wanted (R58,
R64, R65): the home grants it, or, for a line homed elsewhere, the remote-data cache within its own lease on the word. A
read that takes no copy takes no lease. DESIGN CHOICE (log entry 100): where the cache's own lease has less left than was
asked for, the L1 gets the longest power of two that fits, and no copy where none does; R64 names no such case. -/
def readDie (d : Nat) (p : Policy) (w : Nat) (lease : Bool) : M (BitVec 256 × Option Nat) := do
  let s ← get
  let want := leaseLen s p w
  if !rdcHolds d w then
    let data ← readHome w
    if lease then grantLease w (s.now + want) else pure ()
    pure (data, if lease then some (s.now + want) else none)
  else
    let die := s.die d
    match liveCopy s.now die.copies w with
    | some c =>
      pure (overlay c.data (wordCells die.dirty w),
            if lease then (leaseFit (min want (c.expiry - s.now))).map (s.now + ·) else none)
    | none =>
      let data ← readHome w
      grantLease w (s.now + want)
      let s ← get
      let die := s.die d
      let cp : Copy := { word := w, data := data, expiry := s.now + want }
      set (s.setDie { die with copies := fillCopy (rdcCap s d) die.dirty die.copies cp })
      pure (overlay data (wordCells die.dirty w), if lease then some (s.now + want) else none)

/-- A word read at its home on behalf of a core, after the pushes of R355: the caches' copies of it become what was read,
in the L1 under the bytes that the remote-data cache still holds dirty, for a plain load may have read those (R67); where the
policy bypasses the remote-data cache that cache drops its own (R58, R60). -/
def readAtHome (c : CoreId) (bypass : Bool) (w : Nat) : M (BitVec 256) := do
  pushForRead c w
  let data ← readHome w
  modify (fun s =>
    let k := s.core c
    let die := s.die c.die
    (s.setCore { k with copies := refreshCopy k.copies w (overlay data (wordCells die.dirty w)) }).setDie
      { die with copies := if bypass then dropCopy die.copies w else refreshCopy die.copies w data })
  pure data

/-- The word as core `c` sees it through a plain load (R58, R63, R355). -/
def readPlain (c : CoreId) (p : Policy) (w : Nat) (covered : Bool) : M (BitVec 256) := do
  let s ← get
  let k := s.core c
  let own := wordCells k.dirty w
  if p.atHome then readAtHome c true w
  else if covered then pure (overlay 0 own)
  else
    match (if p.noL1 then none else liveCopy s.now k.copies w) with
    | some cp => pure (overlay cp.data own)
    | none =>
      let (data, e) ← readDie c.die p w !p.noL1
      modify (fun s =>
        let k := s.core c
        match e with
        | some e =>
          let die := s.die c.die
          let cp : Copy := { word := w, data := data, expiry := e }
          (s.setCore { k with copies := fillCopy (l1Cap s c) k.dirty k.copies cp }).setDie
            { die with eDie := raiseN die.eDie w e }
        | none => s.setCore { k with copies := refreshCopy k.copies w data })
      pure (overlay data own)

/-- Whether the core's own dirty bytes cover `n` bytes from an address. -/
def coveredBy (m : List Host.Cell) (h n : Nat) : Bool :=
  (List.range n).all (fun i => (findCell m (h + i)).isSome)

/-- `n` bytes of a word as a number. -/
def sliceWord (d : BitVec 256) (h n : Nat) : Nat := d.toNat / 2 ^ (8 * (h % 32)) % 2 ^ (8 * n)

/-- A word of a protected range read through a page with PROT = 0: at home under the core's own dirty bytes, for what the caches
hold there was deciphered under another key (R285; log entry 91). -/
def readBare (c : CoreId) (w : Nat) : M (BitVec 256) := do
  pushForRead c w
  readHome w

/-- Whether an access made now deciphers a word under the package key though it lies in a protected range. -/
def bareAccess (s : State) (h : Nat) : Bool := s.unsealed && isProtected s h

/-- A plain load of `n` naturally aligned bytes, in one piece (R62). -/
def loadPlain (c : CoreId) (p : Policy) (h n : Nat) : M Nat := do
  let s ← get
  let d ← if bareAccess s h then readBare c (h / 32) else readPlain c p (h / 32) (coveredBy (s.core c).dirty h n)
  pure (sliceWord d h n)

/-- The scope at whose point an access is performed: a page that is read at home only has it performed at home (R44, R58,
R159). CPOL moves no ordered access: it affects its timing only (R172). -/
def Policy.reaches (p : Policy) (sc : Scope) : Scope := if p.cp == 2 && sc != .sys then .pkg else sc

/-- The policy of an ordered access at CORE scope: of CPOL only that it allocates nothing is left (R172). -/
def Policy.ordered (p : Policy) : Policy := { p with cpol := min p.cpol 1 }

/-- A read at the point of performance of a scope (R159, R163, R355). At DIE scope and wider it allocates nothing in the
L1 (R172). -/
def readAt (c : CoreId) (sc : Scope) (p : Policy) (h n : Nat) : M Nat := do
  let s ← get
  match if bareAccess s h then .core else p.reaches sc with
  | .core => loadPlain c p h n
  | .die =>
    let s ← get
    let own := wordCells (s.core c).dirty (h / 32)
    let (data, _) ← readDie c.die p (h / 32) false
    modify (fun s => let k := s.core c; s.setCore { k with copies := refreshCopy k.copies (h / 32) data })
    pure (sliceWord (overlay data own) h n)
  | _ =>
    let d ← readAtHome c p.atHome (h / 32)
    pure (sliceWord d h n)

/-! ### Writes -/

/-- Room in the L1 for the words that are about to be dirtied: a full L1 evicts other words first (R57, R58; log entry
78). -/
def roomL1 (c : CoreId) (ws : List Nat) : M Unit := do
  let s ← get
  let have_ := dirtyWords (s.core c).dirty
  let new := ws.eraseDups.filter (fun w => !have_.contains w)
  pushAll ((have_.filter (fun w => !ws.contains w)).take (have_.length + new.length - l1Cap s c)) (pushL1Home c)

/-- A store into the L1, dirty by byte mask (R58); with `note` the word counts as stored on the core by the world since its
last wide release (R174). Page attribute CP and CPOL send it on at once (R58); where its merge must wait it leaves the L1 as
soon as it may. -/
def storeNoted (c : CoreId) (world : Nat) (p : Policy) (note : Bool) (cells : List Host.Cell) : M Unit := do
  modify (fun s =>
    let s := markWords s (dirtyWords cells)
    let k := s.core c
    let dirty := cells.foldl (fun m b => putCell m b.1 b.2) k.dirty
    s.setCore { k with dirty := dirty,
                       copies := k.copies.take (l1Cap s c - (dirtyWords dirty).length)
                       leaving := if p.noL1 then (dirtyWords cells ++ k.leaving).eraseDups else k.leaving
                       stored := if note then ((dirtyWords cells).map (fun w => (w, world)) ++ k.stored).eraseDups
                         else k.stored })
  if p.noL1 then
    fun s => match pushAll (dirtyWords cells) (pushL1Home c) s with
      | .ok _ s' => .ok () s'
      | .error _ s' => .ok () s'
  else pure ()

/-- A plain store. -/
def storePlain (c : CoreId) (world : Nat) (p : Policy) (cells : List Host.Cell) : M Unit := storeNoted c world p true cells

/-- A write performed at a scope's point of performance (R156, R162). CORE: into the L1, dirty. DIE: in the die's L2
or remote-data cache. Wider: merged at home. The own store of a wide release (`own`) is not one since that release (R174). -/
def writeAt (c : CoreId) (world : Nat) (sc : Scope) (p : Policy) (own : Bool) (cells : List Host.Cell) : M Unit := do
  storeNoted c world (if sc = .core then p else { cp := 0, cpol := 0, lease := 0 }) (!own || sc = .core || sc = .die) cells
  let ws := dirtyWords cells
  match p.reaches sc with
  | .core => pure ()
  | .die => pushAll ws (pushL1Die c)
  | _ =>
    pushAll ws (pushL1Home c)

/-- Drops the core's L1 copies of a word, for an atomic at DIE scope or wider (R156). -/
def dropAt (c : CoreId) (sc : Scope) (w : Nat) : M Unit :=
  modify (fun s =>
    let k := s.core c
    match sc with
    | .core => s
    | _ => s.setCore { k with copies := dropCopy k.copies w })

/-- The pushes of an atomic before its read-modify-write, by scope (R156): the core's own dirty bytes, and for one at home
also what the die's remote-data cache holds dirty of the word, where narrower atomics of the die have been performed. -/
def pushForAtomic (c : CoreId) (sc : Scope) (w : Nat) : M Unit := do
  match sc with
  | .core => pure ()
  | .die => pushL1Die c w
  | _ =>
    if rdcHolds c.die w then pushRdc c.die w else pure ()
    pushL1Home c w
    mayMerge w

/-! ### Accesses of the part itself: below the L1s -/

/-- A read by an engine or the firmware: home contents, with what the die's remote-data cache holds dirty left aside
(R88, R222, R356). -/
def readBelow (h n : Nat) : M Nat := do
  let d ← readHome (h / 32)
  pure (sliceWord d h n)

/-- A read by the copy engine of a die: a line of another die from the remote-data cache's copy while its lease is in
force, else at home, under the bytes that the cache holds dirty (R88, R159, R169). A host line comes from its proxy die. -/
def engineRead (d h n : Nat) : M Nat := do
  let s ← get
  let w := h / 32
  if rdcHolds d w && !bareAccess s h then
    let own := wordCells (s.die d).dirty w
    match liveCopy s.now (s.die d).copies w with
    | some c => pure (sliceWord (overlay c.data own) h n)
    | none =>
      let x ← readHome w
      pure (sliceWord (overlay x own) h n)
  else readBelow h n

/-- A write by an engine or the firmware, merged at home with a byte mask; the completion time counts as the core's
where a group issued it, and that core's L1 copies of the words are dropped (R88, R89, R161). An uncorrectable word that the bytes do not cover is an error of the access (R39). -/
def writeBelow (by_ : Option CoreId) (cells : List Host.Cell) : M Nat := do
  let s ← get
  match (dirtyWords cells).find? (fun w => s.lines.bad.contains w && decide ((wordCells cells w).length < 32)) with
  | some w => failWord (32 * w)
  | none =>
    (dirtyWords cells).foldlM (fun t w => do
      mayMerge w
      let s ← get
      let mine := wordCells cells w
      let (s, wct) := mergeNow (markWords s [w]) w mine
      set (match by_ with
        | some c =>
          let s := noteMerge s c wct
          let k := s.core c
          let die := s.die c.die
          (s.setCore { k with copies := dropCopy k.copies w }).setDie { die with copies := patchCopy die.copies w mine }
        | none => s)
      pure (max t wct)) 0

end Sys2Proof.Machine
end

