-- ==== Sys2Proof/Machine/Records.lean ====
section
/-! DEFINITION. Changes of a queue record (R219, R220), exception records as they become due (R226, R227), and the
notices of fatal faults (R238). -/

namespace Sys2Proof.Machine

/-! ### Queue records -/

/-- A change of RIDX, STATE or DROPPED by the owner: VERSION rises and every replica is invalidated; the owner starts
nothing until all other dies acknowledge (R220). -/
def changeQueue (s : State) (q : Queue) : State :=
  let others := (List.range 32).filter (fun d => d != q.owner)
  s.setQueue { q with version := q.version + 1, acks := others, replicas := [] }

/-- A die that uses a queue's record fetches it afresh where its replica is invalid (R220). -/
def useReplica (s : State) (q : QueueId) (d : Nat) : State :=
  match s.queue q with
  | none => s
  | some qu =>
    if d = qu.owner || (lookupN qu.replicas d).isSome then s
    else
      let r : Replica := { version := qu.version, ridx := qu.ridx, state := qu.state, dropped := qu.dropped }
      s.setQueue { qu with replicas := putN qu.replicas d r }

/-- The started packet of an index. -/
def startedPacket (q : Queue) (pidx : Nat) : Option Packet := q.started.find? (fun p => p.pidx == pidx)

/-- QTAG of a started packet (R221), else zero. -/
def qtagOf (q : Queue) (pidx : Nat) : BitVec 16 :=
  match startedPacket q pidx with
  | some p => ((p.words[0]?).getD 0).extractLsb' 16 16
  | none => 0

/-! ### Exception records -/

/-- Whether a record's kind requires an answer (R227). -/
def needsAnswer (k : Byte) : Bool := decide (1 ≤ k.toNat ∧ k.toNat ≤ 3)

/-- A record becomes due: a kind that needs an answer halts the queue at once (R227); it is written by the next
HELD_RECORD_WRITE. -/
def postRecord (s : State) (q : QueueId) (r : ExRecord) : State :=
  match s.queue q with
  | none => s
  | some qu =>
    let qu := { qu with held := qu.held ++ [r] }
    let s := if needsAnswer r.kind && qu.state == 0 then
        changeQueue s { qu with state := 1 }
      else s.setQueue qu
    s.due [.heldRecordWrite q]

/-- A notice as it stands on a queue; `tag` is the QTAG of a packet that is not among the started ones (R226). -/
def noticeOf (s : State) (q : Option QueueId) (kind code pidx addr : Nat) (pc : Word) (lane : Nat) (lmask : Word)
    (tag : Option (BitVec 16)) : ExRecord :=
  let own := match q.bind s.queue with | some qu => qtagOf qu pidx | none => 0
  { kind := BitVec.ofNat 8 kind, code := BitVec.ofNat 8 code, pidx := pidx, qtag := tag.getD own
    addr := BitVec.ofNat 64 addr, pc := BitVec.ofNat 64 (pc.toNat + 2 ^ 32 * (lane % 32)), lmask := lmask }

/-- A notice (R227). -/
def postNotice (s : State) (q : QueueId) (kind code pidx : Nat) (addr : Nat) (pc : Word) (lane : Nat)
    (lmask : Word) : State :=
  postRecord s q (noticeOf s (some q) kind code pidx addr pc lane lmask none)

/-! ### Fatal faults -/

/-- The physical address and the home of an uncorrectable word that an access met go to the error log of its home's die
(R39). -/
def noteError (s : State) (f : FaultInfo) : State :=
  match f.home with
  | some h => let d := s.die (homeDie h); s.setDie { d with errors := (f.pa.getD h, h) :: d.errors }
  | none => s

/-- The same for an access that has no requester, which raises a device event too (R39). -/
def noteAlone (s : State) (f : FaultInfo) : State :=
  match f.home with
  | some h => (noteError s f).send (.deviceEvent cMemError h)
  | none => s

/-- One fatal fault (R238): its notice is noted, unless the world's address space has been withdrawn already, and the
teardown is due, which posts it. A fault that concerns no packet is posted on every queue. `tag` is the QTAG of a packet that
is not among the started ones. -/
def fatalOn (s : State) (world : Nat) (q : Option QueueId) (pidx code addr : Nat) (pc : Word) (lane : Nat)
    (lmask : Word) (tag : Option (BitVec 16) := none) : State :=
  match s.world world with
  | none => s
  | some w =>
    if w.failed then s
    else
      let r := noticeOf s q 4 code (if q.isSome then pidx else 0) addr pc lane lmask tag
      let s := s.setWorld
        { w with notices := w.notices ++ [(q, r)], dying := if w.dying.isSome then w.dying else some s.now }
      if w.dying.isSome then s else s.due [.teardown world]

/-- The packet that a launch's faults concern (R238). -/
def launchPacket (s : State) (launch : Nat) : Option (QueueId × Nat) :=
  (s.launch launch).map (fun l => (l.queue, l.pidx))

/-- A group that has met a fatal fault issues nothing more: its paths stand still until the teardown retires it. -/
def haltGroup (s : State) (k : Key) : State :=
  match s.group k with
  | none => s
  | some g =>
    let still (p : Path) : Path := { p with parked := some (s.now + 1000000) }
    s.setGroup { g with slot0 := g.slot0.map still, slot1 := g.slot1.map still }

/-- A fatal fault of a group (R238). -/
def fatalGroup (s : State) (g : Group) (code addr : Nat) (pc : Word) (lane : Nat) (lmask : Word) : State :=
  match launchPacket s g.launch with
  | some (q, i) => haltGroup (fatalOn s g.world (some q) i code addr pc lane lmask) g.key
  | none => haltGroup (fatalOn s g.world none 0 code addr pc lane lmask) g.key

end Sys2Proof.Machine
end

