-- ==== Sys2Proof/Machine/Translate.lean ====
section
/-! DEFINITION. Virtual addresses (R41), device page tables and walks (R43-R48), host pages by ATS and PRI (R47,
R51, R52), the faults of R54 and the recoverable absences of R55. -/

namespace Sys2Proof.Machine

/-- What an access wants of a page. -/
structure Want where
  write : Bool
  exec  : Bool
  deriving DecidableEq, Repr

def wantRead : Want := { write := false, exec := false }
def wantWrite : Want := { write := true, exec := false }
def wantExec : Want := { write := false, exec := true }

/-- The home address of a place (R37). -/
def Place.home (p : Place) : Nat := homeOf p.pa

/-- Who makes an access: the core whose TLBs it uses (none for the firmware, R356), its world, and the queue whose
exception queue takes an XLATE_DEMAND record (R55; none where no such record is raised), with its packet; `pc` and `lanes`
(with their addresses) are those of the word that makes it, where a word does (R226). -/
structure Asker where
  core  : Option CoreId
  world : Nat
  queue : Option QueueId
  pidx  : Nat
  pc    : Word := 0
  lanes : List (Nat × Nat) := []
  deriving DecidableEq, Repr

/-! ### The world translation record (R42) -/

def xlatOf (s : State) (w : Nat) : Nat := match s.world w with | some x => x.xlat.toNat | none => 0
def xEn (x : Nat) : Bool := bitsOf x 0 1 == 1
def xDemand (x : Nat) : Bool := bitsOf x 1 1 == 1
def xRoot (x : Nat) : Nat := bitsOf x 12 40 * 0x1000
def xPasid (x : Nat) : Nat := bitsOf x 64 20
def xHosten (x : Nat) : Bool := bitsOf x 95 1 == 1

/-! ### Entries -/

/-- The span of a level's entry is `2^(12 + 9·level)` bytes (R43). -/
def levelShift (l : Nat) : Nat := 12 + 9 * l

/-- The page size of a leaf by level and SZ (R45); no other combination is a leaf. -/
def leafSize (level sz : Nat) : Option Nat :=
  match level, sz with
  | 0, 0 => some 0x1000
  | 0, 1 => some 0x10000
  | 1, 0 => some 0x200000
  | 1, 1 => some 0x2000000
  | 1, 2 => some 0x20000000
  | _, _ => none

/-- Whether a whole page lies in a window that may be mapped (R35, R40, R45). -/
def pageFits (s : State) (world frame size : Nat) : Bool :=
  decide (frame + size ≤ 0x8000000000) ||
  decide (0x8000000000 ≤ frame ∧ frame + size ≤ 0x10000000000) ||
  (decide (cxlBase ≤ frame ∧ frame < cxlBase + 0x100000000000) &&
    (let p := (frame - cxlBase) / 0x40000000000
     let o := (frame - cxlBase) % 0x40000000000
     decide (o + size ≤ (s.trust.config.cxl[p]?).getD 0))) ||
  (world == 0 && decide (hostBase ≤ frame ∧ frame + size ≤ 2 * hostBase))

/-- Whether a page lies in the protected range that R56 gives its home die, or for a CXL page the one of its slot. -/
def pageProtected (s : State) (frame size : Nat) : Bool :=
  if decide (0x8000000000 ≤ frame ∧ frame < 0x10000000000) && decide (0x10000 < size) then
    (List.range 32).all (fun d =>
      isProtected s (homeOf (frame / 0x200000 * 0x200000 + d * 0x10000)) &&
      isProtected s (homeOf ((frame + size - 1) / 0x200000 * 0x200000 + d * 0x10000 + 0xFFFF)))
  else isProtected s (homeOf frame) && isProtected s (homeOf (frame + size - 1))

/-- A leaf that a walk reached: its page, attributes and rights, and the address of its entry. -/
structure Leaf where
  frame : Nat
  size  : Nat
  entry : Nat
  bits  : Nat
  deriving DecidableEq, Repr

/-- What one entry means at a level (R44, R45): the next table, a leaf, or a fault. -/
def readEntry (s : State) (world level e : Nat) : Except Nat (Nat ⊕ (Nat × Nat)) :=
  if bitsOf e 0 1 = 0 then .error cAbsent
  else if bitsOf e 60 4 ≠ 0 ∨ bitsOf e 52 4 ≠ 0 ∨ bitsOf e 6 1 ≠ 0 then .error cMalformed
  else
    let frame := bitsOf e 12 40 * 0x1000
    if bitsOf e 1 1 = 0 then
      if bitsOf e 2 10 ≠ 0 ∨ level = 0 ∨ 0x10000000000 ≤ frame then .error cMalformed else .ok (.inl frame)
    else
      match leafSize level (bitsOf e 10 2) with
      | none => .error cMalformed
      | some size =>
        if bitsOf e 8 2 = 3 ∨ frame % size ≠ 0 ∨ !pageFits s world frame size
            ∨ (bitsOf e 7 1 = 1 ∧ !pageProtected s frame size) then .error cMalformed
        else .ok (.inr (frame, size))

/-- The walk from a table at a level down (R43, R48): entries are read at home. -/
def walkFrom (world va : Nat) : Nat → Nat → M Leaf
  | level, table => do
    let addr := table + 8 * (va / 2 ^ levelShift level % 512)
    let e ← byPa addr (readBelow (homeOf addr) 8)
    let s ← get
    match readEntry s world level e with
    | .error c => failCode c va
    | .ok (.inr (frame, size)) => pure { frame := frame, size := size, entry := homeOf addr, bits := e }
    | .ok (.inl next) =>
      match level with
      | 0 => failCode cMalformed va
      | l + 1 => walkFrom world va l next

/-- A and D set in a leaf's entry by compare-and-swap at its home (R46), and what the entry then holds; within one step
nothing comes between. -/
def markLeaf (l : Leaf) (write : Bool) : M Nat := do
  let e := if bitsOf l.bits 4 1 = 0 then l.bits + 0x10 else l.bits
  let e := if write && bitsOf l.bits 5 1 = 0 then e + 0x20 else e
  if e = l.bits then pure ()
  else
    let _ ← writeBelow none (cellsOf l.entry e 8)
    pure ()
  pure e

/-! ### TLBs -/

/-- Entries kept by a TLB of a given size, newest first (R47). DESIGN CHOICE (log entry 81): a full TLB gives up the entry
that was installed first; the spec does not say which. -/
def capTlb (p : TlbEntry → Bool) : Nat → List TlbEntry → List TlbEntry
  | _, [] => []
  | n, e :: r =>
    if p e then (match n with | 0 => capTlb p 0 r | n + 1 => e :: capTlb p n r) else e :: capTlb p n r

/-- The quad TLB has 2,048 entries in sets of 8 (R47); the set of a page is a free value (log entry 81), which matters only
once more than eight entries are there. -/
def capQuad (q : QuadId) (e : TlbEntry) (t : List TlbEntry) : List TlbEntry :=
  let mine (x : TlbEntry) : Bool := x.core == none && x.quad == q
  if (t.filter mine).length ≤ 8 then t
  else capTlb (fun x => mine x && Config.tlbSet x.world x.base == Config.tlbSet e.world e.base) 8 t

/-- A translation installed in the core and quad TLBs (R47). -/
def fillTlb (s : State) (c : CoreId) (e : TlbEntry) : State :=
  let t := { e with core := some c, quad := coreQuad c } :: { e with core := none, quad := coreQuad c } ::
    s.xlat.tlb.filter (fun x => !(x.world == e.world && x.host == e.host && x.base == e.base &&
      x.quad == coreQuad c && (x.core == none || x.core == some c)))
  { s with xlat := { s.xlat with tlb := capQuad (coreQuad c) e (capTlb (fun x => x.core == some c) 64 t) } }

/-- The translation of a half that a core finds in its own or its quad's TLB (R47). -/
def findTlb (s : State) (c : CoreId) (world : Nat) (host : Bool) (va : Nat) : Option TlbEntry :=
  let hit (e : TlbEntry) : Bool := e.world == world && e.host == host && decide (e.base ≤ va ∧ va < e.base + e.size)
  match s.xlat.tlb.find? (fun e => e.core == some c && hit e) with
  | some e => some e
  | none => s.xlat.tlb.find? (fun e => e.core == none && e.quad == coreQuad c && hit e)

/-- Ownership of a protected granule (R286). -/
def checkOwner (world : Nat) (p : Place) : M Place := do
  let s ← get
  if p.prot && isProtected s p.home && granuleOwner s p.home != world then failCode cIntegrity p.home else pure p

/-- A walk made and its leaf's rights checked, A (and for a write D) set, and the leaf installed in the TLBs of the core
that asks (R43-R48). -/
def walkIn (a : Asker) (va : Nat) (w : Want) : M Place := do
  let s ← get
  let l ← walkFrom a.world va 4 (xRoot (xlatOf s a.world))
  if (w.write && bitsOf l.bits 2 1 = 0) || (w.exec && bitsOf l.bits 3 1 = 0) then failCode cPerm va
  else
    let bits ← markLeaf l w.write
    let base := va / l.size * l.size
    match a.core with
    | some c =>
      let e : TlbEntry :=
        { core := none, quad := coreQuad c, world := a.world, host := false, base := base,
          size := l.size, frame := l.frame, r := true, w := bitsOf l.bits 2 1 == 1, x := bitsOf l.bits 3 1 == 1,
          cp := bitsOf l.bits 8 2, prot := bitsOf l.bits 7 1 == 1, d := bitsOf bits 5 1 == 1, leaf := l.entry, bits := bits }
      modify (fun (s : State) => fillTlb s c e)
    | none => pure ()
    checkOwner a.world { pa := l.frame + (va - base), cp := bitsOf l.bits 8 2,
                         prot := bitsOf l.bits 7 1 == 1 }

/-- A miss of a core at its die's walker (R48): it joins the walk of its page, or, where the part has walks end in later
steps or 128 are under way, it begins one and waits. DESIGN CHOICE (log entry 82): before a walk has found its leaf the page
that it is for is taken to be the one of 4 KiB. -/
def joinWalk (c : CoreId) (world page : Nat) : M Unit := do
  let s ← get
  let d := s.die c.die
  if d.walks.any (fun x => x.world == world && x.page == page) then
    set (s.setDie { d with walks := d.walks.map (fun x =>
      if x.world == world && x.page == page && !x.joined.contains c then { x with joined := x.joined ++ [c] } else x) })
    waitStep
  else if s.given.deferWalk || decide (128 ≤ d.walks.length) then
    set (s.setDie { d with walks := d.walks ++ [{ world := world, page := page, joined := [c] }] })
    waitStep
  else pure ()

/-- The device half (R43-R48, R54): TLBs, then a walk. Before the first write through a cached translation D is set by a
compare-and-swap against what the walk read; where the entry has changed since, the walk restarts (R46). -/
def translateDevice (a : Asker) (va : Nat) (w : Want) : M Place := do
  let s ← get
  if !xEn (xlatOf s a.world) then failCode cAbsent va
  else
    let hit := match a.core with | some c => findTlb s c a.world false va | none => none
    match hit with
    | some e =>
      if (w.write && !e.w) || (w.exec && !e.x) then failCode cPerm va
      else if w.write && !e.d then
        let now ← readBelow e.leaf 8
        if now = e.bits then
          let bits ← markLeaf { frame := e.frame, size := e.size, entry := e.leaf, bits := e.bits } true
          modify (fun (s : State) => { s with xlat := { s.xlat with tlb := s.xlat.tlb.map (fun t =>
            if t.world == a.world && t.leaf == e.leaf && t.bits == e.bits && !t.host then { t with d := true, bits := bits }
            else t) } })
          checkOwner a.world { pa := e.frame + (va - e.base), cp := e.cp, prot := e.prot }
        else walkIn a va w
      else checkOwner a.world { pa := e.frame + (va - e.base), cp := e.cp, prot := e.prot }
    | none =>
      match a.core with
      | some c => joinWalk c a.world (va / 0x1000)
      | none => pure ()
      walkIn a va w

/-! ### The host half (R47, R51, R52) -/

/-- The host page that an access finds: in the TLBs of its core, or among those that the firmware holds. -/
def heldHost (s : State) (a : Asker) (va : Nat) : Option HostPage :=
  match a.core with
  | some c => (findTlb s c a.world true va).map (fun e =>
      { base := e.base, size := e.size, frame := e.frame, r := e.r, w := e.w, x := e.x })
  | none => (s.xlat.host.find? (fun p => p.1 == a.world && decide (p.2.base ≤ va ∧ va < p.2.base + p.2.size))).map (·.2)

/-- A Translation Request sent to the host, or the miss joined to the one that is under way (R47). -/
def askAts (a : Asker) (pasid page : Nat) (exec : Bool) : M Unit := do
  let s ← get
  let mine (x : AtsReq) : Bool := x.world == a.world && x.page == page && x.exec == exec
  if s.xlat.ats.any mine then
    set { s with xlat := { s.xlat with ats := s.xlat.ats.map (fun x =>
      if mine x then { x with joined := (a.core.toList ++ x.joined).eraseDups, fw := x.fw || a.core.isNone } else x) } }
  else
    let r : AtsReq := { world := a.world, page := page, exec := exec, joined := a.core.toList, fw := a.core.isNone }
    let s' : State := { s with xlat := { s.xlat with ats := s.xlat.ats ++ [r] } }
    set (s'.send (.atsRequest pasid page exec))
  waitStep

/-- Page requests that may be outstanding (R51, R52): 1,024 for the package, and no more than the host has allowed. -/
def pageLimit (s : State) : Nat := min 1024 s.xlat.alloc
/-- Those that are. -/
def pagesOut (s : State) : Nat := (s.xlat.reqs.filter (fun r => r.waiting && r.sent)).length

/-- A page request put forward (R52): sent at once where the host's allocation has room, else it waits in the part. -/
def putRequest (s : State) (r : PageReq) : State :=
  let now := decide (pagesOut s < pageLimit s)
  let r := { r with waiting := true, sent := now, since := s.now }
  let s : State := { s with xlat := { s.xlat with reqs := s.xlat.reqs.filter (fun q => q.id != r.id) ++ [r] } }
  if now then s.send (.pageRequest r.id (xPasid (xlatOf s r.world)) r.page r.write r.exec) else s

/-- The right that an access lacks on a host page asked for by a page request; four successes without it are the fault
(R52). -/
def askPage (a : Asker) (va : Nat) (w : Want) : M Place := do
  let s ← get
  let page := va / 0x1000
  match s.xlat.reqs.find? (fun r => r.world == a.world && r.page == page && r.write == w.write && r.exec == w.exec) with
  | none =>
    let r : PageReq :=
      { id := s.nextId, world := a.world, page := page, write := w.write, exec := w.exec,
        successes := 0, waiting := true, sent := false, since := s.now, failed := false }
    set (putRequest { s with nextId := s.nextId + 1 } r)
    recover cHost va
  | some r =>
    if r.failed || (!r.waiting && decide (4 ≤ r.successes)) then failCode cHost va
    else if r.waiting then recover cHost va
    else
      set (putRequest s r)
      recover cHost va

/-- Page requests whose right a page permits, forgotten once they are answered. -/
def forgetReqs (s : State) (world page : Nat) (p : HostPage) : State :=
  { s with xlat := { s.xlat with reqs := s.xlat.reqs.filter (fun r =>
      !(r.world == world && r.page == page && !r.waiting && !r.failed &&
        (if r.exec then p.x else if r.write then p.w else p.r))) } }

/-- The host half (R47, R51, R52): a held translation, else a Translation Request; a missing right is asked for by a page
request. DESIGN CHOICE (log entry 101): of an atomic only the right to write is asked for; R52 does not say whether it needs
the right to read as well. -/
def translateHost (a : Asker) (va : Nat) (w : Want) : M Place := do
  let s ← get
  let x := xlatOf s a.world
  let page := va / 0x1000
  if !xHosten x then failCode cHost va
  else
    match heldHost s a va with
    | none =>
      if s.xlat.reqs.any (fun r => r.world == a.world && r.page == page && r.write == w.write && r.exec == w.exec &&
          (r.failed || r.waiting)) || s.xlat.denied.contains (a.world, page) then askPage a va w
      else do
        askAts a (xPasid x) page w.exec
        waitStep
    | some p =>
      if (if w.exec then p.x else if w.write then p.w else p.r) then
        modify (fun (s : State) => forgetReqs s a.world page p)
        pure { pa := hostBase + p.frame + (va - p.base), cp := 0, prot := false }
      else askPage a va w

/-- An access that finds its device-half entry absent stalls under DEMAND and leaves a record due on the exception
queue, which a later stall on the same page joins (R55). DESIGN CHOICE (log entry 82): an absent entry has no page size, and
the page is taken to be the one of 4 KiB that holds the address. -/
def demandStall (a : Asker) (q : QueueId) (va : Nat) : M Unit := do
  let s ← get
  let page := va / 0x1000
  match s.xlat.demand.find? (fun d => d.world == a.world && d.page == page && d.queue == q) with
  | some d => if d.aborted then failCode cAbsent va else recover cAbsent va
  | none =>
    match s.queue q with
    | none => failCode cAbsent va
    | some qu =>
      let d : Demand := { world := a.world, page := page, queue := q, n := none, aborted := false }
      let mask := maskOf (fun i => a.lanes.any (fun x => x.1 == i && x.2 / 0x1000 == page))
      let r : ExRecord :=
        { kind := 3, code := BitVec.ofNat 8 cAbsent, pidx := a.pidx, qtag := qtagOf qu a.pidx,
          addr := BitVec.ofNat 64 va, pc := BitVec.ofNat 64 (a.pc.toNat + 2 ^ 32 * (lowest mask).getD 0), lmask := mask }
      let s : State := { s with xlat := { s.xlat with demand := s.xlat.demand ++ [d] } }
      set (postRecord s q r)
      recover cAbsent va

/-- Translation of one virtual address (R41, R54, R55). -/
def translate (a : Asker) (va : Nat) (w : Want) : M Place := do
  if 2 ^ 57 ≤ va then failCode cAddr va
  else if bitsOf va 56 1 = 0 then translateHost a va w
  else
    fun s =>
      match translateDevice a va w s with
      | .error (.fault f) s' =>
        if f.code = cAbsent && xEn (xlatOf s a.world) && xDemand (xlatOf s a.world) then
          match a.queue with
          | some q => (do demandStall a q va; waitStep) s
          | none => .error (.fault f) s'
        else .error (.fault f) s'
      | r => r

end Sys2Proof.Machine
end

