-- ==== Sys2Proof/Machine/Firmware.lean ====
section
/-! DEFINITION. What the firmware does on behalf of queues: its capabilities (R217, R218) and accesses (R356), the
exception ring (R226, R227) and signals (R222). -/

namespace Sys2Proof.Machine

/-! ### Accesses -/

/-- The firmware as it asks for a translation: in the queue's world, without TLBs, raising no XLATE_DEMAND (R356). -/
def fwAsker (world : Nat) : Asker := { core := none, world := world, queue := none, pidx := 0 }

/-- A capability of the firmware (R217): base, length, world, permissions, validity tag. -/
structure Capa where
  base  : Nat
  len   : Nat
  world : Nat
  read  : Bool
  write : Bool
  exec  : Bool
  tag   : Bool
  deriving DecidableEq, Repr

/-- Whether a pointer to an object of a size and alignment breaks R218: not aligned, across 2^64, or with bits [63:57] of an
address of it set. -/
def pointerBad (p : Nat × Nat × Nat) : Bool :=
  p.1 % p.2.2 != 0 || decide (2 ^ 57 ≤ p.1) || (p.2.1 != 0 && decide (2 ^ 57 ≤ p.1 + p.2.1 - 1))

/-- The capability that the firmware derives from a pointer to an object of `len` bytes (R217); one whose pointer breaks
R218 is not valid. -/
def derive_ (world base len align : Nat) (write : Bool) : Capa :=
  { base := base, len := len, world := world, read := true, write := write, exec := false
    tag := !pointerBad (base, len, align) }

/-- The capability of a queue's packet ring, its exception ring and its write index (R217). -/
def Queue.ringCap (q : Queue) : Capa := derive_ q.world q.ring.toNat (64 * 2 ^ q.rlog) 64 true
def Queue.exqCap (q : Queue) : Capa := derive_ q.world q.exq.toNat (64 * 2 ^ q.elog) 64 true
def Queue.widxCap (q : Queue) : Capa := derive_ q.world q.wptr.toNat 8 8 false
/-- The capability of a signal record (R217). -/
def signalCap (world va : Nat) : Capa := derive_ world va 192 64 true

/-- Whether a capability admits an access of `n` bytes (R218). -/
def Capa.admits (c : Capa) (va n : Nat) (w : Want) : Bool :=
  c.tag && decide (c.base ≤ va ∧ va + n ≤ c.base + c.len) && c.read && (!w.write || c.write) && (!w.exec || c.exec)

/-- The place of an access through a capability (R218). -/
def capPlace (c : Capa) (a : Asker) (va n : Nat) (w : Want) : M Place :=
  if !c.admits va n w then failCode 0 va else translate a va w

/-- The place of a firmware access through a capability; a write needs read permission too (R356). -/
def fwPlace (c : Capa) (va n : Nat) (w : Want) : M Place := do
  let r ← capPlace c (fwAsker c.world) va n wantRead
  if w.write then capPlace c (fwAsker c.world) va n w else pure r

/-- A read of up to eight aligned bytes. -/
def fwRead (c : Capa) (va n : Nat) : M Nat := do
  let p ← fwPlace c va n wantRead
  atPlace p (readBelow p.home n)

/-- A read of `k` words of eight bytes, lowest first. -/
def fwReadWords (c : Capa) (va : Nat) : Nat → M (List DWord)
  | 0 => pure []
  | k + 1 => do
    let x ← fwRead c va 8
    let r ← fwReadWords c (va + 8) k
    pure (BitVec.ofNat 64 x :: r)

/-- A write of up to eight aligned bytes, merged at home. -/
def fwWrite (c : Capa) (va v n : Nat) : M Unit := do
  let p ← fwPlace c va n wantWrite
  let _ ← atPlace p (writeBelow none (cellsOf p.home v n))
  pure ()

/-- An address made ready to be written: translated for a write, its line owned where the host holds it (R356, R69, R70).
-/
def fwReady (c : Capa) (va : Nat) : M Unit := do
  let p ← fwPlace c va 8 wantWrite
  mayMerge (p.home / 32)

/-- Words of eight bytes joined, lowest first. -/
def joinWords : List DWord → Nat
  | [] => 0
  | x :: r => x.toNat + 2 ^ 64 * joinWords r

/-! ### The exception ring -/

/-- The 64 bytes of a record but for KIND, as eight words (R226). -/
def recordWords (q : Queue) (r : ExRecord) : List DWord :=
  [BitVec.ofNat 64 (r.code.toNat * 2 ^ 8 + r.qtag.toNat * 2 ^ 16 + (q.id % 2 ^ 16) * 2 ^ 32 + (q.world % 64) * 2 ^ 48),
   BitVec.ofNat 64 r.pidx, r.addr, r.pc, BitVec.ofNat 64 r.lmask.toNat, 0, 0, 0]

/-- Words written from an address on. -/
def fwWriteWords (c : Capa) (va : Nat) : List DWord → M Unit
  | [] => pure ()
  | x :: r => do
    fwWrite c va x.toNat 8
    fwWriteWords c (va + 8) r

/-- One record written into its slot if the slot is free: every word, then KIND (R226, R227). False if it is not. -/
def writeRecord (q : Queue) (r : ExRecord) : M Bool := do
  let va := q.exq.toNat + 64 * (q.exNext % 2 ^ q.elog)
  let kind ← fwRead q.exqCap va 1
  if kind ≠ 0 then pure false
  else
    fwWriteWords q.exqCap va (recordWords q r)
    fwWrite q.exqCap va r.kind.toNat 1
    pure true

/-- A notice lost (R227). -/
def dropNotice (s : State) (q : QueueId) : State :=
  match s.queue q with
  | none => s
  | some qu => changeQueue s { qu with dropped := if qu.dropped.toNat = 2 ^ 32 - 1 then qu.dropped else qu.dropped + 1 }

/-- The number of a written XLATE_DEMAND record noted, so that its answer finds the stalled accesses (R228). -/
def noteDemand (s : State) (q : QueueId) (r : ExRecord) (n : Nat) : State :=
  if r.kind = 3 then
    { s with xlat := { s.xlat with demand := s.xlat.demand.map (fun d =>
        if d.queue == q && d.page == r.addr.toNat / 0x1000 && d.n == none then { d with n := some n } else d) } }
  else s

/-- A record written or not: a notice that cannot be written is dropped, any other stays held (R227, R356). -/
def writeHeld (s : State) (q : QueueId) (r : ExRecord) : State × List ExRecord :=
  match s.queue q with
  | none => (s, [])
  | some qu =>
    match writeRecord qu r s with
    | .ok true s' =>
      match s'.queue q with
      | none => (s', [])
      | some qu =>
        let s := noteDemand s' q r qu.exNext
        (s.setQueue { qu with exNext := qu.exNext + 1,
                              halted := if needsAnswer r.kind && r.kind != 3 then qu.halted ++ [(qu.exNext, r.pidx)] else qu.halted }, [])
    | .ok false s' => if needsAnswer r.kind then (s', [r]) else (dropNotice s' q, [])
    | .error (.fault f) s' =>
      if f.code = cIntegrity ∨ f.code = cMemError then
        (fatalOn (noteError s' f) qu.world (some q) r.pidx f.code f.addr 0 0 0 (some r.qtag), [])
      else if needsAnswer r.kind then (s', [r]) else (dropNotice s' q, [])
    | .error _ s' => (s', [r])

/-- Every held record of a queue tried in order (R227). -/
def writeAllHeld (s : State) (q : QueueId) : State :=
  match s.queue q with
  | none => s
  | some qu =>
    let (s, left) := qu.held.foldl (fun (acc : State × List ExRecord) r =>
      let (s, l) := writeHeld acc.1 q r
      (s, acc.2 ++ l)) (s.setQueue { qu with held := [] }, [])
    match s.queue q with
    | none => s
    | some qu => s.setQueue { qu with held := left ++ qu.held }

/-! ### Signals -/

/-- VALUE of a signal, read at its home (R222). -/
def readSignal (world va : Nat) : M Int := do
  let x ← fwRead (signalCap world va) va 8
  pure (intOf true 64 x)

/-- VALUE written. -/
def writeSignal (world va : Nat) (v : Int) : M Unit := fwWrite (signalCap world va) va (wrap 64 v) 8

/-- Completion (R222): one less, unless VALUE is at or below zero. -/
def completeSignal (world va : Nat) : M Unit := do
  let v ← readSignal world va
  if 0 < v then writeSignal world va (v - 1) else pure ()

/-- Abort with a code below zero (R222): the first abort stands. -/
def abortSignal (world va : Nat) (a : Int) : M Unit := do
  let v ← readSignal world va
  if 0 ≤ v then writeSignal world va a else pure ()

end Sys2Proof.Machine
end

