-- ==== Sys2Proof/Machine/Ops.lean ====
section
/-! DEFINITION. The named operations over registers, predicates and paths: reading under the scoreboard (R29), writing
with tags (R98), the fetch from the overlay (R191), and TRAP ENTRY with the return from it (R231-R233, R352), and the
abandonment of an exit routine (R250). -/

namespace Sys2Proof.Machine

/-! ### Tags -/

/-- The code of a tag (R97). -/
def tagCode : Tag → Nat
  | .void => 0x00 | .b32 => 0x01 | .s32 => 0x02 | .n32 => 0x03 | .s64 => 0x04 | .n64 => 0x05 | .m64 => 0x06
  | .f32 => 0x08 | .f64 => 0x09 | .bf16x2 => 0x0A | .f16x2 => 0x0B | .e4m3x4 => 0x0C | .e5m2x4 => 0x0D
  | .s8x4 => 0x0E | .s16x2 => 0x0F | .bfp2 => 0x10 | .bfp3 => 0x11 | .bfp4 => 0x12 | .bfp5 => 0x13
  | .bfp6 => 0x14 | .bfp7 => 0x15 | .bfp8 => 0x16

/-- The tag of a code; reserved codes have none (R97). -/
def codeTag : Nat → Option Tag
  | 0x00 => some .void | 0x01 => some .b32 | 0x02 => some .s32 | 0x03 => some .n32 | 0x04 => some .s64
  | 0x05 => some .n64 | 0x06 => some .m64 | 0x08 => some .f32 | 0x09 => some .f64 | 0x0A => some .bf16x2
  | 0x0B => some .f16x2 | 0x0C => some .e4m3x4 | 0x0D => some .e5m2x4 | 0x0E => some .s8x4
  | 0x0F => some .s16x2 | 0x10 => some .bfp2 | 0x11 => some .bfp3 | 0x12 => some .bfp4 | 0x13 => some .bfp5
  | 0x14 => some .bfp6 | 0x15 => some .bfp7 | 0x16 => some .bfp8 | _ => none

/-- The 64-bit tags (R97). -/
def wide : Tag → Bool
  | .s64 | .n64 | .m64 | .f64 => true
  | _ => false

/-- The mantissa width of a BFP tag (R117). -/
def bfpWidth : Tag → Option Nat
  | .bfp2 => some 2 | .bfp3 => some 3 | .bfp4 => some 4 | .bfp5 => some 5 | .bfp6 => some 6 | .bfp7 => some 7
  | .bfp8 => some 8 | _ => none
/-- The BFP tags. -/
def isBfp (t : Tag) : Bool := (bfpWidth t).isSome
/-- The BFP tag of a width. -/
def bfpTag (m : Nat) : Tag := (codeTag (0x0E + m)).getD .void
/-- Blocks of a BFP register (R96). -/
def bfpBlocks (m : Nat) : Nat := 32 / (2 * m)
/-- The 32-bit integer tags and raw bits that counts, addresses and windows carry. -/
def isInt32 : Tag → Bool
  | .b32 | .s32 | .n32 => true
  | _ => false
/-- The tags of a virtual address pair (R102). -/
def isAddr : Tag → Bool
  | .s64 | .n64 => true
  | _ => false

/-! ### Register codes -/

/-- Vector codes (R12). -/
def isVec (c : Code) : Bool := decide (c.toNat < 96)
/-- A single register below the quota (R13). -/
def oneOk (q : Nat) (c : Code) : Bool := decide (96 ≤ c.toNat ∨ c.toNat < q)
/-- A span of `n` registers aligned to its length, all below the quota and of one file (R13, R14). -/
def spanOk (q n : Nat) (c : Code) : Bool :=
  (decide (c.toNat % n = 0)) && (decide (96 ≤ c.toNat ∧ c.toNat + n ≤ 128) || decide (c.toNat + n ≤ q))
/-- A pair (R14). -/
def pairOk (q : Nat) (c : Code) : Bool := spanOk q 2 c
/-- The register `k` above a code. -/
def up (c : Code) (k : Nat) : Code := BitVec.ofNat 7 (c.toNat + k)

/-! ### Registers of a group -/

def VReg.void : VReg := { lanes := Vector.replicate 32 0, tag := .void, side := 0 }
def UReg.void : UReg := { bits := 0, tag := .void, side := 0 }
/-- One lane of a vector register. -/
def VReg.lane (r : VReg) (i : Nat) : Word := (r.lanes[i]?).getD 0

def Group.vreg (g : Group) (n : Nat) : VReg := (g.v[n]?).getD VReg.void
def Group.ureg (g : Group) (n : Nat) : UReg := (g.u[n]?).getD UReg.void
/-- The bits of predicate `n`; p7 reads as all ones (R10). -/
def Group.pred (g : Group) (n : Nat) : Word := if n = 7 then 0xFFFFFFFF else (g.p[n]?).getD 0
/-- The path in a slot. -/
def Group.slot (g : Group) (sl : Bool) : Option Path := if sl then g.slot1 else g.slot0
def Group.setSlot (g : Group) (sl : Bool) (p : Option Path) : Group :=
  if sl then { g with slot1 := p } else { g with slot0 := p }

/-! ### Pending fixed-latency results (R26-R29) -/

/-- The number of a slot as pending results name it. -/
def slotNo (sl : Bool) : Int := if sl then 1 else 0

/-- Whether a word of a path at a cycle may not yet read a result: its own path issued it, and its latency has not
elapsed. Results of the other path are waited for by the hardware (R28). -/
def PendWrite.unseen (e : PendWrite) (sl : Bool) (cycle : Nat) : Bool := e.path == slotNo sl && decide (cycle < e.due)

/-- What a word of a path reads in place of a register's newest content: what the oldest of the results replaced that it
may not yet read, counted from the newest back to the first that it may (R29). `is` picks the results that wrote the lane,
tag or side-file entry in question. -/
def Group.hidden (g : Group) (sl : Bool) (cycle : Nat) (is : PendWrite → Bool) : Option OldVal :=
  (((g.pending.filter is).takeWhile (fun e => e.unseen sl cycle)).getLast?).map (fun e => e.what)

/-- Whether some lane, the tag or the side-file entry of a register (its results `es`, newest first) is still the business
of a result that may not yet be read: `cov`, `t`, `s` are the lanes, tag and entry that later results have covered. -/
def exposed (sl : Bool) (cycle : Nat) : List PendWrite → Word → Bool → Bool → Bool
  | [], _, _, _ => false
  | e :: r, cov, t, s =>
    (e.unseen sl cycle && (e.mask &&& ~~~cov != 0 || (e.tags && !t) || (e.side && !s))) ||
      exposed sl cycle r (cov ||| e.mask) (t || e.tags) (s || e.side)

def isVecOld (n : Nat) : OldVal → Bool
  | .vec k _ => k == n
  | _ => false
def isUniOld (n : Nat) : OldVal → Bool
  | .uni k _ => k == n
  | _ => false
def isPredOld (n : Nat) : OldVal → Bool
  | .pred k _ => k == n
  | _ => false
/-- Whether an old value is that of an operand code. -/
def isOld (c : Code) : OldVal → Bool := if isVec c then isVecOld c.toNat else isUniOld (c.toNat - 96)

/-- Whether a read of a code falls under an undersized stall count (R27). -/
def shortRead (g : Group) (sl : Bool) (cycle : Nat) (c : Code) : Bool :=
  exposed sl cycle (g.pending.filter (fun e => isOld c e.what)) 0 false false
/-- Whether a read of a predicate does. -/
def shortPred (g : Group) (sl : Bool) (cycle n : Nat) : Bool :=
  exposed sl cycle (g.pending.filter (fun e => isPredOld n e.what)) 0 false false

/-- A lane of an operand, its tag and its side-file entry as a word of a path reads them (R29); a uniform register is the
same in every lane (R15). -/
def seeLane (g : Group) (sl : Bool) (cycle : Nat) (c : Code) (i : Nat) : Word :=
  match g.hidden sl cycle (fun e => isOld c e.what && (if isVec c then hasBit e.mask i else e.mask != 0)) with
  | some (.vec _ old) => old.lane i
  | some (.uni _ old) => old.bits
  | _ => if isVec c then (g.vreg c.toNat).lane i else (g.ureg (c.toNat - 96)).bits
def seeTag (g : Group) (sl : Bool) (cycle : Nat) (c : Code) : Tag :=
  match g.hidden sl cycle (fun e => isOld c e.what && e.tags) with
  | some (.vec _ old) => old.tag
  | some (.uni _ old) => old.tag
  | _ => if isVec c then (g.vreg c.toNat).tag else (g.ureg (c.toNat - 96)).tag
def seeSide (g : Group) (sl : Bool) (cycle : Nat) (c : Code) : DWord :=
  match g.hidden sl cycle (fun e => isOld c e.what && e.side) with
  | some (.vec _ old) => old.side
  | some (.uni _ old) => old.side
  | _ => if isVec c then (g.vreg c.toNat).side else (g.ureg (c.toNat - 96)).side

/-- A predicate as a word of a path reads it (R29): the lanes that the results hidden from it wrote hold what they held
before. -/
def seePred (g : Group) (sl : Bool) (cycle n : Nat) : Word :=
  if g.pending.any (fun e => isPredOld n e.what) then
    maskOf (fun i => match g.hidden sl cycle (fun e => isPredOld n e.what && hasBit e.mask i) with
      | some (.pred _ old) => hasBit old i
      | _ => hasBit (g.pred n) i)
  else g.pred n

/-- The pending results of one slot written: any word may read them (R28, R30). -/
def Group.settleSlot (g : Group) (sl : Bool) : Group :=
  { g with pending := g.pending.map (fun e => if e.path == slotNo sl then { e with due := 0 } else e) }

/-! ### A word at issue -/

/-- A word at issue: the issuing group, slot and path as they stand, the lanes that L and the enabled lanes name (only
the handler lane in single-lane mode, R234), and the guard's lanes (R10). -/
structure Cx where
  key  : Key
  sl   : Bool
  g    : Group
  p    : Path
  live : Word
  en   : Word
  grd  : Word
  now  : Nat

/-- The guard mask of a word (R10). -/
def guardMask (g : Group) (sl : Bool) (cycle : Nat) (gd : Guard) : Word :=
  let m := seePred g sl cycle (gd.toNat % 8)
  if gd.getLsbD 3 then ~~~m else m

/-- The lanes that stand for L: the path's live mask, or the handler lane (R234). -/
def liveLanes (g : Group) (p : Path) : Word :=
  match g.single with
  | some x => laneBit x.h
  | none => p.live
/-- The lanes of L ∧ em, or the handler lane (R187, R234). -/
def enabledLanes (g : Group) (p : Path) : Word :=
  match g.single with
  | some x => laneBit x.h
  | none => p.live &&& g.em

/-- The lanes of L ∧ em and of the guard: as they stand, or for a word that waits as they stood at its issue (R28). -/
def Cx.of (now : Nat) (g : Group) (sl : Bool) (p : Path) (gd : Guard) : Cx :=
  { key := g.key, sl := sl, g := g, p := p, live := liveLanes g p
    en := match p.read with | some x => x.en | none => enabledLanes g p
    grd := match p.read with | some x => x.grd | none => guardMask g sl p.cycle gd
    now := now }

/-- lanes(E) of a class V word (R11). -/
def Cx.lanes (c : Cx) : Word := c.en &&& c.grd
/-- The guard of the lowest live lane (R11). -/
def Cx.takes (c : Cx) : Bool :=
  match lowest c.live with
  | some i => hasBit c.grd i
  | none => false

/-- What a waiting word has read of a register at its issue (R28). -/
def Cx.kept (c : Cx) (r : Code) : Option VReg := c.p.read.bind (fun x => lookupN x.regs r.toNat)

/-- A register's tag, side-file entry and lanes as the word reads them; a uniform register is the same in every lane
(R15). -/
def Cx.tag (c : Cx) (r : Code) : Tag := match c.kept r with | some x => x.tag | none => seeTag c.g c.sl c.p.cycle r
def Cx.side (c : Cx) (r : Code) : DWord := match c.kept r with | some x => x.side | none => seeSide c.g c.sl c.p.cycle r
def Cx.val (c : Cx) (r : Code) (i : Nat) : Word :=
  match c.kept r with | some x => x.lane i | none => seeLane c.g c.sl c.p.cycle r i

/-- When the word issued. -/
def Cx.since (c : Cx) : Nat := match c.p.read with | some x => x.since | none => c.now
/-- What a word reads at its issue, should it wait (R28). -/
def Cx.sources (c : Cx) (word : Word) (reads : List Code) : Sources :=
  let see (r : Code) : VReg :=
    { lanes := Vector.ofFn (fun (i : Fin 32) => c.val r i.val), tag := c.tag r, side := c.side r }
  { word := word, since := c.since, en := c.en, grd := c.grd, regs := reads.map (fun r => (r.toNat, see r)) }

/-- The value of a pair (R99, R107). -/
def Cx.val64 (c : Cx) (r : Code) (i : Nat) : Nat := (c.val r i).toNat + 2 ^ 32 * (c.val (up r 1) i).toNat
/-- The value of an operand by its tag's width. -/
def Cx.valOf (c : Cx) (r : Code) (i : Nat) : Nat := if wide (c.tag r) then c.val64 r i else (c.val r i).toNat
/-- The effective rounding mode (R112). -/
def rmOf : Nat → Rm
  | 0 => .rne | 1 => .rtz | 2 => .rdn | _ => .rup
def Cx.rm (c : Cx) : Rm :=
  match c.p.hmod with
  | some h => if bitsOf h.toNat 19 3 = 0 then rmOf (bitsOf c.g.flags.toNat 8 2) else rmOf (bitsOf h.toNat 19 3 - 1)
  | none => rmOf (bitsOf c.g.flags.toNat 8 2)
/-- CPOL and LEASE of the word's HMOD, with the page's CP (R25, R44). -/
def Cx.policy (c : Cx) (cp : Nat) : Policy :=
  match c.p.hmod with
  | some h => { cp := cp, cpol := bitsOf h.toNat 16 3, lease := bitsOf h.toNat 13 3 }
  | none => { cp := cp, cpol := 0, lease := 0 }

/-- Who asks for the translations of a group's accesses (R55): `pc` and `lanes` are those of the word. -/
def groupAsker (s : State) (g : Group) (pc : Word := 0) (lanes : List (Nat × Nat) := []) : Asker :=
  { core := some (keyCore g.key), world := g.world, queue := (s.launch g.launch).map (fun l => l.queue),
    pidx := match s.launch g.launch with | some l => l.pidx | none => 0, pc := pc, lanes := lanes }

/-- A group as the issuer of what the part does for it. -/
def Group.issuer (g : Group) (s : State) : Issuer :=
  { key := g.key, serial := g.serial, world := g.world, launch := g.launch, packet := launchPacket s g.launch }

/-- Who asks for the translations of what the part does for a group (R55). -/
def Issuer.asker (i : Issuer) : Asker :=
  { core := some (keyCore i.key), world := i.world, queue := i.packet.map (·.1),
    pidx := match i.packet with | some p => p.2 | none => 0 }

/-- The group of an issuer, while it is resident. -/
def Issuer.group (i : Issuer) (s : State) : Option Group :=
  (s.group i.key).filter (fun g => g.serial == i.serial)

/-- A fatal fault of what a group issued; its notice names the packet that launched the group, which may have left (R238). -/
def Issuer.fatal (i : Issuer) (s : State) (code addr : Nat) : State :=
  match i.group s, i.packet with
  | some g, _ => fatalGroup s g code addr 0 0 0
  | none, some (q, p) => fatalOn s i.world (some q) p code addr 0 0 0
  | none, none => fatalOn s i.world none 0 code addr 0 0 0

/-! ### Results -/

/-- One register of a result: code, the lanes written, their bits, the tag, and the side-file entry if written. `only`
marks a result that writes nothing but the side-file entry (SEXP). -/
structure RegOut where
  code : Code
  mask : Word
  val  : Nat → Word
  tag  : Tag
  side : Option DWord := none
  only : Bool := false

/-- Whether the group runs its entry routine. -/
def Group.inEntry (g : Group) : Bool := match g.routine with | .entry _ => true | _ => false
/-- Whether the group runs its exit routine. -/
def Group.inExit (g : Group) : Bool := match g.routine with | .exit _ _ => true | _ => false

/-- A vector register written in the lanes of a mask (R98). -/
def VReg.write (r : VReg) (o : RegOut) : VReg :=
  if o.only then { r with side := o.side.getD r.side }
  else
    { lanes := Vector.ofFn (fun (i : Fin 32) => if hasBit o.mask i.val then o.val i.val else r.lane i.val),
      tag := o.tag, side := o.side.getD r.side }
/-- A uniform register written with the value of lane `l` (R15, R98). -/
def UReg.write (r : UReg) (o : RegOut) (l : Nat) : UReg :=
  if o.only then { r with side := o.side.getD r.side }
  else { bits := o.val l, tag := o.tag, side := o.side.getD r.side }

/-- The pending results after one more (R26, R28, R29): a fixed-latency result is noted with its due cycle, a variable one
only where it stands above results still pending, which no reader then takes in its place. -/
def noteWrite (pending : List PendWrite) (due : Option Nat) (sl : Bool) (is : OldVal → Bool) (what : OldVal)
    (mask : Word) (tags side : Bool) : List PendWrite :=
  match due with
  | some d => { what := what, mask := mask, tags := tags, side := side, due := d, path := slotNo sl } :: pending
  | none =>
    if pending.any (fun e => is e.what) then
      { what := what, mask := mask, tags := tags, side := side, due := 0, path := slotNo sl } :: pending
    else pending

/-- A register of a result written: the pending list notes what it replaced; in an entry routine a non-VOID tag sets the
rebuilt bit (R255). A uniform destination takes the value of the lowest lane of the mask (R15). -/
def Group.put (g : Group) (due : Option Nat) (sl : Bool) (o : RegOut) : Group :=
  match lowest o.mask with
  | none => g
  | some l =>
    if isVec o.code then
      let n := o.code.toNat
      let old := g.vreg n
      { g with
        v := g.v.setIfInBounds n (old.write o)
        pending := noteWrite g.pending due sl (isVecOld n) (.vec n old) (if o.only then 0 else o.mask) (!o.only) o.side.isSome
        rebuiltV := if g.inEntry && !o.only && o.tag != .void then g.rebuiltV ||| BitVec.ofNat 96 (2 ^ n) else g.rebuiltV }
    else
      let n := o.code.toNat - 96
      let old := g.ureg n
      { g with
        u := g.u.setIfInBounds n (old.write o l)
        pending := noteWrite g.pending due sl (isUniOld n) (.uni n old) (if o.only then 0 else 0xFFFFFFFF) (!o.only)
          o.side.isSome
        rebuiltU := if g.inEntry && !o.only && o.tag != .void then g.rebuiltU ||| laneBit n else g.rebuiltU }

/-- Bits of a predicate written in the lanes of a mask; p7 discards them (R93). -/
def Group.putPred (g : Group) (due : Option Nat) (sl : Bool) (n : Nat) (mask val : Word) : Group :=
  if 7 ≤ n then g
  else
    let old := g.pred n
    { g with
      p := g.p.setIfInBounds n ((old &&& ~~~mask) ||| (val &&& mask))
      pending := noteWrite g.pending due sl (isPredOld n) (.pred n old) mask false false }

/-- A value written to one register in every lane of a mask. -/
def out32 (c : Code) (mask : Word) (val : Nat → Word) (t : Tag) (side : Option DWord := none) : RegOut :=
  { code := c, mask := mask, val := val, tag := t, side := side }
/-- A 64-bit value written to a pair (R99). -/
def out64 (c : Code) (mask : Word) (val : Nat → Nat) (t : Tag) : List RegOut :=
  [out32 c mask (fun i => BitVec.ofNat 32 (val i)) t,
   out32 (up c 1) mask (fun i => BitVec.ofNat 32 (val i / 2 ^ 32)) t]
/-- A value written to one register or a pair by the width of its tag. -/
def outOf (c : Code) (mask : Word) (val : Nat → Nat) (t : Tag) (side : Option DWord := none) : List RegOut :=
  if wide t then out64 c mask val t else [out32 c mask (fun i => BitVec.ofNat 32 (val i)) t side]

/-! ### Advancing a path -/

/-- The path after a word that is no hint has issued in sequence: next word, prefixes consumed, one stall count taken
(R22, R27), coverage of an HKEEP one less (R31). After a coverage that was cut short, every result is awaited: none takes longer
than eight cycles (R26). -/
def Path.next (p : Path) (tick : Nat) : Path :=
  let c := (p.stalls.head?).getD 0
  { p with
    pc := p.pc + 4, himm := none, hrcv := none, hmod := none, unitPc := none
    stalls := p.stalls.tail, cycle := p.cycle + 1 + c.toNat + (if p.loose = 0 then 0 else 8), issued := tick, aged := 0
    holdTo := tick + c.toNat, loose := p.loose - 1
    keep := match p.keep with
      | some (a, b, n) => if n.toNat ≤ 1 then none else some (a, b, n - 1)
      | none => none
    parked := none, boost := false, exempt := false, promo := none, awaits := none, phase := none, read := none
    spool := none, placed := none, grows := false, spawned := 0 }

/-- The path after a control transfer to `pc` (R28): no count and no coverage pending. -/
def Path.jump (p : Path) (pc : Word) (tick : Nat) : Path :=
  { p with
    pc := pc, himm := none, hrcv := none, hmod := none, unitPc := none, stalls := [], keep := none
    cycle := p.cycle + 1, issued := tick, aged := 0, parked := none, boost := false, exempt := false, promo := none
    awaits := none, phase := none, read := none, spool := none, placed := none, grows := false, loose := 0 }

/-- The path resumed where it stands or where its handler returns to, a control transfer after which the words that its cut
coverage had counted still wait for results (R28). -/
def Path.resume (p : Path) (pc : Word) (tick : Nat) : Path := { p.jump pc tick with loose := p.loose }

/-- Stall counts and HKEEP coverage cut short (R28). -/
def Path.cut (p : Path) : Path :=
  { p with stalls := [], keep := none, loose := if p.stalls.isEmpty then p.loose else p.stalls.length + 1 }

/-- The path stopped where it stands: what a trap or a pre-emption leaves of its timing (R30, R32). -/
def Path.quiet (p : Path) : Path :=
  { p.cut with himm := none, hrcv := none, hmod := none, unitPc := none, parked := none, awaits := none, read := none,
               spool := none, placed := none, grows := false, pc := p.unitPc.getD p.pc }

/-- The path of a frozen slot (R231): a word that waits there goes on waiting. -/
def Path.frozen (p : Path) : Path := { p.cut with parked := none }

/-- A path created at an address (R185). -/
def Path.make (pc live : Word) (pri : BitVec 4) (rpc : Option Word) (stamp : Int) : Path :=
  { pc := pc, live := live, pri := pri, rpc := rpc, stamp := stamp, id := stamp, himm := none, hrcv := none, hmod := none,
    unitPc := none, stalls := [], cycle := 0, keep := none, issued := 0, aged := 0, parked := none, yielded := [],
    boost := false, exempt := false, promo := none, awaits := none, phase := none, read := none, spool := none, placed := none, grows := false,
    spawned := 0, late := [], holdTo := 0, loose := 0 }

/-! ### The overlay -/

/-- Whether an overlay address lies in a LANDED slot of the world (R191). -/
def landed (s : State) (c : CoreId) (world : Nat) (pc : Word) : Bool :=
  decide (pc.toNat < 0x20000) &&
  match lookupN (s.core c).overlay (pc.toNat / 0x1000) with
  | some o => o.state == .landed && o.world == some world
  | none => false

/-- The word at an overlay address. -/
def overlayWord (s : State) (c : CoreId) (pc : Word) : Word :=
  match lookupN (s.core c).overlay (pc.toNat / 0x1000) with
  | some o => BitVec.ofNat 32 (readLE o.bytes (pc.toNat % 0x1000) 4)
  | none => 0

/-- Whether the word at an address is a LAND hint (R192). -/
def isLandAt (s : State) (c : CoreId) (pc : Word) : Bool := decodeWord (overlayWord s c pc) == .row .land

/-- Whether an address is a LAND word in a LANDED slot of the world (R231, R247). -/
def goodVector (s : State) (c : CoreId) (world : Nat) (pc : Word) : Bool :=
  decide (pc.toNat % 4 = 0) && landed s c world pc && isLandAt s c pc

/-! ### Trap entry and return (R231-R233, R352) -/

/-- TCAUSE (R233). -/
def causeWord (svc : Bool) (h code arg : Nat) : Word :=
  BitVec.ofNat 32 ((if svc then 2 ^ 31 else 0) + (h % 32) * 2 ^ 24 + (code % 256) * 2 ^ 16 + arg % 16)

/-- The entry of a handler, for faults, TRAP and service calls alike (R231, R232): pending results are written, the
service registers loaded, both slots frozen with what they hold, and the trapping slot issues at the vector with the
handler lane `h`. `svc` holds the number of a service call, `left` the lanes still to be served. DESIGN CHOICE (log entry
76): the entry discards the stall counts and the HKEEP coverage of both slots; R28 speaks of counts per path and does not
say whether a trap of one path discards those of the other. -/
def enterHandler (g : Group) (sl : Bool) (p : Path) (vec : Word) (h : Nat) (svc : Option (BitVec 4)) (left : Word)
    (cause tpc tmask : Word) (addr : Nat) : Group :=
  let held := p.quiet
  let g := { g with
    pending := []
    slot0 := g.slot0.map Path.frozen
    slot1 := g.slot1.map Path.frozen
    spillHeld := none
    single := some { h := h, slot1 := sl, svc := svc, left := left, ret := tpc, held := held }
    svc := { g.svc with
      tcause := cause, tpc := tpc, tmask := tmask
      taddrl := BitVec.ofNat 32 addr, taddrh := BitVec.ofNat 32 (addr / 2 ^ 32)
      mboxl := BitVec.ofNat 32 g.context.toNat, mboxh := BitVec.ofNat 32 (g.context.toNat / 2 ^ 32)
      lsel := BitVec.ofNat 32 h } }
  g.setSlot sl (some { held with pc := vec, cycle := held.cycle + 1 })

/-- The return from a handler (R352): the trapping path as it was, at TPC, both slots eligible again. A SPAWN that trapped
after some of its lanes and is executed again appends only the others (R213). -/
def leaveHandler (g : Group) (x : Single) (tick : Nat) : Group :=
  let p := x.held.resume g.svc.tpc tick
  { (g.settleSlot x.slot1).setSlot x.slot1 (some { p with spawned := if g.svc.tpc = x.held.pc then p.spawned else 0 }) with
    single := none }

/-! ### Exit routines given up (R250) -/

/-- The reuse latches of a group's ports invalidated (R32). -/
def State.dropPort (s : State) (k : Key) : State := { s with ports := s.ports.filter (fun p => p.2.key != k) }

/-- The snapshot reinstated and the group brute-saved, with a WARNING notice of the code, PC and address. -/
def abandon (s : State) (g : Group) (snap : Snapshot) (code addr : Nat) (pc : Word) : State :=
  let s := match launchPacket s g.launch with
    | some (q, i) => postNotice s q 6 code i addr pc 0 0
    | none => s
  (s.dropPort g.key).setGroup { g with
    p := snap.p, em := snap.em, flags := snap.flags, score := snap.score, slot0 := snap.slot0, slot1 := snap.slot1
    spill := snap.spill, pending := [], routine := .normal, stage := .saved true }

/-- Whether a code is a precise fault (R229, R230). -/
def isPrecise (code : Nat) : Bool := decide (8 ≤ code ∧ code ≤ 35)

end Sys2Proof.Machine
end

