-- ==== Sys2Proof/Machine/Flags.lean ====
section
/-! DEFINITION. The flags register (R114, R115): gathering, writing, the rounding mode. -/

namespace Sys2Proof.Machine

/-- The flags of a word ORed in; they are never cleared by the part (R114, R115). -/
def Group.orFlags (g : Group) (f : Word) : Group := { g with flags := g.flags ||| f }
/-- The fields of `%flags` that MTSR writes; the reserved ones read zero (R114). -/
def flagsMask : Word := 0x33F
/-- `%flags` written as given (R114). -/
def Group.writeFlags (g : Group) (v : Word) : Group := { g with flags := v &&& flagsMask }
/-- RM set (R112, R213). -/
def Group.setRm (g : Group) (r : Nat) : Group :=
  { g with flags := (g.flags &&& 0xFFFFFCFF) ||| BitVec.ofNat 32 (r % 4 * 256) }
/-- The flags of a list of lanes' results ORed together (R110, R115). -/
def joinFlags (fs : List Word) : Word := fs.foldl (· ||| ·) 0

end Sys2Proof.Machine
end

