-- ==== Sys2Proof/Machine/Operands.lean ====
section
/-! DEFINITION. The operand forms: which registers a word names and reads, when a pair is legal and when its tags agree
(R12-R15, R99, R100, R126), immediates and offsets with HIMM (R23, R103), load kinds and store widths (R104, R105). -/

namespace Sys2Proof.Machine

/-! ### Sources -/

/-- The registers of an operand that is a pair when its tag is 64-bit (R126). -/
def Cx.flex (c : Cx) (r : Code) : List Code := if wide (c.tag r) then [r, up r 1] else [r]
/-- Legality of such an operand with the tag present (R126). -/
def Cx.flexOk (c : Cx) (r : Code) : Bool := !wide (c.tag r) || pairOk c.g.quota r
/-- The tags of such an operand agree (R99). -/
def Cx.flexTag (c : Cx) (r : Code) : Bool := !wide (c.tag r) || c.tag (up r 1) == c.tag r
/-- A register named alone carries no 64-bit tag (R99). -/
def Cx.lone (c : Cx) (r : Code) : Bool := !wide (c.tag r)
/-- A result on `r` of the width of a tag (R126). -/
def Cx.destOk (c : Cx) (t : Tag) (r : Code) : Bool := !wide t || pairOk c.g.quota r
/-- The registers of a result. -/
def destRegs (t : Tag) (r : Code) : List Code := if wide t then [r, up r 1] else [r]

/-- An address pair carries s64 or n64 in both registers (R102). -/
def Cx.addrTag (c : Cx) (r : Code) : Bool := isAddr (c.tag r) && c.tag (up r 1) == c.tag r
/-- A register that carries b32, s32 or n32. -/
def Cx.intTag (c : Cx) (r : Code) : Bool := isInt32 (c.tag r)

/-! ### Immediates -/

/-- The offset of a memory word (R23, R103): I4 sign-extended, or the 26-bit value with HIMM. -/
def Cx.offset (c : Cx) (i4 : BitVec 4) : Int :=
  match c.p.himm with
  | some h => intOf true 26 (h.toNat * 16 + i4.toNat)
  | none => intOf true 4 i4.toNat

/-- The arithmetic immediate of RRI (R23, R133): eight bits, or thirty with HIMM. -/
def Cx.imm (c : Cx) (i : BitVec 8) : Int :=
  match c.p.himm with
  | some h => intOf true 30 (h.toNat * 256 + i.toNat)
  | none => intOf true 8 i.toNat

/-- The immediate of MOVI (R23, R142). -/
def Cx.imm15 (c : Cx) (i : BitVec 15) : Word :=
  match c.p.himm with
  | some h => BitVec.ofNat 32 (bitsOf h.toNat 0 17 * 2 ^ 15 + i.toNat)
  | none => BitVec.ofNat 32 (wrap 32 (intOf true 15 i.toNat))

/-! ### Load kinds and store widths -/

/-- Bytes of a load kind (R104). -/
def loadSize (k : BitVec 4) : Nat :=
  match k.toNat with
  | 0 | 1 => 1
  | 2 | 3 => 2
  | 12 | 13 | 14 => 8
  | 15 => 16
  | _ => 4
/-- The tag that a load kind writes (R104). -/
def loadTag (k : BitVec 4) : Tag :=
  match k.toNat with
  | 0 | 2 | 5 => .s32
  | 1 | 3 | 6 => .n32
  | 7 => .f32
  | 8 => .bf16x2
  | 9 => .f16x2
  | 10 => .e4m3x4
  | 11 => .e5m2x4
  | 12 => .n64
  | 13 => .f64
  | 14 => .m64
  | _ => .b32
/-- Registers that a load kind writes (R104). -/
def loadRegs (k : BitVec 4) : Nat := match k.toNat with | 12 | 13 | 14 => 2 | 15 => 4 | _ => 1
/-- The value of a load as its destination holds it: kinds 0 and 2 sign-extend (R104). -/
def loadValue (k : BitVec 4) (x : Nat) : Nat :=
  match k.toNat with
  | 0 => wrap 32 (intOf true 8 x)
  | 2 => wrap 32 (intOf true 16 x)
  | _ => x
/-- A span of codes from one on. -/
def spanOf (r : Code) (n : Nat) : List Code := (List.range n).map (up r)
/-- The results of a load: `n` registers, register `k` taking bytes `4k` to `4k+3` (R104). -/
def loadOuts (k : BitVec 4) (d : Code) (mask : Word) (x : Nat → Nat) : List RegOut :=
  (List.range (loadRegs k)).map (fun j =>
    out32 (up d j) mask (fun i => BitVec.ofNat 32 (loadValue k (x i) / 2 ^ (32 * j))) (loadTag k))

/-- The registers that a returned access writes. -/
def Inflight.outs (f : Inflight) (x : Nat → Nat) : List RegOut :=
  (loadOuts f.kind f.dest f.lanes x).map (fun r => { r with tag := f.tag })

/-- The values that an atomic in flight has brought back (R50, R154), by lane. -/
def Inflight.got (vs : List Lanes) (i : Nat) : Nat :=
  (vs.zipIdx.map (fun (x : Lanes × Nat) => ((x.1[i]?).getD 0).toNat * 2 ^ (32 * x.2))).foldl (· + ·) 0

/-- Bytes of a store width (R105). -/
def storeSize (m : BitVec 4) : Nat := 2 ^ m.toNat
/-- Registers that a store width reads (R105). -/
def storeRegs (m : BitVec 4) : Nat := match m.toNat with | 3 => 2 | 4 => 4 | _ => 1
/-- Store data: the bits of its registers, lowest register first (R105). -/
def Cx.data (c : Cx) (d : Code) (n : Nat) (i : Nat) : Nat :=
  ((List.range n).map (fun j => (c.val (up d j) i).toNat * 2 ^ (32 * j))).foldl (· + ·) 0
/-- The tags of store data (R105): a 64-bit tag only as a whole pair at widths .64 and .128. -/
def Cx.dataTag (c : Cx) (d : Code) (n : Nat) : Bool :=
  if n = 1 then c.lone d
  else ((List.range (n / 2)).all (fun j =>
    let lo := c.tag (up d (2 * j))
    let hi := c.tag (up d (2 * j + 1))
    if wide lo then hi == lo else !wide hi))

end Sys2Proof.Machine
end

