-- ==== Sys2Proof/Machine/Paths.lean ====
section
/-! DEFINITION. The path entries of a group: the spill stack and its bytes (R186), ranks and the two slots (R185),
divergence (R188), arrival and resolution of joins (R189), lanes that retire (R346). -/

namespace Sys2Proof.Machine

/-! ### Entries as bytes (R186) -/

def entryBits (e : Entry) : Nat :=
  e.pc.toNat + e.mask.toNat * 2 ^ 32 + (e.rpc.getD 0).toNat * 2 ^ 64 + e.pend.toNat * 2 ^ 96 +
  (if e.rpc.isSome then 2 ^ 129 else 0) + (if e.join then 2 else 1) * 2 ^ 130 + e.pri.toNat * 2 ^ 132

/-- An entry read back; none where it is corrupt (R186). -/
def entryOf (n : Nat) : Option Entry :=
  let kind := bitsOf n 130 2
  if bitsOf n 136 120 ≠ 0 ∨ bitsOf n 128 1 ≠ 0 ∨ kind = 0 ∨ kind = 3 ∨ bitsOf n 0 2 ≠ 0
      ∨ (kind = 1 ∧ bitsOf n 32 32 = 0) then none
  else some
    { join := kind == 2, pc := BitVec.ofNat 32 n, mask := BitVec.ofNat 32 (n / 2 ^ 32),
      pend := BitVec.ofNat 32 (n / 2 ^ 96), pri := BitVec.ofNat 4 (n / 2 ^ 132),
      rpc := if bitsOf n 129 1 = 1 then some (BitVec.ofNat 32 (n / 2 ^ 64)) else none }

/-- Whether the address space of a group's world has been withdrawn: every further access of the group raises TEARDOWN
(R238). -/
def cutOff (s : State) (g : Group) : Bool := match s.world g.world with | some x => x.failed | none => true

/-- The 32 bytes of the spill area's entry `i`, read as a CORE-scope access of the group (R186). -/
def spillRaw (g : Group) (i : Nat) : M Nat := wholeGroup do
  let s ← get
  if cutOff s g then failCode cTeardown else pure ()
  let p ← translate (groupAsker s g) (g.spillPtr.toNat + 32 * i) wantRead
  atPlace p (loadPlain (keyCore g.key) { cp := p.cp, cpol := 0, lease := 0 } p.home 32)

/-- The bytes of entry `i` written. -/
def spillPut (g : Group) (i v : Nat) : M Unit := wholeGroup do
  let s ← get
  if cutOff s g then failCode cTeardown else pure ()
  let p ← translate (groupAsker s g) (g.spillPtr.toNat + 32 * i) wantWrite
  roomL1 (keyCore g.key) [p.home / 32]
  atPlace p (storePlain (keyCore g.key) g.world { cp := p.cp, cpol := 0, lease := 0 } (cellsOf p.home v 32))

/-- The ends of the first `n` entries are reached before any entry is moved, so that a recoverable fault of a page of the
area stalls the group with its stack as it was. -/
def spillReach (g : Group) (n : Nat) : M Unit := wholeGroup do
  if n = 0 then pure ()
  else
    let s ← get
    let _ ← translate (groupAsker s g) g.spillPtr.toNat wantRead
    let s ← get
    let _ ← translate (groupAsker s g) (g.spillPtr.toNat + 32 * (n - 1)) wantWrite
    pure ()

/-- Entry `i` read back and checked. -/
def spillGet (g : Group) (i : Nat) : M Entry := do
  let n ← spillRaw g i
  match entryOf n with
  | some e => pure e
  | none => failCode cPathCorrupt (g.spillPtr.toNat + 32 * i)

/-- The entries from `i` on moved down by one place: `k` of them. -/
def shiftDown (g : Group) (i : Nat) : Nat → M Unit
  | 0 => pure ()
  | k + 1 => do
    let n ← spillRaw g (i + 1)
    spillPut g i n
    shiftDown g (i + 1) k

/-- The `k` entries from `i` on moved up by one place, the last first. -/
def shiftUp (g : Group) (i : Nat) : Nat → M Unit
  | 0 => pure ()
  | k + 1 => do
    let n ← spillRaw g (i + k)
    spillPut g (i + k + 1) n
    shiftUp g i k

/-- An entry taken out of the stack. -/
def spillDrop (g : Group) (i : Nat) : M Group := do
  shiftDown g i (g.spill.length - 1 - i)
  pure { g with spill := g.spill.eraseIdx i }

/-- When an entry was created: a path that has yielded stands where its creation puts it (R186, R190). -/
def Spilled.born (x : Spilled) : Int := match x.path with | some p => p.id | none => x.stamp

/-- An entry put into the stack at its place in creation order. -/
def spillAdd (g : Group) (x : Spilled) : M Group := do
  let i := (g.spill.filter (fun y => decide (y.born < x.born))).length
  shiftUp g i (g.spill.length - i)
  spillPut g i (entryBits x.entry)
  pure { g with spill := g.spill.take i ++ x :: g.spill.drop i }

/-- An entry of the stack rewritten in place. -/
def spillSet (g : Group) (i : Nat) (x : Spilled) : M Group := do
  spillPut g i (entryBits x.entry)
  pure { g with spill := g.spill.set i x }

/-! ### Ranks (R185) -/

/-- Whether an entry of priority `a` and stamp `x` ranks above one of `b` and `y`. -/
def ranks (a : BitVec 4) (x : Int) (b : BitVec 4) (y : Int) : Bool :=
  decide (b.toNat < a.toNat ∨ (a = b ∧ y < x))

/-- A path as a spilled entry. DESIGN CHOICE (log entry 77): a path that is displaced loses its stall counts and its HKEEP
coverage, though R28 does not list displacement among the control transfers. It waits for no other slot once it is back
(R190). -/
def entryOfPath (p : Path) : Spilled :=
  { stamp := p.stamp, path := some { p.cut with yielded := [] }, entry := { join := false, pc := p.pc, mask := p.live, pend := 0, pri := p.pri, rpc := p.rpc } }

/-- How many of a list of priorities and stamps rank above one. -/
def above (l : List (BitVec 4 × Int)) (a : BitVec 4) (x : Int) : Nat :=
  (l.filter (fun e => ranks e.1 e.2 a x)).length

/-- Priorities and stamps of the runnable entries of a group and of paths not yet placed. -/
def rankList (g : Group) (fresh : List Path) : List (BitVec 4 × Int) :=
  (g.slot0.toList ++ g.slot1.toList ++ fresh).map (fun p => (p.pri, p.stamp)) ++
  (g.spill.filter (fun x => !x.entry.join)).map (fun x => (x.entry.pri, x.stamp))

/-- The slot's path spilled if two entries rank above it; it loses its stall counts and coverage (DESIGN CHOICE, log entry 77). -/
def displace (sl : Bool) (l : List (BitVec 4 × Int)) (g : Group) : M Group :=
  match g.slot sl with
  | some p =>
    if 2 ≤ above l p.pri p.stamp then do
      let g ← spillAdd g (entryOfPath p)
      pure ((g.settleSlot sl).setSlot sl none)
    else pure g
  | none => pure g

/-- A path put into the first free slot; both taken leaves it out. -/
def seat (g : Group) (p : Path) : Group :=
  match g.slot0, g.slot1 with
  | none, _ => (g.settleSlot false).setSlot false (some p)
  | some _, none => (g.settleSlot true).setSlot true (some p)
  | some _, some _ => g

/-- The best runnable entry of the stack, with its index. -/
def bestSpilled (g : Group) : Option (Nat × Spilled) :=
  g.spill.zipIdx.foldl (fun (b : Option (Nat × Spilled)) (x : Spilled × Nat) =>
    if x.1.entry.join then b
    else match b with
      | none => some (x.2, x.1)
      | some (i, y) => if ranks x.1.entry.pri x.1.stamp y.entry.pri y.stamp then some (x.2, x.1) else some (i, y)) none

/-- The path of a spilled entry as read back: the displaced path itself where the entry's bytes are as they were written,
else a path made of what now stands there (R186). -/
def Spilled.back (x : Spilled) (e : Entry) : Path :=
  match x.path with
  | some p => if e = x.entry then p else { Path.make e.pc e.mask e.pri e.rpc x.stamp with id := p.id }
  | none => Path.make e.pc e.mask e.pri e.rpc x.stamp

/-- Free slots filled from the stack, best entry first (R185). An entry that is read back as a join stays in the stack as
the join that it now is (R186). -/
def fillSlots : Nat → Group → M Group
  | 0, g => pure g
  | n + 1, g =>
    if g.slot0.isSome && g.slot1.isSome then pure g
    else
      match bestSpilled g with
      | none => pure g
      | some (i, x) => do
        let e ← spillGet g i
        if e.join then fillSlots n { g with spill := g.spill.set i { x with entry := e, path := none } }
        else
          let g ← spillDrop g i
          fillSlots n (seat g (x.back e))

/-- The two highest-ranked runnable entries brought into the slots, with `fresh` paths just created, the one created
first in front: displaced paths and fresh ones that do not rank go to the stack before any entry is read back (R185).
-/
def rerank (g : Group) (fresh : List Path) : M Group := do
  let l := rankList g fresh
  let low (p : Path) : Bool := decide (2 ≤ above l p.pri p.stamp)
  spillReach g (g.spill.length + ((g.slot0.toList ++ g.slot1.toList ++ fresh).filter low).length)
  let g ← displace false l g
  let g ← displace true l g
  let g ← (fresh.filter low).foldlM (fun (g : Group) (p : Path) => spillAdd g (entryOfPath p)) g
  let stay := fresh.filter (fun p => !low p)
  fillSlots 66 ((stay.reverse).foldl seat g)

/-! ### Joins (R189) -/

/-- The latest-created join entry at a reconvergence point, of the first `n` entries of the stack (which stand in creation
order), with the entries as they are read back: each is used as it stands (R186, R189). -/
def findJoin (pc : Word) : Nat → Group → M (Group × Option (Nat × Entry))
  | 0, g => pure (g, none)
  | n + 1, g =>
    match g.spill[n]? with
    | none => findJoin pc n g
    | some x => do
      let e ← spillGet g n
      let g := if e = x.entry then g
        else { g with spill := g.spill.set n { x with entry := e, path := if e.join then none else some (x.back e) } }
      if e.join ∧ e.pc = pc then pure (g, some (n, e)) else findJoin pc n g

/-- A join whose PEND reached zero: it runs with the lanes that arrived, newly created, or retires (R189). -/
def resolveJoin (g : Group) (i : Nat) (e : Entry) : M (Group × List Path) := do
  let g ← spillDrop g i
  if e.mask = 0 then pure (g, [])
  else
    pure ({ g with nextStamp := g.nextStamp + 1 }, [Path.make e.pc e.mask e.pri e.rpc g.nextStamp])

/-- Whether the path in a slot has arrived at its reconvergence point, which its next word may reach inside an issue unit: a
prefix before it then goes with the path (R189). -/
def arrived (p : Path) : Bool := p.rpc == some p.pc

/-- Arrival of the path in a slot (R189): its lanes pass to its join, and the path ends. Without such a join it runs on
without a reconvergence point. -/
def arrive (g : Group) (sl : Bool) (p : Path) : M (Group × List Path) := do
  spillReach g g.spill.length
  let (g, found) ← findJoin p.pc g.spill.length g
  match found with
  | none => pure (g.setSlot sl (some { p with rpc := none }), [])
  | some (i, e) =>
    let e := { e with mask := e.mask ||| p.live, pend := e.pend &&& ~~~p.live }
    let g := (g.settleSlot sl).setSlot sl none
    if e.pend = 0 then resolveJoin g i e
    else
      -- an arrival counts as the entry's creation
      let g ← spillDrop g i
      let g ← spillAdd g { stamp := g.nextStamp, entry := e, path := none }
      pure ({ g with nextStamp := g.nextStamp + 1 }, [])

/-- Arrivals and ranks brought to rest (R185, R189), at most `n` arrivals. -/
def settleGo : Nat → Group → M Group
  | 0, g => rerank g []
  | n + 1, g =>
    match g.slot0, g.slot1 with
    | some p, _ =>
      if arrived p then do
        let (g, fresh) ← arrive g false p
        let g ← rerank g fresh
        settleGo n g
      else
        match g.slot1 with
        | some q =>
          if arrived q then do
            let (g, fresh) ← arrive g true q
            let g ← rerank g fresh
            settleGo n g
          else rerank g []
        | none => rerank g []
    | none, some q =>
      if arrived q then do
        let (g, fresh) ← arrive g true q
        let g ← rerank g fresh
        settleGo n g
      else rerank g []
    | none, none => rerank g []

/-- Whether a path stands inside an issue unit that goes on (R22, R189). -/
def Path.within (p : Path) : Bool := p.unitPc.isSome && !arrived p

/-- Whether the paths of a group may be re-ranked now: not inside an issue unit (R22), in single-lane mode (R231) or
in a routine (R248). -/
def mayRank (g : Group) : Bool :=
  g.single.isNone && g.routine == .normal && !g.slot0.any Path.within && !g.slot1.any Path.within

/-- Whether ranks or arrivals are still to be settled. -/
def unsettled (g : Group) : Bool :=
  mayRank g &&
  ((match g.slot0 with | some p => arrived p | none => false) ||
   (match g.slot1 with | some p => arrived p | none => false) ||
   (match bestSpilled g with
    | none => false
    | some (_, x) => decide (above (rankList g []) x.entry.pri x.stamp < 2)))

/-- A group to be written back, with the `%wct` that its own stores have reached meanwhile (R68). -/
def keepWct (s : State) (g : Group) : Group :=
  match s.group g.key with
  | some x => { g with wct := max g.wct x.wct }
  | none => g

/-- Settling as far as it goes: a recoverable stall leaves the group as it was, for a later step (R186); a fault is
fatal (R54, R186). -/
def settle (s : State) (k : Key) : State :=
  match s.group k with
  | none => s
  | some g =>
    if !unsettled g then s
    else
      match (do let g' ← settleGo 70 g; modify (fun (s : State) => s.setGroup (keepWct s g'))) s with
      | .ok _ s' => s'
      | .error (.fault f) _ => fatalGroup s g f.code f.addr 0 0 0
      | .error _ s' => s'

/-! ### Divergence (R188) -/

/-- The number of entries left spilled after the slot's path gives way to `n` children and perhaps a join. -/
def spilledAfter (g : Group) (sl : Bool) (n : Nat) (join : Bool) : Nat :=
  let others := match g.slot (!sl) with | some _ => 1 | none => 0
  let runnable := others + n + (g.spill.filter (fun x => !x.entry.join)).length
  others + n + g.spill.length + (if join then 1 else 0) - min 2 runnable

/-- Divergence: the path gives way to a child for each set of lanes, the last of the list created last; a join is
pushed first where the word has a reconvergence point (R188). -/
def diverge (g : Group) (sl : Bool) (p : Path) (kids : List (Word × Word)) (rc : Option Word) : M Group := do
  if g.routine != .normal then failCode cPathDepth
  else if 64 < spilledAfter g sl kids.length rc.isSome then failCode cPathDepth
  else
    let g := (g.settleSlot sl).setSlot sl none
    spillReach g (spilledAfter g sl kids.length rc.isSome)
    let g ← match rc with
      | some r =>
        let e : Entry := { join := true, pc := r, mask := 0, pend := p.live, pri := p.pri, rpc := p.rpc }
        let x : Spilled := { stamp := g.nextStamp, entry := e, path := none }
        spillAdd { g with nextStamp := g.nextStamp + 1 } x
      | none => pure g
    let rpc := match rc with | some r => some r | none => p.rpc
    let base := g.nextStamp
    let fresh := kids.zipIdx.map (fun (x : (Word × Word) × Nat) =>
      Path.make x.1.1 x.1.2 p.pri rpc (base + (x.2 : Int)))
    rerank { g with nextStamp := base + (kids.length : Int) } fresh

/-! ### Lanes that retire (R346) -/

/-- The lanes taken from PEND of entry `i` and of those after it; joins that empty are resolved (R189). -/
def takePend (lanes : Word) : Nat → Nat → Group × List Path → M (Group × List Path)
  | 0, _, r => pure r
  | n + 1, i, (g, fresh) =>
    match g.spill[i]? with
    | none => pure (g, fresh)
    | some x =>
      if x.entry.join && x.entry.pend &&& lanes != 0 then do
        let e ← spillGet g i
        let e := if e.join then { e with pend := e.pend &&& ~~~lanes } else e
        if !e.join then
          takePend lanes n (i + 1) ({ g with spill := g.spill.set i { x with entry := e, path := some (x.back e) } }, fresh)
        else if e.pend = 0 then
          let (g, f) ← resolveJoin g i e
          takePend lanes n i (g, fresh ++ f)
        else
          let g ← spillSet g i { x with entry := e }
          takePend lanes n (i + 1) (g, fresh)
      else takePend lanes n (i + 1) (g, fresh)

/-- Lanes removed from the slot's path and from every join; a path without lanes retires (R346). -/
def exitLanes (g : Group) (sl : Bool) (p : Path) (lanes : Word) (tick : Nat) : M Group := do
  let live := p.live &&& ~~~lanes
  let g := if live = 0 then (g.settleSlot sl).setSlot sl none
    else g.setSlot sl (some { p.next tick with live := live })
  spillReach g g.spill.length
  let (g, fresh) ← takePend lanes 64 0 (g, [])
  rerank g fresh

/-- A group with no entry left (R185). -/
def Group.retired (g : Group) : Bool := g.slot0.isNone && g.slot1.isNone && g.spill.isEmpty

end Sys2Proof.Machine
end

