-- ==== Sys2Proof/Machine/Residency.lean ====
section
/-! DEFINITION. The launch record (R207, R208), the groups it makes (R212, R224, R244), what a core has free (R210),
spawn bins that launch (R212), and what the part releases when a group and its workgroup end (R80, R138, R191, R202).
-/

namespace Sys2Proof.Machine

/-! ### The launch record (R207) -/

def Launch.field (l : Launch) (lo n : Nat) : Nat := bitsOf l.record.toNat lo n
def Launch.spill (l : Launch) : Nat := l.field 448 64
def Launch.segs (l : Launch) : Nat := l.field 384 64
def Launch.rtab (l : Launch) : Nat := l.field 320 64
def Launch.lvl (l : Launch) (k : Nat) : Nat := l.field (64 + 32 * k) 32
def Launch.entry (l : Launch) : Nat := 4 * l.field 49 15
def Launch.nseg (l : Launch) : Nat := l.field 44 5 + 1
def Launch.slot0 (l : Launch) : Nat := l.field 39 5
def Launch.gpw (l : Launch) : Nat := l.field 34 5 + 1
def Launch.quota (l : Launch) : Nat := if l.field 30 4 = 0 then 64 else 8 * l.field 30 4
def Launch.scr (l : Launch) : Nat := l.field 23 7
def Launch.pri (l : Launch) : BitVec 4 := BitVec.ofNat 4 (l.field 19 4)
def Launch.cls (l : Launch) : OpClass :=
  match l.field 17 2 with
  | 0 => .floor | 1 => .efficient | 2 => .sustain | _ => .burst
def Launch.score (l : Launch) : Bool := l.field 16 1 == 1
def Launch.nbhd (l : Launch) : Nat := l.field 11 5

/-- EXT, DOMAIN and SCOPE of a level (R208). -/
def Launch.ext (l : Launch) (k : Nat) : Nat := l.lvl k / 2 ^ 16
def Launch.domain (l : Launch) (k : Nat) : Nat := bitsOf (l.lvl k) 4 3
def Launch.scope (l : Launch) (k : Nat) : Nat := bitsOf (l.lvl k) 0 3
/-- The number of used levels: those in front of the first with extent zero (R208). -/
def Launch.levels (l : Launch) : Nat := ((List.range 8).takeWhile (fun k => l.ext k != 0)).length
/-- `P_k`, the threads of a level-`k` instance (R208). -/
def Launch.span (l : Launch) (k : Nat) : Nat := ((List.range (k + 1)).map l.ext).foldl (· * ·) 1
/-- The thread count T. -/
def Launch.threads (l : Launch) : Nat := l.span (l.levels - 1)
/-- Threads of a workgroup. -/
def Launch.wgThreads (l : Launch) : Nat := 32 * l.gpw
/-- The workgroup count W. -/
def Launch.wgCount (l : Launch) : Nat := (l.threads + l.wgThreads - 1) / l.wgThreads
/-- Threads of workgroup `w` that are live. -/
def Launch.liveIn (l : Launch) (w : Nat) : Nat := min l.wgThreads (l.threads - w * l.wgThreads)
/-- Groups of workgroup `w` that are placed: those with a live lane (R208). -/
def Launch.placedIn (l : Launch) (w : Nat) : Nat := (l.liveIn w + 31) / 32
/-- `%lvlk` of thread `t` (R208). -/
def Launch.lvlOf (l : Launch) (k t : Nat) : Nat :=
  if l.ext k = 0 then 0 else (if k = 0 then t else t / l.span (k - 1)) % l.ext k
/-- `%extk` (R208). -/
def Launch.extWord (l : Launch) (k : Nat) : Word :=
  if l.ext k = 0 then 0 else BitVec.ofNat 32 (l.ext k * 2 ^ 16 + l.domain k * 16 + l.scope k)

/-- The mask of the first `n` lanes. -/
def lowLanes (n : Nat) : Word := BitVec.ofNat 32 (2 ^ (min n 32) - 1)

/-! ### Groups -/

/-- The spill area of the group in slot `g` of workgroup `w` (R207). -/
def Launch.spillOf (l : Launch) (w g : Nat) : DWord := BitVec.ofNat 64 (l.spill + (w * 32 + g) * 2048)
/-- Its context record (R244). -/
def Launch.contextOf (l : Launch) (w g : Nat) : DWord :=
  BitVec.ofNat 64 (l.spill + l.wgCount * 65536 + (w * 32 + g) * 20480)

/-- Service registers as at launch (R212, R232). -/
def Service.fresh : Service :=
  { tcause := 0, tpc := 0, tmask := 0, taddrl := 0, taddrh := 0, mboxl := 0, mboxh := 0, lsel := 0,
    hsave0 := UReg.void, hsave1 := UReg.void }

/-- A group as it starts (R212, R224): one path at `pc` with the given lanes, every register VOID, predicates zero, em
all ones, flags, q and `%wct` at reset. `n` is its serial. -/
def Launch.group (l : Launch) (n w : Nat) (k : Key) (pc live : Word) (lvl : Vector Lanes 8) : Group :=
  { key := k, serial := n, world := l.world, launch := l.id, wg := w, quota := l.quota
    v := Vector.replicate 96 VReg.void, u := Vector.replicate 32 UReg.void, p := Vector.replicate 7 0
    em := 0xFFFFFFFF, flags := 0, q := 0, wct := 0, region := none, score := l.score
    slot0 := some (Path.make pc live l.pri none 0), slot1 := none, spill := []
    spillPtr := l.spillOf w k.slot, context := l.contextOf w k.slot, nextStamp := 1
    svc := Service.fresh, single := none, routine := .normal, stage := .running
    rebuiltV := 0, rebuiltU := 0, rebuiltS := 0, saved := 0, pending := [], lvl := lvl, cls := l.cls
    spawnPri := l.pri, withdrawn := [], last0 := 0, last1 := 0, spillHeld := none }

/-! ### What a core has free (R94, R210) -/

/-- The groups resident on a core. -/
def State.onCore (s : State) (c : CoreId) : List Group := s.groups.filter (fun g => keyCore g.key == c)
/-- Group slots that are free, lowest first. -/
def State.freeSlots (s : State) (c : CoreId) : List Nat :=
  (List.range 32).filter (fun i => !(s.onCore c).any (fun g => g.key.slot == i))
/-- Registers of the 2,048 that are free. -/
def State.freeRegs (s : State) (c : CoreId) : Nat :=
  2048 - ((s.onCore c).map (fun g => g.quota)).foldl (· + ·) 0
/-- Scratchpad banks that are free and scrubbed (R76, R284). -/
def State.freeBanks (s : State) (c : CoreId) : Nat :=
  64 - ((s.wgs.filter (fun w => w.core == c)).map (fun w => w.banks)).foldl (· + ·) 0
     - ((s.scrubs.filter (fun x => x.core == c)).map (fun x => x.banks)).foldl (· + ·) 0

/-- Gated and waking banks of a core (R72). -/
def sleeping (c : CoreId) (l : List PowerUnit) : List PowerUnit :=
  l.filter (fun u => match u with | .bank d k _ => c == { die := d, core := k } | _ => false)
/-- Free banks that are awake (R72). -/
def State.awakeBanks (s : State) (c : CoreId) : Nat :=
  s.freeBanks c - (sleeping c s.gated).length - (sleeping c s.waking).length
/-- Gated banks of some cores sent to wake. -/
def wakeBanks (s : State) (cs : List CoreId) : State :=
  let us := cs.flatMap (fun c => sleeping c s.gated)
  { s with gated := s.gated.filter (fun u => !us.contains u), waking := s.waking ++ us.eraseDups }

/-! ### Spawn bins (R212) -/

/-- The bins of a workgroup. -/
def binsOf (k : Core) (launch wg : Nat) : List (Nat × Bin) :=
  k.bins.filter (fun b => b.2.launch == launch && b.2.wg == wg)

/-- Whether a core belongs to a partition. -/
def Partition.holds (p : Partition) (c : CoreId) : Bool := c.die == p.die && p.quads.contains (c.core / 4)
/-- The partition that a key's core belongs to while an IMMEDIATE request proceeds there (R246). -/
def State.stopping (s : State) (k : Key) : Option Partition :=
  s.parts.find? (fun p => p.stage != 0 && p.holds (keyCore k))

/-- The registers of a slot zeroed for a grant (R284, R357). -/
def grantSlot (s : State) (k : Key) : State :=
  let c := s.core (keyCore k)
  s.setCore { c with kept := dropN c.kept k.slot }

/-- A bin launched if the core has a slot and the registers, else it waits as full or expired (R212), as it does while a
pre-emption stops its core (R246). -/
def launchBin (s : State) (c : CoreId) (n : Nat) : State :=
  let k := s.core c
  match lookupN k.bins n with
  | none => s
  | some b =>
    match s.launch b.launch, s.freeSlots c with
    | some l, i :: _ =>
      if l.quota ≤ s.freeRegs c && (s.stopping { die := c.die, core := c.core, slot := i }).isNone then
        let lvl : Vector Lanes 8 := Vector.ofFn (fun (j : Fin 8) => Vector.ofFn (fun (i : Fin 32) =>
          match b.threads[i.val]? with
          | some t => (t.2[j.val]?).getD 0
          | none => 0))
        let g := l.group s.nextId b.wg { die := c.die, core := c.core, slot := i } b.entry (lowLanes b.threads.length) lvl
        let v0 : VReg :=
          { lanes := Vector.ofFn (fun (i : Fin 32) => match b.threads[i.val]? with | some t => t.1 | none => 0)
            tag := b.tag, side := 0 }
        let s := grantSlot (s.setCore { k with bins := dropN k.bins n }) g.key
        { s with groups := s.groups ++ [{ g with v := g.v.setIfInBounds 0 v0 }], nextId := s.nextId + 1 }
      else s.setCore { k with bins := putN k.bins n { b with expired := true } }
    | _, _ => s.setCore { k with bins := putN k.bins n { b with expired := true } }

/-! ### Ends -/

/-- Whether a workgroup still has a group. -/
def wgAlive (s : State) (launch wg : Nat) : Bool := s.groups.any (fun g => g.launch == launch && g.wg == wg)

/-- A tile entry freed: its generation rises (R78). -/
def freeTile (q : Quad) (i : Nat) : Quad :=
  match lookupN q.tiles i with
  | some t => { q with tiles := putN q.tiles i { gen := t.gen + 1, tile := none } }
  | none => q

/-- Whether a tile has a transfer or an engine word in flight. -/
def Tile.inFlight (t : Tile) : Bool := t.state == .filling || t.state == .draining || decide (0 < t.readers)

/-- The slot of operand memory that a tile is located in (R81). -/
def Tile.opSlot (t : Tile) : Option Nat :=
  if bitsOf t.desc.toNat 173 1 = 1 then some (bitsOf t.desc.toNat 224 6) else none

/-- The claimed slots of a workgroup that has ended. -/
def Quad.endedSlots (q : Quad) (launch wg : Nat) : List Nat :=
  (q.slots.filter (fun p => p.2.ended && p.2.launch == launch && p.2.wg == wg)).map (fun p => p.1)

/-- The slots of an ended workgroup are released, all together, once no tile located in any of them, whichever workgroup it
belongs to, is being read (R138) or transferred (R80). -/
def releaseEnded (s : State) (q : Quad) : Quad :=
  { q with slots := q.slots.filter (fun p =>
      !(p.2.ended && !wgAlive s p.2.launch p.2.wg) ||
      q.tiles.any (fun t => match t.2.tile with
        | some x => x.inFlight && (match x.opSlot with
          | some i => (q.endedSlots p.2.launch p.2.wg).contains i
          | none => false)
        | none => false)) }

/-- Whether a transfer or an engine operation in flight still uses what a workgroup holds in its quad (R80). -/
def wgBusy (q : Quad) (launch wg : Nat) : Bool :=
  q.tiles.any (fun t => match t.2.tile with
    | some x => x.launch == launch && x.wg == wg && x.inFlight
    | none => false) ||
  q.entries.any (fun e => e.launch == launch && e.wg == wg)

/-- The bytes of a workgroup whose groups have exited are given up and scrubbed once nothing in flight uses them (R76, R80). -/
def closeWorkgroup (s : State) (launch wg : Nat) : State :=
  match s.wg launch wg with
  | none => s
  | some w =>
    if !w.closed || wgBusy (s.quad (coreQuad w.core)) launch wg then s
    else
      let s := { s with wgs := s.wgs.filter (fun x => !(x.launch == launch && x.wg == wg)) }
      if w.banks = 0 then s else
        { s with scrubs := s.scrubs ++ [{ id := s.nextId, core := w.core, banks := w.banks }], nextId := s.nextId + 1 }

/-- What ends in a quad with a workgroup: its tile entries once their transfers have ended, its spools, its claims on
slots (R80, R138, R202). -/
def endInQuad (s : State) (q : Quad) (launch wg : Nat) : Quad :=
  let mine (t : Tile) : Bool := t.launch == launch && t.wg == wg
  let q : Quad := { q with
    slots := q.slots.map (fun p => if p.2.launch == launch && p.2.wg == wg then (p.1, { p.2 with ended := true }) else p)
    spools := q.spools.filter (fun p => !(p.2.launch == launch && p.2.wg == wg)) }
  let q := (q.tiles.filter (fun t => match t.2.tile with | some x => mine x && !x.inFlight | none => false)).foldl
    (fun (q : Quad) (t : Nat × TileSlot) => freeTile q t.1) q
  releaseEnded s q

/-- The overlay slots of a world on a core scrubbed and freed when no group of it is left there (R191). -/
def freeOverlay (s : State) (c : CoreId) (world : Nat) : State :=
  if (s.onCore c).any (fun g => g.world == world) then s
  else
    let k := s.core c
    s.setCore { k with overlay := k.overlay.filter (fun p => p.2.world != some world) }

/-- The end of a workgroup without groups and bins (R76, R80, R199, R202, R224). -/
def endWorkgroup (s : State) (launch wg : Nat) : State :=
  match s.wg launch wg with
  | none => s
  | some w =>
    if w.closed || wgAlive s launch wg || !(binsOf (s.core w.core) launch wg).isEmpty then s
    else
      let s := s.setWg { w with closed := true, nbhd := none }
      let s := s.setQuad (endInQuad s (s.quad (coreQuad w.core)) launch wg)
      let s := closeWorkgroup s launch wg
      match s.launch launch with
      | none => s
      | some l =>
        let l := { l with ended := l.ended + 1 }
        let s := s.setLaunch l
        if l.wgCount ≤ l.ended && !l.dead then s.due [.kernelCompletion launch] else s

/-- What a group waited for, forgotten, when it stops or leaves: grows (R95), queued pushes and pops (R206), the answers to
its promotion requests, which go on at their targets (R184). -/
def forget (s : State) (g : Group) : State :=
  let mine (x : Key × Int) : Bool := x.1 == g.key
  { s with
    cores := s.cores.map (fun (c : Core) =>
      { c with
        grows := c.grows.filter (fun x => x.1 != g.key)
        waiting := c.waiting.map (fun (r : PromoReq) => { r with who := r.who.filter (fun x => !mine x) })
        acks := c.acks.filter (fun a => a.1 != g.key)
        promo := c.promo.map (fun (p : Promo) => { p with joined := p.joined.filter (fun x => !mine x) }) })
    quads := s.quads.map (fun (q : Quad) =>
      { q with spools := q.spools.map (fun x => (x.1,
          { x.2 with pops := x.2.pops.filter (fun y => y.serial != g.serial),
                     pushes := x.2.pushes.filter (fun y => y.serial != g.serial) })) }) }

/-- What the registers of a group keep once it has retired; those of a world whose address space is gone are scrubbed at once
(R357). -/
def keepRegisters (s : State) (g : Group) : State :=
  let k := s.core (keyCore g.key)
  let gone := match s.world g.world with | some x => x.failed | none => false
  let rest := dropN k.kept g.key.slot
  s.setCore { k with kept := if gone then rest else
    (g.key.slot, { world := g.world, v := g.v, u := g.u, p := g.p, flags := g.flags }) :: rest }
/-- A group that leaves its core. Before the last one of a workgroup exits, the workgroup's bins are launched (R212). -/
def retireGroup (s : State) (k : Key) : State :=
  match s.group k with
  | none => s
  | some g =>
    let c := keyCore k
    let s := if s.groups.any (fun x => x.launch == g.launch && x.wg == g.wg && x.key != k) then s else
      (binsOf (s.core c) g.launch g.wg).foldl (fun (s : State) (b : Nat × Bin) => launchBin s c b.1) s
    let s : State :=
      { s.dropPort k with groups := s.groups.filter (fun x => x.key != k), flight := s.flight.filter (fun f => f.key != k) }
    let s := forget (keepRegisters s g) g
    endWorkgroup (freeOverlay s c g.world) g.launch g.wg

end Sys2Proof.Machine
end

