-- ==== Sys2Proof/Machine/Issue.lean ====
section
/-! DEFINITION. One word at issue: what the front end checks of every word and in which order (R16-R19, R22-R25, R29,
R100, R234, R249, R255), and what the machine does with its outcome: results written, the path advanced, a stall, a
fault. Every meaning of a word is a description of it (Wd) given to `issueWord`. -/

namespace Sys2Proof.Machine

/-- The class of a major opcode (R16); hint words are issued by `issueHint`. -/
inductive Cls where
  | v | u | c
  deriving DecidableEq, Repr

/-- How the path goes on after a word: to the next word, by a control transfer (R28), or as the word itself has
arranged (`moved`). -/
inductive Go where
  | seq
  | jump (pc : Word)
  | moved

/-- The outcome of a word: registers, predicates (number, lanes, bits) and flags to write, and how the path goes on. -/
structure Out where
  regs  : List RegOut := []
  preds : List (Nat × Word × Word) := []
  flags : Word := 0
  go    : Go := .seq

/-- A word as the front end and the issue port know it. -/
structure Wd where
  /-- Class (R16) and guard field (R10). -/
  cls     : Cls
  guard   : Guard
  /-- SEL: the guard selects and does not gate lanes (R11). -/
  select  : Bool := false
  /-- BRD, JMPI, CALLI: the guard is a condition per lane (R11, R194). -/
  perLane : Bool := false
  /-- BRA, CALL, JMPF: the guard is required to be uniform (R11). -/
  uniform : Bool := false
  /-- Register operand codes named, checked against the quota (R13). -/
  codes   : List Code := []
  /-- The other conditions of R17 on the fields. -/
  legal   : Cx → Bool := fun _ => true
  /-- Prefixes that fit (R22-R25). -/
  himm    : Bool := false
  himmRi  : Bool := false
  hrcv    : Bool := false
  rnd     : Bool := false
  mem     : Bool := false
  /-- Registers whose tags decide further legality, and that legality (R126). -/
  judge   : List Code := []
  legalT  : Cx → Bool := fun _ => true
  /-- Registers of which only the tag is read (GTAG). -/
  peeks   : List Code := []
  /-- Predicates read as sources, the guard's apart. -/
  preads  : List Nat := []
  /-- Single registers read as sources (R100). -/
  reads   : Cx → List Code := fun _ => []
  /-- Registers read as sources with no check of their tags (SRV.W of HSAVE). -/
  takes   : List Code := []
  /-- Registers that are halves of a 64-bit operand, whatever their tags (R31). -/
  wides   : List Code := []
  /-- The tags accepted, once none is VOID (R100). -/
  accept  : Cx → Bool := fun _ => true
  /-- Destination registers (R249). -/
  dests   : Cx → List Code := fun _ => []
  /-- Accepted in single-lane mode, in an exit routine, in an entry routine (R234, R249, R255). -/
  handler : Bool := true
  /-- Accepted in the handler of ACC_LEAK (R138 of 09). -/
  leak    : Bool := false
  inExit  : Bool := true
  inEntry : Bool := true
  /-- An access, tile, engine or code word (R238). -/
  touches : Bool := false
  /-- Waits until every access of the group has returned. -/
  drains  : Bool := false
  /-- Cycles of a fixed latency, none for a variable one (R26). -/
  latency : Cx → Option Nat := fun _ => none
  /-- The entry's remaining faults and its effect. -/
  run     : Cx → M Out

/-! ### The region table (R242, R243) -/

/-- The current region's entry of a group (R241, R243). -/
def regionEntry (s : State) (g : Group) : Option (BitVec 512) :=
  match s.launch g.launch, g.region with
  | some l, some r => match l.table with
    | some t => t[r.toNat]?
    | none => none
  | _, _ => none

/-- Whether a code names a register that the region holds live (R243, R249). -/
def liveCode (e : BitVec 512) (c : Code) : Bool :=
  if isVec c then bitsOf e.toNat (416 + c.toNat) 1 == 1 else bitsOf e.toNat (384 + (c.toNat - 96)) 1 == 1

/-! ### Legality (R17, R18, R22-R25, R249, R255) -/

/-- Whether the pending prefixes fit the word (R22-R25). -/
def Wd.fits (w : Wd) (p : Path) : Bool :=
  (match p.himm with
   | some h => w.himm || (w.himmRi && bitsOf h.toNat 17 5 == 0)
   | none => true) &&
  (p.hrcv.isNone || w.hrcv) &&
  (match p.hmod with
   | some h => (bitsOf h.toNat 19 3 == 0 || w.rnd) && ((bitsOf h.toNat 16 3 == 0 && bitsOf h.toNat 13 3 == 0) || w.mem)
   | none => true)

/-- Whether a group runs the handler of ACC_LEAK, which may free the banks (R138 of 09). -/
def Group.leaking (g : Group) : Bool := bitsOf g.svc.tcause.toNat 16 8 == cAccLeak && !hasBit g.svc.tcause 31

/-- Whether the mode of the group accepts the word (R234, R249, R255). DEDUCED (log entry 88): R138 of 09 lets the handler of
ACC_LEAK free the banks, so ACFREE is accepted there beside the words of R234. -/
def Wd.admitted (w : Wd) (s : State) (c : Cx) : Bool :=
  (c.g.single.isNone || w.handler || (w.leak && c.g.leaking)) &&
  match c.g.routine with
  | .normal => true
  | .exit _ _ => w.inExit && (match regionEntry s c.g with
      | some e => (w.dests c).all (fun r => !liveCode e r)
      | none => true)
  | .entry _ => w.inEntry

/-- The conditions that need no value (R17). -/
def Wd.ok (w : Wd) (s : State) (c : Cx) : Bool :=
  w.codes.all (oneOk c.g.quota) && w.legal c && w.fits c.p && w.admitted s c

/-- The lanes that decide whether a class V word is checked (R18). -/
def Wd.lanes (w : Wd) (c : Cx) : Word := if w.select then c.en else c.lanes

/-- Whether the guard lets a class U or C word take effect (R11). -/
def Wd.effective (w : Wd) (c : Cx) : Bool :=
  match w.cls with
  | .v => true
  | _ => w.perLane || c.takes

/-- Whether the guard's common value is not common (R11). -/
def Wd.split (w : Wd) (c : Cx) : Bool :=
  w.uniform && c.live &&& c.grd != 0 && c.live &&& ~~~c.grd != 0

/-! ### Matrix-engine operations whose operands are overwritten (R144) -/

/-- The record entries that an operation uses as plain numbers: the scale, row0, col0 and VLEN of MMS and the threshold
of QSPLIT (R142). -/
def EngEntry.scalars (e : EngEntry) : List Nat :=
  match e.minor.toNat with | 2 => [4, 5, 6, 7] | 11 => [2] | _ => []

/-- Entry `i` of the record overwritten: a free value stands for a number (log entry 15), and an operation whose handles
or addresses are overwritten writes free values. -/
def EngEntry.spoil (e : EngEntry) (tick i : Nat) : EngEntry :=
  if e.record.length ≤ i then e
  else if e.scalars.contains i then
    let x := Config.engineOpen tick i
    { e with record := e.record.set i (x.setWidth 32), vlen := if e.minor = 2 ∧ i = 7 then x.toInt else e.vlen }
  else { e with spoiled := true }

/-- Registers written by a group whose posted operations still run. -/
def spoilRecords (s : State) (k : Key) (written : List Code) : State :=
  let qu := s.quad (keyQuad k)
  let us := (written.filter (fun r => !isVec r)).map (fun r => r.toNat - 96)
  match s.group k with
  | none => s
  | some g =>
    let mine (e : EngEntry) : Bool := e.key == k && e.serial == g.serial
    if us.isEmpty || !qu.entries.any mine then s
    else
      s.setQuad { qu with entries := qu.entries.map (fun e =>
        if mine e then (us.filter (fun u => decide (e.first ≤ u))).foldl
          (fun (e : EngEntry) u => e.spoil s.tick (u - e.first)) e
        else e) }

/-! ### Reuse latches (R31, R32) -/

/-- The issue port of a core that a group issues in (R215). -/
def portNo (k : Key) : Nat := (k.die * 192 + k.core) * 4 + k.slot % 4

/-- When a result that is pending on a register for a path lands, if one is (R29). -/
def Cx.landing (c : Cx) (r : Code) : Option Nat :=
  ((c.g.pending.filter (fun e => isOld r e.what && e.unseen c.sl c.p.cycle)).map (fun e => e.due)).min?

/-- A latch filled by a covered word: the value and tag that it read of the code, a register of a 64-bit operand (by its tag,
or among `wides`) only where the two codes name its pair (R31). -/
def fillLatch (c : Cx) (k0 k1 r : Code) (reads wides : List Code) (l : Option Latch) : Option Latch :=
  let pair := k0.toNat / 2 == k1.toNat / 2 && k0 != k1
  if l.isNone && reads.contains r && (!(wide (c.tag r) || wides.contains r) || pair) then
    some { code := r, lanes := Vector.ofFn (fun (i : Fin 32) => c.val r i.val), tag := c.tag r, lands := c.landing r }
  else l

/-- A latch that a word of a path at a cycle still finds: no result has landed in its register since it was filled (R32). -/
def stillHolds (cycle : Nat) (l : Option Latch) : Option Latch :=
  l.filter (fun x => match x.lands with | some t => decide (cycle < t) | none => true)

/-- The latches of a port after a word that read and wrote registers: those that served another group or path slot are
gone, the word's coverage fills them, and a write to a latched register invalidates it (R31, R32). -/
def latchWord (s : State) (c : Cx) (reads wides written : List Code) : State :=
  match c.p.keep with
  | none => { s with ports := dropN s.ports (portNo c.key) }
  | some (k0, k1, _) =>
    let old : Port := match lookupN s.ports (portNo c.key) with
      | some x => if x.key == c.key && x.slot1 == c.sl then
            { x with l0 := stillHolds c.p.cycle x.l0, l1 := stillHolds c.p.cycle x.l1 }
          else { key := c.key, slot1 := c.sl, l0 := none, l1 := none }
      | none => { key := c.key, slot1 := c.sl, l0 := none, l1 := none }
    let keep (l : Option Latch) : Option Latch := l.filter (fun x => !written.contains x.code)
    let l0 := keep (fillLatch c k0 k1 k0 reads wides old.l0)
    let l1 := keep (if k0 = k1 then none else fillLatch c k0 k1 k1 reads wides old.l1)
    { s with ports := putN s.ports (portNo c.key) { key := c.key, slot1 := c.sl, l0 := l0, l1 := l1 } }

/-- Latches whose coverage has ended, by its count, a control transfer, or the end of its path's issue (R32). -/
def endLatch (s : State) (k : Key) (sl : Bool) : State :=
  match (s.group k).bind (fun (g : Group) => g.slot sl) with
  | some p => if p.keep.isSome then s else { s with ports := dropN s.ports (portNo k) }
  | none => { s with ports := dropN s.ports (portNo k) }

/-- Latches of registers that a returned access writes (R32). -/
def unlatch (s : State) (k : Key) (written : List Code) : State :=
  let keep (l : Option Latch) : Option Latch := match l with
    | some x => if written.contains x.code then none else some x
    | none => none
  { s with ports := s.ports.map (fun p =>
      if p.2.key == k then (p.1, { p.2 with l0 := keep p.2.l0, l1 := keep p.2.l1 }) else p) }

/-! ### Results that come back -/

/-- The results of a returned access written into its group (R28, R50). -/
def landFlight (s : State) (f : Inflight) (x : Nat → Nat) : State :=
  match s.group f.key with
  | none => s
  | some g =>
    let rs := f.outs x
    let names := rs.map (fun (r : RegOut) => r.code)
    unlatch (spoilRecords (s.setGroup (rs.foldl (fun (g : Group) r => g.put none false r) g)) f.key names) f.key names

/-- The results of a group's atomics that are on their way written, before a trap entry (R158). -/
def landAtoms (s : State) (k : Key) : State :=
  let mine (f : Inflight) : Bool := f.key == k && f.vals.isSome
  (s.flight.filter mine).foldl (fun (s : State) (f : Inflight) => landFlight s f (Inflight.got (f.vals.getD [])))
    { s with flight := s.flight.filter (fun f => !mine f) }

/-! ### Where a fault goes (R229) -/

/-- A fault of the word that a path issues, as the state before the word decides (R229, R231, R234, R250, R255). `arg`
is the n of TRAP; TPC is the word's unit, or for TRAP the word after it (R232). -/
def raise (s : State) (g : Group) (sl : Bool) (p : Path) (f : FaultInfo) (arg : Nat := 0) : State :=
  let s := noteError s f
  let pc := p.unitPc.getD p.pc
  let h := f.lane.getD ((lowest p.live).getD 0)
  let lane := f.lane.getD 0
  match g.routine with
  | .exit snap _ =>
    let s := abandon s g snap f.code f.addr pc
    if isPrecise f.code then s else fatalGroup s g f.code f.addr pc lane f.mask
  | .entry _ => fatalGroup s g f.code f.addr pc lane f.mask
  | .normal =>
    if !isPrecise f.code then fatalGroup s g f.code f.addr pc lane f.mask
    else if g.single.isSome then fatalGroup s g cDoubleFault f.addr pc lane f.mask
    else
      let tvec := match s.world g.world with | some w => w.tvec | none => 0
      if tvec = 0 then fatalGroup s g f.code f.addr pc lane f.mask
      else if !goodVector s (keyCore g.key) g.world tvec then fatalGroup s g cTrapVector f.addr pc lane f.mask
      else
        let tpc := if f.code = cTrap then p.pc + 4 else pc
        let tmask := if f.mask = 0 then laneBit h else f.mask
        let s := (landAtoms s g.key).dropPort g.key
        let g := (s.group g.key).getD g
        s.setGroup (enterHandler g sl p tvec h none 0 (causeWord false h f.code arg) tpc tmask f.addr)

/-! ### Outcomes -/

/-- The slot's path after the word, by what it did. -/
def goOn (g : Group) (sl : Bool) (tick : Nat) : Go → Group
  | .seq => g.setSlot sl ((g.slot sl).map (fun p => p.next tick))
  | .jump pc => (g.settleSlot sl).setSlot sl ((g.slot sl).map (fun p => p.jump pc tick))
  | .moved => g

/-- Pending results forgotten once every one of the list is written (R26). -/
def Group.prune (g : Group) : Group :=
  let done (e : PendWrite) : Bool := match (if e.path == 0 then g.slot0 else g.slot1) with
    | some p => decide (e.due ≤ p.cycle)
    | none => true
  if g.pending.all done then { g with pending := [] } else g

/-- What a word writes, as operand codes and, for predicates, 128 + n. -/
def Out.names (o : Out) : List Nat :=
  o.regs.map (fun r => r.code.toNat) ++ (o.preds.map (fun x => 128 + x.1)).filter (fun n => decide (n < 135))

/-- The variable-latency results of a path after a word: a consumer stalls until eight cycles have passed (R28; the
number is log entry 5's). -/
def Path.noteLate (p : Path) (isLate : Bool) (ns : List Nat) : Path :=
  let kept := p.late.filter (fun x => decide (p.cycle < x.2) && !ns.contains x.1)
  { p with late := if isLate then ns.map (fun n => (n, p.cycle + 8)) ++ kept else kept }

/-- Whether a word that reads these registers and predicates stalls for a variable-latency result (R28). -/
def Cx.stalled (c : Cx) (rs : List Code) (ns : List Nat) : Bool :=
  c.p.late.any (fun x =>
    decide (c.p.cycle < x.2) && (rs.any (fun r => r.toNat == x.1) || ns.any (fun n => 128 + n == x.1)))

/-- The results of a word written into its group (R15, R26, R98, R115) and the path gone on. -/
def finish (g : Group) (sl : Bool) (due : Option Nat) (tick : Nat) (o : Out) : Group :=
  let g := g.setSlot sl ((g.slot sl).map (fun p => p.noteLate due.isNone o.names))
  let g := o.regs.foldl (fun (g : Group) (r : RegOut) => g.put due sl r) g
  let g := o.preds.foldl (fun (g : Group) (x : Nat × Word × Word) => g.putPred due sl x.1 x.2.1 x.2.2) g
  ({ goOn (g.orFlags o.flags) sl tick o.go with spillHeld := none } : Group).prune

/-- What follows a word: ranks and arrivals settle (R185), and a group without entries retires (R346). -/
def afterWord (s : State) (k : Key) : State :=
  let s := settle s k
  match s.group k with
  | some g => if g.retired then retireGroup s k else s
  | none => s

/-- A slot that has issued at a tick (R215). -/
def Group.issuedAt (g : Group) (sl : Bool) (tick : Nat) : Group :=
  if sl then { g with last1 := tick } else { g with last0 := tick }

/-- The slot that has issued, with its tick (R215), is taken off the lists of slots that yielding paths of its port still wait
for (R190). -/
def noteIssue (s : State) (k : Key) (sl : Bool) : State :=
  let id := (k.slot, sl)
  let seen (p : Path) : Path := { p with yielded := p.yielded.filter (fun y => y != id) }
  { s with groups := s.groups.map (fun (g : Group) =>
      if g.key.die == k.die && g.key.core == k.core && g.key.slot % 4 == k.slot % 4 then
        let g : Group := { g with slot0 := g.slot0.map seen, slot1 := g.slot1.map seen }
        if g.key == k then g.issuedAt sl s.tick else g
      else g) }

/-- A path parked at a word that waits: until package time passes `t`; one that waits for another step is tried again
after eight ns (R28, R52). Its pending
results are written meanwhile. -/
def park (s : State) (k : Key) (sl : Bool) (t : Nat) : State :=
  match s.group k with
  | none => s
  | some g =>
    s.setGroup ((g.setSlot sl ((g.slot sl).map (fun p =>
      { p with parked := some t, cycle := p.cycle + 8, issued := s.tick }))).issuedAt sl s.tick)

/-- What a word has read kept on its path while it waits (R28). -/
def keepRead (s : State) (k : Key) (sl : Bool) (x : Sources) : State :=
  match s.group k with
  | none => s
  | some g => s.setGroup (g.setSlot sl ((g.slot sl).map (fun p => { p with read := some x })))

/-- A path parked at a word that met a recoverable fault of the spill area: until it goes on, the whole group stalls (R186). -/
def parkGroup (s : State) (k : Key) (sl : Bool) (t : Nat) : State :=
  let s := park s k sl t
  match s.group k with
  | none => s
  | some g => s.setGroup { g with spillHeld := some sl }

/-- The latches after a word that waits: what it reads, it has read at its issue (R28, R31). -/
def latchWait (s : State) (c : Cx) (reads wides : List Code) : State :=
  if c.p.read.isSome then s else latchWord s c reads wides []

/-- The word that a path issues: as fetched, or for a word that waits as it was fetched when it issued (R197). -/
def Cx.fetched (c : Cx) (s : State) : Word :=
  match c.p.read with | some x => x.word | none => overlayWord s (keyCore c.key) c.p.pc

/-- What the machine does with the outcome of a word's effect: `s` is the state before it. -/
def conclude (s : State) (c : Cx) (due : Option Nat) (arg : Nat) (reads wides : List Code) (r : EStateM.Result Stop State Out) :
    State :=
  let g := c.g
  let sl := c.sl
  let p := c.p
  let src := c.sources (c.fetched s) reads
  match r with
  | .ok o s' =>
    match s'.group g.key with
    | none => s'
    | some g' =>
      let names := o.regs.map (fun r => r.code)
      let s' := latchWord (spoilRecords s' g.key names) c reads wides names
      afterWord (endLatch (noteIssue (s'.setGroup (finish g' sl due s.tick o)) g.key sl) g.key sl) g.key
  | .error (.fault f) _ => raise s g sl p f arg
  | .error (.wait t) s' => park (keepRead (latchWait s' c reads wides) g.key sl src) g.key sl (t.getD (s.now + 8))
  | .error (.recover code addr all) s' =>
    match g.routine with
    | .exit snap _ => abandon s g snap code addr (p.unitPc.getD p.pc)
    | _ =>
      let s' := keepRead (latchWait s' c reads wides) g.key sl src
      if all then parkGroup s' g.key sl (s.now + 8) else park s' g.key sl (s.now + 8)
  | .error (.refuse addr) _ =>
    match g.routine with
    | .exit snap _ => abandon s g snap cPerm addr (p.unitPc.getD p.pc)
    | _ => raise s g sl p { code := cPerm, addr := addr, lane := none, mask := 0 }

/-- A word without effect: it passes its issue slot (R11, R18). -/
def skip (s : State) (c : Cx) : State :=
  let s := latchWord s c [] [] []
  afterWord (endLatch (noteIssue (s.setGroup (finish c.g c.sl none s.tick {})) c.key c.sl) c.key c.sl) c.key

/-- A fault without lanes, raised by a word. -/
def trap (s : State) (g : Group) (sl : Bool) (p : Path) (code : Nat) : State :=
  raise s g sl p { code := code, addr := 0, lane := none, mask := 0 }

/-- Whether the read of a value falls under an undersized stall count that the checking scoreboard reports (R29). -/
def Cx.shortOf (c : Cx) (rs : List Code) : Bool := c.g.score && rs.any (shortRead c.g c.sl c.p.cycle)
/-- The same of predicates that a word reads. -/
def Cx.shortPreds (c : Cx) (ns : List Nat) : Bool := c.g.score && ns.any (shortPred c.g c.sl c.p.cycle)
/-- The same of the guard predicate. -/
def Cx.shortGuard (c : Cx) (gd : Guard) : Bool := c.g.score && shortPred c.g c.sl c.p.cycle (gd.toNat % 8)

/-- The registers that accesses in flight will write (R28). -/
def State.awaited (s : State) (k : Key) : List Code :=
  (s.flight.filter (fun (f : Inflight) => f.key == k)).flatMap (fun (f : Inflight) => spanOf f.dest (loadRegs f.kind))

/-- Whether a word waits for accesses in flight: it names a register that one will write (R28), or it accesses memory
itself or ends what the access belongs to. -/
def Wd.waits (w : Wd) (s : State) (c : Cx) : Bool :=
  let fl := s.awaited c.key
  !fl.isEmpty && (w.touches || w.drains || (w.codes ++ w.peeks ++ w.reads c ++ w.dests c).any (fun r => fl.contains r))

/-- The effect of a word that has passed its checks. The group of a world whose address space is gone ends at a word that
touches memory (R238). -/
def perform (s : State) (w : Wd) (c : Cx) (arg : Nat) : State :=
  if w.touches && (match s.world c.g.world with | some x => x.failed | none => true) then retireGroup s c.key
  else conclude s c ((w.latency c).map (c.p.cycle + ·)) arg (w.judge ++ w.reads c ++ w.takes) w.wides (w.run c s)

/-- The checks of R19 in their order, and then the effect; a word that waits has passed them (R28). `arg` is the n of
TRAP. -/
def issueIn (s : State) (w : Wd) (c : Cx) (arg : Nat) : State :=
  let short := c.shortGuard w.guard
  if c.p.read.isSome then perform s w c arg
  else if c.stalled (w.judge ++ w.reads c ++ w.peeks) (w.guard.toNat % 8 :: w.preads) then park s c.key c.sl (s.now + 8)
  else if w.cls == .v && !w.select && c.en != 0 && short then trap s c.g c.sl c.p cStallShort
  else if w.cls == .v && w.lanes c == 0 then skip s c
  else if !w.ok s c then trap s c.g c.sl c.p cIllegal
  else if w.waits s c then park s c.key c.sl (s.now + 8)
  else if c.shortOf w.judge then trap s c.g c.sl c.p cStallShort
  else if !w.legalT c then trap s c.g c.sl c.p cIllegal
  else if short then trap s c.g c.sl c.p cStallShort
  else if w.split c then trap s c.g c.sl c.p cNonuniform
  else if !w.effective c then skip s c
  else if c.shortOf (w.reads c ++ w.peeks) || c.shortPreds w.preads then trap s c.g c.sl c.p cStallShort
  else if (w.reads c).any (fun r => c.tag r == .void) then trap s c.g c.sl c.p cVoid
  else if !w.accept c then trap s c.g c.sl c.p cMismatch
  else perform s w c arg

/-- A word issued by the slot that the step has chosen. -/
def issueWord (w : Wd) (s : State) (arg : Nat := 0) : Host.Outcome State Fault Refusal :=
  match s.cur with
  | none => .fault .noIssuer
  | some (k, sl) =>
    match s.group k with
    | none => .fault .noIssuer
    | some g =>
      match g.slot sl with
      | none => .fault .noIssuer
      | some p => .next (issueIn s w (Cx.of s.now g sl p w.guard) arg)

/-! ### Hint words (R20-R22) -/

/-- A hint word: legality, then its effect on the path. A prefix may stand only before its target, once of each kind;
no other hint may stand between (R22). `covers` marks an HKEEP that begins a coverage: the one before it ends, and its latches
with it (R31, R32). -/
def issueHint (legal isPrefix : Bool) (again : Path → Bool) (refused : Group → Bool) (f : Group → Path → Group × Path)
    (s : State) (covers : Bool := false) : Host.Outcome State Fault Refusal :=
  match s.cur with
  | none => .fault .noIssuer
  | some (k, sl) =>
    match s.group k with
    | none => .fault .noIssuer
    | some g =>
      match g.slot sl with
      | none => .fault .noIssuer
      | some p =>
        if !legal || (if isPrefix then again p else p.unitPc.isSome) || refused g then .next (trap s g sl p cIllegal)
        else
          let (g, q) := f g p
          let q := { q with
            pc := p.pc + 4, cycle := p.cycle + 1, issued := s.tick, aged := 0, parked := none, boost := false, exempt := false
            unitPc := if isPrefix then some (p.unitPc.getD p.pc) else none }
          let s := match lookupN s.ports (portNo k) with
            | some x => if x.key == k && x.slot1 == sl && !covers then s
              else { s with ports := dropN s.ports (portNo k) }
            | none => s
          .next (afterWord (noteIssue (s.setGroup (g.setSlot sl (some q)).prune) k sl) k)

end Sys2Proof.Machine
end

