-- ==== Sys2Proof/Machine/Hints.lean ====
section
/-! DEFINITION. The hint words (R20-R27, R29, R31, R192, R241), the all-zero major (R33) and reserved encodings (R17,
R18). -/

namespace Sys2Proof.Machine

/-- A hint that is no prefix and is refused nowhere. -/
def plainHint (f : Group → Path → Group × Path) (s : State) (covers : Bool := false) : Host.Outcome State Fault Refusal :=
  issueHint true false (fun _ => false) (fun _ => false) f s covers

/-- NOP (R21): no effect. -/
def execNop (s : State) : Host.Outcome State Fault Refusal := plainHint (fun g p => (g, p)) s

/-- LAND (R21, R192): issues as a NOP. -/
def execLand (s : State) : Host.Outcome State Fault Refusal := plainHint (fun g p => (g, p)) s

/-- HIMM (R22, R23): a prefix. -/
def execHimm (i : BitVec 22) (s : State) : Host.Outcome State Fault Refusal :=
  issueHint true true (fun p => p.himm.isSome) (fun _ => false) (fun g p => (g, { p with himm := some i })) s

/-- HRCV (R22, R24): a prefix. -/
def execHrcv (o : BitVec 22) (s : State) : Host.Outcome State Fault Refusal :=
  issueHint true true (fun p => p.hrcv.isSome) (fun _ => false) (fun g p => (g, { p with hrcv := some o })) s

/-- The payload of an HMOD (R25). -/
def hmodBits (r c l : BitVec 3) : BitVec 22 := BitVec.ofNat 22 (r.toNat * 2 ^ 19 + c.toNat * 2 ^ 16 + l.toNat * 2 ^ 13)

/-- HMOD (R22, R25): a prefix; reserved values of RND, CPOL and LEASE are ILLEGAL. -/
def execHmod (r c l : BitVec 3) (s : State) : Host.Outcome State Fault Refusal :=
  issueHint (decide (r.toNat ≤ 4 ∧ c.toNat ≤ 3 ∧ l.toNat ≤ 6)) true (fun p => p.hmod.isSome) (fun _ => false)
    (fun g p => (g, { p with hmod := some (hmodBits r c l) })) s

/-- HSTALL (R27): seven counts, which replace those still pending and end what is left of a coverage cut short. -/
def execHstall (c : BitVec 21) (s : State) : Host.Outcome State Fault Refusal :=
  plainHint (fun g p => (g, { p with stalls := (List.range 7).map (fun i => c.extractLsb' (3 * i) 3), loose := 0 })) s

/-- HKEEP (R31): coverage of the next `n` words (none where `n` is zero); it changes no value that a word reads. -/
def execHkeep (k j n : BitVec 7) (s : State) : Host.Outcome State Fault Refusal :=
  plainHint (fun g p => (g, if n = 0 then p else { p with keep := some (k, j, n) })) s (n != 0)

/-- REGION (R21, R241): begins a region; with a region table an id at or above its count is ILLEGAL (R242). Refused in
exit and entry routines (R249, R255). -/
def execRegion (i : BitVec 10) (s : State) : Host.Outcome State Fault Refusal :=
  issueHint true false (fun _ => false)
    (fun g => g.routine != .normal ||
      (match s.launch g.launch with
       | some l => match l.table with
         | some t => decide (t.length ≤ i.toNat)
         | none => false
       | none => false))
    (fun g p => ({ g with region := some i }, p)) s

/-- HSCORE (R29): the checking scoreboard from the next word on. -/
def execHscore (m : BitVec 1) (s : State) : Host.Outcome State Fault Refusal :=
  plainHint (fun g p => ({ g with score := m == 1 }, p)) s

/-- Major 0x00 (R33): always ILLEGAL. -/
def execZero (g : Guard) (_ : BitVec 22) (s : State) : Host.Outcome State Fault Refusal :=
  issueWord { cls := .u, guard := g, legal := fun _ => false, run := fun _ => pure {} } s

/-- The class of a major (R33). -/
def classOf (m : Nat) : Cls :=
  if m = 0 ∨ m = 0x28 ∨ (0x2A ≤ m ∧ m ≤ 0x31) ∨ m = 0x39 ∨ m = 0x3A ∨ m = 0x3C then .u
  else if (0x32 ≤ m ∧ m ≤ 0x36) ∨ m = 0x38 ∨ m = 0x3B then .c
  else .v

/-- A reserved encoding (R17, R18): ILLEGAL when it is checked. A reserved hint is always checked. -/
def execReservedEncoding (w : Word) (s : State) : Host.Outcome State Fault Refusal :=
  if majOf w = 0x3F then
    issueHint false false (fun _ => false) (fun _ => false) (fun g p => (g, p)) s
  else
    issueWord { cls := classOf (majOf w).toNat, guard := gOf w, select := majOf w == 0x10, legal := fun _ => false,
                run := fun _ => pure {} } s

end Sys2Proof.Machine
end

