-- ==== Sys2Proof/Machine/Vector.lean ====
section
/-! DEFINITION. Vector arithmetic (chapter 07): element-wise arithmetic, logic, shifts, compare and select, one-source
operations, moves and tags. Each meaning is one description of the word over the shared forms below. -/

namespace Sys2Proof.Machine

/-! ### Elements (R107, R109, R110) -/

/-- What an element of a tag is. -/
inductive Elem where
  | int (sgn : Bool)
  | flt (f : Fmt)
  deriving DecidableEq, Repr

/-- Width, count and kind of the elements of an arithmetic tag (R128). -/
def elemOf : Tag → Option (Nat × Nat × Elem)
  | .s32 => some (32, 1, .int true)
  | .n32 => some (32, 1, .int false)
  | .s64 => some (64, 1, .int true)
  | .n64 => some (64, 1, .int false)
  | .s8x4 => some (8, 4, .int true)
  | .s16x2 => some (16, 2, .int true)
  | .f32 => some (32, 1, .flt fmtF32)
  | .f64 => some (64, 1, .flt fmtF64)
  | .bf16x2 => some (16, 2, .flt fmtBF16)
  | .f16x2 => some (16, 2, .flt fmtF16)
  | .e4m3x4 => some (8, 4, .flt fmtE4M3)
  | .e5m2x4 => some (8, 4, .flt fmtE5M2)
  | _ => none

/-- Element `k` of width `w` of an operand's value. -/
def elemAt (w : Nat) (x k : Nat) : Nat := bitsOf x (w * k) w

/-- The elements of a lane computed one by one and packed, with their flags (R110). -/
def mapElems (w n : Nat) (f : Nat → Nat × Word) : Nat × Word :=
  ((List.range n).map (fun k => (k, f k))).foldl
    (fun (r : Nat × Word) (x : Nat × Nat × Word) => (r.1 + x.2.1 % 2 ^ w * 2 ^ (w * x.1), r.2 ||| x.2.2)) (0, 0)

/-- A result per lane of a mask and the flags of its lanes. -/
def laneFlags (m : Word) (f : Nat → Nat × Word) : Word := joinFlags ((lanesOf m).map (fun i => (f i).2))

/-- Latency of a word by the tags of its sources and result (R26). -/
def aluLatency (ts : List Tag) : Option Nat := some (if ts.any wide then 6 else 4)

/-! ### Binary arithmetic (R127-R132) -/

/-- An element operation: width, kind, rounding mode, the two elements, the destination's element. -/
abbrev ElemOp := Nat → Elem → Rm → Nat → Nat → Nat → Nat × Word

/-- A binary word on equal tags: `f` per element; `third` for FMA, which reads D (R128). -/
def arith (g : Guard) (d a b : Code) (third : Bool) (ok : Tag → Bool) (f : ElemOp) : Wd :=
  { cls := .v, guard := g, codes := [d, a, b], rnd := true
    judge := if third then [a, b, d] else [a, b]
    legalT := fun c => c.flexOk a && c.flexOk b && (!third || c.flexOk d) && c.destOk (c.tag a) d
    reads := fun c => c.flex a ++ c.flex b ++ if third then c.flex d else []
    accept := fun c => ok (c.tag a) && c.tag a == c.tag b && c.flexTag a && c.flexTag b &&
      (!third || (c.tag d == c.tag a && c.flexTag d))
    dests := fun c => destRegs (c.tag a) d
    latency := fun c => aluLatency [c.tag a]
    run := fun c => pure (
      match elemOf (c.tag a) with
      | none => {}
      | some (w, n, e) =>
        let r (i : Nat) : Nat × Word := mapElems w n (fun k =>
          f w e c.rm (elemAt w (c.valOf a i) k) (elemAt w (c.valOf b i) k) (elemAt w (c.valOf d i) k))
        { regs := outOf d c.lanes (fun i => (r i).1) (c.tag a), flags := laneFlags c.lanes r }) }

/-- Every tag of R128. -/
def anyElem (t : Tag) : Bool := (elemOf t).isSome
/-- The integer tags of R128. -/
def intElem (t : Tag) : Bool := match elemOf t with | some (_, _, .int _) => true | _ => false

/-- A sum or difference of one element, wrapping, saturating or rounded (R129). -/
def addElem (sub sat : Bool) : ElemOp := fun w e rm x y _ =>
  match e with
  | .int sgn =>
    let z := intOf sgn w x + (if sub then -intOf sgn w y else intOf sgn w y)
    (wrap w (if sat then clampInt sgn w z else z), 0)
  | .flt f =>
    let y := if sub then f.negBits y else y
    let (r, fl) := f.add rm x y
    let fin := (f.decode x).isFin && (f.decode y).isFin
    (if sat && fin && (f.decode r).isInf then f.signed ((f.decode r).neg?) f.maxBits else r, fl)

/-- A product of one element: low half, high half or rounded (R130). -/
def mulElem (high : Bool) : ElemOp := fun w e rm x y _ =>
  match e with
  | .int sgn =>
    let p := intOf sgn w x * intOf sgn w y
    (if high then wrap w (p / 2 ^ w) else wrap w p, 0)
  | .flt f => f.mul rm x y

/-- A fused multiply-add of one element (R131). -/
def fmaElem (neg : Bool) : ElemOp := fun w e rm x y z =>
  match e with
  | .int sgn =>
    let p := intOf sgn w x * intOf sgn w y
    (wrap w ((if neg then -p else p) + intOf sgn w z), 0)
  | .flt f => f.fma rm neg x y z

/-- The smaller or larger of two elements (R132). -/
def minMaxElem (isMax nan : Bool) : ElemOp := fun w e _ x y _ =>
  match e with
  | .int sgn => (if decide (intOf sgn w x < intOf sgn w y) == isMax then y else x, 0)
  | .flt f => f.minMax isMax nan x y

/-- ADD (R129). -/
def execAdd (g : Guard) (d a b : Code) (s : State) : Host.Outcome State Fault Refusal :=
  issueWord (arith g d a b false anyElem (addElem false false)) s
/-- ADD.SAT (R129). -/
def execAddSat (g : Guard) (d a b : Code) (s : State) : Host.Outcome State Fault Refusal :=
  issueWord (arith g d a b false anyElem (addElem false true)) s
/-- SUB (R129). -/
def execSub (g : Guard) (d a b : Code) (s : State) : Host.Outcome State Fault Refusal :=
  issueWord (arith g d a b false anyElem (addElem true false)) s
/-- SUB.SAT (R129). -/
def execSubSat (g : Guard) (d a b : Code) (s : State) : Host.Outcome State Fault Refusal :=
  issueWord (arith g d a b false anyElem (addElem true true)) s
/-- MUL (R130). -/
def execMul (g : Guard) (d a b : Code) (s : State) : Host.Outcome State Fault Refusal :=
  issueWord (arith g d a b false anyElem (mulElem false)) s
/-- MUL.HI (R130): integer tags only (R128). -/
def execMulHi (g : Guard) (d a b : Code) (s : State) : Host.Outcome State Fault Refusal :=
  issueWord (arith g d a b false intElem (mulElem true)) s
/-- FMA (R131). -/
def execFma (g : Guard) (d a b : Code) (s : State) : Host.Outcome State Fault Refusal :=
  issueWord (arith g d a b true anyElem (fmaElem false)) s
/-- FMA.NEG (R131). -/
def execFmaNeg (g : Guard) (d a b : Code) (s : State) : Host.Outcome State Fault Refusal :=
  issueWord (arith g d a b true anyElem (fmaElem true)) s
/-- MIN (R132). -/
def execMin (g : Guard) (d a b : Code) (s : State) : Host.Outcome State Fault Refusal :=
  issueWord (arith g d a b false anyElem (minMaxElem false false)) s
/-- MIN.NAN (R132). -/
def execMinNan (g : Guard) (d a b : Code) (s : State) : Host.Outcome State Fault Refusal :=
  issueWord (arith g d a b false anyElem (minMaxElem false true)) s
/-- MAX (R132). -/
def execMax (g : Guard) (d a b : Code) (s : State) : Host.Outcome State Fault Refusal :=
  issueWord (arith g d a b false anyElem (minMaxElem true false)) s
/-- MAX.NAN (R132). -/
def execMaxNan (g : Guard) (d a b : Code) (s : State) : Host.Outcome State Fault Refusal :=
  issueWord (arith g d a b false anyElem (minMaxElem true true)) s

/-! ### One source, one result -/

/-- A word of one flexible source whose result takes the tag `rt` of the source's tag; `side` passes a BFP side-file
entry on. -/
def oneSource (g : Guard) (d a : Code) (rnd : Bool) (lat : Tag → Option Nat) (ok : Tag → Bool) (rt : Tag → Tag)
    (f : Cx → Tag → Nat → Nat × Word) : Wd :=
  { cls := .v, guard := g, codes := [d, a], rnd := rnd, judge := [a]
    legalT := fun c => c.flexOk a && c.destOk (rt (c.tag a)) d
    reads := fun c => c.flex a
    accept := fun c => ok (c.tag a) && c.flexTag a
    dests := fun c => destRegs (rt (c.tag a)) d
    latency := fun c => lat (c.tag a)
    run := fun c =>
      let t := c.tag a
      let r (i : Nat) : Nat × Word := f c t (c.valOf a i)
      pure { regs := outOf d c.lanes (fun i => (r i).1) (rt t) (if isBfp t && isBfp (rt t) then some (c.side a) else none)
             flags := laneFlags c.lanes r } }

/-- Bits of a value's width. -/
def tagBits (t : Tag) : Nat := if wide t then 64 else 32

/-! ### Immediate arithmetic (R133) -/

/-- ADDI and MULI: the operation on the exact integers, modulo `2^w`. -/
def immediate (g : Guard) (d a : Code) (i : BitVec 8) (op : Int → Int → Int) : Wd :=
  { oneSource g d a false (fun t => aluLatency [t])
      (fun t => t == .s32 || t == .n32 || t == .s64 || t == .n64) id
      (fun c t x => (wrap (tagBits t) (op (intOf true (tagBits t) x) (c.imm i)), 0)) with himm := true }

/-- ADDI (R133). -/
def execAddi (g : Guard) (d a : Code) (i : BitVec 8) (s : State) : Host.Outcome State Fault Refusal :=
  issueWord (immediate g d a i (fun x y => x + y)) s
/-- MULI (R133). -/
def execMuli (g : Guard) (d a : Code) (i : BitVec 8) (s : State) : Host.Outcome State Fault Refusal :=
  issueWord (immediate g d a i (fun x y => x * y)) s

/-! ### Logic (R134) -/

/-- Whether the tags of a logic word are accepted (R100, R134): equal, or one b32 and the other 32-bit. -/
def logicTags (x y : Tag) : Bool := x == y || (x == .b32 && !wide y) || (y == .b32 && !wide x)

/-- A bitwise word; A's BFP side-file entry passes to D (R134). -/
def logic (g : Guard) (d a b : Code) (f : DWord → DWord → DWord) : Wd :=
  { cls := .v, guard := g, codes := [d, a, b], judge := [a, b]
    legalT := fun c => c.flexOk a && c.flexOk b && c.destOk (c.tag a) d
    reads := fun c => c.flex a ++ c.flex b
    accept := fun c => logicTags (c.tag a) (c.tag b) && c.flexTag a && c.flexTag b
    dests := fun c => destRegs (c.tag a) d
    latency := fun c => aluLatency [c.tag a, c.tag b]
    run := fun c => pure {
      regs := outOf d c.lanes (fun i => (f (BitVec.ofNat 64 (c.valOf a i)) (BitVec.ofNat 64 (c.valOf b i))).toNat) (c.tag a)
        (if isBfp (c.tag a) then some (c.side a) else none) } }

/-- AND (R134). -/
def execAnd (g : Guard) (d a b : Code) (s : State) : Host.Outcome State Fault Refusal :=
  issueWord (logic g d a b (fun x y => x &&& y)) s
/-- ANDN (R134). -/
def execAndn (g : Guard) (d a b : Code) (s : State) : Host.Outcome State Fault Refusal :=
  issueWord (logic g d a b (fun x y => x &&& ~~~y)) s
/-- OR (R134). -/
def execOr (g : Guard) (d a b : Code) (s : State) : Host.Outcome State Fault Refusal :=
  issueWord (logic g d a b (fun x y => x ||| y)) s
/-- ORN (R134). -/
def execOrn (g : Guard) (d a b : Code) (s : State) : Host.Outcome State Fault Refusal :=
  issueWord (logic g d a b (fun x y => x ||| ~~~y)) s
/-- XOR (R134). -/
def execXor (g : Guard) (d a b : Code) (s : State) : Host.Outcome State Fault Refusal :=
  issueWord (logic g d a b (fun x y => x ^^^ y)) s
/-- XNOR (R134). -/
def execXnor (g : Guard) (d a b : Code) (s : State) : Host.Outcome State Fault Refusal :=
  issueWord (logic g d a b (fun x y => ~~~(x ^^^ y))) s

/-! ### Shifts (R135) -/

/-- The kinds of shift. -/
inductive Shift where
  | shl | shr | sar | rol
  deriving DecidableEq, Repr

/-- A `w`-bit value shifted by any count (R135). -/
def shiftBits (k : Shift) (w x n : Nat) : Nat :=
  match k with
  | .shl => if n < w then x * 2 ^ n % 2 ^ w else 0
  | .shr => if n < w then x / 2 ^ n else 0
  | .sar => wrap w (intOf true w x / 2 ^ (min n w))
  | .rol => let m := n % w; x * 2 ^ m % 2 ^ w + x / 2 ^ (w - m)

/-- The tags that are shifted (R135). -/
def shiftTag (t : Tag) : Bool := isInt32 t || t == .s64 || t == .n64

/-- A shift by a register: B is one register whatever A's tag (R135). -/
def shiftReg (g : Guard) (d a b : Code) (k : Shift) : Wd :=
  { cls := .v, guard := g, codes := [d, a, b], judge := [a]
    legalT := fun c => c.flexOk a && c.destOk (c.tag a) d
    reads := fun c => c.flex a ++ [b]
    accept := fun c => shiftTag (c.tag a) && c.flexTag a && c.intTag b
    dests := fun c => destRegs (c.tag a) d
    latency := fun c => aluLatency [c.tag a]
    run := fun c => pure {
      regs := outOf d c.lanes (fun i => shiftBits k (tagBits (c.tag a)) (c.valOf a i) (c.val b i).toNat) (c.tag a) } }

/-- A shift by an immediate: a count at or above the width is ILLEGAL, judged by A's tag (R33, R135). -/
def shiftImm (g : Guard) (d a : Code) (n : BitVec 6) (k : Shift) : Wd :=
  let w := oneSource g d a false (fun t => aluLatency [t]) shiftTag id
    (fun _ t x => (shiftBits k (tagBits t) x n.toNat, 0))
  { w with legalT := fun c => w.legalT c && (c.tag a == .void || decide (n.toNat < tagBits (c.tag a))) }

/-- SHL (R135). -/
def execShl (g : Guard) (d a b : Code) (s : State) : Host.Outcome State Fault Refusal := issueWord (shiftReg g d a b .shl) s
/-- ROL (R135). -/
def execRol (g : Guard) (d a b : Code) (s : State) : Host.Outcome State Fault Refusal := issueWord (shiftReg g d a b .rol) s
/-- SHR (R135). -/
def execShr (g : Guard) (d a b : Code) (s : State) : Host.Outcome State Fault Refusal := issueWord (shiftReg g d a b .shr) s
/-- SAR (R135). -/
def execSar (g : Guard) (d a b : Code) (s : State) : Host.Outcome State Fault Refusal := issueWord (shiftReg g d a b .sar) s
/-- SHI.SHL (R135). -/
def execShiShl (g : Guard) (d a : Code) (n : BitVec 6) (s : State) : Host.Outcome State Fault Refusal :=
  issueWord (shiftImm g d a n .shl) s
/-- SHI.SHR (R135). -/
def execShiShr (g : Guard) (d a : Code) (n : BitVec 6) (s : State) : Host.Outcome State Fault Refusal :=
  issueWord (shiftImm g d a n .shr) s
/-- SHI.SAR (R135). -/
def execShiSar (g : Guard) (d a : Code) (n : BitVec 6) (s : State) : Host.Outcome State Fault Refusal :=
  issueWord (shiftImm g d a n .sar) s
/-- SHI.ROL (R135). -/
def execShiRol (g : Guard) (d a : Code) (n : BitVec 6) (s : State) : Host.Outcome State Fault Refusal :=
  issueWord (shiftImm g d a n .rol) s

/-! ### Compare and select (R136, R137) -/

/-- A condition from the order of two numbers, none where they are unordered (R136). -/
def condOf (k : Nat) (o : Option Int) : Bool :=
  match o with
  | none => k == 1 || k == 6
  | some x => match k with
    | 0 => x == 0
    | 1 => x != 0
    | 2 => decide (x < 0)
    | 3 => decide (x ≤ 0)
    | 4 => decide (0 < x)
    | 5 => decide (0 ≤ x)
    | 6 => false
    | _ => true

/-- The order of two operands of a tag, and NV for a signalling NaN (R136). -/
def orderOf (t : Tag) (x y : Nat) : Option Int × Word :=
  let ints (sgn : Bool) : Option Int × Word := (some (intOf sgn (tagBits t) x - intOf sgn (tagBits t) y), 0)
  let flts (f : Fmt) : Option Int × Word := (cmpVal (f.decode x) (f.decode y), sigFlag [f.decode x, f.decode y])
  match t with
  | .s32 | .s64 => ints true
  | .f32 => flts fmtF32
  | .f64 => flts fmtF64
  | _ => ints false

/-- The tags that CMP accepts (R136). -/
def cmpTag (t : Tag) : Bool :=
  match t with
  | .s32 | .n32 | .s64 | .n64 | .m64 | .f32 | .f64 | .b32 => true
  | _ => false

/-- The lanes of a mask where an m64 operand is out of range (R108); they are the lanes that the fault names. -/
def Cx.outOfRange (c : Cx) (m : Word) (rs : List Code) : Word :=
  maskOf (fun i => hasBit m i && rs.any (fun r => decide (c.g.q.toNat ≤ c.val64 r i)))

/-- CMP, replacing or combining with AND (R136); p7 discards. -/
def compare (g : Guard) (k p : BitVec 3) (a b : Code) (conj : Bool) : Wd :=
  { cls := .v, guard := g, codes := [a, b], judge := [a, b], preads := if conj then [p.toNat] else []
    legalT := fun c => c.flexOk a && c.flexOk b
    reads := fun c => c.flex a ++ c.flex b
    accept := fun c => c.tag a == c.tag b && cmpTag (c.tag a) && c.flexTag a && c.flexTag b
    latency := fun c => aluLatency [c.tag a]
    run := fun c => do
      if c.tag a = .m64 ∧ c.outOfRange c.lanes [a, b] ≠ 0 then failLanes cModRange (c.outOfRange c.lanes [a, b])
      else
        let o (i : Nat) : Option Int × Word := orderOf (c.tag a) (c.valOf a i) (c.valOf b i)
        let m := maskOf (fun i => condOf k.toNat (o i).1)
        let old := seePred c.g c.sl c.p.cycle p.toNat
        pure { preds := [(p.toNat, c.lanes, if conj then old &&& m else m)]
               flags := joinFlags ((lanesOf c.lanes).map (fun i => (o i).2)) } }

/-- CMP (R136). -/
def execCmp (g : Guard) (k p : BitVec 3) (a b : Code) (s : State) : Host.Outcome State Fault Refusal :=
  issueWord (compare g k p a b false) s
/-- CMP.AND (R136). -/
def execCmpAnd (g : Guard) (k p : BitVec 3) (a b : Code) (s : State) : Host.Outcome State Fault Refusal :=
  issueWord (compare g k p a b true) s

/-- SEL (R137): the guard selects; every lane of L ∧ em is written. -/
def select (g : Guard) (d a b : Code) : Wd :=
  { cls := .v, guard := g, select := true, codes := [d, a, b], judge := [a, b]
    legalT := fun c => c.flexOk a && c.flexOk b && c.destOk (c.tag a) d
    reads := fun c => c.flex a ++ c.flex b
    accept := fun c => c.tag a == c.tag b && !isBfp (c.tag a) && c.flexTag a && c.flexTag b
    dests := fun c => destRegs (c.tag a) d
    latency := fun c => aluLatency [c.tag a]
    run := fun c => pure {
      regs := outOf d c.en (fun i => if hasBit c.grd i then c.valOf a i else c.valOf b i) (c.tag a) } }

/-- SEL (R137). -/
def execSel (g : Guard) (d a b : Code) (s : State) : Host.Outcome State Fault Refusal := issueWord (select g d a b) s

/-! ### One-source operations (R138, R129) -/

/-- A UNOP on the elements of float tags. -/
def floatOp (g : Guard) (d a : Code) (lat : Tag → Option Nat) (ok : Tag → Bool) (f : Fmt → Rm → Nat → Nat × Word) : Wd :=
  oneSource g d a true lat ok id (fun c t x =>
    match elemOf t with
    | some (w, n, .flt e) => mapElems w n (fun k => f e c.rm (elemAt w x k))
    | _ => (x, 0))

/-- The float tags of R128. -/
def fltElem (t : Tag) : Bool := match elemOf t with | some (_, _, .flt _) => true | _ => false
/-- The tags of RCP to LOG2 (R138). -/
def transTag (t : Tag) : Bool := t == .f32 || t == .f64 || t == .bf16x2 || t == .f16x2
/-- Transcendental latency (R26). -/
def transLatency (_ : Tag) : Option Nat := some 8
/-- The latency of one-source ALU words. -/
def oneLatency (t : Tag) : Option Nat := aluLatency [t]

/-- NEG and ABS on elements of any arithmetic tag. -/
def signOp (g : Guard) (d a : Code) (fi : Int → Int) (ff : Fmt → Nat → Nat) : Wd :=
  oneSource g d a true oneLatency anyElem id (fun _ t x =>
    match elemOf t with
    | some (w, n, .int sgn) => mapElems w n (fun k => (wrap w (fi (intOf sgn w (elemAt w x k))), 0))
    | some (w, n, .flt e) => mapElems w n (fun k => (ff e (elemAt w x k), 0))
    | none => (x, 0))

/-- NEG (R138). -/
def execNeg (g : Guard) (d a : Code) (s : State) : Host.Outcome State Fault Refusal :=
  issueWord (signOp g d a (fun x => -x) Fmt.negBits) s
/-- ABS (R138). -/
def execAbs (g : Guard) (d a : Code) (s : State) : Host.Outcome State Fault Refusal :=
  issueWord (signOp g d a (fun x => x.natAbs) Fmt.absBits) s
/-- RCP (R138). -/
def execRcp (g : Guard) (d a : Code) (s : State) : Host.Outcome State Fault Refusal :=
  issueWord (floatOp g d a transLatency transTag Fmt.rcp) s
/-- RSQ (R138). -/
def execRsq (g : Guard) (d a : Code) (s : State) : Host.Outcome State Fault Refusal :=
  issueWord (floatOp g d a transLatency transTag Fmt.rsq) s
/-- SQRT (R138). -/
def execSqrt (g : Guard) (d a : Code) (s : State) : Host.Outcome State Fault Refusal :=
  issueWord (floatOp g d a transLatency transTag Fmt.sqrt) s
/-- EXP2 (R138). -/
def execExp2 (g : Guard) (d a : Code) (s : State) : Host.Outcome State Fault Refusal :=
  issueWord (floatOp g d a transLatency transTag Fmt.exp2) s
/-- LOG2 (R138). -/
def execLog2 (g : Guard) (d a : Code) (s : State) : Host.Outcome State Fault Refusal :=
  issueWord (floatOp g d a transLatency transTag Fmt.log2) s
/-- FLOOR (R138). -/
def execFloor (g : Guard) (d a : Code) (s : State) : Host.Outcome State Fault Refusal :=
  issueWord (floatOp g d a oneLatency fltElem (fun f _ x => f.toIntegral .rdn false x)) s
/-- CEIL (R138). -/
def execCeil (g : Guard) (d a : Code) (s : State) : Host.Outcome State Fault Refusal :=
  issueWord (floatOp g d a oneLatency fltElem (fun f _ x => f.toIntegral .rup false x)) s
/-- TRUNC (R138). -/
def execTrunc (g : Guard) (d a : Code) (s : State) : Host.Outcome State Fault Refusal :=
  issueWord (floatOp g d a oneLatency fltElem (fun f _ x => f.toIntegral .rtz false x)) s
/-- RINT (R138). -/
def execRint (g : Guard) (d a : Code) (s : State) : Host.Outcome State Fault Refusal :=
  issueWord (floatOp g d a oneLatency fltElem (fun f rm x => f.toIntegral rm true x)) s
/-- FRACT (R138). -/
def execFract (g : Guard) (d a : Code) (s : State) : Host.Outcome State Fault Refusal :=
  issueWord (floatOp g d a oneLatency fltElem Fmt.fract) s

/-- The number of one bits in the low `w` bits. -/
def popCount (w x : Nat) : Nat := ((List.range w).filter (fun i => x / 2 ^ i % 2 == 1)).length
/-- The low `w` bits reversed. -/
def revBits (w x : Nat) : Nat := ((List.range w).map (fun i => x / 2 ^ i % 2 * 2 ^ (w - 1 - i))).foldl (· + ·) 0

/-- POPC (R138): one n32 register. -/
def execPopc (g : Guard) (d a : Code) (s : State) : Host.Outcome State Fault Refusal :=
  issueWord (oneSource g d a false oneLatency shiftTag (fun _ => .n32) (fun _ t x => (popCount (tagBits t) x, 0))) s
/-- CLZ (R138): one n32 register. -/
def execClz (g : Guard) (d a : Code) (s : State) : Host.Outcome State Fault Refusal :=
  issueWord (oneSource g d a false oneLatency shiftTag (fun _ => .n32)
    (fun _ t x => (if x = 0 then tagBits t else tagBits t - 1 - Nat.log2 x, 0))) s
/-- BREV (R138). -/
def execBrev (g : Guard) (d a : Code) (s : State) : Host.Outcome State Fault Refusal :=
  issueWord (oneSource g d a false oneLatency shiftTag id (fun _ t x => (revBits (tagBits t) x, 0))) s
/-- NOT (R138): any tag; a BFP source passes its side-file entry. -/
def execNot (g : Guard) (d a : Code) (s : State) : Host.Outcome State Fault Refusal :=
  issueWord (oneSource g d a false oneLatency (fun _ => true) id (fun _ t x => (2 ^ tagBits t - 1 - x, 0))) s

/-! ### Moves and tags (R142, R143) -/

/-- MOVI (R142). -/
def execMovi (g : Guard) (d : Code) (i : BitVec 15) (s : State) : Host.Outcome State Fault Refusal :=
  issueWord
    { cls := .v, guard := g, codes := [d], himmRi := true, dests := fun _ => [d], latency := fun _ => some 4
      run := fun c => pure { regs := [out32 d c.lanes (fun _ => c.imm15 i) .s32] } } s

/-- MOV (R143). -/
def execMov (g : Guard) (d a : Code) (s : State) : Host.Outcome State Fault Refusal :=
  issueWord (oneSource g d a false oneLatency (fun _ => true) id (fun _ _ x => (x, 0))) s

/-- GTAG (R143): reads only the tag, VOID included. -/
def execGtag (g : Guard) (d a : Code) (s : State) : Host.Outcome State Fault Refusal :=
  issueWord
    { cls := .v, guard := g, codes := [d, a], peeks := [a], dests := fun _ => [d]
      latency := fun c => aluLatency [c.tag a]
      run := fun c => pure { regs := [out32 d c.lanes (fun _ => BitVec.ofNat 32 (tagCode (c.tag a))) .n32] } } s

/-- A register's tag set with its bits kept (STAG): VOID, or a tag that a register may hold. -/
def retag (g : Group) (d : Code) (mask : Word) (t : Tag) : RegOut :=
  { code := d, mask := mask, tag := t, side := if isBfp t then some 0 else none
    val := fun i => if isVec d then (g.vreg d.toNat).lane i else (g.ureg (d.toNat - 96)).bits }

/-- STAG (R143). -/
def execStag (g : Guard) (d a : Code) (s : State) : Host.Outcome State Fault Refusal :=
  issueWord
    { cls := .v, guard := g, codes := [d, a], legal := fun _ => !isVec a, reads := fun _ => [a]
      accept := fun c => c.intTag a &&
        (match codeTag (c.val a 0).toNat with
         | some t => !(wide t && d.toNat % 2 == 1) && (!wide t || oneOk c.g.quota (up d 1))
         | none => false)
      dests := fun c => match codeTag (c.val a 0).toNat with | some t => destRegs t d | none => [d]
      latency := fun c => aluLatency [(codeTag (c.val a 0).toNat).getD .void]
      run := fun c => do
        let s ← get
        match codeTag (c.val a 0).toNat, s.group c.key with
        | some t, some g => pure { regs := (destRegs t d).map (fun r => retag g r c.lanes t) }
        | _, _ => pure {} } s

/-- MOVP (R143): the whole mask in every lane. -/
def execMovp (g : Guard) (d : Code) (n : BitVec 3) (s : State) : Host.Outcome State Fault Refusal :=
  issueWord
    { cls := .v, guard := g, codes := [d], dests := fun _ => [d], latency := fun _ => some 4
      preads := [n.toNat]
      run := fun c => pure { regs := [out32 d c.lanes (fun _ => seePred c.g c.sl c.p.cycle n.toNat) .n32] } } s

/-- PMOV (R143): bit `i` of lane `i`. -/
def execPmov (g : Guard) (a : Code) (n : BitVec 3) (s : State) : Host.Outcome State Fault Refusal :=
  issueWord
    { cls := .v, guard := g, codes := [a], reads := fun _ => [a], accept := fun c => c.intTag a
      latency := fun _ => some 4
      run := fun c => pure { preds := [(n.toNat, c.lanes, maskOf (fun i => hasBit (c.val a i) i))] } } s

end Sys2Proof.Machine
end

