-- ==== Sys2Proof/Machine/Convert.lean ====
section
/-! DEFINITION. CVT (R116, R328 and R130 of chapter 07): conversion of a group of elements per lane. -/

namespace Sys2Proof.Machine

/-- Elements per element-register of a tag (R130 of 07). -/
def perReg (t : Tag) : Nat :=
  match t with
  | .e4m3x4 | .e5m2x4 | .s8x4 => 4
  | .bf16x2 | .f16x2 | .s16x2 => 2
  | _ => 1
/-- Registers per element-register. -/
def regsPer (t : Tag) : Nat := if wide t then 2 else 1
/-- Elements of a group (R130 of 07). -/
def groupLen (a b : Tag) : Nat := max (perReg a) (perReg b)
/-- The length of the span of one side. -/
def spanLen (this other : Tag) : Nat := groupLen this other / perReg this * regsPer this

/-- Whether CVT converts a source tag to a target (R116, R328). -/
def cvtOk (a t : Tag) : Bool :=
  if t == .void || isBfp t || isBfp a then false
  else if a == .b32 then t == .b32
  else if t == .b32 then !wide a
  else if a == .m64 then t == .m64 || intElem t
  else if t == .m64 then intElem a
  else anyElem a && anyElem t

/-- One element converted (R116). -/
def cvtElem (rm : Rm) (q : Nat) (a t : Tag) (x : Nat) : Nat × Word :=
  if a == t || t == .b32 then (x, 0)
  else
    match elemOf a, elemOf t with
    | some (_, _, .flt f), some (_, _, .flt h) => h.ofVal rm (f.decode x)
    | some (_, _, .flt f), some (w, _, .int sgn) => floatToInt rm sgn w (f.decode x)
    | some (w, _, .int sgn), some (_, _, .flt h) => h.ofInt rm (intOf sgn w x)
    | some (w, _, .int sgn), some (w', _, .int sgn') => (wrap w' (clampInt sgn' w' (intOf sgn w x)), 0)
    | some (w, _, .int sgn), none => ((intOf sgn w x % (q : Int)).toNat, 0)
    | none, some (w', _, .int sgn') => (wrap w' (clampInt sgn' w' x), 0)
    | _, _ => (x, 0)

/-- Element width of a tag. -/
def elemWidth (t : Tag) : Nat := match elemOf t with | some (w, _, _) => w | none => tagBits t

/-- The element-register `r` of a span, as a number. -/
def Cx.elemReg (c : Cx) (t : Tag) (a : Code) (r i : Nat) : Nat :=
  let base := up a (r * regsPer t)
  if wide t then c.val64 base i else (c.val base i).toNat

/-- Element `j` of the source group in a lane. -/
def Cx.groupElem (c : Cx) (t : Tag) (a : Code) (j i : Nat) : Nat :=
  elemAt (elemWidth t) (c.elemReg t a (j / perReg t) i) (j % perReg t)

/-- The converted element-register `r` of the destination span, with its flags. -/
def Cx.cvtReg (c : Cx) (a : Code) (at_ t : Tag) (r i : Nat) : Nat × Word :=
  mapElems (elemWidth t) (perReg t) (fun k =>
    cvtElem c.rm c.g.q.toNat at_ t (c.groupElem at_ a (r * perReg t + k) i))

/-- The pairs of an m64 source that CVT reads: one for each element of its group (R108). -/
def modPairs (a : Code) (t : Tag) : List Code := (List.range (groupLen .m64 t)).map (fun r => up a (2 * r))

/-- The source tag as its group counts elements: to b32 a single register is retagged, whatever it packs (R328). -/
def cvtFrom (a t : Tag) : Tag := if t == .b32 && !wide a then .b32 else a

/-- CVT (R328). DEDUCED (log entry 63): an m64 source at or above q traps also where it would only be copied to m64: R108
lists CVT from m64 among the words that check, and R328's copy gives the value of an operand that passes. -/
def execCvt (g : Guard) (d a : Code) (ti : BitVec 8) (s : State) : Host.Outcome State Fault Refusal :=
  let t := (codeTag ti.toNat).getD .void
  issueWord
    { cls := .v, guard := g, codes := [d, a], rnd := true, legal := fun _ => (codeTag ti.toNat).isSome, judge := [a]
      legalT := fun c => c.tag a == .void ||
        (spanOk c.g.quota (spanLen (cvtFrom (c.tag a) t) t) a && spanOk c.g.quota (spanLen t (cvtFrom (c.tag a) t)) d)
      reads := fun c => if c.tag a == .void then [a] else spanOf a (spanLen (cvtFrom (c.tag a) t) t)
      accept := fun c => cvtOk (c.tag a) t &&
        (spanOf a (spanLen (cvtFrom (c.tag a) t) t)).all (fun r => c.tag r == c.tag a)
      dests := fun c => spanOf d (spanLen t (cvtFrom (c.tag a) t))
      latency := fun c => aluLatency [c.tag a, t]
      run := fun c => do
        let at_ := cvtFrom (c.tag a) t
        if t = .m64 ∧ at_ ≠ .m64 ∧ c.g.q = 0 then failCode cModRange
        else if at_ = .m64 ∧ c.outOfRange c.lanes (modPairs a t) ≠ 0 then
          failLanes cModRange (c.outOfRange c.lanes (modPairs a t))
        else
          let n := groupLen at_ t / perReg t
          pure {
            regs := (List.range n).flatMap (fun r => outOf (up d (r * regsPer t)) c.lanes (fun i => (c.cvtReg a at_ t r i).1) t)
            flags := joinFlags ((List.range n).map (fun r => laneFlags c.lanes (fun i => c.cvtReg a at_ t r i))) } } s

end Sys2Proof.Machine
end

