-- ==== Sys2Proof/Machine/Lanes.lean ====
section
/-! DEFINITION. Lane operations, block floating-point words and modular arithmetic (chapter 08). -/

namespace Sys2Proof.Machine

/-! ### Shuffles (R131, R329, R330) -/

/-- A shuffle by a register: each lane's source number from its own B, its own lane where the source takes no part
(R131). -/
def shuffle (g : Guard) (d a b : Code) (src : Nat → Word → Option Nat) : Wd :=
  { cls := .v, guard := g, codes := [d, a, b], judge := [a]
    legalT := fun c => c.flexOk a && c.destOk (c.tag a) d
    reads := fun c => c.flex a ++ [b]
    accept := fun c => c.flexTag a && c.intTag b
    dests := fun c => destRegs (c.tag a) d
    run := fun c =>
      let from_ (i : Nat) : Nat := match src i (c.val b i) with
        | some j => if hasBit c.lanes j then j else i
        | none => i
      pure { regs := outOf d c.lanes (fun i => c.valOf a (from_ i)) (c.tag a)
                       (if isBfp (c.tag a) then some (c.side a) else none) } }

/-- XLANE.PICK and XLANE.FLIP (R329). -/
def execXlane (g : Guard) (d a b : Code) (x : BitVec 1) (s : State) : Host.Outcome State Fault Refusal :=
  issueWord (shuffle g d a b (fun i v =>
    let j := v.toNat % 32
    some (if x = 0 then j else i ^^^ j))) s

/-- SLIDE.FWD and SLIDE.BWD within the lane's window (R330). -/
def execSlide (g : Guard) (d a b : Code) (x : BitVec 1) (s : State) : Host.Outcome State Fault Refusal :=
  issueWord (shuffle g d a b (fun i v =>
    let n := 32 / 2 ^ bitsOf v.toNat 6 2
    let k := bitsOf v.toNat 0 6
    let lo := i / n * n
    if x = 0 then (if lo + k ≤ i then some (i - k) else none)
    else (if i + k < lo + n then some (i + k) else none))) s

/-! ### LANEOP (R331, R132) -/

/-- One addition of a sum (R132 of 08). -/
def sumStep (t : Tag) (q : Nat) (rm : Rm) (acc x : Nat) : Nat × Word :=
  match t with
  | .m64 => ((acc + x) % q, 0)
  | .f32 => fmtF32.add rm acc x
  | .f64 => fmtF64.add rm acc x
  | _ => ((acc + x) % 2 ^ tagBits t, 0)

/-- One combination of an extremum (R132 of 08). -/
def extStep (t : Tag) (isMax : Bool) (acc x : Nat) : Nat × Word :=
  match elemOf t with
  | some (w, _, e) => minMaxElem isMax false w e .rne acc x 0
  | none => (acc, 0)

/-- The accumulator at each lane of a list of lanes, in order, with the flags of the step that reached it (R132). -/
def runSteps (step : Nat → Nat → Nat × Word) (val : Nat → Nat) : List Nat → List (Nat × Nat × Word)
  | [] => []
  | l :: r => (r.foldl (fun (acc : List (Nat × Nat × Word)) (i : Nat) =>
      let prev := match acc.head? with | some x => x.2.1 | none => 0
      let (v, f) := step prev (val i)
      (i, v, f) :: acc) [(l, val l, 0)]).reverse

/-- The accumulator at a lane. -/
def accAt (l : List (Nat × Nat × Word)) (i : Nat) : Nat :=
  match l.find? (fun x => x.1 == i) with | some x => x.2.1 | none => 0
/-- The accumulator of the last lane. -/
def accLast (l : List (Nat × Nat × Word)) : Nat := match l.getLast? with | some x => x.2.1 | none => 0
/-- The accumulator of the lane before one, the zero of the tag for the lowest (R331). -/
def accBefore (l : List (Nat × Nat × Word)) (i : Nat) : Nat :=
  match (l.filter (fun x => decide (x.1 < i))).getLast? with | some x => x.2.1 | none => 0

/-- The tags that a minor accepts (R331). -/
def laneopTag (m : Nat) (t : Tag) : Bool :=
  match m with
  | 0 | 1 | 2 => isInt32 t
  | 3 | 6 | 7 => t == .s32 || t == .n32 || t == .s64 || t == .n64 || t == .m64 || t == .f32 || t == .f64
  | 4 | 5 => t == .s32 || t == .n32 || t == .s64 || t == .n64 || t == .f32 || t == .f64
  | _ => true
/-- The result's tag (R331). -/
def laneopResult (m : Nat) (t : Tag) : Tag := match m with | 0 | 1 | 2 | 9 => .n32 | _ => t

/-- The value of a minor in lane `i`, and the word's flags (R331, R132). DEDUCED (log entry 106): SCAN.ADD and SCANX.ADD with a
uniform D make every addition that R132 lists for them, though R15 then writes the lowest lane's value alone. -/
def laneopValue (c : Cx) (a : Code) (m : Nat) : (Nat → Nat) × Word :=
  let t := c.tag a
  let ls := lanesOf c.lanes
  let val (i : Nat) : Nat := c.valOf a i
  let sums := runSteps (sumStep t c.g.q.toNat c.rm) val ls
  let ext (mx : Bool) := runSteps (extStep t mx) val ls
  let flags (l : List (Nat × Nat × Word)) : Word := joinFlags (l.map (fun x => x.2.2))
  let set := maskOf (fun j => hasBit c.lanes j && c.val a j != 0)
  match m with
  | 0 => (fun _ => if set = c.lanes then 1 else 0, 0)
  | 1 => (fun _ => if set = 0 then 0 else 1, 0)
  | 2 => (fun _ => set.toNat, 0)
  | 3 => (fun _ => accLast sums, flags sums)
  | 4 => (fun _ => accLast (ext false), flags (ext false))
  | 5 => (fun _ => accLast (ext true), flags (ext true))
  | 6 => (fun i => accAt sums i, flags sums)
  | 7 => (fun i => accBefore sums i, flags sums.dropLast)
  | 8 => (fun _ => val (ls.headD 0), 0)
  | _ => (fun i => (maskOf (fun j => hasBit c.lanes j && val j == val i)).toNat, 0)

/-- LANEOP (R331). -/
def execLaneop (g : Guard) (d a : Code) (m : BitVec 4) (s : State) : Host.Outcome State Fault Refusal :=
  issueWord
    { cls := .v, guard := g, codes := [d, a], rnd := decide (3 ≤ m.toNat ∧ m.toNat ≤ 7), judge := [a]
      legalT := fun c => c.flexOk a && c.destOk (laneopResult m.toNat (c.tag a)) d
      reads := fun c => c.flex a
      accept := fun c => laneopTag m.toNat (c.tag a) && c.flexTag a
      dests := fun c => destRegs (laneopResult m.toNat (c.tag a)) d
      run := fun c =>
        let t := laneopResult m.toNat (c.tag a)
        if c.tag a = .m64 ∧ (m = 3 ∨ m = 6 ∨ m = 7) ∧ c.outOfRange c.lanes [a] ≠ 0 then
          failLanes cModRange (c.outOfRange c.lanes [a])
        else
          let (v, f) := laneopValue c a m.toNat
          pure { regs := outOf d c.lanes v t (if isBfp t then some (c.side a) else none), flags := f } } s

/-! ### Block floating point (R133, R332, R333, R139) -/

/-- Byte `j` of a side-file entry. -/
def sideByte (e : DWord) (j : Nat) : Nat := bitsOf e.toNat (8 * j) 8

/-- GEXP (R332): byte `i mod 8` of the entry; bytes beyond the tag's blocks read zero. -/
def gexp (g : Guard) (d a : Code) (i4 : BitVec 4) : Wd :=
  { cls := .v, guard := g, codes := [d, a], legal := fun _ => i4 == 0, reads := fun _ => [a]
    accept := fun c => isBfp (c.tag a), dests := fun _ => [d], latency := fun _ => some 4
    run := fun c =>
      let n := bfpBlocks ((bfpWidth (c.tag a)).getD 8)
      pure { regs := [out32 d c.lanes (fun i =>
        if i % 8 < n then BitVec.ofNat 32 (sideByte (c.side a) (i % 8)) else 0) .n32] } }

/-- SEXP (R332): one byte of D's entry from the lowest lane of A. -/
def sexp (g : Guard) (d a : Code) (i4 : BitVec 4) : Wd :=
  { cls := .v, guard := g, codes := [d, a], legal := fun _ => decide (i4.toNat < 8), reads := fun _ => [a, d]
    accept := fun c => c.intTag a &&
      (match bfpWidth (c.tag d) with | some m => decide (i4.toNat < bfpBlocks m) | none => false)
    dests := fun _ => [d], latency := fun _ => some 4
    run := fun c => do
      let s ← get
      let l := (lowest c.lanes).getD 0
      let j := i4.toNat
      match s.group c.key with
      | none => pure {}
      | some gr =>
        let old := if isVec d then (gr.vreg d.toNat).side else (gr.ureg (d.toNat - 96)).side
        let new := old.toNat - sideByte old j * 2 ^ (8 * j) + (c.val a l).toNat % 256 * 2 ^ (8 * j)
        pure { regs := [{ code := d, mask := c.lanes, val := fun _ => 0, tag := .void, only := true
                          side := some (BitVec.ofNat 64 new) }] } }

/-- The 64 values of block `j` of a NORM (R333). -/
def Cx.normBlock (c : Cx) (a : Code) (j : Nat) : List FVal :=
  (List.range 64).map (fun k =>
    if hasBit c.lanes (k / 2) then fmtF32.decode (c.val (up a (2 * j + k % 2)) (k / 2)).toNat else .fin false 0 0)

/-- Quantised blocks packed for one lane: block `j`, elements `2i` and `2i+1` (R118). -/
def packLane (m : Nat) (blocks : List (List Nat)) (i : Nat) : Nat :=
  (blocks.zipIdx.map (fun (b : List Nat × Nat) =>
    ((b.1[2 * i]?).getD 0 + (b.1[2 * i + 1]?).getD 0 * 2 ^ m) * 2 ^ (2 * m * b.2))).foldl (· + ·) 0

/-- NORM (R333): writes every lane of D and its whole entry; a uniform D takes the value of the lowest lane enabled (R15). DEDUCED
(log entry 106): so it does in single-lane mode, where R234 of 17 has a word write lane h only. -/
def norm (g : Guard) (d a : Code) (i4 : BitVec 4) : Wd :=
  let m := i4.toNat
  let b := bfpBlocks m
  { cls := .v, guard := g, codes := [d, a]
    legal := fun c => decide (2 ≤ m ∧ m ≤ 8) && decide (a.toNat % 2 = 0) &&
      (decide (96 ≤ a.toNat ∧ a.toNat + 2 * b ≤ 128) || decide (a.toNat + 2 * b ≤ c.g.quota))
    reads := fun _ => spanOf a (2 * b)
    accept := fun c => (spanOf a (2 * b)).all (fun r => c.tag r == .f32)
    dests := fun _ => [d], latency := fun _ => some 4
    run := fun c =>
      let qs := (List.range b).map (fun j => bfpQuant m (c.normBlock a j))
      let side := (qs.zipIdx.map (fun (q : (Nat × List Nat × Word) × Nat) => q.1.1 * 2 ^ (8 * q.2))).foldl (· + ·) 0
      pure { regs := [out32 d (if isVec d then 0xFFFFFFFF else c.lanes) (fun i => BitVec.ofNat 32 (packLane m (qs.map (fun q => q.2.1)) i)) (bfpTag m)
                       (some (BitVec.ofNat 64 side))]
             flags := joinFlags (qs.map (fun q => q.2.2)) } }

/-- BFP minors 0 to 2 (R133). -/
def execBfp (g : Guard) (d a : Code) (m i : BitVec 4) (s : State) : Host.Outcome State Fault Refusal :=
  issueWord (match m.toNat with | 0 => gexp g d a i | 1 => sexp g d a i | _ => norm g d a i) s

/-- The mantissa bits of element `2i` or `2i+1` of block `j` in a lane's word (R118). -/
def bfpField (m j hi : Nat) (x : Word) : Nat := bitsOf x.toNat (2 * m * j + m * hi) m

/-- SPLIT (R139): block `j` of A as two f32 registers. -/
def execSplit (g : Guard) (d a : Code) (j : BitVec 3) (s : State) : Host.Outcome State Fault Refusal :=
  issueWord
    { cls := .v, guard := g, codes := [d, a], legal := fun c => pairOk c.g.quota d, reads := fun _ => [a]
      accept := fun c => match bfpWidth (c.tag a) with | some m => decide (j.toNat < bfpBlocks m) | none => false
      dests := fun _ => [d, up d 1], latency := fun _ => some 4
      run := fun c =>
        let m := (bfpWidth (c.tag a)).getD 8
        let e (hi i : Nat) : Nat × Word := bfpExpand m (sideByte (c.side a) j.toNat) (bfpField m j.toNat hi (c.val a i))
        pure { regs := [out32 d c.lanes (fun i => BitVec.ofNat 32 (e 0 i).1) .f32,
                        out32 (up d 1) c.lanes (fun i => BitVec.ofNat 32 (e 1 i).1) .f32]
               flags := laneFlags c.lanes (e 0) ||| laneFlags c.lanes (e 1) } } s

/-! ### The modulus (R140) -/

/-- Whether a value may be the modulus (R140). -/
def goodModulus (v : Nat) : Bool := decide (v % 2 = 1 ∧ 3 ≤ v ∧ v < 2 ^ 62)

/-- MODSET (R140). -/
def execModset (g : Guard) (a : Code) (s : State) : Host.Outcome State Fault Refusal :=
  issueWord
    { cls := .u, guard := g, codes := [a], legal := fun c => !isVec a && pairOk c.g.quota a
      reads := fun _ => [a, up a 1], accept := fun c => c.addrTag a, handler := false, inExit := false, inEntry := false
      run := fun c => do
        let v := c.val64 a 0
        if !goodModulus v then failCode cModRange
        else
          modify (fun (s : State) => match s.group c.key with
            | some gr => s.setGroup { gr with q := BitVec.ofNat 64 v }
            | none => s)
          pure {} } s

/-! ### Residues (R134, R334, R335, R108) -/

/-- Three m64 pairs, range-checked, one result (R134). -/
def residue (g : Guard) (d a b : Code) (lat : Nat) (f : Nat → Nat → Nat → Nat) : Wd :=
  { cls := .v, guard := g, codes := [d, a, b]
    legal := fun c => pairOk c.g.quota d && pairOk c.g.quota a && pairOk c.g.quota b
    reads := fun _ => [a, up a 1, b, up b 1]
    accept := fun c => [a, up a 1, b, up b 1].all (fun r => c.tag r == .m64)
    dests := fun _ => [d, up d 1], latency := fun _ => some lat
    run := fun c => do
      if c.outOfRange c.lanes [a, b] ≠ 0 then failLanes cModRange (c.outOfRange c.lanes [a, b])
      else pure { regs := out64 d c.lanes (fun i => f c.g.q.toNat (c.val64 a i) (c.val64 b i)) .m64 } }

/-- MADDM and MSUBM (R334). -/
def execMaddm (g : Guard) (d a b : Code) (x : BitVec 1) (s : State) : Host.Outcome State Fault Refusal :=
  issueWord (residue g d a b 6 (fun q u v => if x = 0 then (u + v) % q else (u + q - v) % q)) s

/-- Halving modulo an odd number, `n` times: multiplication by `2^-n`. -/
def halve (q : Nat) : Nat → Nat → Nat
  | 0, x => x
  | n + 1, x => halve q n (if x % 2 = 0 then x / 2 else (x + q) / 2)

/-- MMULM and MMULM.M (R334): the Montgomery result is the product times `2^-64`. -/
def execMmulm (g : Guard) (d a b : Code) (x : BitVec 1) (s : State) : Host.Outcome State Fault Refusal :=
  issueWord (residue g d a b 8 (fun q u v => if x = 0 then u * v % q else halve q 64 (u * v % q))) s

/-- NTTB and NTTB.INV (R335): D is the twiddle, A and B are read and written. -/
def execNttb (g : Guard) (d a b : Code) (x : BitVec 1) (s : State) : Host.Outcome State Fault Refusal :=
  issueWord
    { cls := .v, guard := g, codes := [d, a, b]
      legal := fun c => pairOk c.g.quota d && pairOk c.g.quota a && pairOk c.g.quota b && isVec a && isVec b && a != b
      reads := fun _ => [a, up a 1, b, up b 1, d, up d 1]
      accept := fun c => [a, up a 1, b, up b 1, d, up d 1].all (fun r => c.tag r == .m64)
      dests := fun _ => [a, up a 1, b, up b 1], latency := fun _ => some 8
      run := fun c => do
        if c.outOfRange c.lanes [a, b, d] ≠ 0 then failLanes cModRange (c.outOfRange c.lanes [a, b, d])
        else
          let q := c.g.q.toNat
          let u (i : Nat) := c.val64 a i
          let v (i : Nat) := c.val64 b i
          let w (i : Nat) := c.val64 d i
          pure {
            regs :=
              out64 a c.lanes (fun i => if x = 0 then (u i + w i * v i) % q else (u i + v i) % q) .m64 ++
              out64 b c.lanes (fun i => if x = 0 then (u i + (q - w i * v i % q)) % q else (u i + q - v i) * w i % q) .m64 } } s

/-! ### NTTP (R144 of 08) -/

/-- Exchange at lane distance `2^k` (R144): the lanes whose partner is in lanes(E) too are written, every other keeps D and A. -/
def execNttpX (g : Guard) (d a : Code) (k : BitVec 4) (s : State) : Host.Outcome State Fault Refusal :=
  issueWord
    { cls := .v, guard := g, codes := [d, a], legal := fun _ => decide (k.toNat ≤ 4) && d != a, judge := [a, d]
      legalT := fun c => c.flexOk a && c.flexOk d
      reads := fun c => c.flex a ++ c.flex d
      accept := fun c => c.tag a == c.tag d && !isBfp (c.tag a) && c.flexTag a && c.flexTag d
      dests := fun c => destRegs (c.tag d) d ++ destRegs (c.tag a) a
      run := fun c =>
        let h := 2 ^ k.toNat
        let swaps (i : Nat) : Bool := hasBit c.lanes (i ^^^ h)
        let low (i : Nat) : Bool := i / h % 2 == 0
        let first := (lowest c.lanes).getD 0
        let into (r : Code) : Word :=
          if isVec r then maskOf (fun i => hasBit c.lanes i && swaps i) else if swaps first then laneBit first else 0
        pure {
          regs :=
            outOf d (into d) (fun i => if low i then c.valOf d i else c.valOf a (i ^^^ h)) (c.tag d) ++
            outOf a (into a) (fun i => if low i then c.valOf d (i ^^^ h) else c.valOf a i) (c.tag a) } } s

/-- The lane whose number has its low `k` bits reversed. -/
def revLane (k i : Nat) : Nat := i / 2 ^ k * 2 ^ k + revBits k (i % 2 ^ k)

/-- Bit reversal of the lane number (R144). -/
def execNttpBr (g : Guard) (d a : Code) (k : BitVec 4) (s : State) : Host.Outcome State Fault Refusal :=
  issueWord
    { cls := .v, guard := g, codes := [d, a], legal := fun _ => decide (k.toNat ≤ 4), judge := [a]
      legalT := fun c => c.flexOk a && c.destOk (c.tag a) d
      reads := fun c => c.flex a
      accept := fun c => !isBfp (c.tag a) && c.flexTag a
      dests := fun c => destRegs (c.tag a) d
      run := fun c => pure {
        regs := outOf d c.lanes (fun i =>
          let j := revLane k.toNat i
          if hasBit c.lanes j then c.valOf a j else c.valOf a i) (c.tag a) } } s

end Sys2Proof.Machine
end

