-- ==== Sys2Proof/Machine/Window.lean ====
section
/-! DEFINITION. The scratchpad window (R75-R77) and the checks that a word makes of all its lanes before it performs any
(R53, R103, R105). -/

namespace Sys2Proof.Machine

/-! ### Lanes tried together -/

/-- What became of the lanes tried so far: results, the lowest lane's fault, the lanes that offend, a stop. -/
structure Tally (α : Type) where
  done : List (Nat × α)
  bad  : Option FaultInfo
  mask : Word
  stop : Option Stop

/-- One more lane tried. -/
def Tally.add {α : Type} (t : Tally α) (i : Nat) : EStateM.Result Stop State α → Tally α × State
  | .ok a s => ({ t with done := t.done ++ [(i, a)] }, s)
  | .error (.fault f) s =>
    ({ t with bad := some (t.bad.getD { f with lane := some i }), mask := t.mask ||| laneBit i }, s)
  | .error (.recover c a all) s =>
    ({ t with stop := match t.stop with | some (.recover x y z) => some (.recover x y z) | _ => some (.recover c a all) }, s)
  | .error e s => ({ t with stop := some (t.stop.getD e) }, s)

/-- An operation of every lane, ascending: the fault of the lowest offending lane with the mask of all of them, else a
stall if any lane stalls, else the results (R53, R105). DESIGN CHOICE (log entry 102): where one lane faults and another
stalls, the fault comes first; R53 does not say which. -/
def tryLanes {α β : Type} (ls : List (Nat × β)) (f : β → M α) : M (List (Nat × α)) := fun s =>
  let start : Tally α := { done := [], bad := none, mask := 0, stop := none }
  let (t, s') := ls.foldl (fun (acc : Tally α × State) (x : Nat × β) => acc.1.add x.1 (f x.2 acc.2)) (start, s)
  match t.bad, t.stop with
  | some b, _ => .error (.fault { b with mask := t.mask }) s'
  | none, some e => .error e s'
  | none, none => .ok t.done s'

/-- The addresses of a mask's lanes. -/
def laneAddrs (m : Word) (addr : Nat → Nat) : List (Nat × Nat) := (lanesOf m).map (fun i => (i, addr i))

/-- ALIGN in any lane (R103). -/
def alignLanes (m : Word) (addr : Nat → Nat) (n : Nat) : M Unit :=
  let bad := maskOf (fun i => hasBit m i && addr i % n != 0)
  match lowest bad with
  | some i => failLanes cAlign bad (addr i)
  | none => pure ()

/-- A lane's entry of a result list. -/
def atLane {α : Type} (l : List (Nat × α)) (d : α) (i : Nat) : α := (lookupN l i).getD d

/-! ### The window -/

/-- The bytes of an allocation (R76). -/
def Workgroup.bytes (w : Workgroup) : Nat := 4096 * w.banks

/-- The allocation and the offset in it that a window address and `n` bytes from it, which lie in one member's place of the
window, name for a workgroup (R75). -/
def windowPart (s : State) (launch wg a n : Nat) : Option (Workgroup × Nat) :=
  match s.wg launch wg with
  | none => none
  | some me =>
    if a + n ≤ 0x40000 then (if a + n ≤ me.bytes then some (me, a) else none)
    else if 0x1000000 ≤ a ∧ a + n ≤ 0x1600000 then
      let k := (a - 0x1000000) / 0x40000
      let o := (a - 0x1000000) % 0x40000
      match me.nbhd with
      | none => none
      | some (id, _) =>
        match s.wgs.find? (fun w => w.nbhd == some (id, k)) with
        | some w => if o + n ≤ w.bytes then some (w, o) else none
        | none => none
    else none

/-- Of `n` bytes from an address, how many lie in the member's place of the neighbourhood window where the first does. -/
def windowHead (a n : Nat) : Nat := if 0x1000000 ≤ a then min n (0x40000 - a % 0x40000) else n

/-- The allocation and the offset in it where a range of the window begins, if every byte of the range has a valid target;
the range may run on into the places of the members after the first (R75). -/
def windowFor (s : State) (launch wg a n : Nat) : Option (Workgroup × Nat) :=
  let m := windowHead a n
  match windowPart s launch wg a m with
  | none => none
  | some x => if m = n then some x else (windowPart s launch wg (a + m) (n - m)).map (fun _ => x)

/-- The same for a group, with SCR_RANGE (R75). -/
def windowAt (g : Group) (a n : Nat) : M (Workgroup × Nat) := do
  let s ← get
  match windowFor s g.launch g.wg a n with
  | some x => pure x
  | none => failCode cScrRange a

/-- A read of `n` bytes of the window, little-endian (R77). -/
def readWindow (g : Group) (a n : Nat) : M Nat := do
  let (w, o) ← windowAt g a n
  let m := windowHead a n
  let s ← get
  let rest := match windowPart s g.launch g.wg (a + m) (n - m) with
    | some (v, p) => readLE v.scr p (n - m)
    | none => 0
  pure (readLE w.scr o m + 2 ^ (8 * m) * rest)

/-- The low `n` bytes of a value written into a workgroup's allocation. -/
def writeScr (s : State) (launch wg o v n : Nat) : State :=
  match s.wg launch wg with
  | some w => s.setWg { w with scr := writeLE w.scr o v n }
  | none => s

/-- The rebuilt bits of the 256-byte units that a write touches (R255, R256). -/
def unitBits (o n : Nat) : BitVec 1024 :=
  if n = 0 then 0 else
    (List.range ((o + n - 1) / 256 - o / 256 + 1)).foldl
      (fun (b : BitVec 1024) i => b ||| BitVec.ofNat 1024 (2 ^ (o / 256 + i))) 0

/-- The rebuilt bits that an entry routine's write into its own workgroup's allocation sets (R255). -/
def noteRebuilt (s : State) (k : Key) (launch wg o n : Nat) : State :=
  match s.group k with
  | some g =>
    if g.inEntry && g.launch == launch && g.wg == wg then s.setGroup { g with rebuiltS := g.rebuiltS ||| unitBits o n }
    else s
  | none => s

/-- Scratchpad bytes written by a group whose posted matrix operations still run (R144). -/
def spoilBytes (s : State) (k : Key) (wg o n : Nat) : State :=
  let qu := s.quad (keyQuad k)
  let mine (e : EngEntry) : Bool := e.key == k && (s.group k).any (fun g => g.serial == e.serial)
  if !qu.entries.any mine then s
  else
    s.setQuad { qu with entries := qu.entries.map (fun e =>
      if mine e then { e with spots := (wg, o, n) :: e.spots } else e) }

/-- A write of `n` bytes of the window by a group (R77, R255). -/
def writeWindow (g : Group) (a v n : Nat) : M Unit := do
  let (w, o) ← windowAt g a n
  modify (fun (s : State) =>
    spoilBytes (noteRebuilt (writeScr s w.launch w.wg o v n) g.key w.launch w.wg o n) g.key w.wg o n)

end Sys2Proof.Machine
end

