-- ==== Sys2Proof/Machine/Loads.lean ====
section
/-! DEFINITION. Loads, stores and prefetches (R102-R106, R326, R327) and the end of a deferred access (R28, R50). -/

namespace Sys2Proof.Machine

/-! ### Addresses (R103) -/

/-- The virtual address of a lane. -/
def Cx.virt (c : Cx) (a : Code) (off : Int) (i : Nat) : Nat := wrap 64 ((c.val64 a i : Int) + off)
/-- The window address of a lane. -/
def Cx.win (c : Cx) (a : Code) (off : Int) (i : Nat) : Nat := wrap 32 (((c.val a i).toNat : Int) + off)

/-- Every lane of a list translated before any is performed (R53). -/
def placeLanes (c : Cx) (ls : List (Nat × Nat)) (want : Want) : M (List (Nat × Place)) := do
  let s ← get
  tryLanes ls (fun va => translate (groupAsker s c.g (c.p.unitPc.getD c.p.pc) ls) va want)

/-! ### Loads (R105) -/

/-- The result of a load, or MOD_RANGE of an M64 value (R104, R108). -/
def loadDone (c : Cx) (k : BitVec 4) (d : Code) (mask : Word) (xs : List (Nat × Nat)) : M Out :=
  let x := atLane xs 0
  let bad := maskOf (fun i => hasBit mask i && decide (c.g.q.toNat ≤ x i))
  if k = 14 ∧ bad ≠ 0 then failLanes cModRange bad
  else pure { regs := loadOuts k d mask x }

/-- The latency of an LD that issued at a time, measured at its die (R277). -/
def State.measureLoad (s : State) (die : Nat) : Option Nat → State
  | some t => s.measure die 4 (s.now - t)
  | none => s

/-- An access whose value comes back in a later step (R28, R50). -/
def deferAccess (c : Cx) (k : BitVec 4) (d : Code) (mask : Word) (ps : List (Nat × Place)) (pol : Policy) (sc : Scope) (va : Nat)
    (since : Option Nat) : M Out := do
  modify (fun (s : State) => { s with
    nextId := s.nextId + 1
    flight := s.flight ++
      [{ id := s.nextId, key := c.key, kind := k, dest := d, lanes := mask,
         addrs := ps, scope := sc, cpol := pol.cpol, lease := pol.lease,
         vals := none, tag := loadTag k, va := va, pc := c.p.unitPc.getD c.p.pc, since := since }] })
  pure {}

/-- A load from memory of the lanes of a mask (R105): the values at once, or, where the part has them come back later,
an access in flight. An LD's latency is measured (R277). -/
def loadMem (c : Cx) (k : BitVec 4) (d : Code) (mask : Word) (addr : Nat → Nat) (since : Option Nat := none) : M Out := do
  alignLanes mask addr (loadSize k)
  let ps ← placeLanes c (laneAddrs mask addr) wantRead
  let s ← get
  if s.given.deferAccess ∧ k ≠ 14 then deferAccess c k d mask ps (c.policy 0) .core (addr ((lowest mask).getD 0)) since
  else
    let xs ← tryLanes ps (fun p => atPlace p (loadPlain (keyCore c.key) (c.policy p.cp) p.home (loadSize k)))
    let o ← loadDone c k d mask xs
    modify (fun (s : State) => s.measureLoad c.key.die since)
    pure o

/-- A load from the window (R105). -/
def loadWin (c : Cx) (k : BitVec 4) (d : Code) (mask : Word) (addr : Nat → Nat) : M Out := do
  alignLanes mask addr (loadSize k)
  let xs ← tryLanes (laneAddrs mask addr) (fun a => readWindow c.g a (loadSize k))
  loadDone c k d mask xs

/-- The destination of a load (R102). -/
def loadDestOk (c : Cx) (k : BitVec 4) (d : Code) : Bool := spanOk c.g.quota (loadRegs k) d

/-- LD (R105). -/
def execLd (g : Guard) (d a : Code) (k o : BitVec 4) (s : State) : Host.Outcome State Fault Refusal :=
  issueWord
    { cls := .v, guard := g, codes := [d, a], legal := fun c => loadDestOk c k d && pairOk c.g.quota a
      himm := true, mem := true, reads := fun _ => [a, up a 1], accept := fun c => c.addrTag a
      dests := fun _ => spanOf d (loadRegs k), touches := true
      run := fun c => loadMem c k d c.lanes (c.virt a (c.offset o * loadSize k)) (some c.since) } s

/-- LDS (R105). -/
def execLds (g : Guard) (d a : Code) (k o : BitVec 4) (s : State) : Host.Outcome State Fault Refusal :=
  issueWord
    { cls := .v, guard := g, codes := [d, a], legal := fun c => loadDestOk c k d
      himm := true, reads := fun _ => [a], accept := fun c => c.intTag a
      dests := fun _ => spanOf d (loadRegs k), touches := true
      run := fun c => loadWin c k d c.lanes (c.win a (c.offset o * loadSize k)) } s

/-- Whether the uniform address of LDU and STU is a virtual one: s64 or n64 on an even register (R102). -/
def Cx.virtual (c : Cx) (a : Code) : Bool := isAddr (c.tag a) && a.toNat % 2 == 0
/-- Its registers. -/
def Cx.addrRegs (c : Cx) (a : Code) : List Code := if c.virtual a then [a, up a 1] else [a]
/-- Its tags. -/
def Cx.addrOk (c : Cx) (a : Code) : Bool := if c.virtual a then c.addrTag a else c.intTag a

/-- LDU (R105): once, for the group. -/
def execLdu (g : Guard) (d a : Code) (k o : BitVec 4) (s : State) : Host.Outcome State Fault Refusal :=
  issueWord
    { cls := .u, guard := g, codes := [d, a], legal := fun c => !isVec d && !isVec a && loadDestOk c k d
      himm := true, mem := true, reads := fun c => c.addrRegs a, accept := fun c => c.addrOk a
      dests := fun _ => spanOf d (loadRegs k), touches := true
      run := fun c =>
        let h := laneBit ((lowest c.live).getD 0)
        if c.virtual a then loadMem c k d h (c.virt a (c.offset o * loadSize k))
        else loadWin c k d h (c.win a (c.offset o * loadSize k)) } s

/-! ### Stores (R326) -/

/-- The bytes of a group's save window (R249). -/
def inSaveWindow (g : Group) (va n : Nat) : Bool :=
  decide (g.context.toNat + 0x1000 ≤ va ∧ va + n ≤ g.context.toNat + 0x5000)

/-- A store of an exit routine outside its save window is refused (R249). -/
def refuseOutside (c : Cx) (mask : Word) (addr : Nat → Nat) (n : Nat) : M Unit :=
  match (lanesOf mask).find? (fun i => c.g.inExit && !inSaveWindow c.g (addr i) n) with
  | some i => throw (.refuse (addr i))
  | none => pure ()

/-- Whether a promotion in progress at a core stalls writes to a word (R181). -/
def promoHolds (s : State) (c : CoreId) (w : Nat) : Bool :=
  match (s.core c).promo with
  | some p => !p.timedOut && p.entries.any (fun e => e.sector == w / 8 && e.wmask.getLsbD (w % 8))
  | none => false

/-- A write waits while a promotion at its core holds one of its words (R181). -/
def awaitPromo (c : CoreId) (ws : List Nat) : M Unit := do
  let s ← get
  if ws.any (promoHolds s c) then waitStep else pure ()

/-- The words of a list of places. -/
def wordsOf (ps : List (Nat × Place)) : List Nat := ps.map (fun x => x.2.home / 32)

/-- A store to memory of the lanes of a mask, ascending (R326). -/
def storeMem (c : Cx) (m : BitVec 4) (d : Code) (mask : Word) (addr : Nat → Nat) : M Out := do
  let n := storeSize m
  alignLanes mask addr n
  refuseOutside c mask addr n
  let ps ← placeLanes c (laneAddrs mask addr) wantWrite
  awaitPromo (keyCore c.key) (wordsOf ps)
  roomL1 (keyCore c.key) (wordsOf ps)
  ps.forM (fun x => atPlace x.2 (storePlain (keyCore c.key) c.g.world (c.policy x.2.cp)
    (cellsOf x.2.home (c.data d (storeRegs m) x.1 % 2 ^ (8 * n)) n)))
  pure {}

/-- A store to the window (R326). -/
def storeWin (c : Cx) (m : BitVec 4) (d : Code) (mask : Word) (addr : Nat → Nat) : M Out := do
  let n := storeSize m
  alignLanes mask addr n
  let _ ← tryLanes (laneAddrs mask addr) (fun a => windowAt c.g a n)
  (laneAddrs mask addr).forM (fun x => writeWindow c.g x.2 (c.data d (storeRegs m) x.1 % 2 ^ (8 * n)) n)
  pure {}

/-- The data registers of a store (R105). -/
def storeDataOk (c : Cx) (m : BitVec 4) (d : Code) : Bool :=
  decide (m.toNat ≤ 4) && spanOk c.g.quota (storeRegs m) d

/-- The registers of store data that are halves of 64-bit operands (R31). -/
def storeWides (m : BitVec 4) (d : Code) : List Code := if storeRegs m = 1 then [] else spanOf d (storeRegs m)

/-- ST (R326). -/
def execSt (g : Guard) (d a : Code) (m o : BitVec 4) (s : State) : Host.Outcome State Fault Refusal :=
  issueWord
    { cls := .v, guard := g, codes := [d, a], legal := fun c => storeDataOk c m d && pairOk c.g.quota a
      himm := true, mem := true, reads := fun _ => spanOf d (storeRegs m) ++ [a, up a 1]
      accept := fun c => c.addrTag a && c.dataTag d (storeRegs m), wides := storeWides m d, inEntry := false, touches := true
      run := fun c => storeMem c m d c.lanes (c.virt a (c.offset o * storeSize m)) } s

/-- STS (R326); an exit routine refuses it (R249). -/
def execSts (g : Guard) (d a : Code) (m o : BitVec 4) (s : State) : Host.Outcome State Fault Refusal :=
  issueWord
    { cls := .v, guard := g, codes := [d, a], legal := fun c => storeDataOk c m d
      himm := true, reads := fun _ => spanOf d (storeRegs m) ++ [a]
      accept := fun c => c.intTag a && c.dataTag d (storeRegs m), wides := storeWides m d, touches := true
      run := fun c =>
        let addr := c.win a (c.offset o * storeSize m)
        if c.g.inExit then throw (.refuse (addr ((lowest c.lanes).getD 0))) else storeWin c m d c.lanes addr } s

/-- STU (R326): once, for the group. An exit routine refuses it outside its save window (R249). -/
def execStu (g : Guard) (d a : Code) (m o : BitVec 4) (s : State) : Host.Outcome State Fault Refusal :=
  issueWord
    { cls := .u, guard := g, codes := [d, a], legal := fun c => !isVec d && !isVec a && storeDataOk c m d
      himm := true, mem := true, reads := fun c => spanOf d (storeRegs m) ++ c.addrRegs a
      accept := fun c => c.addrOk a && c.dataTag d (storeRegs m), wides := storeWides m d, inEntry := false, touches := true
      run := fun c =>
        let h := laneBit ((lowest c.live).getD 0)
        if c.virtual a then storeMem c m d h (c.virt a (c.offset o * storeSize m))
        else
          let addr := c.win a (c.offset o * storeSize m)
          if c.g.inExit then throw (.refuse (addr ((lowest h).getD 0))) else storeWin c m d h addr } s

/-! ### Prefetches (R327) -/

/-- One lane's prefetch of a word. Of a word of a protected range no copy is made for a page with PROT = 0 (log entry 91). -/
def prefetch (c : Cx) (m : Nat) (va : Nat) : M Unit := do
  let s ← get
  let p ← translate (groupAsker s c.g) (va / 32 * 32) wantRead
  let w := p.home / 32
  let core := keyCore c.key
  atPlace p <| if p.prot || !isProtected s p.home then match m with
  | 0 => do let _ ← readPlain core { c.policy p.cp with lease := 1 } w false
  | 1 => do let _ ← readPlain core { c.policy p.cp with lease := 6 } w false
  | 2 => if rdcHolds core.die w && !(c.policy p.cp).atHome then do let _ ← readDie core.die (c.policy p.cp) w false else pure ()
  | _ => dropAt core .die w
    else pure ()

/-- An operation that leaves no trace where it does not complete, but for an uncorrectable word that it meets: that is
logged as an error without a requester (R39, R327). -/
def orNothing (x : M Unit) : M Unit := fun s => match x s with
  | .ok _ s' => .ok () s'
  | .error (.fault f) _ => .ok () (noteAlone s f)
  | .error _ _ => .ok () s

/-- PREF (R327): a lane whose translation would fault or stall is dropped. -/
def execPref (g : Guard) (a : Code) (m o : BitVec 4) (s : State) : Host.Outcome State Fault Refusal :=
  issueWord
    { cls := .v, guard := g, codes := [a], legal := fun c => decide (m.toNat < 4) && pairOk c.g.quota a
      himm := true, mem := true, reads := fun _ => [a, up a 1], accept := fun c => c.addrTag a, touches := true
      run := fun c => do
        (laneAddrs c.lanes (c.virt a (c.offset o * 32))).forM (fun x => orNothing (prefetch c m.toNat x.2))
        pure {} } s

/-! ### Deferred accesses (R28, R50) -/

/-- The values of an access in flight, by lane: those an atomic brought, or a read now. -/
def Inflight.fetch (f : Inflight) : M (List (Nat × Nat)) :=
  match f.vals with
  | some vs => pure ((lanesOf f.lanes).map (fun i => (i, Inflight.got vs i)))
  | none => tryLanes f.addrs (fun x =>
      atPlace x (readAt (keyCore f.key) f.scope { cp := x.cp, cpol := f.cpol, lease := f.lease } x.home (loadSize f.kind)))

/-- ACCESS_COMPLETE (R28, R50): the value comes back and the destination is written; a fault is fatal (R54), and in an exit
routine it abandons the routine too (R250). -/
def execAccessComplete (id : Nat) (s : State) : Host.Outcome State Fault Refusal :=
  match s.flight.find? (fun (f : Inflight) => f.id == id) with
  | none => .next s
  | some f =>
    let gone : State := { s with flight := s.flight.filter (fun (x : Inflight) => x.id != id) }
    match s.group f.key with
    | none => .next gone
    | some g =>
      match f.fetch gone with
      | .ok xs s' =>
        .next ((landFlight s' f (atLane xs 0)).measureLoad f.key.die f.since)
      | .error (.fault e) _ =>
        let s := noteError gone e
        .next (fatalGroup (match g.routine with
          | .exit snap _ => abandon s g snap e.code f.va f.pc
          | _ => s) g e.code f.va f.pc (e.lane.getD 0) e.mask)
      | .error _ s' => .next { s' with flight := s'.flight ++ [f] }

end Sys2Proof.Machine
end

