-- ==== Sys2Proof/Machine/Order.lean ====
section
/-! DEFINITION. Releases, acquires and fences (R159-R174), the ordered loads and stores (R172, R173), the basting log and
remote promotion (R173-R184 of chapter 12). -/

namespace Sys2Proof.Machine

/-! ### The basting log (R173-R175 of 12) -/

/-- Whether a log records a word for a world. -/
def logged (l : List LogEntry) (world w : Nat) : Bool :=
  l.any (fun e => e.world == world && e.sector == w / 8 && e.wmask.getLsbD (w % 8))

/-- The 32-byte words of a log entry. -/
def LogEntry.words (e : LogEntry) : List Nat :=
  ((List.range 8).filter (fun j => e.wmask.getLsbD j)).map (fun j => 8 * e.sector + j)

/-- The push step of R178 for one word of a core: the dirty bytes of the remote-data cache, which are the older ones, and the
L1's. -/
def pushLogged (c : CoreId) (w : Nat) : M Unit := do
  if rdcHolds c.die w then pushRdc c.die w else pure ()
  pushL1Home c w

/-- A word put into the log: into the entry of its sector, or a new one; a full log promotes its oldest entry first
(R174, R175). -/
def logWord (c : CoreId) (world w : Nat) : M Unit := do
  let s ← get
  let k := s.core c
  let bit : Byte := BitVec.ofNat 8 (2 ^ (w % 8))
  if logged k.log world w then pure ()
  else if k.log.any (fun e => e.world == world && e.sector == w / 8) then
    set (s.setCore { k with log := k.log.map (fun e =>
      if e.world == world && e.sector == w / 8 then { e with wmask := e.wmask ||| bit } else e) })
  else
    let new : LogEntry := { world := world, sector := w / 8, wmask := bit }
    if k.log.length < 64 then set (s.setCore { k with log := k.log ++ [new] })
    else
      match k.log with
      | [] => pure ()
      | old :: _ =>
        pushAll old.words (pushLogged c)
        modify (fun (s : State) =>
          let k := s.core c
          s.setCore { k with log := k.log.drop 1 ++ [new] })

/-- What a narrow release adds to the log: every word that groups of its world stored on the core since the core's
last wide release, its own store's included (R174). -/
def logStored (c : CoreId) (world : Nat) : M Unit := do
  let s ← get
  (((s.core c).stored.filter (fun x => x.2 == world)).map (·.1)).reverse.eraseDups.forM (logWord c world)

/-- A wide release empties the log once its pushes are made: what is stored or released narrowly after them is no part of it
(R175, R179). -/
def emptyLog (c : CoreId) : M Unit :=
  modify (fun (s : State) =>
    let k := s.core c
    s.setCore { k with log := [], stored := [] })

/-! ### Releases (R162) -/

/-- The path of a word as it stands. -/
def pathNow (s : State) (c : Cx) : Path :=
  match s.group c.key with
  | some g => (g.slot c.sl).getD c.p
  | none => c.p

/-- The issuing path changed while its word waits. -/
def changePath (c : Cx) (f : Path → Path) : M Unit :=
  modify (fun (s : State) => match s.group c.key with
    | some g => s.setGroup (g.setSlot c.sl ((g.slot c.sl).map f))
    | none => s)

/-- Once the pushes are made, the time to wait for is fixed; the release goes on when package time passes it. -/
def pushThenWait (c : Cx) (push : M Unit) (until_ : State → Nat) : M Unit := do
  let s ← get
  match (pathNow s c).awaits with
  | some t => waitUntil t
  | none =>
    push
    let s ← get
    let t := until_ s
    changePath c (fun (p : Path) => { p with awaits := some t })
    waitUntil t

/-- `%wct` of a group as it stands. -/
def wctNow (s : State) (k : Key) : Nat := match s.group k with | some g => g.wct | none => 0

/-- Whether narrow releases stall at a core (R181). -/
def narrowHeld (s : State) (c : CoreId) : Bool :=
  match (s.core c).promo with
  | some p => !p.timedOut
  | none => false

/-- The actions of a release before its own store (R162). Accesses of the path complete at their own steps, and a word
that releases waits for those in flight. -/
def releaseActions (c : Cx) (sc : Scope) : M Unit := do
  let core := keyCore c.key
  let s ← get
  match sc with
  | .core => if narrowHeld s core then waitStep else pure ()
  | .die =>
    if narrowHeld s core then waitStep else pure ()
    pushThenWait c (pushCoreDie core) (fun s => (s.core core).cd)
  | _ =>
    pushThenWait c (do pushCoreHome core; emptyLog core) (fun s =>
      max (max (s.core core).cw (s.core core).cd) (wctNow s c.key))

/-- What a narrow release adds to the basting log as it completes (R174). -/
def releaseLog (c : Cx) (sc : Scope) : M Unit :=
  match sc with
  | .core | .die => logStored (keyCore c.key) c.g.world
  | _ => pure ()

/-- Whether bytes of a word are written in the die's remote-data cache at a scope. -/
def inRdc (c : CoreId) (x : Scope × Nat) : Bool := x.1 == .die && rdcHolds c.die x.2

/-- The points of performance of some words, each at its scope, made ready for their bytes: room in the L1 and in the
remote-data cache for all of them together, and every other word ready to merge at home. It waits if not, before anything is
written (R57, R158, R162, R69, R70). -/
def readyAt (c : CoreId) (xs : List (Scope × Nat)) : M Unit := do
  roomL1 c (xs.map (fun x => x.2))
  roomRdc c.die ((xs.filter (inRdc c)).map (fun x => x.2))
  (xs.filter (fun x => x.1 != .core && !inRdc c x)).forM (fun x => mayMerge x.2)

/-- A read of an ordered access or an atomic at a place, by the physical address that it has. -/
def readPlace (c : CoreId) (sc : Scope) (p : Policy) (x : Place) (n : Nat) : M Nat := atPlace x (readAt c sc p.ordered x.home n)

/-! ### FENCE (R167, R174) -/

/-- A fence word. -/
def fenceWd (g : Guard) (run : Cx → M Unit) : Wd :=
  { cls := .u, guard := g, touches := true, run := fun c => do run c; pure {} }

/-- FENCE at a scope: the release with no store of its own; what follows issues after it (R167). -/
def fenceAt (g : Guard) (sc : Scope) : Wd := fenceWd g (fun c => do
  releaseActions c sc
  releaseLog c sc)

/-- FENCE.CORE (R174). -/
def execFenceCore (g : Guard) (s : State) : Host.Outcome State Fault Refusal := issueWord (fenceAt g .core) s
/-- FENCE.DIE (R174). -/
def execFenceDie (g : Guard) (s : State) : Host.Outcome State Fault Refusal := issueWord (fenceAt g .die) s
/-- FENCE.PKG (R174): its wait is measured (R277). -/
def execFencePkg (g : Guard) (s : State) : Host.Outcome State Fault Refusal :=
  issueWord (fenceWd g (fun c => do
    releaseActions c .pkg
    releaseLog c .pkg
    modify (fun (s : State) => s.measure c.key.die 6 (s.now - c.since)))) s
/-- FENCE.SYS (R174). -/
def execFenceSys (g : Guard) (s : State) : Host.Outcome State Fault Refusal := issueWord (fenceAt g .sys) s

/-- FENCE.ORF (R174): every earlier register and predicate write of both slots has landed. -/
def execFenceOrf (g : Guard) (s : State) : Host.Outcome State Fault Refusal :=
  issueWord (fenceWd g (fun c =>
    modify (fun (s : State) => match s.group c.key with
      | some gr => s.setGroup { gr with pending := [] }
      | none => s))) s

/-- FENCE.TFENCE (R174): what the core has stored is merged home, where the copy engine reads; no WCT is awaited. -/
def execFenceTfence (g : Guard) (s : State) : Host.Outcome State Fault Refusal :=
  issueWord (fenceWd g (fun c => pushCoreHome (keyCore c.key))) s

/-! ### LDA (R172) and STL (R173) -/

/-- The scope of a code (R159). -/
def scopeOf : Nat → Scope
  | 0 => .core | 1 => .die | 2 => .pkg | _ => .sys
/-- Bytes of an ordered access. -/
def wordSize (w : BitVec 1) : Nat := if w = 1 then 8 else 4
/-- Registers of an ordered access. -/
def wordRegs (w : BitVec 1) : Nat := if w = 1 then 2 else 1
/-- The load kind that writes what an LDA writes (R104, R172). -/
def ldaKind (w : BitVec 1) : BitVec 4 := if w = 1 then 12 else 6

/-- The read of an LDA at the point of its scope, all lanes together (R163, R172). -/
def ldaRead (c : Cx) (d : Code) (sc : Scope) (w : BitVec 1) (addr : Nat → Nat) : M Out := do
  let ps ← placeLanes c (laneAddrs c.lanes addr) wantRead
  let s ← get
  if s.given.deferAccess then
    deferAccess c (ldaKind w) d c.lanes ps (c.policy 0).ordered sc (addr ((lowest c.lanes).getD 0)) none
  else
    let xs ← tryLanes ps (fun p => readPlace (keyCore c.key) sc (c.policy p.cp) p (wordSize w))
    pure { regs := loadOuts (ldaKind w) d c.lanes (atLane xs 0) }

/-- LDA (R172). -/
def execLda (g : Guard) (d a : Code) (sc : BitVec 2) (w : BitVec 1) (s : State) : Host.Outcome State Fault Refusal :=
  issueWord
    { cls := .v, guard := g, codes := [d, a]
      legal := fun c => spanOk c.g.quota (wordRegs w) d && pairOk c.g.quota a
      mem := true, reads := fun _ => [a, up a 1], accept := fun c => c.addrTag a
      dests := fun _ => spanOf d (wordRegs w), touches := true
      run := fun c => do
        alignLanes c.lanes (c.val64 a) (wordSize w)
        ldaRead c d (scopeOf sc.toNat) w (c.val64 a) } s

/-- The lanes of an ordered store written at the point of its scope, ascending. -/
def stlWrite (c : Cx) (d : Code) (sc : Scope) (n r : Nat) (ps : List (Nat × Place)) : M Unit :=
  ps.forM (fun x => atPlace x.2
    (writeAt (keyCore c.key) c.g.world sc (c.policy x.2.cp).ordered true (cellsOf x.2.home (c.data d r x.1) n)))

/-- The places of a releasing store: translated once, before its release actions, and kept until it completes, so that no
fault comes after them (R172, R173). -/
def stlPlaces (c : Cx) (addr : Nat → Nat) : M (List (Nat × Place)) := do
  let s ← get
  match (pathNow s c).placed with
  | some ps => pure ps
  | none =>
    let ps ← placeLanes c (laneAddrs c.lanes addr) wantWrite
    changePath c (fun (p : Path) => { p with placed := some ps })
    pure ps

/-- STL (R173): faults first, then the release once, then every point of the store reached, the store, once, and last the
log brought up to date with it: a word that the full log gives up takes the bytes just stored along (R174, R175). -/
def execStl (g : Guard) (d a : Code) (sc : BitVec 2) (w : BitVec 1) (s : State) : Host.Outcome State Fault Refusal :=
  issueWord
    { cls := .v, guard := g, codes := [d, a]
      legal := fun c => spanOk c.g.quota (wordRegs w) d && pairOk c.g.quota a
      mem := true, reads := fun _ => spanOf d (wordRegs w) ++ [a, up a 1]
      accept := fun c => c.addrTag a && c.dataTag d (wordRegs w), wides := if w = 1 then spanOf d 2 else [], inEntry := false
      touches := true
      run := fun c => do
        let addr := c.val64 a
        let n := wordSize w
        if c.g.inExit then throw (.refuse (addr ((lowest c.lanes).getD 0)))
        else
          alignLanes c.lanes addr n
          let ps ← stlPlaces c addr
          awaitPromo (keyCore c.key) (wordsOf ps).eraseDups
          releaseActions c (scopeOf sc.toNat)
          readyAt (keyCore c.key) (ps.map (fun x => ((c.policy x.2.cp).reaches (scopeOf sc.toNat), x.2.home / 32)))
          stlWrite c d (scopeOf sc.toNat) n (wordRegs w) ps
          -- the store is done: only the log is left
          changePath c (fun (p : Path) => { p with placed := some [] })
          releaseLog c (scopeOf sc.toNat)
          pure {} } s

/-! ### Domains (R176, R177 of 12) -/

/-- The cores that a domain handle names; none where it is invalid. -/
def domainCores (h : Nat) : Option (List CoreId) :=
  let die := bitsOf h 8 5
  let unit := bitsOf h 0 8
  let cores (lo n : Nat) : List CoreId := (List.range n).map (fun i => { die := die, core := lo + i })
  if bitsOf h 13 17 ≠ 0 then none
  else match bitsOf h 30 2 with
    | 0 => if unit ≤ 191 then some (cores unit 1) else none
    | 1 => if unit ≤ 47 then some (cores (4 * unit) 4) else none
    | 2 => if unit ≤ 23 then some (cores (8 * unit) 8) else none
    | _ => if unit = 0 then some (cores 0 192) else none

/-! ### Promotion (R178-R183 of 12) -/

/-- Every word of a list of entries pushed. -/
def pushEntries (c : CoreId) (es : List LogEntry) : M Unit := pushAll (es.flatMap LogEntry.words) (pushLogged c)

/-- Requests sent to the cores of a domain, and the issuing path made to wait for their acknowledgements (R178). -/
def sendPromotion (c : Cx) (sc : Scope) (cores : List CoreId) : M Unit := do
  modify (fun (s : State) => (cores.foldl (fun (s : State) k =>
      let x := s.core k
      s.setCore { x with waiting := x.waiting ++ [{ world := c.g.world, scope := sc, who := some (c.key, c.p.id) }] }) s).due
    (cores.map Instr.promotionRequest))
  changePath c (fun (p : Path) => { p with promo := some { since := c.now, waiting := cores, latest := 0 } })
  waitStep

/-- The promotion of a word as far as it has come: sent, awaited, and past the largest time (R178). -/
def promote (c : Cx) (sc : Scope) (cores : List CoreId) : M Unit := do
  let s ← get
  match (pathNow s c).promo with
  | some x => if x.waiting.isEmpty then waitUntil x.latest else waitStep
  | none => sendPromotion c sc cores

/-- LDA.PKG.P and LDA.SYS.P (R172 of 11, R177, R178 of 12). -/
def execLdaP (g : Guard) (d a : Code) (sc w : BitVec 1) (s : State) : Host.Outcome State Fault Refusal :=
  issueWord
    { cls := .v, guard := g, codes := [d, a]
      legal := fun c => spanOk c.g.quota (wordRegs w) d && decide (96 ≤ a.toNat ∧ a.toNat ≤ 124 ∧ a.toNat % 2 = 0)
      mem := true, reads := fun _ => [a, up a 1, up a 2], accept := fun c => c.addrTag a && c.intTag (up a 2)
      dests := fun _ => spanOf d (wordRegs w), handler := false, inExit := false, inEntry := false, touches := true
      run := fun c => do
        let scope : Scope := if sc = 1 then .sys else .pkg
        match domainCores (c.val (up a 2) 0).toNat with
        | none => failCode cDomHandle
        | some cores =>
          alignLanes c.lanes (c.val64 a) (wordSize w)
          let _ ← placeLanes c (laneAddrs c.lanes (c.val64 a)) wantRead
          promote c scope cores
          ldaRead c d scope w (c.val64 a) } s

/-- The first request of a list that a core may take up: any when none is in progress, else one of the same world
(R178, R180). -/
def takeable (p : Option Promo) (rs : List PromoReq) : Option PromoReq :=
  match p with
  | none => rs.head?
  | some x => rs.find? (fun r => r.world == x.world)

/-- A core's acknowledgement sent to the paths that wait for it, with the time T that it has reached (R178, R180). -/
def ackPromotion (s : State) (c : CoreId) (who : List (Key × Int)) (t : Nat) : State :=
  let k := s.core c
  (s.setCore { k with acks := k.acks ++ who.map (fun x => (x.1, x.2, t)) }).due
    (who.map (fun x => Instr.promotionAckReceipt x.1 c))

/-- The log without the words of a list of entries (R175, R178). -/
def freeEntries (log es : List LogEntry) : List LogEntry :=
  (log.map (fun e => es.foldl (fun (e : LogEntry) x =>
    if x.world == e.world && x.sector == e.sector then { e with wmask := e.wmask &&& ~~~x.wmask } else e) e)).filter
      (fun e => e.wmask != 0)

/-- The pushes of a promotion, where they are not all made; once they are, the entries are freed and T is the core's CW
(R178). -/
def pushPromo (s : State) (c : CoreId) : State :=
  match (s.core c).promo with
  | none => s
  | some p =>
    if p.time.isSome then s
    else
      match pushEntries c p.entries s with
      | .ok _ s' =>
        let k := s'.core c
        s'.setCore { k with log := freeEntries k.log p.entries, promo := some { p with time := some k.cw } }
      | .error _ s' => s'

/-- PROMOTION_REQUEST (R178, R180, R183): a core takes a request up, or joins it to the promotion in progress; where its log
has no entry of the world it acknowledges at once. -/
def execPromotionRequest (c : CoreId) (s : State) : Host.Outcome State Fault Refusal :=
  let k := s.core c
  match takeable k.promo k.waiting with
  | none => .next s
  | some r =>
    let k := { k with waiting := k.waiting.erase r }
    match k.promo with
    | some x => .next (s.setCore { k with promo := some { x with joined := x.joined ++ r.who.toList } })
    | none =>
      let es := k.log.filter (fun e => e.world == r.world)
      if es.isEmpty then .next (ackPromotion (s.setCore k) c r.who.toList k.cw)
      else
        let p : Promo :=
          { world := r.world, scope := r.scope, entries := es, since := s.now, joined := r.who.toList, timedOut := false,
            time := none }
        .next (pushPromo (s.setCore { k with promo := some p }) c)

/-- PROMOTION_ACKNOWLEDGE (R178): once every push has merged and package time has passed T, every requester is answered. A
world whose address space is gone is answered at once (R238). -/
def execPromotionAcknowledge (c : CoreId) (s : State) : Host.Outcome State Fault Refusal :=
  match (s.core c).promo with
  | none => .next s
  | some p =>
    let dead := match s.world p.world with | some w => w.failed | none => true
    let s := pushPromo s c
    let k := s.core c
    match k.promo.bind (fun (x : Promo) => x.time) with
    | some t =>
      if dead || decide (t < s.now) then .next (ackPromotion (s.setCore { k with promo := none }) c p.joined t) else .next s
    | none =>
      if dead then
        .next (ackPromotion (s.setCore { k with promo := none, log := freeEntries k.log p.entries }) c p.joined k.cw)
      else .next s

/-- The acknowledgement of a core noted at the path that waits for it. -/
def Path.acked (p : Path) (c : CoreId) (id : Int) (t : Nat) : Path :=
  match p.promo with
  | some x => if p.id = id ∧ x.waiting.contains c then
      { p with promo := some { x with waiting := x.waiting.erase c, latest := max x.latest t } } else p
  | none => p

/-- The time that a path has waited for acknowledgements, by the stamp that named it at the request (R277). -/
def Group.ackTime (g : Group) (id : Int) (now : Nat) : Option Nat :=
  ((g.slot0.toList ++ g.slot1.toList ++ g.spill.filterMap (fun x => x.path)).find? (fun p => p.id == id && p.promo.isSome)).bind
    (fun p => p.promo.map (fun x => now - x.since))

/-- PROMOTION_ACK_RECEIPT (R178): the issuer notes the core's time; the time of the acknowledgement is measured (R277). -/
def execPromotionAckReceipt (k : Key) (c : CoreId) (s : State) : Host.Outcome State Fault Refusal :=
  let core := s.core c
  match core.acks.find? (fun a => a.1 == k), s.group k with
  | some a, some g =>
    let f (p : Path) : Path := p.acked c a.2.1 a.2.2
    let s := match g.ackTime a.2.1 s.now with
      | some t => s.measure k.die 5 t
      | none => s
    .next ((s.setCore { core with acks := core.acks.erase a }).setGroup
      { g with slot0 := g.slot0.map f, slot1 := g.slot1.map f
               spill := g.spill.map (fun x => { x with path := x.path.map f }) })
  | _, _ => .next s

/-- PROMOTION_STALL_TIMEOUT (R181): the stall of the core's own words ends 4 us after the request was taken up. -/
def execPromotionStallTimeout (c : CoreId) (s : State) : Host.Outcome State Fault Refusal :=
  let k := s.core c
  match k.promo with
  | some p => if p.since + 4000 ≤ s.now then .next (s.setCore { k with promo := some { p with timedOut := true } })
    else .next s
  | none => .next s

end Sys2Proof.Machine
end

