-- ==== Sys2Proof/Machine/Atomics.lean ====
section
/-! DEFINITION. Atomics and reductions at memory (chapter 10): operands and tags (R152-R154), the aggregator (R155), the
points of performance (R156). -/

namespace Sys2Proof.Machine

/-- The nine operations (R153). -/
inductive AtomOp where
  | add | min | max | and | or | xor | exch | cas | incw
  deriving DecidableEq, Repr

/-- Whether an operation takes a tag at a width (R153). -/
def AtomOp.takes (o : AtomOp) (w64 : Bool) (t : Tag) : Bool :=
  wide t == w64 &&
  match o with
  | .add | .min | .max => t == .s32 || t == .n32 || t == .f32 || t == .s64 || t == .n64 || t == .f64
  | .and | .or | .xor => t == .b32 || t == .s32 || t == .n32 || t == .s64 || t == .n64
  | .exch => t != .void && !isBfp t
  | .cas => t == .b32 || t == .s32 || t == .n32 || t == .f32 || t == .s64 || t == .n64 || t == .f64
  | .incw => t == .n32 || t == .n64

/-- Whether a tag is a float that ADD combines before it reaches memory (R155). -/
def isFloatTag (t : Tag) : Bool := t == .f32 || t == .f64
/-- The float format of a tag. -/
def floatFmt (t : Tag) : Fmt := if t == .f64 then fmtF64 else fmtF32

/-- The new value at an address from the old one and a lane's data: `a`, and for CAS the compare value `c` (R153). No flag
is set, and float ADD rounds to nearest even. -/
def AtomOp.apply (o : AtomOp) (t : Tag) (x c a : Nat) : Nat :=
  let n := 2 ^ tagBits t
  match o with
  | .add => if isFloatTag t then ((floatFmt t).add .rne x a).1 else (x + a) % n
  | .min => match elemOf t with | some (w, _, e) => (minMaxElem false false w e .rne x a 0).1 | none => x
  | .max => match elemOf t with | some (w, _, e) => (minMaxElem true false w e .rne x a 0).1 | none => x
  | .and => x &&& a
  | .or => x ||| a
  | .xor => x ^^^ a
  | .exch => a
  | .cas => if x = c then a else x
  | .incw => if a ≤ x then 0 else (x + 1) % n

/-- Data registers of a word (R152). -/
def AtomOp.regs (o : AtomOp) (w : BitVec 1) : Nat := wordRegs w * (if o = .cas then 2 else 1)

/-- Compare value and data of a lane (R153). -/
def atomData (c : Cx) (o : AtomOp) (d : Code) (w : BitVec 1) (i : Nat) : Nat × Nat :=
  let r := wordRegs w
  let x := c.data d r i
  if o = .cas then (x, c.data (up d r) r i) else (x, x)

/-- The lanes of one address in turn: the final value, and each lane's old value (R155). -/
def serial (o : AtomOp) (t : Tag) (data : Nat → Nat × Nat) (x : Nat) : List Nat → Nat × List (Nat × Nat)
  | [] => (x, [])
  | i :: r =>
    let (y, olds) := serial o t data (o.apply t x (data i).1 (data i).2) r
    (y, (i, x) :: olds)

/-- Float ADD: the data are combined in lane order first; each lane's old value is rebuilt from the returned one and
the rounded prefix below it (R155). -/
def floatAdd (t : Tag) (data : Nat → Nat) (x : Nat) : List Nat → Nat × List (Nat × Nat)
  | [] => (x, [])
  | i :: r =>
    let f := floatFmt t
    let plus (u v : Nat) : Nat := (f.add .rne u v).1
    let (sum, olds) := r.foldl (fun (acc : Nat × List (Nat × Nat)) j =>
      (plus acc.1 (data j), acc.2 ++ [(j, plus x acc.1)])) (data i, [])
    (plus x sum, (i, x) :: olds)

/-- The lanes of one address performed on its old value (R155). -/
def combine (o : AtomOp) (t : Tag) (data : Nat → Nat × Nat) (x : Nat) (ls : List Nat) : Nat × List (Nat × Nat) :=
  if o = .add ∧ isFloatTag t then floatAdd t (fun i => (data i).2) x ls else serial o t data x ls

/-- One request: an indivisible read-modify-write at the scope's point of performance (R155, R156). -/
def atomRequest (c : Cx) (o : AtomOp) (sc : Scope) (t : Tag) (n : Nat) (data : Nat → Nat × Nat) (p : Place)
    (ls : List Nat) : M (List (Nat × Nat)) := do
  let core := keyCore c.key
  let x ← readPlace core sc (c.policy p.cp) p n
  let (y, olds) := combine o t data x ls
  atPlace p (writeAt core c.g.world sc (c.policy p.cp).ordered false (cellsOf p.home y n))
  dropAt core sc (p.home / 32)
  pure olds

/-- The lanes of each distinct address, the addresses in the order of their first lanes (R155). -/
def byAddress (ps : List (Nat × Place)) : List (Place × List Nat) :=
  let qs := ps.map (fun x => (x.1, { x.2 with pa := x.2.home }))
  (qs.map (·.2)).eraseDups.map (fun p => (p, (qs.filter (fun x => x.2 == p)).map (·.1)))

/-- The word as a whole: checks of every lane, own dirty bytes pushed and every point reached before any
read-modify-write is made, then the requests (R155, R156, R158, R181). -/
def atomRun (c : Cx) (o : AtomOp) (sc : Scope) (d a : Code) (w : BitVec 1) : M (List (Nat × Nat)) := do
  let core := keyCore c.key
  let addr := c.val64 a
  let n := wordSize w
  if c.g.inExit then throw (.refuse (addr ((lowest c.lanes).getD 0)))
  else
    alignLanes c.lanes addr n
    let ps ← placeLanes c (laneAddrs c.lanes addr) wantWrite
    awaitPromo core (wordsOf ps)
    ps.forM (fun x => pushForAtomic core ((c.policy x.2.cp).reaches sc) (x.2.home / 32))
    readyAt core (ps.map (fun x => ((c.policy x.2.cp).reaches sc, x.2.home / 32)))
    let _ ← tryLanes ps (fun p => readPlace core sc (c.policy p.cp) p n)
    let olds ← (byAddress ps).mapM (fun x => atomRequest c o sc (c.tag d) n (atomData c o d w) x.1 x.2)
    pure olds.flatten

/-- What ATOM and RED have in common (R152, R153). -/
def atomWd (g : Guard) (o : AtomOp) (d a : Code) (w : BitVec 1) (dests : List Code) (run : Cx → M Out) : Wd :=
  { cls := .v, guard := g, codes := [d, a]
    legal := fun c => spanOk c.g.quota (o.regs w) d && pairOk c.g.quota a
    mem := true, reads := fun _ => spanOf d (o.regs w) ++ [a, up a 1]
    accept := fun c => c.addrTag a && o.takes (w == 1) (c.tag d) &&
      (spanOf d (o.regs w)).all (fun r => c.tag r == c.tag d)
    wides := if w = 1 then spanOf d (o.regs w) else [], dests := fun _ => dests, inEntry := false, touches := true, run := run }

/-- ATOM: the old values come back to D with the data's tag, at once or in a later step (R154, R50). -/
def atom (g : Guard) (o : AtomOp) (d a : Code) (w : BitVec 1) (sc : BitVec 2) : Wd :=
  atomWd g o d a w (spanOf d (wordRegs w)) (fun c => do
    let s0 ← get
    let olds ← atomRun c o (scopeOf sc.toNat) d a w
    let t := c.tag d
    if s0.given.deferAccess then
      let lane (j i : Nat) : Word := BitVec.ofNat 32 (atLane olds 0 i / 2 ^ (32 * j))
      let vals : List Lanes := (List.range (wordRegs w)).map (fun j => Vector.ofFn (fun (i : Fin 32) => lane j i.val))
      modify (fun (s : State) => { s with
        nextId := s.nextId + 1
        flight := s.flight ++
          [{ id := s.nextId, key := c.key, kind := ldaKind w, dest := d, lanes := c.lanes, addrs := [], scope := .core, cpol := 0, lease := 0,
             vals := some vals, tag := t, va := 0, pc := c.p.pc, since := none }] })
      pure {}
    else pure { regs := outOf d c.lanes (atLane olds 0) t })

/-- RED: nothing comes back (R154). -/
def red (g : Guard) (o : AtomOp) (d a : Code) (w : BitVec 1) (sc : BitVec 2) : Wd :=
  atomWd g o d a w [] (fun c => do
    let _ ← atomRun c o (scopeOf sc.toNat) d a w
    pure {})

/-- ATOM.ADD (R153-R156). -/
def execAtomAdd (g : Guard) (d a : Code) (w : BitVec 1) (sc : BitVec 2) (s : State) : Host.Outcome State Fault Refusal :=
  issueWord (atom g .add d a w sc) s
/-- ATOM.MIN (R153-R156). -/
def execAtomMin (g : Guard) (d a : Code) (w : BitVec 1) (sc : BitVec 2) (s : State) : Host.Outcome State Fault Refusal :=
  issueWord (atom g .min d a w sc) s
/-- ATOM.MAX (R153-R156). -/
def execAtomMax (g : Guard) (d a : Code) (w : BitVec 1) (sc : BitVec 2) (s : State) : Host.Outcome State Fault Refusal :=
  issueWord (atom g .max d a w sc) s
/-- ATOM.AND (R153-R156). -/
def execAtomAnd (g : Guard) (d a : Code) (w : BitVec 1) (sc : BitVec 2) (s : State) : Host.Outcome State Fault Refusal :=
  issueWord (atom g .and d a w sc) s
/-- ATOM.OR (R153-R156). -/
def execAtomOr (g : Guard) (d a : Code) (w : BitVec 1) (sc : BitVec 2) (s : State) : Host.Outcome State Fault Refusal :=
  issueWord (atom g .or d a w sc) s
/-- ATOM.XOR (R153-R156). -/
def execAtomXor (g : Guard) (d a : Code) (w : BitVec 1) (sc : BitVec 2) (s : State) : Host.Outcome State Fault Refusal :=
  issueWord (atom g .xor d a w sc) s
/-- ATOM.EXCH (R153-R156). -/
def execAtomExch (g : Guard) (d a : Code) (w : BitVec 1) (sc : BitVec 2) (s : State) : Host.Outcome State Fault Refusal :=
  issueWord (atom g .exch d a w sc) s
/-- ATOM.CAS (R153-R156). -/
def execAtomCas (g : Guard) (d a : Code) (w : BitVec 1) (sc : BitVec 2) (s : State) : Host.Outcome State Fault Refusal :=
  issueWord (atom g .cas d a w sc) s
/-- ATOM.INCW (R153-R156). -/
def execAtomIncw (g : Guard) (d a : Code) (w : BitVec 1) (sc : BitVec 2) (s : State) : Host.Outcome State Fault Refusal :=
  issueWord (atom g .incw d a w sc) s
/-- RED.ADD (R153-R156). -/
def execRedAdd (g : Guard) (d a : Code) (w : BitVec 1) (sc : BitVec 2) (s : State) : Host.Outcome State Fault Refusal :=
  issueWord (red g .add d a w sc) s
/-- RED.MIN (R153-R156). -/
def execRedMin (g : Guard) (d a : Code) (w : BitVec 1) (sc : BitVec 2) (s : State) : Host.Outcome State Fault Refusal :=
  issueWord (red g .min d a w sc) s
/-- RED.MAX (R153-R156). -/
def execRedMax (g : Guard) (d a : Code) (w : BitVec 1) (sc : BitVec 2) (s : State) : Host.Outcome State Fault Refusal :=
  issueWord (red g .max d a w sc) s
/-- RED.AND (R153-R156). -/
def execRedAnd (g : Guard) (d a : Code) (w : BitVec 1) (sc : BitVec 2) (s : State) : Host.Outcome State Fault Refusal :=
  issueWord (red g .and d a w sc) s
/-- RED.OR (R153-R156). -/
def execRedOr (g : Guard) (d a : Code) (w : BitVec 1) (sc : BitVec 2) (s : State) : Host.Outcome State Fault Refusal :=
  issueWord (red g .or d a w sc) s
/-- RED.XOR (R153-R156). -/
def execRedXor (g : Guard) (d a : Code) (w : BitVec 1) (sc : BitVec 2) (s : State) : Host.Outcome State Fault Refusal :=
  issueWord (red g .xor d a w sc) s
/-- RED.EXCH (R153-R156). -/
def execRedExch (g : Guard) (d a : Code) (w : BitVec 1) (sc : BitVec 2) (s : State) : Host.Outcome State Fault Refusal :=
  issueWord (red g .exch d a w sc) s
/-- RED.CAS (R153-R156). -/
def execRedCas (g : Guard) (d a : Code) (w : BitVec 1) (sc : BitVec 2) (s : State) : Host.Outcome State Fault Refusal :=
  issueWord (red g .cas d a w sc) s
/-- RED.INCW (R153-R156). -/
def execRedIncw (g : Guard) (d a : Code) (w : BitVec 1) (sc : BitVec 2) (s : State) : Host.Outcome State Fault Refusal :=
  issueWord (red g .incw d a w sc) s

end Sys2Proof.Machine
end

