-- ==== Sys2Proof/Machine/Control.lean ====
section
/-! DEFINITION. Control flow (chapter 13): branches and calls (R193-R195), EXIT (R346), path words (R190, R196), code
segments (R191, R192, R197). -/

namespace Sys2Proof.Machine

/-! ### Targets -/

/-- The target of a BR-form word (R193). -/
def Cx.target (c : Cx) (i : BitVec 22) : Word := BitVec.ofNat 32 (wrap 32 ((c.p.pc.toNat : Int) + 4 + 4 * intOf true 22 i.toNat))
/-- The word after. -/
def Cx.after (c : Cx) : Word := c.p.pc + 4
/-- The reconvergence point that an HRCV supplies (R24). -/
def Cx.rejoin (c : Cx) : Option Word := c.p.hrcv.map (fun o => c.target o)

/-- A target that the group may fetch from (R191). -/
def checkLanded (c : Cx) (t : Word) : M Unit := do
  let s ← get
  if landed s (keyCore c.key) c.g.world t then pure () else failCode cSegAbsent t.toNat

/-- A group written back after it has rearranged its paths. -/
def putBack (g : Group) : M Unit := modify (fun (s : State) => s.setGroup (keepWct s g))

/-- The path's lanes go to one PC each set, `kids` from the set created first to the one created last; one set that holds
all of L moves the path (R188). -/
def moveLanes (c : Cx) (kids : List (Word × Word)) (rc : Option Word) (regs : List RegOut) : M Out :=
  match kids with
  | [(pc, _)] => pure { regs := regs, go := .jump pc }
  | _ => do
    let g ← diverge c.g c.sl c.p kids rc
    putBack g
    pure { regs := regs, go := .moved }

/-! ### BR-form words (R193, R194) -/

/-- BRA (R193). -/
def execBra (g : Guard) (i : BitVec 22) (s : State) : Host.Outcome State Fault Refusal :=
  issueWord
    { cls := .c, guard := g, uniform := true
      run := fun c => do
        checkLanded c (c.target i)
        pure { go := .jump (c.target i) } } s

/-- CALL (R193): the link goes to v15 in every lane of L, or the handler lane (R234). -/
def execCall (g : Guard) (i : BitVec 22) (s : State) : Host.Outcome State Fault Refusal :=
  issueWord
    { cls := .c, guard := g, uniform := true, dests := fun _ => [15]
      run := fun c => do
        checkLanded c (c.target i)
        pure { regs := [out32 15 c.live (fun _ => c.after) .n32], go := .jump (c.target i) } } s

/-- JMPF (R193): an absolute overlay address. -/
def execJmpf (g : Guard) (i : BitVec 15) (s : State) : Host.Outcome State Fault Refusal :=
  issueWord
    { cls := .c, guard := g, uniform := true
      run := fun c => do
        let t : Word := BitVec.ofNat 32 (4 * i.toNat)
        checkLanded c t
        pure { go := .jump t } } s

/-- The two sets of a BRD, the one that holds the lowest lane of L ∧ em last (R188). -/
def brdKids (c : Cx) (t n : Word) (target : Word) : List (Word × Word) :=
  if n = 0 then [(target, t)]
  else
    let inT := match lowest c.en with | some i => hasBit t i | none => false
    if inT then [(c.after, n), (target, t)] else [(target, t), (c.after, n)]

/-- BRD (R194). -/
def execBrd (g : Guard) (i : BitVec 22) (s : State) : Host.Outcome State Fault Refusal :=
  issueWord
    { cls := .c, guard := g, perLane := true, hrcv := true
      run := fun c => do
        let t := c.en &&& c.grd
        if t = 0 then pure {}
        else
          checkLanded c (c.target i)
          moveLanes c (brdKids c t (c.live &&& ~~~t) (c.target i)) c.rejoin [] } s

/-! ### Jumps through registers (R194, R195) -/

/-- A lane's target checked (R195). -/
def checkJump (c : Cx) (land : Bool) (t : Word) : M Unit := do
  let s ← get
  let core := keyCore c.key
  if t.toNat % 4 ≠ 0 then failCode cAlign t.toNat
  else if !landed s core c.g.world t then failCode cSegAbsent t.toNat
  else if land && !isLandAt s core t then failCode cJmpTarget t.toNat
  else pure ()

/-- The target sets of the lanes that move, then the lanes that fall through, in the order of creation (R188, R195). -/
def jumpKids (c : Cx) (t : Word) (val : Nat → Word) : List (Word × Word) :=
  let sets := ((lanesOf t).map val).eraseDups.map (fun x => (x, maskOf (fun i => hasBit t i && val i == x)))
  let rest := c.live &&& ~~~t
  (if rest = 0 then [] else [(c.after, rest)]) ++ sets.reverse

/-- The lanes of `t` moved to the targets that A holds (R195). -/
def jumpRun (c : Cx) (t : Word) (a : Code) (land : Bool) (rc : Option Word) (regs : List RegOut) : M Out := do
  if t = 0 then pure {}
  else
    let _ ← tryLanes ((lanesOf t).map (fun i => (i, c.val a i))) (checkJump c land)
    moveLanes c (jumpKids c t (c.val a)) rc regs

/-- JMPI (R194, R195). -/
def execJmpi (g : Guard) (a : Code) (s : State) : Host.Outcome State Fault Refusal :=
  issueWord
    { cls := .c, guard := g, perLane := true, codes := [a], hrcv := true, reads := fun _ => [a]
      accept := fun c => c.intTag a
      run := fun c => jumpRun c (c.en &&& c.grd) a true c.rejoin [] } s

/-- CALLI (R194, R195). -/
def execCalli (g : Guard) (d a : Code) (s : State) : Host.Outcome State Fault Refusal :=
  issueWord
    { cls := .c, guard := g, perLane := true, codes := [d, a], reads := fun _ => [a]
      accept := fun c => c.intTag a, dests := fun _ => [d]
      run := fun c =>
        let t := c.en &&& c.grd
        jumpRun c t a true none [out32 d t (fun _ => c.after) .n32] } s

/-- RET (R194, R195): all of L. -/
def execRet (g : Guard) (a : Code) (s : State) : Host.Outcome State Fault Refusal :=
  issueWord
    { cls := .c, guard := g, codes := [a], reads := fun _ => [a], accept := fun c => c.intTag a
      run := fun c => jumpRun c c.live a false none [] } s

/-! ### EXIT (R346) -/

/-- The lanes of a group that have not exited. -/
def Group.lanesLeft (g : Group) : Word :=
  (g.slot0.toList ++ g.slot1.toList).foldl (fun (m : Word) p => m ||| p.live) 0 |||
  g.spill.foldl (fun (m : Word) x => m ||| x.entry.mask) 0

/-- Whether a group owns accumulator banks (R138 of 09). -/
def ownsBanks (s : State) (k : Key) : Bool := s.quads.any (fun q => q.accs.any (fun a => a.owner == k))

/-- EXIT (R346): ACC_LEAK where the group's last live lane would retire while it owns banks. -/
def execExit (g : Guard) (s : State) : Host.Outcome State Fault Refusal :=
  issueWord
    { cls := .v, guard := g, handler := false, inExit := false, inEntry := false, drains := true
      run := fun c => do
        let s ← get
        if c.g.lanesLeft &&& ~~~c.lanes = 0 ∧ ownsBanks s c.key then failCode cAccLeak
        else
          let g ← exitLanes c.g c.sl c.p c.lanes s.tick
          putBack g
          pure { go := .moved } } s

/-! ### Path words (R190, R196) -/

/-- A path word. -/
def pathWd (g : Guard) (codes : List Code) (reads dests : List Code) (run : Cx → M Out) : Wd :=
  { cls := .c, guard := g, codes := codes, legal := fun _ => codes.all (fun r => !isVec r), reads := fun _ => reads
    accept := fun c => reads.all c.intTag, dests := fun _ => dests
    handler := false, inExit := false, inEntry := false, run := run }

/-- PPRI (R190, R196). -/
def execPpri (g : Guard) (n : BitVec 4) (s : State) : Host.Outcome State Fault Refusal :=
  issueWord (pathWd g [] [] [] (fun c => do
    changePath c (fun (p : Path) => { p with pri := n })
    pure {})) s

/-- Whether the path in a slot may be picked by its port: it stands at a word, no stall count, stall or wait holds it, the other
slot is not inside an issue unit, no fault of the spill area holds the group, and no handler or routine has made it ineligible
(R22, R27, R52, R186, R190, R215, R231, R248). -/
def slotReady (now tick : Nat) (g : Group) (sl : Bool) : Bool :=
  match g.slot sl with
  | none => false
  | some p =>
    (match p.parked with | none => true | some t => decide (t < now)) &&
    decide (p.holdTo < tick) && p.yielded.isEmpty && (match g.spillHeld with | some x => x == sl | none => true) &&
    (match g.slot (!sl) with | some q => q.unitPc.isNone | none => true) &&
    (match g.single with | some x => x.slot1 == sl | none => true) &&
    (g.routine == .normal || !sl) &&
    (match g.stage with | .running => true | _ => g.inExit)

/-- The other eligible slots of a port whose priority is not below one (R190). -/
def portRivals (s : State) (k : Key) (sl : Bool) (pri : BitVec 4) : List (Nat × Bool) :=
  s.groups.flatMap (fun (g : Group) =>
    if g.key.die == k.die && g.key.core == k.core && g.key.slot % 4 == k.slot % 4 then
      [false, true].filterMap (fun x =>
        if (g.key == k && x == sl) || !slotReady s.now s.tick g x then none
        else match g.slot x with
          | some p => if pri.toNat ≤ p.pri.toNat then some (g.key.slot, x) else none
          | none => none)
    else [])

/-- The least stamp of a group's entries. -/
def leastStamp (g : Group) : Int :=
  ((g.slot0.toList ++ g.slot1.toList).map (fun p => p.stamp) ++ g.spill.map (fun x => x.stamp)).foldl min 0

/-- YIELD (R190). -/
def execYield (g : Guard) (s : State) : Host.Outcome State Fault Refusal :=
  issueWord (pathWd g [] [] [] (fun c => do
    let s ← get
    changePath c (fun (p : Path) => { p with
      stamp := leastStamp c.g - 1, yielded := portRivals s c.key c.sl p.pri })
    pure {})) s

/-- YIELD_EXPIRY (R190): 64 cycles after the YIELD the slot is eligible again. -/
def execYieldExpiry (k : Key) (slot1 : Bool) (s : State) : Host.Outcome State Fault Refusal :=
  match s.group k with
  | none => .next s
  | some g =>
    .next (s.setGroup (g.setSlot slot1 ((g.slot slot1).map (fun p =>
      if p.issued + 64 ≤ s.tick then { p with yielded := [] } else p))))

/-- SETEM (R196): the bits of L only. -/
def execSetem (g : Guard) (a : Code) (s : State) : Host.Outcome State Fault Refusal :=
  issueWord (pathWd g [a] [a] [] (fun c => do
    modify (fun (s : State) => match s.group c.key with
      | some gr => s.setGroup { gr with em := (gr.em &&& ~~~c.live) ||| (c.val a 0 &&& c.live) }
      | none => s)
    pure {})) s

/-- GETEM (R196). -/
def execGetem (g : Guard) (d : Code) (s : State) : Host.Outcome State Fault Refusal :=
  issueWord (pathWd g [d] [] [d] (fun c =>
    pure { regs := [out32 d c.live (fun _ => c.g.em &&& c.live) .n32] })) s

/-! ### Code segments (R191, R197) -/

/-- A code word; its slot operand is allotted to the group's world, or CODE_SLOT. -/
def codeWd (g : Guard) (slot : Code) (legal : Cx → Bool) (reads : List Code) (accept : Cx → Bool)
    (run : Cx → Nat → OverlaySlot → M Unit) : Wd :=
  { cls := .u, guard := g, codes := slot :: reads, legal := fun c => !isVec slot && legal c, reads := fun _ => slot :: reads
    accept := fun c => c.intTag slot && accept c
    handler := false, inExit := false, inEntry := false, touches := true
    run := fun c => do
      let s ← get
      let n := (c.val slot 0).toNat
      match lookupN (s.core (keyCore c.key)).overlay n with
      | none => failCode cCodeSlot
      | some o =>
        if n ≤ 31 ∧ o.world = some c.g.world then
          run c n o
          pure {}
        else failCode cCodeSlot }

/-- A slot of a core's overlay replaced. -/
def setOverlay (s : State) (c : CoreId) (n : Nat) (o : OverlaySlot) : State :=
  let k := s.core c
  s.setCore { k with overlay := putN k.overlay n o }

/-- CFETCH (R197): checks, translation with execute permission, and the slot FETCHING. -/
def execCfetch (g : Guard) (d a : Code) (s : State) : Host.Outcome State Fault Refusal :=
  issueWord (codeWd g d (fun c => !isVec a && pairOk c.g.quota a) [a, up a 1] (fun c => c.addrTag a) (fun c n o => do
    let va := c.val64 a 0
    if va % 4096 ≠ 0 then failCode cAlign va
    else if o.state ≠ .absent then failCode cCodeBusy
    else
      let s ← get
      let p ← translate (groupAsker s c.g (c.p.unitPc.getD c.p.pc)) va wantExec
      modify (fun (s : State) => setOverlay s (keyCore c.key) n
        { o with state := .fetching, src := BitVec.ofNat 64 va, by_ := some (c.g.issuer s), frame := some p, initial := false }))) s

/-- CWAIT (R197). -/
def execCwait (g : Guard) (a : Code) (s : State) : Host.Outcome State Fault Refusal :=
  issueWord (codeWd g a (fun _ => true) [] (fun _ => true) (fun _ _ o =>
    if o.state = .fetching then waitStep else pure ())) s

/-- CDROP (R197). -/
def execCdrop (g : Guard) (a : Code) (s : State) : Host.Outcome State Fault Refusal :=
  issueWord (codeWd g a (fun _ => true) [] (fun _ => true) (fun c n o =>
    if o.state = .fetching then waitStep
    else modify (fun (s : State) => setOverlay s (keyCore c.key) n { o with state := .absent, bytes := [] }))) s

/-- The physical frame that a slot reads: the one CFETCH translated, or, for a slot landed again, the one that its recorded
address has now (R254). A fault of an initial segment is fatal whatever DEMAND says (R356). -/
def slotFrame (o : OverlaySlot) : M Place := do
  match o.frame with
  | some f => pure f
  | none =>
    match o.by_ with
    | some i => do
      translate (if o.initial then { i.asker with queue := none } else i.asker) o.src.toNat wantExec
    | none => waitStep

/-- The bytes of a segment, read as the copy engine reads (R88, R197), zeros left out. -/
def segmentBytes (d : Nat) (frame : Place) : M (List Host.Cell) := do
  let ws ← (List.range 512).mapM (fun i => do
    let p : Place := { frame with pa := frame.pa + 8 * i }
    let x ← atPlace p (engineRead d p.home 8)
    pure ((bytesLE x 8).zipIdx.map (fun y => (8 * i + y.2, y.1))))
  pure (ws.flatten.filter (fun x => x.2 != 0))

/-- SEGMENT_LANDED (R197): every byte has arrived; a data error returns the slot to ABSENT and is fatal. -/
def execSegmentLanded (c : CoreId) (slot : Nat) (s : State) : Host.Outcome State Fault Refusal :=
  match lookupN (s.core c).overlay slot with
  | none => .next s
  | some o =>
    if o.state ≠ .fetching then .next s
    else
      match (do let f ← slotFrame o; segmentBytes c.die f) s with
      | .ok bs s' => .next (setOverlay s' c slot { o with state := .landed, bytes := bs, again := false })
      | .error (.fault f) _ =>
        let s := noteError (setOverlay s c slot { o with state := .absent, bytes := [], again := false }) f
        .next (match o.by_ with
          | some i => i.fatal s f.code f.addr
          | none => fatalOn s (o.world.getD 0) none 0 f.code f.addr 0 0 0)
      | .error _ s' => .next s'

end Sys2Proof.Machine
end

