-- ==== Sys2Proof/Machine/Tiles.lean ====
section
/-! DEFINITION. The tile table and the copy engine (chapter 04): handles (R79, R80), descriptors (R81-R84), states (R85,
R86), transfers (R88-R90), the TILE words (R92, R320-R325). -/

namespace Sys2Proof.Machine

/-! ### Descriptors (R81, R82) -/

def dBase (d : Nat) : Nat := bitsOf d 0 64
def dRStride (d : Nat) : Int := intOf true 32 (bitsOf d 64 32)
def dCStride (d : Nat) : Int := intOf true 32 (bitsOf d 96 32)
def dRows (d : Nat) : Nat := bitsOf d 128 8
def dCols (d : Nat) : Nat := bitsOf d 136 8
def dVRows (d : Nat) : Nat := bitsOf d 144 8
def dVCols (d : Nat) : Nat := bitsOf d 152 8
def dTag (d : Nat) : Nat := bitsOf d 160 8
def dSlotKind (d : Nat) : Bool := bitsOf d 173 1 == 1
def dCMode (d : Nat) : Nat := bitsOf d 174 2
def dCOff (d : Nat) : Int := intOf true 16 (bitsOf d 176 16)
def dPad (d : Nat) : Nat := bitsOf d 192 32
def dLoc (d : Nat) : Nat := bitsOf d 224 32
/-- The operand slot of a descriptor with LKIND = 1. -/
def dSlot (d : Nat) : Nat := bitsOf d 224 6

/-- The element size of a tag code; the others are no tile's tag (R82). -/
def elemBytes (t : Nat) : Option Nat :=
  match t with
  | 0x0C | 0x0D | 0x0E => some 1
  | 0x0A | 0x0B | 0x0F => some 2
  | 0x01 | 0x02 | 0x03 | 0x08 => some 4
  | 0x04 | 0x05 | 0x06 | 0x09 => some 8
  | _ => none

/-- The element size that a transfer uses; of a BFP tile, which only QSPLIT makes (R341), the spec gives none, and it is a
free value (log entry 14). -/
def moveBytes (t : Nat) : Nat := (elemBytes t).getD (2 ^ (Config.bfpElem t).val)

/-- Whether a slot is claimed by a workgroup that has not ended (R82, R343). -/
def claimed (q : Quad) (i launch wg : Nat) : Bool :=
  match lookupN q.slots i with
  | some o => o.launch == launch && o.wg == wg && !o.ended
  | none => false

/-- The location of a descriptor with LKIND = 0 lies within the workgroup's own allocation (R82). DESIGN CHOICE (log entry
85): the location is given in the workgroup's own range of the window; its slot of the neighbourhood window, which R75 makes
an alias, is refused. -/
def locOk (s : State) (launch wg d e : Nat) : Bool :=
  match s.wg launch wg with
  | some w => decide (dLoc d % 32 = 0 ∧ dLoc d + dRows d * dCols d * e ≤ w.bytes)
  | none => false

/-- The location of a descriptor with LKIND = 1 (R82). -/
def slotOk (q : Quad) (launch wg d e : Nat) : Bool :=
  decide (bitsOf d 230 26 = 0 ∧ dRows d ≤ 64 ∧ dCols d ≤ 64) && claimed q (dSlot d) launch wg &&
  (e != 8 || (dSlot d % 2 == 0 && claimed q (dSlot d + 1) launch wg))

/-- Whether a descriptor is valid for a workgroup (R82). -/
def descOk (s : State) (q : Quad) (launch wg d : Nat) : Bool :=
  match elemBytes (dTag d) with
  | none => false
  | some e =>
    bitsOf d 168 5 == 0 && (decide (4 ≤ e) || decide (dPad d < 2 ^ (8 * e))) && dCMode d != 3 &&
    decide (1 ≤ dRows d ∧ dRows d ≤ 128 ∧ 1 ≤ dCols d ∧ dCols d ≤ 128 ∧ dVRows d ≤ dRows d ∧ dVCols d ≤ dCols d) &&
    dBase d % e == 0 && bitsOf d 64 32 % e == 0 && bitsOf d 96 32 % e == 0 &&
    (if dSlotKind d then slotOk q launch wg d e else locOk s launch wg d e)

/-- Whether element (r, c) is padded (R84). -/
def padded (d r c : Nat) : Bool :=
  decide (dVRows d ≤ r) || decide (dVCols d ≤ c) ||
  (dCMode d == 1 && decide ((r : Int) + dCOff d < c)) || (dCMode d == 2 && decide ((c : Int) < r + dCOff d))

/-- The padding value of an element (R81). -/
def padValue (d e : Nat) : Nat := if e = 8 then dPad d * 2 ^ 32 else dPad d

/-- The virtual address of an element from its row's address (R83, R322). -/
def elemAddr (row : Nat) (d c e : Nat) : Nat := wrap 64 ((row : Int) + c * dCStride d) / e * e

/-! ### Locations (R83) -/

/-- Byte `o` of a slot pair as a slot and an offset. -/
def slotPlace (d o : Nat) : Nat × Nat := (dSlot d + o / 16384, o % 16384)

/-- The element at a location. -/
def locRead (s : State) (q : Quad) (t : Tile) (r c e : Nat) : Nat :=
  let d := t.desc.toNat
  if dSlotKind d then
    let (i, o) := slotPlace d ((r * 64 + c) * e)
    match lookupN q.slots i with
    | some x => readLE x.bytes o e
    | none => 0
  else
    match s.wg t.launch t.wg with
    | some w => readLE w.scr (dLoc d + (r * dCols d + c) * e) e
    | none => 0

/-- An element written at a location; a fill that an entry routine issued (`by_`) counts as rebuilt (R255). -/
def locWrite (s : State) (q : QuadId) (t : Tile) (r c e v : Nat) (by_ : Option Key) : State :=
  let d := t.desc.toNat
  if dSlotKind d then
    let (i, o) := slotPlace d ((r * 64 + c) * e)
    let qu := s.quad q
    match lookupN qu.slots i with
    | some x => s.setQuad { qu with slots := putN qu.slots i { x with bytes := writeLE x.bytes o v e } }
    | none => s
  else
    let o := dLoc d + (r * dCols d + c) * e
    let s := writeScr s t.launch t.wg o v e
    match by_ with
    | some k => noteRebuilt s k t.launch t.wg o e
    | none => s

/-! ### Handles (R79, R80) -/

/-- The handle of an entry. -/
def tileHandle (i : Nat) (gen : Byte) : Word := BitVec.ofNat 32 (gen.toNat * 256 + i)

/-- The entry that a handle names for a group, if the handle is valid (R80). -/
def tileOf (q : Quad) (world launch : Nat) (h : Word) : Option (Nat × Tile) :=
  let n := h.toNat
  if bitsOf n 16 16 ≠ 0 ∨ bitsOf n 7 1 ≠ 0 then none
  else
    let i := bitsOf n 0 7
    match lookupN q.tiles i with
    | some { gen := gen, tile := some t } =>
      if gen.toNat = bitsOf n 8 8 ∧ t.world = world ∧ t.launch = launch then some (i, t) else none
    | _ => none

/-- An entry rewritten. -/
def putTile (s : State) (q : QuadId) (i : Nat) (t : Tile) : State :=
  let qu := s.quad q
  match lookupN qu.tiles i with
  | some x => s.setQuad { qu with tiles := putN qu.tiles i { x with tile := some t } }
  | none => s

/-- The entry of a word's handle, or TILE_HANDLE. -/
def needTile (c : Cx) (h : Word) : M (Nat × Tile) := do
  let s ← get
  match tileOf (s.quad (keyQuad c.key)) c.g.world c.g.launch h with
  | some x => pure x
  | none => failCode cTileHandle

/-! ### Transfers (R85, R88-R90) -/

/-- The address of row `r` of an operation (R83, R322). -/
def CopyOp.row (op : CopyOp) (d r : Nat) : Nat :=
  match op.rows with
  | [] => wrap 64 ((op.base.toNat : Int) + r * dRStride d)
  | l => ((l[r]?).getD 0).toNat

/-- Every element of a tile, row by row. -/
def elements (d : Nat) : List (Nat × Nat) :=
  (List.range (dRows d)).flatMap (fun r => (List.range (dCols d)).map (fun c => (r, c)))

/-- The physical address of every element that is not padded: translated before any is moved. -/
def opPlaces (op : CopyOp) (d e : Nat) (want : Want) : M (List ((Nat × Nat) × Place)) := do
  ((elements d).filter (fun x => !padded d x.1 x.2)).mapM (fun x => do
    let p ← translate op.by_.asker (elemAddr (op.row d x.1) d x.2 e) want
    pure (x, p))

/-- Whether every address of an operation translates, so that what it waits for is no translation (R90, R91). -/
def CopyOp.reached (op : CopyOp) (tag d : Nat) (s : State) : Bool :=
  match opPlaces op d (moveBytes tag) (if op.kind == .load || op.kind == .gather then wantRead else wantWrite) s with
  | .ok _ _ => true
  | .error _ _ => false

/-- Whether an operation fills. -/
def CopyKind.fills : CopyKind → Bool
  | .load | .gather => true
  | _ => false

/-- The whole of a fill: what memory holds, and PAD in padded elements (R84, R321). -/
def fillRun (q : QuadId) (op : CopyOp) (t : Tile) : M Unit := do
  let d := t.desc.toNat
  let e := moveBytes (dTag d)
  let ps ← opPlaces op d e wantRead
  let xs ← ps.mapM (fun (x : (Nat × Nat) × Place) => do
    let v ← atPlace x.2 (engineRead q.die x.2.home e)
    pure (x.1, v))
  modify (fun (s : State) =>
    let who := if op.rebuilds then some op.by_.key else none
    let s := xs.foldl (fun (s : State) (x : (Nat × Nat) × Nat) => locWrite s q t x.1.1 x.1.2 e x.2 who) s
    ((elements d).filter (fun x => padded d x.1 x.2)).foldl
      (fun (s : State) (x : Nat × Nat) => locWrite s q t x.1 x.2 e (padValue d e) who) s)

/-- The whole of a drain: every point is reached before the first element merges (R88). DESIGN CHOICE (log entry 86): the
elements merge row by row, so that of elements that share an address the last one stands; the spec gives no order. -/
def drainRun (q : QuadId) (op : CopyOp) (t : Tile) : M Unit := do
  let d := t.desc.toNat
  let e := moveBytes (dTag d)
  let ps ← opPlaces op d e wantWrite
  (ps.map (fun x => x.2.home / 32)).eraseDups.forM mayMerge
  ps.forM (fun (x : (Nat × Nat) × Place) => do
    let s ← get
    let _ ← atPlace x.2 (writeBelow (some (keyCore op.by_.key)) (cellsOf x.2.home (locRead s (s.quad q) t x.1.1 x.1.2 e) e))
    pure ())

/-- An operation taken off the engine's queue. -/
def dropOp (s : State) (q : QuadId) (id : Nat) : State :=
  let qu := s.quad q
  s.setQuad { qu with ops := qu.ops.filter (fun o => o.id != id) }

/-- A tile in a state, freed if its workgroup has ended and nothing more is in flight on it (R80, R85). -/
def restTile (s : State) (q : QuadId) (i : Nat) (t : Tile) : State :=
  let s := putTile s q i t
  if wgAlive s t.launch t.wg || t.inFlight then s
  else
    let s := s.setQuad (freeTile (s.quad q) i)
    closeWorkgroup (s.setQuad (releaseEnded s (s.quad q))) t.launch t.wg

/-- A transfer that ended in a fatal fault (R85, R90). -/
def failTransfer (s : State) (q : QuadId) (op : CopyOp) (f : FaultInfo) : State :=
  let s := noteError (dropOp s q op.id) f
  let s := match lookupN (s.quad q).tiles op.tile with
    | some { tile := some t, .. } =>
      restTile s q op.tile
        { t with state := if op.kind.fills then .empty else .ready, err := BitVec.ofNat 8 f.code }
    | _ => s
  op.by_.fatal s f.code f.addr

/-- A transfer tried: done, stalled (R90), or ended by a fatal fault. -/
def runTransfer (s : State) (q : QuadId) (fills : Bool) (id : Nat) : State :=
  let qu := s.quad q
  match qu.ops.find? (fun o => o.id == id) with
  | none => s
  | some op =>
    if op.kind.fills != fills then s
    else
      match lookupN qu.tiles op.tile with
      | some { tile := some t, .. } =>
        match (if fills then fillRun q op t else drainRun q op t) s with
        | .ok _ s' =>
          -- the descriptor is the entry's own as it stands
          restTile (dropOp s' q id) q op.tile { t with state := .ready }
        | .error (.fault f) _ => failTransfer s q op f
        | .error _ s' =>
          let qu := s'.quad q
          let absent := !op.reached (dTag t.desc.toNat) t.desc.toNat s
          s'.setQuad { qu with ops := qu.ops.map (fun o =>
            if o.id == id then { o with stalled := true, absent := absent } else o) }
      | _ => dropOp s q id

/-- TILE_FILL_COMPLETE (R85). -/
def execTileFillComplete (q : QuadId) (op : Nat) (s : State) : Host.Outcome State Fault Refusal :=
  .next (runTransfer s q true op)
/-- TILE_DRAIN_COMPLETE (R85, R89). -/
def execTileDrainComplete (q : QuadId) (op : Nat) (s : State) : Host.Outcome State Fault Refusal :=
  .next (runTransfer s q false op)

/-- TRANSFER_FATAL_FAULT (R90): the transfer's own fault, or one that an ABORT answer gives a stalled transfer (R55). -/
def execTransferFatalFault (q : QuadId) (op : Nat) (code : Byte) (s : State) : Host.Outcome State Fault Refusal :=
  let qu := s.quad q
  match qu.ops.find? (fun o => o.id == op) with
  | none => .next s
  | some o =>
    match lookupN qu.tiles o.tile with
    | some { tile := some t, .. } =>
      match (if o.kind.fills then fillRun q o t else drainRun q o t) s with
      | .error (.fault f) _ => .next (failTransfer s q o f)
      | _ =>
        if 1 ≤ code.toNat ∧ code.toNat ≤ 7 then
          .next (failTransfer s q o { code := code.toNat, addr := 0, lane := none, mask := 0 })
        else .next s
    | _ => .next (dropOp s q op)

/-! ### The TILE words (R92) -/

/-- A tile word: uniform operands, refused in handlers and exit routines (R234, R249, R255). -/
def tileWd (g : Guard) (codes reads : List Code) (dests : List Code) (legal inEntry : Bool) (accept : Cx → Bool)
    (run : Cx → M Out) : Wd :=
  { cls := .u, guard := g, codes := codes, legal := fun _ => legal && codes.all (fun r => !isVec r)
    reads := fun _ => reads, accept := accept, dests := fun _ => dests
    handler := false, inExit := false, inEntry := inEntry, touches := true, run := run }

/-- TDESC (R320). -/
def tdesc (g : Guard) (d a : Code) (i : BitVec 4) : Wd :=
  tileWd g [d, a] [a] [d] (i == 0) false (fun c => c.intTag a) (fun c => do
    let addr := (c.val a 0).toNat
    let desc ← readWindow c.g addr 32
    if addr % 32 ≠ 0 then failCode cAlign addr
    else
      let s ← get
      let id := keyQuad c.key
      let q := s.quad id
      if !descOk s q c.g.launch c.g.wg desc then failCode cTileDesc addr
      else
        match (List.range 128).find? (fun i => match lookupN q.tiles i with
          | some { tile := some _, .. } => false
          | _ => true) with
        | none => pure { regs := [out32 d 1 (fun _ => 0xFFFFFFFF) .n32] }
        | some i =>
          let gen := match lookupN q.tiles i with | some x => x.gen | none => 0
          let t : Tile :=
            { state := .empty, desc := BitVec.ofNat 256 desc, err := 0, readers := 0, world := c.g.world
              launch := c.g.launch, wg := c.g.wg, mapN := 0 }
          set (s.setQuad { q with tiles := putN q.tiles i { gen := gen, tile := some t } })
          pure { regs := [out32 d 1 (fun _ => tileHandle i gen) .n32] })

/-- What a transfer waits for before it issues, and TILE_EMPTY of a drain (R86, R88). -/
def tileReady (c : Cx) (t : Tile) (fills : Bool) : M Unit := do
  let s ← get
  match t.state with
  | .empty => if fills then pure () else failCode cTileEmpty
  | .filling | .draining => waitStep
  | .ready => if fills ∧ 0 < t.readers then waitStep else pure ()
  if 32 ≤ (s.quad (keyQuad c.key)).ops.length then waitStep else pure ()

/-- A transfer queued, its tile FILLING or DRAINING (R85). -/
def queueOp (c : Cx) (kind : CopyKind) (i : Nat) (t : Tile) (base : DWord) (rows : List DWord) : M Out := do
  let s ← get
  let id := keyQuad c.key
  let op : CopyOp :=
    { id := s.nextId, kind := kind, tile := i, base := base, rows := rows, by_ := c.g.issuer s
      rebuilds := kind.fills && c.g.inEntry, stalled := false, absent := false }
  let s := putTile { s with nextId := s.nextId + 1 } id i
    { t with state := if kind.fills then .filling else .draining, err := 0 }
  let q := s.quad id
  set (s.setQuad { q with ops := q.ops ++ [op] })
  pure {}

/-- TLOAD and TSTORE (R321). -/
def tmove (g : Guard) (d a : Code) (i : BitVec 4) (kind : CopyKind) : Wd :=
  let ovr := i == 1
  tileWd g [d, a] (if ovr then [a, d, up d 1] else [a]) []
    (decide (i.toNat ≤ 1) && (if ovr then decide (d.toNat % 2 = 0) else true)) kind.fills
    (fun c => c.intTag a && (!ovr || c.addrTag d))
    (fun c => do
      let (n, t) ← needTile c (c.val a 0)
      let e := moveBytes (dTag t.desc.toNat)
      let base := if ovr then c.val64 d 0 else dBase t.desc.toNat
      if ovr ∧ base % e ≠ 0 then failCode cAlign base
      else
        tileReady c t kind.fills
        queueOp c kind n t (BitVec.ofNat 64 base) [])

/-- TLOAD and TSTORE without an override have D unused: any code but zero is ILLEGAL, and zero is no uniform code. -/
def tmoveWd (g : Guard) (d a : Code) (i : BitVec 4) (kind : CopyKind) : Wd :=
  if i.getLsbD 0 then tmove g d a i kind
  else { tmove g a a i kind with legal := fun _ => d == 0 && i == 0 && !isVec a }

/-- TGATHER and TSCATTER (R322): the row table is read at issue. -/
def tgather (g : Guard) (d a : Code) (i : BitVec 4) (kind : CopyKind) : Wd :=
  tileWd g [d, a] [a, d] [] (i == 0) kind.fills (fun c => c.intTag a && c.intTag d) (fun c => do
    let (n, t) ← needTile c (c.val a 0)
    let addr := (c.val d 0).toNat
    let rows := dRows t.desc.toNat
    let _ ← windowAt c.g addr (8 * rows)
    if addr % 8 ≠ 0 then failCode cAlign addr
    else
      tileReady c t kind.fills
      let tab ← (List.range rows).mapM (fun r => readWindow c.g (addr + 8 * r) 8)
      queueOp c kind n t 0 (tab.map (BitVec.ofNat 64)))

/-- TWAIT (R86, R323). -/
def twait (g : Guard) (d a : Code) (i : BitVec 4) : Wd :=
  tileWd g [a] [a] [] (d == 0 && i == 0) true (fun c => c.intTag a) (fun c => do
    let (_, t) ← needTile c (c.val a 0)
    match t.state with
    | .filling | .draining => waitStep
    | .empty => if t.err = 0 then failCode cTileEmpty else failCode t.err.toNat
    | .ready => if t.err = 0 then pure {} else failCode t.err.toNat)

/-- The code of a state (R324). -/
def tileStateCode : TileState → Nat
  | .empty => 1 | .filling => 2 | .ready => 3 | .draining => 4

/-- TSTAT (R324): never stalls, never faults on the handle. -/
def tstat (g : Guard) (d a : Code) (i : BitVec 4) : Wd :=
  tileWd g [d, a] [a] [d] (i == 0) true (fun c => c.intTag a) (fun c => do
    let s ← get
    let v := match tileOf (s.quad (keyQuad c.key)) c.g.world c.g.launch (c.val a 0) with
      | none => 0
      | some (_, t) =>
        t.err.toNat * 2 ^ 24 + t.readers % 256 * 2 ^ 16 + bitsOf (c.val a 0).toNat 8 8 * 2 ^ 8 + tileStateCode t.state
    pure { regs := [out32 d 1 (fun _ => BitVec.ofNat 32 v) .n32] })

/-- TFREE (R86, R325). -/
def tfree (g : Guard) (d a : Code) (i : BitVec 4) : Wd :=
  tileWd g [a] [a] [] (d == 0 && i == 0) false (fun c => c.intTag a) (fun c => do
    let (n, t) ← needTile c (c.val a 0)
    match t.state with
    | .filling | .draining => waitStep
    | .ready => if 0 < t.readers then waitStep else pure ()
    | .empty => pure ()
    modify (fun (s : State) => s.setQuad (freeTile (s.quad (keyQuad c.key)) n))
    pure {})

/-- TILE (R92). -/
def execTile (g : Guard) (d a : Code) (m i : BitVec 4) (s : State) : Host.Outcome State Fault Refusal :=
  issueWord (match m.toNat with
    | 0 => tmoveWd g d a i .load
    | 1 => tmoveWd g d a i .store
    | 2 => tgather g d a i .gather
    | 3 => tgather g d a i .scatter
    | 4 => twait g d a i
    | 5 => tstat g d a i
    | 6 => tfree g d a i
    | _ => tdesc g d a i) s

end Sys2Proof.Machine
end

