-- ==== Sys2Proof/Machine/MatrixMath.lean ====
section
/-! DEFINITION. The arithmetic of the matrix engine (R125, R147-R149): exact group sums, the accumulator's rounding and
flush, block floating point products, row and column scales, and the tiles as the engine reads them (R83, R121, R146).
-/

namespace Sys2Proof.Machine

/-! ### Arrays of elements -/

/-- An `n` by `m` array of values. -/
abbrev Grid (α : Type) := Array (Array α)

/-- An array from a function of row and column. -/
def Grid.make {α : Type} (n m : Nat) (f : Nat → Nat → α) : Grid α :=
  ((List.range n).map (fun i => ((List.range m).map (f i)).toArray)).toArray
/-- An element, with a value for places outside. -/
def Grid.at {α : Type} (g : Grid α) (d : α) (i j : Nat) : α := (((g[i]?).getD #[])[j]?).getD d

/-- The bytes from `lo` to `lo + n - 1` of a byte map. -/
def image (m : List Host.Cell) (lo n : Nat) : Array Byte :=
  m.foldl (fun a c => if lo ≤ c.1 then a.setIfInBounds (c.1 - lo) c.2 else a) (Array.replicate n 0)
/-- `n` bytes of an image as a number. -/
def imageLE (a : Array Byte) (o : Nat) : Nat → Nat
  | 0 => 0
  | n + 1 => ((a[o]?).getD 0).toNat + 256 * imageLE a (o + 1) n

/-! ### Values -/

def fZero : FVal := .fin false 0 0
/-- The bits of f32 −∞. -/
def negInf : Nat := 0xFF800000

/-- The flags that the arithmetic of a pass sets (R125). -/
def passFlags (f : Word) : Word := f &&& (fNV ||| fOF ||| fNX ||| fAUF)

/-- The flush of an accumulator result (R125, R147): a subnormal becomes the zero of its sign, with AUF. -/
def flush (r : Nat × Word) : Nat × Word :=
  let mag := r.1 % 2 ^ 31
  if 0 < mag ∧ mag < 2 ^ 23 then (r.1 - mag, passFlags (r.2 ||| fAUF)) else (r.1, passFlags r.2)

/-- RNE and flush of a product or sum of f32 values. -/
def mulFlush (x y : Nat) : Nat × Word := flush (fmtF32.mul .rne x y)
def addFlush (x y : Nat) : Nat × Word := flush (fmtF32.add .rne x y)
def subFlush (x y : Nat) : Nat × Word := flush (fmtF32.add .rne x (fmtF32.negBits y))

/-- The exact sum of values (R147): infinities of both signs make the default NaN with NV, and so does a signalling
NaN. -/
def exactSum (xs : List FVal) : FVal × Word :=
  if xs.any (fun x => x == .inf true) && xs.any (fun x => x == .inf false) then (.nan false, fNV)
  else
    let fl := sigFlag xs
    match xs with
    | [] => (fZero, 0)
    | x :: r =>
      let v := r.foldl (fun a b => (addVal .rne a b).1) x
      (if v.isNan then .nan false else v, fl)

/-- `c ← flush(RNE(c + σ))` (R147). -/
def accumulate (c : Nat × Word) (s : FVal × Word) : Nat × Word :=
  let (v, fl) := addVal .rne (fmtF32.decode c.1) s.1
  let (b, fl') := fmtF32.ofVal .rne v
  let (b, f) := flush (b, fl ||| fl')
  (b, c.2 ||| passFlags s.2 ||| f)

/-- Group `g` of eight exact products (R147). -/
def groupOf (a b : Nat → FVal) (g : Nat) : FVal × Word :=
  let ps := (List.range 8).map (fun t => mulVal (a (8 * g + t)) (b (8 * g + t)))
  let (v, fl) := exactSum (ps.map (·.1))
  (v, ps.foldl (fun f p => f ||| p.2) fl)

/-- An output element of an FP pass from an initial accumulator value (R147). -/
def fpDot (a b : Nat → FVal) (c : Nat) : Nat × Word :=
  (List.range 8).foldl (fun r g => accumulate r (groupOf a b g)) (c, 0)

/-- The sum of a row in the fixed group order (R338). -/
def rowSum (p : Nat → FVal) (c : Nat) : Nat × Word :=
  (List.range 8).foldl (fun r g => accumulate r (exactSum ((List.range 8).map (fun t => p (8 * g + t))))) (c, 0)

/-! ### Tiles as the engine reads them -/

/-- A BFP operand: mantissa width, exponent of each block, mantissas by block and channel, the map's channels (R117,
R121, R123). -/
structure BfpTile where
  m    : Nat
  exps : Array Nat
  mant : Grid Int
  map  : List Nat

/-- The bytes that a tile's location covers, with the place of element (r, c) in them (R83). -/
def tileImage (s : State) (q : Quad) (t : Tile) (e : Nat) : Array Byte :=
  let d := t.desc.toNat
  if dSlotKind d then
    let one (i : Nat) : Array Byte := match lookupN q.slots i with
      | some x => image x.bytes 0 16384
      | none => Array.replicate 16384 0
    if e = 8 then one (dSlot d) ++ one (dSlot d + 1) else one (dSlot d)
  else
    match s.wg t.launch t.wg with
    | some w => image w.scr (dLoc d) (dRows d * dCols d * e)
    | none => #[]
/-- The offset of an element in that image. -/
def tileOffset (d r c e : Nat) : Nat := if dSlotKind d then (r * 64 + c) * e else (r * dCols d + c) * e

/-- Whether an element of a scratchpad tile has been overwritten by the posting group (R144). -/
def spotted (t : Tile) (spots : List (Nat × Nat × Nat)) (r c e : Nat) : Bool :=
  let d := t.desc.toNat
  let o := dLoc d + tileOffset d r c e
  !dSlotKind d && spots.any (fun x => x.1 == t.wg && decide (x.2.1 < o + e ∧ o < x.2.1 + x.2.2))

/-- The 64 by 64 elements of a tile as bits (R146): zero outside its shape, a free value where the posting group has
overwritten the bytes. -/
def tileBits (s : State) (q : Quad) (t : Tile) (spots : List (Nat × Nat × Nat)) : Grid Nat :=
  let d := t.desc.toNat
  let e := moveBytes (dTag d)
  let img := tileImage s q t e
  Grid.make 64 64 (fun r c =>
    if dRows d ≤ r ∨ dCols d ≤ c then 0
    else if spotted t spots r c e then (Config.engineOpen s.tick (r * 64 + c)).toNat % 2 ^ (8 * e)
    else imageLE img (tileOffset d r c e) e)

/-- The format of a floating-point tile tag. -/
def tileFmt (t : Nat) : Option Fmt :=
  match t with
  | 0x08 => some fmtF32 | 0x0A => some fmtBF16 | 0x0B => some fmtF16 | 0x0C => some fmtE4M3 | 0x0D => some fmtE5M2
  | _ => none
/-- The mantissa width of a BFP tile tag. -/
def tileBfp (t : Nat) : Option Nat := if 0x10 ≤ t ∧ t ≤ 0x16 then some (t - 0x0E) else none

/-- The values of a floating-point tile. -/
def tileVals (s : State) (q : Quad) (t : Tile) (spots : List (Nat × Nat × Nat)) : Grid FVal :=
  let f := (tileFmt (dTag t.desc.toNat)).getD fmtF32
  (tileBits s q t spots).map (fun row => row.map f.decode)

/-- A BFP tile read from its slot (R121). -/
def bfpTile (q : Quad) (t : Tile) (m : Nat) : BfpTile :=
  let img := match lookupN q.slots (dSlot t.desc.toNat) with
    | some x => image x.bytes 0 16384
    | none => #[]
  { m := m
    exps := ((List.range 64).map (fun b => imageLE img (0x1000 + b) 1)).toArray
    mant := Grid.make 64 64 (fun b k => bfpMant m (imageLE img (8 * m * b) (8 * m) / 2 ^ (m * k)))
    map := (List.range t.mapN).map (fun j => imageLE img (0x1040 + j) 1 % 64) }

/-- The contribution of a BFP pass to an output element (R147, R124): block `i` of A, block `j` of B. -/
def bfpDot (a b : BfpTile) (i j : Nat) : Nat × Word :=
  let ea := (a.exps[i]?).getD 0
  let eb := (b.exps[j]?).getD 0
  if ea = 0xFF ∨ eb = 0xFF then (fmtF32.nan, fNV)
  else if ea = 0 ∨ eb = 0 then (0, 0)
  else
    let ks := List.range 64 ++ (if a.map.isEmpty then b.map else a.map)
    let t := ks.foldl (fun (x : Int) k => x + a.mant.at 0 i k * b.mant.at 0 j k) 0
    let (r, fl) := fmtF32.round .rne (decide (t < 0)) t.natAbs (bfpUnit a.m ea + bfpUnit b.m eb) false
    (r, passFlags fl)

/-! ### Quantisation with outlier splitting (R122, R123, R341) -/

/-- The channels to split: at most 8 candidates, of greatest magnitude, equal ones in ascending order (R122). `xs k` is
the list of a channel's elements. -/
def splitChannels (xs : Nat → List FVal) (thr : FVal) : List Nat :=
  let mag := ((List.range 64).map (fun k => magMax (xs k))).toArray
  let at_ (k : Nat) : FVal := (mag[k]?).getD fZero
  let cand := (List.range 64).filter (fun k =>
    (xs k).any (fun x => !x.isNan && !x.isZero) && cmpVal (at_ k) thr == some 1)
  let beats (j k : Nat) : Bool := (magLe (at_ k) (at_ j) && !magLe (at_ j) (at_ k)) ||
    (magLe (at_ k) (at_ j) && magLe (at_ j) (at_ k) && decide (j < k))
  cand.filter (fun k => decide ((cand.filter (fun j => beats j k)).length < 8))

/-- Half of a value, exactly. -/
def halfVal : FVal → FVal
  | .fin n m e => .fin n m (e - 1)
  | x => x

/-- A field of a number replaced. -/
def setField (x lo n v : Nat) : Nat := x - bitsOf x lo n * 2 ^ lo + v % 2 ^ n * 2 ^ lo

end Sys2Proof.Machine
end

