-- ==== Sys2Proof/Machine/Matrix.lean ====
section
/-! DEFINITION. The matrix engine (chapter 09): handles (R137), the checks of a posted word (R143), the reservation
table and the arbiter (R139-R141), what each operation does when it retires (R145-R149, R336-R341), the words that
allocate, wait and read status (R342-R345), withdrawal and posting again (R150, R151). -/

namespace Sys2Proof.Machine

/-! ### Allocations (R136, R137) -/

def accHandle (a : Acc) (gen : Byte) : Word := BitVec.ofNat 32 (gen.toNat * 2 ^ 24 + a.base * 2 ^ 8 + (a.count - 1))
/-- The generation of a bank (R137). -/
def bankGen (q : Quad) (b : Nat) : Byte := (lookupN q.accGen b).getD 0
/-- The live allocation that a handle names for a group (R137). -/
def accOf (q : Quad) (world launch : Nat) (h : Word) : Option Acc :=
  let n := h.toNat
  if bitsOf n 16 8 ≠ 0 ∨ bitsOf n 7 1 ≠ 0 then none
  else
    match q.accs.find? (fun a => a.base == bitsOf n 8 8) with
    | some a =>
      if (bankGen q a.base).toNat = bitsOf n 24 8 ∧ a.count = bitsOf n 0 7 + 1 ∧ a.world = world ∧ a.launch = launch then
        some a
      else none
    | none => none
/-- An allocation with the data and side registers that it has when new (R136, R339). -/
def Acc.clear (a : Acc) : Acc :=
  { a with data := [], rmax := Vector.replicate 64 (BitVec.ofNat 32 negInf), rsum := Vector.replicate 64 0,
           dlt := Vector.replicate 64 0 }
/-- An element (R136). -/
def Acc.elem (a : Acc) (r c : Nat) : Nat := ((lookupN a.data (r * 64 + c)).getD 0).toNat
/-- All elements replaced, zeros left out. -/
def Acc.fill (a : Acc) (f : Nat → Nat → Nat) : Acc :=
  { a with data := (List.range 4096).filterMap (fun i =>
      let v := BitVec.ofNat 64 (f (i / 64) (i % 64))
      if v = 0 then none else some (i, v)) }
/-- An allocation put back. -/
def putAcc (s : State) (q : QuadId) (a : Acc) : State :=
  let qu := s.quad q
  s.setQuad { qu with accs := qu.accs.map (fun x => if x.base == a.base then a else x) }
/-- An allocation as an array. -/
def Acc.grid (a : Acc) : Array Nat :=
  a.data.foldl (fun g x => g.setIfInBounds x.1 x.2.toNat) (Array.replicate 4096 0)
def gridElem (g : Array Nat) (r c : Nat) : Nat := (g[r * 64 + c]?).getD 0

/-! ### What a word names (R142) -/

/-- The follower of a leader quad (R141). -/
def followerOf (q : QuadId) : QuadId := { die := q.die, quad := q.quad + 1 }

/-- Entry `i` of a record. -/
def recAt (r : List Word) (i : Nat) : Word := (r[i]?).getD 0

/-- The tile handles read, each with its quad, by minor (R142, R141). -/
def srcHandles (q : QuadId) (minor : Nat) (r : List Word) : List (QuadId × Word) :=
  match minor with
  | 0 | 2 | 3 => [(q, recAt r 0), (q, recAt r 1)]
  | 1 => [(q, recAt r 0), (q, recAt r 1), (followerOf q, recAt r 2)]
  | 8 | 11 => [(q, recAt r 0)]
  | _ => []
/-- The destination tile's handle. -/
def dstHandle (minor : Nat) (r : List Word) : Option Word :=
  match minor with
  | 7 | 11 => some (recAt r 1)
  | _ => none
/-- The accumulator handles, each with its quad. -/
def accHandles (q : QuadId) (minor : Nat) (r : List Word) : List (QuadId × Word) :=
  match minor with
  | 0 | 3 => [(q, recAt r 2)]
  | 1 => [(q, recAt r 3), (followerOf q, recAt r 4)]
  | 2 => [(q, recAt r 2), (q, recAt r 3)]
  | 7 | 13 => [(q, recAt r 0)]
  | 8 => [(q, recAt r 1)]
  | _ => []
/-- The base bank of a handle. -/
def handleBase (h : Word) : Nat := bitsOf h.toNat 8 8
/-- The allocations that an entry names. -/
def EngEntry.accs (e : EngEntry) (q : QuadId) : List (QuadId × Nat) :=
  (accHandles q e.minor.toNat e.record).map (fun x => (x.1, handleBase x.2))
/-- The tile entries that an entry reads. -/
def EngEntry.srcs (e : EngEntry) (q : QuadId) : List (QuadId × Nat) :=
  (srcHandles q e.minor.toNat e.record).map (fun x => (x.1, bitsOf x.2.toNat 0 7))
/-- The tile entry that an entry writes. -/
def EngEntry.dst (e : EngEntry) : Option Nat := (dstHandle e.minor.toNat e.record).map (fun h => bitsOf h.toNat 0 7)

/-! ### The checks of R143 -/

/-- Who posts: world, launch, workgroup, quad, q. -/
structure Poster where
  group  : Group
  quad   : QuadId
  q      : Nat

/-- A tile and its quad, or TILE_HANDLE. -/
def Poster.tile (p : Poster) (x : QuadId × Word) : M (Nat × Tile) := do
  let s ← get
  match tileOf (s.quad x.1) p.group.world p.group.launch x.2 with
  | some t => pure t
  | none => failCode cTileHandle
/-- An allocation, or ACC_HANDLE. -/
def Poster.acc (p : Poster) (x : QuadId × Word) : M Acc := do
  let s ← get
  match accOf (s.quad x.1) p.group.world p.group.launch x.2 with
  | some a => pure a
  | none => failCode cAccHandle

/-- A fault of a condition. -/
def require (ok : Bool) (code : Nat) (addr : Nat := 0) : M Unit := if ok then pure () else failCode code addr

/-- An FP pair of tags (R146). -/
def fpPair (a b : Nat) : Bool :=
  (a == 0x0A && b == 0x0A) || (a == 0x0B && b == 0x0B) || (a == 0x08 && b == 0x08) ||
  ((a == 0x0C || a == 0x0D) && (b == 0x0C || b == 0x0D))
/-- A pair of tags with the accumulator that it takes (R146): none where no pass takes the pair. -/
def pairAcc (a b : Nat) : Option Bool :=
  if fpPair a b || ((tileBfp a).isSome && (tileBfp b).isSome) then some false
  else if a == 0x06 && b == 0x06 then some true else none
/-- The tile tags that ACRD converts to. -/
def readsTo (t : Nat) : Bool := (tileFmt t).isSome
/-- The tile tags that ACWR takes into an f32 allocation (R340). -/
def writesFrom (t : Nat) : Bool := t == 0x08 || t == 0x0A || t == 0x0B
/-- The tile tags of an m64 allocation (R340). -/
def m64Tile (t : Nat) : Bool := t == 0x05 || t == 0x06

def Tile.tag (t : Tile) : Nat := dTag t.desc.toNat
def Tile.inSlot (t : Tile) : Bool := dSlotKind t.desc.toNat
/-- The operand slots that a tile covers. -/
def Tile.slots (t : Tile) : List Nat :=
  if t.inSlot then (if elemBytes t.tag = some 8 then [dSlot t.desc.toNat, dSlot t.desc.toNat + 1] else [dSlot t.desc.toNat])
  else []
/-- Banks that the tile of an allocation takes (R136). -/
def Acc.need (a : Acc) : Nat := if a.m64 then 16 else 8

/-- The scale vector of a word with SC (R148): its address and length. -/
def scaleAt (minor : Nat) (r : List Word) : Nat × Nat :=
  if minor = 1 then ((recAt r 5).toNat, 4 * 192) else ((recAt r 3).toNat, 4 * 128)
/-- ALIGN and SCR_RANGE of the scale vector (R143 step 8, R148). -/
def checkScale (p : Poster) (minor : Nat) (r : List Word) : M Unit := do
  let (a, n) := scaleAt minor r
  require (a % 32 == 0) cAlign a
  let _ ← windowAt p.group a n
  pure ()

/-- The checks of MMA and MMAS (R141, R143, R146, R148, R149, R336): TILE_HANDLE before ACC_HANDLE. DEDUCED (log entry 107): on an
odd quad, which has no follower, the handles of B1 and C1 are held against the quad of the next number all the same, none for quad
47, so that step 1 of R143 keeps its place before SEAM_ROLE. -/
def checkMma (p : Poster) (minor : Nat) (i4 : BitVec 4) (r : List Word) : M Unit := do
  let ts ← (srcHandles p.quad minor r).mapM p.tile
  let as_ ← (accHandles p.quad minor r).mapM p.acc
  require (minor == 0 || p.quad.quad % 2 == 0) cSeamRole
  let tiles := ts.map (·.2)
  let tag (i : Nat) : Nat := match tiles[i]? with | some t => t.tag | none => 0
  let mapN (i : Nat) : Nat := match tiles[i]? with | some t => t.mapN | none => 0
  let kinds := (List.range (tiles.length - 1)).map (fun i => pairAcc (tag 0) (tag (i + 1)))
  require (kinds.zip as_ |>.all (fun x => x.1 == some x.2.m64)) cMismatch
  require (!(i4.getLsbD 1 && kinds.any (fun k => k == some true))) cMismatch
  require (tiles.all Tile.inSlot) cTileDesc
  require (as_.all (fun a => decide (a.need ≤ a.count))) cAccShort
  require (!(0 < mapN 0 && (List.range (tiles.length - 1)).any (fun i => decide (0 < mapN (i + 1))))) cMapConflict
  require (!(kinds.any (fun k => k == some true) && p.q == 0)) cModRange
  if i4.getLsbD 1 then checkScale p minor r else pure ()

/-- The checks of MMS (R337). -/
def checkMms (p : Poster) (r : List Word) : M Unit := do
  let ts ← (srcHandles p.quad 2 r).mapM p.tile
  let as_ ← (accHandles p.quad 2 r).mapM p.acc
  require (as_.all (fun a => !a.m64) && handleBase (recAt r 2) != handleBase (recAt r 3)) cAccHandle
  let tiles := ts.map (·.2)
  require (match tiles with | [a, b] => fpPair a.tag b.tag | _ => false) cMismatch
  require (tiles.all Tile.inSlot) cTileDesc
  require (as_.all (fun a => decide (8 ≤ a.count))) cAccShort

/-- The checks of MMV (R338). -/
def checkMmv (p : Poster) (r : List Word) : M Unit := do
  let ts ← (srcHandles p.quad 3 r).mapM p.tile
  let as_ ← (accHandles p.quad 3 r).mapM p.acc
  let tiles := ts.map (·.2)
  require ((match tiles with | [a, b] => fpPair a.tag b.tag | _ => false) && as_.all (fun a => !a.m64)) cMismatch
  require (tiles.all Tile.inSlot) cTileDesc
  require (as_.all (fun a => decide (8 ≤ a.count))) cAccShort

/-- The rows of a tile lie within an allocation's banks (R340). -/
def rowsFit (a : Acc) (t : Tile) : Bool :=
  decide (dRows t.desc.toNat * (if a.m64 then 512 else 256) ≤ a.count * 2048)

/-- The checks of ACRD (R340). DEDUCED (log entry 107): of the two handles of step 1 of R143 the first of the record is checked
first, here ACC_HANDLE, in the other minors TILE_HANDLE. -/
def checkAcrd (p : Poster) (i4 : BitVec 4) (r : List Word) : M Unit := do
  let a ← p.acc (p.quad, recAt r 0)
  let (_, t) ← p.tile (p.quad, recAt r 1)
  let mode := i4.toNat % 4
  let d := t.desc.toNat
  require (match mode with
    | 0 => if a.m64 then m64Tile t.tag else readsTo t.tag
    | 1 => !a.m64 && readsTo t.tag
    | _ => !a.m64 && t.tag == 0x08 && decide (3 ≤ dRows d) && decide (dCols d = 64)) cMismatch
  require (mode == 2 || rowsFit a t) cAccShort

/-- The checks of ACWR (R340). -/
def checkAcwr (p : Poster) (r : List Word) : M Unit := do
  let (_, t) ← p.tile (p.quad, recAt r 0)
  let a ← p.acc (p.quad, recAt r 1)
  require (if a.m64 then m64Tile t.tag else writesFrom t.tag) cMismatch
  require (rowsFit a t) cAccShort
  require (!(a.m64 && p.q == 0)) cModRange

/-- The checks of QSPLIT (R341). -/
def checkQsplit (p : Poster) (r : List Word) : M Unit := do
  let (_, t) ← p.tile (p.quad, recAt r 0)
  let (_, d) ← p.tile (p.quad, recAt r 1)
  require (writesFrom t.tag) cMismatch
  require (match d.slots with | [x] => !t.slots.contains x | _ => false) cTileDesc

/-- The checks of R143 up to TILE_EMPTY, by minor. -/
def checkMtx (p : Poster) (minor : Nat) (i4 : BitVec 4) (r : List Word) : M Unit :=
  match minor with
  | 0 | 1 => checkMma p minor i4 r
  | 2 => checkMms p r
  | 3 => checkMmv p r
  | 7 => checkAcrd p i4 r
  | 8 => checkAcwr p r
  | 11 => checkQsplit p r
  | _ => do
    let _ ← p.acc (p.quad, recAt r 0)
    pure ()

/-! ### Posting (R86, R139, R143) -/

/-- The number of readers of a tile entry changed. -/
def addReaders (s : State) (x : QuadId × Nat) (f : Nat → Nat) : State :=
  match lookupN (s.quad x.1).tiles x.2 with
  | some { tile := some t, .. } => putTile s x.1 x.2 { t with readers := f t.readers }
  | _ => s

/-- TILE_EMPTY of a source (R143 step 9). -/
def checkEmpty (p : Poster) (minor : Nat) (r : List Word) : M Unit := do
  let ts ← (srcHandles p.quad minor r).mapM p.tile
  require (ts.all (fun t => t.2.state != .empty)) cTileEmpty

/-- Whether a word must stall: a source or the destination in transfer, a destination being read, the table full (R86,
R139). -/
def mustStall (p : Poster) (minor : Nat) (r : List Word) : M Bool := do
  let s ← get
  let ts ← (srcHandles p.quad minor r).mapM p.tile
  let busy (t : Tile) : Bool := t.state == .filling || t.state == .draining
  let dst ← match dstHandle minor r with
    | some h => do
      let (_, t) ← p.tile (p.quad, h)
      pure (busy t || (t.state == .ready && decide (0 < t.readers)))
    | none => pure false
  pure (ts.any (fun t => busy t.2) || dst || decide (16 ≤ (s.quad p.quad).entries.length))

/-- An entry put into the table: its sources gain a reader, its destination fills (R143). -/
def enter (p : Poster) (e : EngEntry) : M Unit := do
  let s ← get
  let s := (e.srcs p.quad).foldl (fun (s : State) x => addReaders s x (· + 1)) s
  let s := match e.dst with
    | some i => match lookupN (s.quad p.quad).tiles i with
      | some { tile := some t, .. } => putTile s p.quad i { t with state := .filling, err := 0 }
      | _ => s
    | none => s
  let q := s.quad p.quad
  set (s.setQuad { q with entries := q.entries ++ [e] })

/-- A word posted (R139, R143). -/
def post (p : Poster) (minor : Nat) (i4 : BitVec 4) (r : List Word) (e : Nat → EngEntry) : M Unit := do
  checkMtx p minor i4 r
  checkEmpty p minor r
  let stall ← mustStall p minor r
  if stall then waitStep
  else
    let s ← get
    set { s with nextId := s.nextId + 1 }
    enter p (e s.nextId)

/-! ### What the operations do (R145) -/

/-- The source tiles of an entry with their quads, in record order. -/
def entryTiles (s : State) (q : QuadId) (e : EngEntry) : List (QuadId × Tile) :=
  (srcHandles q e.minor.toNat e.record).filterMap (fun x =>
    (tileOf (s.quad x.1) e.world e.launch x.2).map (fun t => (x.1, t.2)))

/-- Scale `k` of an entry's scale vector; a free value where the group has overwritten it (R144). -/
def scaleOf (s : State) (e : EngEntry) (k : Nat) : Nat :=
  let a := (scaleAt e.minor.toNat e.record).1
  match windowFor s e.launch e.wg (a + 4 * k) 4 with
  | some (w, o) =>
    if e.spots.any (fun x => x.1 == w.wg && decide (x.2.1 < o + 4 ∧ o < x.2.1 + x.2.2)) then
      (Config.engineOpen s.tick (4096 + k)).toNat % 2 ^ 32
    else readLE w.scr o 4
  | none => 0

/-- The scales as an array. -/
def scalesOf (s : State) (e : EngEntry) : Array Nat :=
  if e.i4.getLsbD 1 then ((List.range ((scaleAt e.minor.toNat e.record).2 / 4)).map (scaleOf s e)).toArray else #[]

/-- `C ← flush(RNE(C + RNE(RNE(t·a_i)·b_j)))` (R148). -/
def scaleIn (c : Nat) (t : Nat × Word) (a b : Nat) : Nat × Word :=
  let (u, f1) := fmtF32.mul .rne t.1 a
  let (v, f2) := fmtF32.mul .rne u b
  let (w, f3) := addFlush c v
  (w, t.2 ||| passFlags f1 ||| passFlags f2 ||| f3)

/-- One half of a multiply-accumulate: the new elements and the flags. `col` is the number of the half's first column
scale. -/
def mmaHalf (s : State) (e : EngEntry) (a b : QuadId × Tile) (acc : Acc) (sc : Array Nat) (col : Nat) :
    Grid (Nat × Word) :=
  let old := acc.grid
  let zc := e.i4.getLsbD 0
  let c0 (i j : Nat) : Nat := if zc then 0 else gridElem old i j
  let sv (k : Nat) : Nat := (sc[k]?).getD 0
  if acc.m64 then
    let x := tileBits s (s.quad a.1) a.2 e.spots
    let y := tileBits s (s.quad b.1) b.2 e.spots
    Grid.make 64 64 (fun i j =>
      (((List.range 64).foldl (fun t k => t + x.at 0 i k * y.at 0 k j) (c0 i j)) % e.q, 0))
  else
    let dot : Nat → Nat → Nat → Nat × Word :=
      match tileBfp a.2.tag, tileBfp b.2.tag with
      | some m, some m' =>
        let x := bfpTile (s.quad a.1) a.2 m
        let y := bfpTile (s.quad b.1) b.2 m'
        fun i j c =>
          let (t, fl) := bfpDot x y i j
          let (r, fl') := addFlush c t
          (r, fl ||| fl')
      | _, _ =>
        let x := tileVals s (s.quad a.1) a.2 e.spots
        let y := tileVals s (s.quad b.1) b.2 e.spots
        fun i j c => fpDot (fun k => x.at fZero i k) (fun k => y.at fZero k j) c
    Grid.make 64 64 (fun i j =>
      if e.i4.getLsbD 1 then scaleIn (c0 i j) (dot i j 0) (sv i) (sv (64 + col + j)) else dot i j (c0 i j))

/-- The flags of an array of results. -/
def gridFlags (g : Grid (Nat × Word)) : Word :=
  g.foldl (fun f row => row.foldl (fun f x => f ||| x.2) f) 0

/-- MMA and MMAS at retirement (R336). -/
def retireMma (s : State) (q : QuadId) (e : EngEntry) : State × Word :=
  let ts := entryTiles s q e
  let sc := scalesOf s e
  let half (acc : State × Word) (x : Nat × (QuadId × Word)) : State × Word :=
    match ts[0]?, ts[x.1 + 1]?, accOf (acc.1.quad x.2.1) e.world e.launch x.2.2 with
    | some a, some b, some c =>
      let g := mmaHalf s e a b c sc (64 * x.1)
      (putAcc acc.1 x.2.1 (c.fill (fun i j => (g.at (0, 0) i j).1)), acc.2 ||| gridFlags g)
    | _, _, _ => acc
  ((accHandles q e.minor.toNat e.record).zipIdx.map (fun x => (x.2, x.1))).foldl half (s, 0)

/-- A row of MMS (R337): the new S row, RMAX, DLT and the flags, from the shifted scores' inputs `u`. -/
def mmsRow (us : List Nat) (uf : Word) (rmax dlt : Nat) : List Nat × Nat × Nat × Word :=
  let mxOf := us.foldl (fun (r : Nat × Word) u => let m := fmtF32.minMax true true r.1 u; (m.1, r.2 ||| m.2)) (negInf, 0)
  let nw := fmtF32.minMax true true rmax mxOf.1
  let new := nw.1
  let isNan := (fmtF32.decode new).isNan
  let delta : Nat × Word :=
    if isNan then (fmtF32.nan, 0)
    else if cmpVal (fmtF32.decode rmax) (fmtF32.decode new) == some 0 then (0, 0)
    else if rmax = negInf then (negInf, 0)
    else fmtF32.add .rne rmax (fmtF32.negBits new)
  let d : Nat × Word :=
    if isNan then (fmtF32.nan, 0)
    else if delta.1 = negInf ∨ dlt = negInf then (negInf, 0)
    else fmtF32.add .rne dlt delta.1
  let ss := us.map (fun u => if u = negInf ∨ new = negInf then (negInf, (0 : Word)) else subFlush u new)
  (ss.map (·.1), new, d.1,
    uf ||| passFlags (mxOf.2 ||| nw.2 ||| delta.2 ||| d.2) ||| joinFlags (ss.map (·.2)))

/-- MMS at retirement (R337). -/
def retireMms (s : State) (q : QuadId) (e : EngEntry) : State × Word :=
  match entryTiles s q e, accOf (s.quad q) e.world e.launch (recAt e.record 2),
      accOf (s.quad q) e.world e.launch (recAt e.record 3) with
  | [qt, kt], some sa, some oa =>
    let x := tileVals s (s.quad q) qt.2 e.spots
    let y := tileVals s (s.quad q) kt.2 e.spots
    let row0 := (recAt e.record 5).toInt
    let col0 := (recAt e.record 6).toInt
    let scale := (recAt e.record 4).toNat
    let masked (i j : Nat) : Bool :=
      let r := row0 + i
      let c := col0 + j
      decide (e.vlen ≤ r) || decide (e.vlen ≤ c) || (e.i4.getLsbD 0 && decide (r < c))
    let u (i j : Nat) : Nat × Word :=
      if masked i j then (negInf, 0)
      else
        let (t, fl) := fpDot (fun k => x.at fZero i k) (fun k => y.at fZero j k) 0
        let (v, fl') := mulFlush scale t
        (v, fl ||| fl')
    let rows := ((List.range 64).map (fun i =>
      let us := (List.range 64).map (u i)
      mmsRow (us.map (·.1)) (joinFlags (us.map (·.2))) (((oa.rmax[i]?).getD 0).toNat)
        (((oa.dlt[i]?).getD 0).toNat))).toArray
    let row (i : Nat) : List Nat × Nat × Nat × Word := (rows[i]?).getD ([], 0, 0, 0)
    let sg := rows.map (fun r => r.1.toArray)
    let s := putAcc s q (sa.fill (fun i j => Grid.at sg 0 i j))
    let s := putAcc s q { oa with
      rmax := Vector.ofFn (fun (i : Fin 64) => BitVec.ofNat 32 (row i.val).2.1)
      dlt := Vector.ofFn (fun (i : Fin 64) => BitVec.ofNat 32 (row i.val).2.2.1) }
    (s, rows.foldl (fun f r => f ||| r.2.2.2) 0)
  | _, _, _ => (s, 0)

/-- MMV at retirement (R338). -/
def retireMmv (s : State) (q : QuadId) (e : EngEntry) : State × Word :=
  match entryTiles s q e, accOf (s.quad q) e.world e.launch (recAt e.record 2) with
  | [pt, vt], some oa =>
    let x := tileVals s (s.quad q) pt.2 e.spots
    let y := tileVals s (s.quad q) vt.2 e.spots
    let old := oa.grid
    let one (i : Nat) : List (Nat × Word) × (Nat × Word) :=
      if ((oa.rmax[i]?).getD 0).toNat = negInf then ((List.range 64).map (fun j => (gridElem old i j, 0)), (0, 0))
      else
        let f := fmtF32.exp2 .rne ((oa.dlt[i]?).getD 0).toNat
        let ff := passFlags f.2
        let os := (List.range 64).map (fun j =>
          let (c, fl) := mulFlush (gridElem old i j) f.1
          let (r, fl') := fpDot (fun k => x.at fZero i k) (fun k => y.at fZero k j) c
          (r, ff ||| fl ||| fl'))
        let (c, fl) := mulFlush ((oa.rsum[i]?).getD 0).toNat f.1
        let (r, fl') := rowSum (fun k => x.at fZero i k) c
        (os, (r, ff ||| fl ||| fl'))
    let rows := ((List.range 64).map one).toArray
    let g : Grid (Nat × Word) := rows.map (fun r => r.1.toArray)
    let sums := rows.map (fun r => r.2)
    let a := { (oa.fill (fun i j => (g.at (0, 0) i j).1)) with
      rsum := Vector.ofFn (fun (i : Fin 64) => BitVec.ofNat 32 ((sums[i.val]?).getD (0, 0)).1)
      dlt := Vector.replicate 64 0 }
    (putAcc s q a, gridFlags g ||| sums.foldl (fun f r => f ||| r.2) 0)
  | _, _ => (s, 0)

/-- `RNE(C / RSUM)` in f32 (R340, mode 1). -/
def divF32 (x y : Nat) : Nat × Word :=
  match fmtF32.decode x, fmtF32.decode y with
  | .nan a, .nan b => (fmtF32.nan, if a || b then fNV else 0)
  | .nan a, _ => (fmtF32.nan, if a then fNV else 0)
  | _, .nan b => (fmtF32.nan, if b then fNV else 0)
  | .inf _, .inf _ => (fmtF32.nan, fNV)
  | .inf a, v => (fmtF32.signed (a != v.neg?) fmtF32.infBits, 0)
  | v, .inf b => (fmtF32.signed (v.neg? != b) 0, 0)
  | .fin a m ex, .fin b n d =>
    if m = 0 then (fmtF32.signed (a != b) 0, 0) else fmtF32.divFin .rne a m ex b n d

/-- The value that ACRD moves to element (r, c) (R340). -/
def acrdElem (a : Acc) (g : Array Nat) (mode tag r c : Nat) : Nat × Word :=
  let x := gridElem g r c
  if mode = 2 then
    ((match r with
      | 0 => ((a.rmax[c]?).getD 0).toNat
      | 1 => ((a.rsum[c]?).getD 0).toNat
      | 2 => ((a.dlt[c]?).getD 0).toNat
      | _ => 0), 0)
  else if a.m64 then (x, 0)
  else
    let y : Nat × Word :=
      if mode = 1 then
        let sum := ((a.rsum[r]?).getD 0).toNat
        if ((a.rmax[r]?).getD 0).toNat = negInf ∨ sum % 2 ^ 31 = 0 then (0, 0) else divF32 x sum
      else (x, 0)
    let t := (codeTag tag).getD .f32
    let (b, fl) := cvtElem .rne 0 .f32 t y.1
    (b, y.2 ||| fl)

/-- The elements of a tile written by an engine operation. -/
def writeTile (s : State) (q : QuadId) (t : Tile) (xs : List ((Nat × Nat) × Nat)) : State :=
  let e := moveBytes t.tag
  xs.foldl (fun (s : State) x => locWrite s q t x.1.1 x.1.2 e x.2 none) s

/-- The places of a tile that move: (r, c) inside its shape and the array (R340). -/
def tilePlaces (t : Tile) (rows : Nat) : List (Nat × Nat) :=
  let d := t.desc.toNat
  (List.range (min (dRows d) rows)).flatMap (fun r => (List.range (min (dCols d) 64)).map (fun c => (r, c)))

/-- ACRD at retirement (R340). -/
def retireAcrd (s : State) (q : QuadId) (e : EngEntry) : State × Word :=
  match accOf (s.quad q) e.world e.launch (recAt e.record 0), tileOf (s.quad q) e.world e.launch (recAt e.record 1) with
  | some a, some (_, t) =>
    let mode := e.i4.toNat % 4
    let g := a.grid
    let xs := (tilePlaces t (if mode = 2 then 3 else 64)).map (fun x => (x, acrdElem a g mode t.tag x.1 x.2))
    (writeTile s q t (xs.map (fun x => (x.1, x.2.1))), joinFlags (xs.map (fun x => x.2.2)))
  | _, _ => (s, 0)

/-- ACWR at retirement (R340): exact, no flag. -/
def retireAcwr (s : State) (q : QuadId) (e : EngEntry) : State :=
  match entryTiles s q e, accOf (s.quad q) e.world e.launch (recAt e.record 1) with
  | [t], some a =>
    let x := tileBits s (s.quad t.1) t.2 e.spots
    let d := t.2.desc.toNat
    let g := a.grid
    let tag := (codeTag t.2.tag).getD .f32
    putAcc s q (a.fill (fun r c =>
      if dRows d ≤ r ∨ dCols d ≤ c then gridElem g r c
      else if a.m64 then x.at 0 r c % e.q
      else (cvtElem .rne 0 tag .f32 (x.at 0 r c)).1))
  | _, _ => s

/-- The descriptor that QSPLIT leaves (R341): TAG ← BFPm, ROWS = COLS = VROWS = VCOLS = 64, CMODE 0. -/
def splitDesc (d m : Nat) : Nat :=
  setField (setField (setField (setField (setField (setField d 128 8 64) 136 8 64) 144 8 64) 152 8 64) 160 8 (0x0E + m))
    174 2 0

/-- Byte `i` of a list of numbers. -/
def listAt (l : List Nat) (i : Nat) : Nat := (l[i]?).getD 0

/-- The bytes that QSPLIT leaves in its slot (R121): mantissas, exponents, map; the unused part holds free values. DESIGN
CHOICE (log entry 84): the bytes between the mantissas and the exponents, to which R121 gives no content, keep what they
held. -/
def splitBytes (old : Array Byte) (tick m : Nat) (blocks : Array (Nat × List Nat)) (map : List Nat) : List Host.Cell :=
  let words := blocks.map (fun b => b.2.zipIdx.foldl (fun x y => x + y.1 % 2 ^ m * 2 ^ (m * y.2)) 0)
  (List.range 16384).filterMap (fun o =>
    let b : Byte :=
      if o < 512 * m then BitVec.ofNat 8 (((words[o / (8 * m)]?).getD 0) / 2 ^ (8 * (o % (8 * m))))
      else if o < 0x1000 then (old[o]?).getD 0
      else if o < 0x1040 then BitVec.ofNat 8 ((blocks[o - 0x1000]?).getD (0, [])).1
      else if o < 0x1048 then
        BitVec.ofNat 8 (if o - 0x1040 < map.length then 128 + listAt map (o - 0x1040) else 0)
      else Config.slotByte tick o
    if b = 0 then none else some (o, b))

/-- QSPLIT at retirement (R341, R122, R120). -/
def retireQsplit (s : State) (q : QuadId) (e : EngEntry) : State × Word :=
  match entryTiles s q e, tileOf (s.quad q) e.world e.launch (recAt e.record 1) with
  | [t], some (i, dt) =>
    let m := bitsOf e.i4.toNat 1 3 + 2
    let col := e.i4.getLsbD 0
    let x := tileVals s (s.quad t.1) t.2 e.spots
    -- block b, channel k
    let elem (b k : Nat) : FVal := if col then x.at fZero k b else x.at fZero b k
    let ks := splitChannels (fun k => (List.range 64).map (fun b => elem b k)) (fmtF32.decode (recAt e.record 2).toNat)
    let bs := (List.range 64).map (fun b =>
      bfpQuant m ((List.range 64).map (fun k => if ks.contains k then halfVal (elem b k) else elem b k)))
    let blocks := (bs.map (fun r => (r.1, r.2.1))).toArray
    let d := dt.desc.toNat
    let qu := s.quad q
    let slots := match lookupN qu.slots (dSlot d) with
      | some o => putN qu.slots (dSlot d) { o with bytes := splitBytes (image o.bytes 0 16384) s.tick m blocks ks }
      | none => qu.slots
    let s := s.setQuad { qu with slots := slots }
    (putTile s q i { dt with desc := BitVec.ofNat 256 (splitDesc d m), mapN := ks.length },
      joinFlags (bs.map (fun r => r.2.2)))
  | _, _ => (s, 0)

/-- The free words that stand for the unspecified contents of a spoiled operation's destinations (R144). -/
def openWord (s : State) (i : Nat) : Nat := (Config.engineOpen s.tick i).toNat
def openSide (s : State) (i : Nat) : Vector Word 64 :=
  Vector.ofFn (fun (r : Fin 64) => BitVec.ofNat 32 (openWord s (i + r.val)))

/-- Whether an operation can raise flags: none of m64 does, nor ACRD of the side registers, ACWR and ACZERO (R149, R339, R340). -/
def EngEntry.flagged (s : State) (q : QuadId) (e : EngEntry) : Bool :=
  let float := (accHandles q e.minor.toNat e.record).any (fun x => match accOf (s.quad x.1) e.world e.launch x.2 with
    | some a => !a.m64
    | none => false)
  match e.minor.toNat with
  | 0 | 1 => float
  | 2 | 3 | 11 => true
  | 7 => float && e.i4.toNat % 4 != 2
  | _ => false

/-- A spoiled operation (R144): its own destinations take free values, and the flags that it computes from them are free;
nothing else changes. -/
def retireSpoiled (s : State) (q : QuadId) (e : EngEntry) : State × Word :=
  let minor := e.minor.toNat
  let s := if minor = 7 then s else
    ((accHandles q minor e.record).zipIdx).foldl (fun (s : State) (x : (QuadId × Word) × Nat) =>
      match accOf (s.quad x.1.1) e.world e.launch x.1.2 with
      | none => s
      | some a =>
        let base := 10000 * (x.2 + 1)
        let data (a : Acc) : Acc :=
          a.fill (fun r c => openWord s (base + r * 64 + c) % (if a.m64 then 2 ^ 64 else 2 ^ 32))
        let side := (minor == 2 && x.2 == 1) || minor == 3 || minor == 13
        let a := if minor == 2 && x.2 == 1 then a else data a
        let a := if side then
            { a with
              rmax := if minor = 3 then a.rmax else openSide s (base + 5000)
              rsum := if minor = 2 then a.rsum else openSide s (base + 5100)
              dlt := openSide s (base + 5200) }
          else a
        putAcc s x.1.1 a) s
  let s := match dstHandle minor e.record with
    | none => s
    | some h =>
      match tileOf (s.quad q) e.world e.launch h with
      | none => s
      | some (i, t) =>
        if minor = 7 then
          let b := moveBytes t.tag
          writeTile s q t ((tilePlaces t 64).map (fun x => (x, openWord s (x.1 * 64 + x.2) % 2 ^ (8 * b))))
        else
          let m := bitsOf e.i4.toNat 1 3 + 2
          let d := t.desc.toNat
          let qu := s.quad q
          let slots := match lookupN qu.slots (dSlot d) with
            | some o => putN qu.slots (dSlot d) { o with bytes := (List.range 16384).filterMap (fun j =>
                let y := Config.slotByte s.tick j
                if y = 0 then none else some (j, y)) }
            | none => qu.slots
          putTile (s.setQuad { qu with slots := slots }) q i
            { t with desc := BitVec.ofNat 256 (splitDesc d m), mapN := openWord s 0 % 9 }
  (s, if e.flagged s q then passFlags (BitVec.ofNat 32 (openWord s 1)) else 0)

/-- The effect of an operation, by minor. -/
def retireEffect (s : State) (q : QuadId) (e : EngEntry) : State × Word :=
  if e.spoiled then retireSpoiled s q e
  else
    match e.minor.toNat with
    | 0 | 1 => retireMma s q e
    | 2 => retireMms s q e
    | 3 => retireMmv s q e
    | 7 => retireAcrd s q e
    | 8 => (retireAcwr s q e, 0)
    | 11 => retireQsplit s q e
    | _ =>
      match accOf (s.quad q) e.world e.launch (recAt e.record 0) with
      | some a => (putAcc s q a.clear, 0)
      | none => (s, 0)

/-! ### The arbiter (R139-R141) -/

/-- Whether `e`, posted after `p` by the same group, waits for it (R139, R140). -/
def depends (q : QuadId) (p e : EngEntry) : Bool :=
  p.serial == e.serial &&
  ((p.accs q).any (fun a => (e.accs q).contains a) ||
   (match p.dst with | some t => (e.srcs q).contains (q, t) | none => false) ||
   (match e.dst with | some t => (p.srcs q).contains (q, t) | none => false))

/-- Whether some entry of a quad runs. -/
def Quad.running (q : Quad) : Bool := q.entries.any (fun e => e.granted)
/-- Whether a quad's table holds an entry not yet granted. -/
def Quad.waits (q : Quad) : Bool := q.entries.any (fun e => !e.granted)
/-- Whether an entry is a seam pass. -/
def EngEntry.seam (e : EngEntry) : Bool := e.minor == 1

/-- How many more passes may be granted before an entry, so that fewer than 16 have started since its arrival (R139). -/
def EngEntry.slack (e : EngEntry) : Nat := 15 - e.passes
/-- The waiting entries of a list with the passes that may still go to others before each: no more than before any entry that
waits for it (R139). -/
def slacks (q : QuadId) : List EngEntry → List (EngEntry × Nat)
  | [] => []
  | p :: r =>
    let xs := slacks q r
    (p, xs.foldl (fun m x => if depends q p x.1 then min m x.2 else m) p.slack) :: xs
/-- Those of a quad. -/
def Quad.slacks (q : Quad) : List (EngEntry × Nat) := Sys2Proof.Machine.slacks q.id (q.entries.filter (fun e => !e.granted))
/-- The least number of passes within which as many entries must be granted as there are passes, where there is one: the next
pass then goes to one of them (R139). -/
def Quad.bound (q : Quad) : Option Nat :=
  (List.range 16).find? (fun n => decide (n < (q.slacks.filter (fun x => decide (x.2 ≤ n))).length))
/-- Whether the waiting entries of a quad leave no pass to spare for an operation of another quad (R139). -/
def Quad.tight (q : Quad) : Bool := q.bound.isSome

/-- The entries that may be granted, oldest first. A seam pass waits while the follower has a pass of its own due (R141) or
none to spare (R139). -/
def eligible (s : State) (q : QuadId) : List EngEntry :=
  let qu := s.quad q
  let follower := s.quad (followerOf q)
  -- a follower is slaved while its leader's seam pass has been granted
  let slaved := q.quad % 2 == 1 &&
    (s.quad { die := q.die, quad := q.quad - 1 }).entries.any (fun e => e.granted && e.seam)
  if qu.running || slaved then []
  else
    (qu.entries.zipIdx.filter (fun x =>
      !(qu.entries.take x.2).any (fun p => depends q p x.1) &&
      !(x.1.seam && follower.waits && (follower.ownDue || follower.tight)))).map (·.1)

/-- The first of a list with the greatest rank. -/
def firstBest (rank : EngEntry → Nat) (es : List EngEntry) : Option EngEntry :=
  es.foldl (fun (b : Option EngEntry) e =>
    match b with
    | none => some e
    | some x => if rank x < rank e then some e else some x) none

/-- The entry that the arbiter grants (R139): the oldest of the highest band, among those alone that the bound of sixteen passes
leaves no choice about where there are such. -/
def choose (s : State) (q : QuadId) : Option EngEntry :=
  let es := eligible s q
  let qu := s.quad q
  firstBest EngEntry.band (match qu.bound with
    | some n => es.filter (fun e => qu.slacks.any (fun x => x.1.id == e.id && decide (x.2 ≤ n)))
    | none => es)

/-- A pass counted against the waiting entries of a quad but for those that depend on it. -/
def countPass (qu : Quad) (q : QuadId) (x : EngEntry) : Quad :=
  { qu with entries := qu.entries.map (fun e =>
      if e.id == x.id then { e with granted := true }
      else if e.granted || depends q x e then e else { e with passes := e.passes + 1 }) }

/-- PASS_GRANT (R139, R141). -/
def execPassGrant (q : QuadId) (s : State) : Host.Outcome State Fault Refusal :=
  match choose s q with
  | none => .next s
  | some x =>
    let s := s.setQuad { countPass (s.quad q) q x with ownDue := false }
    .next (if x.seam then s.setQuad (countPass (s.quad (followerOf q)) q x) else s)

/-- BAND_RISE (R139): one band for every 4 µs of waiting, up to band 3. -/
def execBandRise (q : QuadId) (entry : Nat) (s : State) : Host.Outcome State Fault Refusal :=
  let qu := s.quad q
  .next (s.setQuad { qu with entries := qu.entries.map (fun e =>
    if e.id == entry && !e.granted && decide (e.band < 3 ∧ e.arrived + 4000 ≤ s.now) then
      { e with band := e.band + 1, arrived := e.arrived + 4000 }
    else e) })

/-- A source tile released by an operation; a tile of an ended workgroup may now be freed (R80, R138). -/
def dropReader (s : State) (x : QuadId × Nat) : State :=
  let s := addReaders s x (· - 1)
  match lookupN (s.quad x.1).tiles x.2 with
  | some { tile := some t, .. } => restTile s x.1 x.2 t
  | _ => s

/-- Flags of an asynchronous operation ORed into its group's, and into those that a routine's end reinstates (R115,
R248). -/
def Group.lateFlags (g : Group) (f : Word) : Group :=
  let g := g.orFlags f
  match g.routine with
  | .normal => g
  | .exit snap d => { g with routine := .exit { snap with flags := snap.flags ||| f } d }
  | .entry snap => { g with routine := .entry { snap with flags := snap.flags ||| f } }

/-- The group's flags gathered at retirement (R115, R145). -/
def orFlagsOf (s : State) (k : Key) (serial : Nat) (f : Word) : State :=
  match s.group k with
  | some g => if g.serial = serial then s.setGroup (g.lateFlags f) else s
  | none => s

/-- An operation retired (R145). -/
def retireEntry (s : State) (q : QuadId) (e : EngEntry) : State :=
  let (s, fl) := retireEffect s q e
  let s := orFlagsOf s e.key e.serial fl
  let qu := s.quad q
  let s := s.setQuad { qu with entries := qu.entries.filter (fun x => x.id != e.id) }
  let s := match e.dst with
    | some i => match lookupN (s.quad q).tiles i with
      | some { tile := some t, .. } => restTile s q i { t with state := .ready }
      | _ => s
    | none => s
  let s := closeWorkgroup ((e.srcs q).foldl dropReader s) e.launch e.wg
  if e.seam then
    let f := s.quad (followerOf q)
    s.setQuad { f with ownDue := f.waits }
  else s

/-- OPERATION_RETIRE (R141, R145): a seam pass runs once the follower has finished its own pass. -/
def execOperationRetire (q : QuadId) (s : State) : Host.Outcome State Fault Refusal :=
  match (s.quad q).entries.find? (fun e => e.granted) with
  | none => .next s
  | some e => if e.seam && (s.quad (followerOf q)).running then .next s else .next (retireEntry s q e)

/-- SLOT_RELEASE (R138): a slot of an ended workgroup, once no tile located in any of the workgroup's slots is being read. -/
def execSlotRelease (q : QuadId) (slot : Nat) (s : State) : Host.Outcome State Fault Refusal :=
  let qu := s.quad q
  let rest := (releaseEnded s qu).slots
  .next (s.setQuad { qu with slots := qu.slots.filter (fun p => p.1 != slot || rest.any (fun x => x.1 == slot)) })

/-! ### The MTX words (R142) -/

/-- Record length by minor, SC and ONE (R142). -/
def recordLen (m : Nat) (i : BitVec 4) : Nat :=
  match m with
  | 0 => if i.getLsbD 1 then 4 else 3
  | 1 => if i.getLsbD 1 then 6 else 5
  | 2 => 8
  | 3 | 11 => 3
  | 4 => if i.getLsbD 0 then 1 else 0
  | 7 | 8 => 2
  | 9 => 0
  | 12 => if i.getLsbD 0 then 0 else 1
  | _ => 1
/-- Whether D holds a result. -/
def mtxResult (m : Nat) : Bool := m == 5 || m == 9 || m == 12
/-- Whether the I4 field is one that R142 gives. -/
def mtxI4 (m : Nat) (i : BitVec 4) : Bool :=
  match m with
  | 0 | 1 => decide (i.toNat < 4)
  | 2 | 4 | 5 | 9 | 12 => decide (i.toNat < 2)
  | 7 => decide (i.toNat < 3)
  | 11 => decide (i.toNat < 14)
  | _ => i == 0
/-- The tag of a record entry (R142). -/
def mtxTag (m k : Nat) (t : Tag) : Bool :=
  if m = 2 ∧ (k = 5 ∨ k = 6) then t == .s32
  else if (m = 2 ∧ k = 4) ∨ (m = 11 ∧ k = 2) then t == .f32
  else isInt32 t

/-- A class U word of the engine over a record; single-lane mode refuses it (R234). -/
def mtxWd (g : Guard) (d a : Code) (m : Nat) (i : BitVec 4) (run : Cx → M Out) : Wd :=
  let n := recordLen m i
  let regs := spanOf a n
  { cls := .u, guard := g, codes := (if n = 0 then [] else regs) ++ (if mtxResult m then [d] else [])
    legal := fun _ => mtxI4 m i && (if n = 0 then a == 0 else !isVec a && decide (a.toNat + n ≤ 128)) &&
      (if mtxResult m then !isVec d else d == 0)
    reads := fun _ => regs
    accept := fun c => (List.range n).all (fun k => mtxTag m k (c.tag (up a k)))
    dests := fun _ => if mtxResult m then [d] else []
    handler := false, inExit := m == 4 || m == 12, inEntry := m == 4 || m == 12, touches := true, run := run }

/-- The poster of a word. -/
def Cx.poster (c : Cx) : Poster := { group := c.g, quad := keyQuad c.key, q := c.g.q.toNat }
/-- The record's values. -/
def Cx.record (c : Cx) (a : Code) (n : Nat) : List Word := (List.range n).map (fun k => c.val (up a k) 0)

/-- A word that takes a reservation entry (R139). -/
def mtxPost (g : Guard) (d a : Code) (m : BitVec 4) (i : BitVec 4) : Wd :=
  mtxWd g d a m.toNat i (fun c => do
    let s ← get
    let r := c.record a (recordLen m.toNat i)
    let v := recAt r 7
    post c.poster m.toNat i r (fun id =>
      { id := id, minor := m, i4 := i, record := r, vlen := if c.tag (up a 7) == .s32 then v.toInt else v.toNat
        first := a.toNat - 96, key := c.key, serial := c.g.serial, path := c.p.id, world := c.g.world, launch := c.g.launch, wg := c.g.wg
        start := c.p.pri.toNat / 4, band := c.p.pri.toNat / 4, arrived := s.now, passes := 0, granted := false, q := c.g.q.toNat, spoiled := false
        spots := [] })
    pure {})

/-- Whether a group has an operation posted that names an allocation, or any at all. -/
def posted (s : State) (serial : Nat) (acc : Option (QuadId × Nat)) : Bool :=
  s.quads.any (fun qu => qu.entries.any (fun e => e.serial == serial &&
    (match acc with | some a => (e.accs qu.id).contains a | none => true)))
/-- The posted operations that name an allocation, of every group. -/
def naming (s : State) (a : QuadId × Nat) : Nat :=
  (s.quads.map (fun qu => (qu.entries.filter (fun e => (e.accs qu.id).contains a)).length)).foldl (· + ·) 0

/-- MWAIT (R344). -/
def mwait (g : Guard) (d a : Code) (i : BitVec 4) : Wd :=
  mtxWd g d a 4 i (fun c => do
    let id := keyQuad c.key
    let one ← if i.getLsbD 0 then do
        let x ← c.poster.acc (id, c.val a 0)
        pure (some (id, x.base))
      else pure none
    let s ← get
    if posted s c.g.serial one then waitStep else pure {})

/-- The first bank of the lowest free run of a length (R342). -/
def freeRun (q : Quad) (n : Nat) : Option Nat :=
  (List.range (257 - n)).find? (fun b => q.accs.all (fun a => decide (a.base + a.count ≤ b ∨ b + n ≤ a.base)))

/-- ACALL (R342). -/
def acall (g : Guard) (d a : Code) (i : BitVec 4) : Wd :=
  mtxWd g d a 5 i (fun c => do
    let n := (c.val a 0).toNat
    if n = 0 ∨ 128 < n then failCode cAccHandle
    else
      let s ← get
      let id := keyQuad c.key
      let q := s.quad id
      match freeRun q n with
      | none => pure { regs := [out32 d 1 (fun _ => 0xFFFFFFFF) .n32] }
      | some b =>
        let x : Acc :=
          { base := b, count := n, m64 := i.getLsbD 0, owner := c.key, world := c.g.world, launch := c.g.launch
            data := [], rmax := Vector.replicate 64 (BitVec.ofNat 32 negInf), rsum := Vector.replicate 64 0
            dlt := Vector.replicate 64 0 }
        set (s.setQuad { q with accs := q.accs ++ [x] })
        pure { regs := [out32 d 1 (fun _ => accHandle x (bankGen q b)) .n32] })

/-- Banks freed: scrubbed, the base bank's generation raised (R137, R342). -/
def freeAcc (q : Quad) (a : Acc) : Quad :=
  { q with accs := q.accs.filter (fun x => x.base != a.base), accGen := putN q.accGen a.base (bankGen q a.base + 1) }

/-- ACFREE (R342); the handler of ACC_LEAK may execute it too (R138). -/
def acfree (g : Guard) (d a : Code) (i : BitVec 4) : Wd :=
  { mtxWd g d a 6 i (fun c => do
    let id := keyQuad c.key
    let x ← c.poster.acc (id, c.val a 0)
    if x.owner ≠ c.key then failCode cAccHandle
    else
      let s ← get
      if 0 < naming s (id, x.base) then waitStep
      else
        set (s.setQuad (freeAcc (s.quad id) x))
        pure {}) with leak := true }

/-- OCLAIM (R343). -/
def oclaim (g : Guard) (d a : Code) (i : BitVec 4) : Wd :=
  mtxWd g d a 9 i (fun c => do
    let s ← get
    let id := keyQuad c.key
    let q := s.quad id
    let free (k : Nat) : Bool := (lookupN q.slots k).isNone
    let pair := i.getLsbD 0
    match (List.range 64).find? (fun k => if pair then decide (k % 2 = 0) && free k && free (k + 1) else free k) with
    | none => pure { regs := [out32 d 1 (fun _ => 0xFFFFFFFF) .n32] }
    | some k =>
      let x : OpSlot :=
        { world := c.g.world, launch := c.g.launch, wg := c.g.wg, pair := pair, ended := false, bytes := [] }
      let slots := putN q.slots k x
      set (s.setQuad { q with slots := if pair then putN slots (k + 1) x else slots })
      pure { regs := [out32 d 1 (fun _ => BitVec.ofNat 32 k) .n32] })

/-- ORELEASE (R343). -/
def orelease (g : Guard) (d a : Code) (i : BitVec 4) : Wd :=
  mtxWd g d a 10 i (fun c => do
    let s ← get
    let id := keyQuad c.key
    let q := s.quad id
    let n := (c.val a 0).toNat
    match lookupN q.slots n with
    | none => failCode cTileDesc
    | some x =>
      if !claimed q n c.g.launch c.g.wg then failCode cTileDesc
      else
        let gone := if x.pair then [n - n % 2, n - n % 2 + 1] else [n]
        let mine (t : Tile) : Bool := t.slots.any gone.contains
        if q.tiles.any (fun t => match t.2.tile with | some y => mine y && y.inFlight | none => false) then waitStep
        else
          set (s.setQuad { q with
            slots := q.slots.filter (fun p => !gone.contains p.1)
            tiles := q.tiles.map (fun t => (t.1, { t.2 with tile := t.2.tile.map (fun y =>
              if mine y then { y with state := .empty } else y) })) })
          pure {})

/-- MSTAT (R345). -/
def mstat (g : Guard) (d a : Code) (i : BitVec 4) : Wd :=
  mtxWd g d a 12 i (fun c => do
    let s ← get
    let id := keyQuad c.key
    let q := s.quad id
    let v :=
      if i.getLsbD 0 then
        (256 - (q.accs.map (fun x => x.count)).foldl (· + ·) 0) * 2 ^ 16 + (64 - q.slots.length) * 2 ^ 8 +
          (16 - q.entries.length)
      else
        match accOf q c.g.world c.g.launch (c.val a 0) with
        | none => 0
        | some x =>
          2 ^ 31 + naming s (id, x.base) % 256 * 2 ^ 16 + (bankGen q x.base).toNat * 2 ^ 8 +
            (if x.m64 then 2 ^ 7 else 0) + (x.count - 1)
    pure { regs := [out32 d 1 (fun _ => BitVec.ofNat 32 v) .n32] })

/-- MTX (R142). -/
def execMtx (g : Guard) (d a : Code) (m i : BitVec 4) (s : State) : Host.Outcome State Fault Refusal :=
  issueWord (match m.toNat with
    | 4 => mwait g d a i
    | 5 => acall g d a i
    | 6 => acfree g d a i
    | 9 => oclaim g d a i
    | 10 => orelease g d a i
    | 12 => mstat g d a i
    | _ => mtxPost g d a m i) s

/-! ### Withdrawal and posting again (R150, R151) -/

/-- Whether the group that issued an entry is still resident. -/
def EngEntry.held (s : State) (e : EngEntry) : Bool :=
  match s.group e.key with | some g => g.serial == e.serial | none => false

/-- The entries of a quad not yet granted withdrawn into their groups' contexts, in issue order (R150). DESIGN CHOICE (log entry
104): an entry whose group has exited has no context to go into; it stays in the table and runs to retirement before stage 1
ends. -/
def withdraw (s : State) (q : QuadId) : State :=
  let qu := s.quad q
  let out := qu.entries.filter (fun e => !e.granted && e.held s)
  let s := s.setQuad { qu with entries := qu.entries.filter (fun e => e.granted || !e.held s) }
  out.foldl (fun (s : State) e =>
    let s := (e.srcs q).foldl (fun (s : State) x => addReaders s x (· - 1)) s
    match s.group e.key with
    | some g =>
      if g.serial != e.serial then s
      else s.setGroup { g with
        withdrawn := g.withdrawn.filter (fun x => decide (x.id < e.id)) ++ e :: g.withdrawn.filter (fun x => decide (e.id < x.id)) }
    | none => s) s

/-- The destination of an entry that fails or is discarded becomes EMPTY (R151). -/
def emptyDst (s : State) (q : QuadId) (e : EngEntry) : State :=
  match e.dst with
  | none => s
  | some i =>
    match lookupN (s.quad q).tiles i with
    | some { tile := some t, .. } => restTile s q i { t with state := .empty, err := 0 }
    | _ => s

/-- The checks of an entry posted again (R151): those of R143, and what a word would wait for, a source in transfer or a full
table (R86, R139); its destination is already held. -/
def recheck (p : Poster) (e : EngEntry) : M Unit := do
  checkMtx p e.minor.toNat e.i4 e.record
  checkEmpty p e.minor.toNat e.record
  let ts ← (srcHandles p.quad e.minor.toNat e.record).mapM p.tile
  let s ← get
  if ts.any (fun t => t.2.state == .filling || t.2.state == .draining) || decide (16 ≤ (s.quad p.quad).entries.length) then
    waitStep
  else pure ()

/-- The path of an identity brought into a path slot, and the slot: one that is spilled takes a free slot, or that of the path in
slot 1, which is spilled in its place. DEDUCED (log entry 16): where the path exists no more, the path of the first occupied slot
stands for it. -/
def bringPath (g : Group) (id : Int) : M (Group × Bool) :=
  let is (p : Option Path) : Bool := match p with | some p => p.id == id | none => false
  if is g.slot0 then pure (g, false)
  else if is g.slot1 then pure (g, true)
  else match g.spill.zipIdx.find? (fun x => is x.1.path) with
    | none => pure (g, g.slot0.isNone)
    | some (x, i) => do
      let e ← spillGet g i
      let g ← spillDrop g i
      let p := x.back e
      match g.slot0, g.slot1 with
      | none, _ => pure (g.setSlot false (some p), false)
      | _, none => pure (g.setSlot true (some p), true)
      | _, some p1 =>
        let g ← spillAdd (g.setSlot true none) (entryOfPath p1)
        pure (g.setSlot true (some p), true)

/-- The precise trap of a failing entry, taken by its path before any word of the group issues (R151); none where the path's
entry in the spill area cannot be reached yet. -/
def repostTrap (s : State) (k : Key) (e : EngEntry) (f : FaultInfo) : Option State :=
  match s.group k with
  | none => some s
  | some g =>
    match (do let x ← bringPath g e.path; modify (fun (s : State) => s.setGroup (keepWct s x.1)); pure x.2) s with
    | .ok sl s' =>
      match s'.group k with
      | some g => match g.slot sl with
        | some p => some (raise s' g sl p f)
        | none => some s'
      | none => some s'
    | .error (.fault x) _ => some (fatalGroup s g x.code x.addr 0 0 0)
    | .error _ _ => none

/-- The withdrawn entries of a resumed group posted again in order, as far as the table and their sources allow; the group
issues no word before all are posted. After one that fails its check the rest are discarded (R151). -/
def repostGo (k : Key) : List EngEntry → State → State
  | [], s => s
  | e :: rest, s =>
    match s.group k with
    | none => s
    | some g =>
      let q := keyQuad k
      let new := { e with key := k, granted := false, passes := 0, band := e.start, arrived := s.now }
      let p : Poster := { group := g, quad := q, q := e.q }
      match (do recheck p new; enter p new) (s.setGroup { g with withdrawn := rest }) with
      | .ok _ s' => repostGo k rest s'
      | .error (.fault f) _ =>
        (repostTrap ((e :: rest).foldl (fun s e => emptyDst s q e) (s.setGroup { g with withdrawn := [] })) k e f).getD s
      | .error _ _ => s

/-- Whether a resumed group still has withdrawn entries to post before its next word issues (R151). -/
def Group.reposting (g : Group) : Bool := g.stage == .running && !g.inEntry && !g.withdrawn.isEmpty

/-- The same for a group. -/
def repost (s : State) (k : Key) : State :=
  match s.group k with
  | some g => repostGo k g.withdrawn s
  | none => s

end Sys2Proof.Machine
end

