-- ==== Sys2Proof/Machine/Sync.lean ====
section
/-! DEFINITION. Barriers (R199-R204) and spool queues (R202-R206, R347-R350) of chapter 14. -/

namespace Sys2Proof.Machine

/-! ### Barriers -/

/-- A barrier or spool word: uniform operands, refused in handlers and routines. One that releases waits for the accesses of
the group in flight. -/
def barWd (g : Guard) (codes reads dests : List Code) (releases : Bool) (run : Cx → M Out) : Wd :=
  { cls := .u, guard := g, codes := codes, legal := fun _ => codes.all (fun r => !isVec r), reads := fun _ => reads
    accept := fun c => reads.all c.intTag, dests := fun _ => dests
    handler := false, inExit := false, inEntry := false, drains := releases, run := run }

/-- Barrier `b` of a group's workgroup. -/
def barrierOf (s : State) (launch wg : Nat) (b : Nat) : Barrier :=
  match s.wg launch wg with
  | some w => (w.bars[b]?).getD { phase := 0, expect := 1, count := 0 }
  | none => { phase := 0, expect := 1, count := 0 }

/-- The difference of phases that a BARW looks at (R203). -/
def phaseGap (phase : BitVec 16) (token : Nat) : Nat := (phase - BitVec.ofNat 16 token).toNat

/-- The words of a workgroup that wait for the phase that a barrier has just completed are released (R203). -/
def releaseWaiters (s : State) (launch wg b : Nat) (phase : BitVec 16) : State :=
  let f (p : Path) : Path := match p.phase with
    | some (n, t, false) => if n = b ∧ phaseGap phase t = 1 then { p with phase := some (n, t, true) } else p
    | _ => p
  { s with groups := s.groups.map (fun (g : Group) =>
      if g.launch == launch && g.wg == wg then
        { g with slot0 := g.slot0.map f, slot1 := g.slot1.map f
                 spill := g.spill.map (fun x => { x with path := x.path.map f }) }
      else g) }

/-- A barrier put back, and waiters released if its phase has moved. -/
def setBarrier (s : State) (launch wg b : Nat) (x : Barrier) : State :=
  let old := barrierOf s launch wg b
  let s := match s.wg launch wg with
    | some w => s.setWg { w with bars := w.bars.setIfInBounds b x }
    | none => s
  if x.phase = old.phase then s else releaseWaiters s launch wg b x.phase

/-- BARI (R201): a new expected count; a count that meets it completes the phase. -/
def execBari (g : Guard) (a : Code) (b : BitVec 4) (s : State) : Host.Outcome State Fault Refusal :=
  issueWord (barWd g [a] [a] [] false (fun c => do
    let e := (c.val a 0).toNat
    if e = 0 ∨ 65535 < e then failCode cBarCount
    else
      modify (fun (s : State) =>
        let x := barrierOf s c.g.launch c.g.wg b.toNat
        setBarrier s c.g.launch c.g.wg b.toNat
          (if e ≤ x.count then { phase := x.phase + 1, expect := e, count := 0 } else { x with expect := e }))
      pure {})) s

/-- An arrival of a count (R199). -/
def Barrier.arrive (x : Barrier) (n : Nat) : Barrier :=
  if x.expect ≤ x.count + n then { x with phase := x.phase + 1, count := x.count + n - x.expect }
  else { x with count := x.count + n }

/-- BARA (R202, R201 on synchronisation): a release at CORE scope, then the arrival; the token is the phase before. -/
def execBara (g : Guard) (d a : Code) (b : BitVec 4) (s : State) : Host.Outcome State Fault Refusal :=
  issueWord (barWd g [d, a] [a] [d] true (fun c => do
    let s ← get
    let x := barrierOf s c.g.launch c.g.wg b.toNat
    let n := (c.val a 0).toNat
    if x.expect < n then failCode cBarCount
    else
      if n = 0 then pure ()
      else
        releaseActions c .core
        releaseLog c .core
      modify (fun (s : State) => setBarrier s c.g.launch c.g.wg b.toNat (x.arrive n))
      pure { regs := [out32 d 1 (fun _ => BitVec.ofNat 32 x.phase.toNat) .n32] })) s

/-- BARW (R203): waits while the token's phase is current or read as a future one. -/
def execBarw (g : Guard) (n : BitVec 3) (a : Code) (b : BitVec 4) (s : State) : Host.Outcome State Fault Refusal :=
  issueWord (barWd g [a] [a] [] false (fun c => do
    let s ← get
    let t := (c.val a 0).toNat % 65536
    let gap := phaseGap (barrierOf s c.g.launch c.g.wg b.toNat).phase t
    let back (old : Word) : Out := { preds := [(n.toNat, c.live, old)] }
    if (pathNow s c).phase = some (b.toNat, t, true) ∨ gap = 1 then pure (back 0)
    else if 2 ≤ gap ∧ gap ≤ 0x7FFF then pure (back 0xFFFFFFFF)
    else
      changePath c (fun (p : Path) => { p with phase := some (b.toNat, t, false) })
      waitStep)) s

/-- BART (R204). -/
def execBart (g : Guard) (d : Code) (b : BitVec 4) (s : State) : Host.Outcome State Fault Refusal :=
  issueWord (barWd g [d] [] [d] false (fun c => do
    let s ← get
    let x := barrierOf s c.g.launch c.g.wg b.toNat
    pure { regs := [out32 d 1 (fun _ => BitVec.ofNat 32 (x.phase.toNat * 65536 + (x.expect - x.count))) .n32] })) s

/-! ### Spool queues -/

/-- A spool queue put back. -/
def setSpool (s : State) (q : QuadId) (n : Nat) (x : Spool) : State :=
  let qu := s.quad q
  s.setQuad { qu with spools := putN qu.spools n x }

/-- Entry `i` of a ring, counted from the head (R202). -/
def Spool.place (x : Spool) (i : Nat) : Nat := x.base + 4 * ((x.head + i) % x.cap)
def ringRead (s : State) (x : Spool) (i : Nat) : Word :=
  match s.wg x.launch x.wg with
  | some w => BitVec.ofNat 32 (readLE w.scr (x.place i) 4)
  | none => 0
def ringWrite (s : State) (x : Spool) (i : Nat) (v : Word) : State := writeScr s x.launch x.wg (x.place i) v.toNat 4

/-- The live queue that a word names, or SPOOL_QUEUE (R203). A word that waits on a queue whose owner has ended traps,
whatever queue has become live under its number since (R202). -/
def needSpool (c : Cx) (n : Nat) : M Spool := do
  let s ← get
  match lookupN (s.quad (keyQuad c.key)).spools n with
  | some x =>
    if x.world = c.g.world ∧ x.launch = c.g.launch ∧ (c.p.spool.getD x.id) = x.id then pure x else failCode cSpoolQueue
  | none => failCode cSpoolQueue

/-! #### The words that wait (R204) -/

/-- Whether a path's word waits on queue `id` under an entry of its list. -/
def Path.waitsOn (p : Path) (id : Nat) (w : SpoolWait) : Bool := p.id == w.path && p.spool == some id

/-- The entries of a list whose words still wait, in a slot or on the spill stack. -/
def waitingOn (s : State) (id : Nat) (l : List SpoolWait) : List SpoolWait :=
  l.filter (fun w => s.groups.any (fun (g : Group) => g.serial == w.serial &&
    (g.slot0.toList ++ g.slot1.toList ++ g.spill.filterMap (fun x => x.path)).any (fun p => p.waitsOn id w)))

/-- The group and slot where an entry's word waits. -/
def SpoolWait.seat (w : SpoolWait) (s : State) (id : Nat) : Option (Key × Bool) :=
  s.groups.findSome? (fun (g : Group) =>
    if g.serial != w.serial then none
    else if g.slot0.any (fun p => p.waitsOn id w) then some (g.key, false)
    else if g.slot1.any (fun p => p.waitsOn id w) then some (g.key, true)
    else none)

/-- The first entry of a list whose word stands in a path slot. -/
def firstSeated (s : State) (id : Nat) (l : List SpoolWait) : Option (SpoolWait × Key × Bool) :=
  l.findSome? (fun w => (w.seat s id).map (fun x => (w, x)))

/-- A waiting word completed: its results written and its path gone on. -/
def answer (s : State) (k : Key) (sl : Bool) (rs : List RegOut) : State :=
  let names := rs.map (fun r => r.code)
  let s := unlatch (spoilRecords s k names) k names
  match s.group k with
  | none => s
  | some g => afterWord (endLatch (noteIssue (s.setGroup (finish g sl none s.tick { regs := rs })) k sl) k sl) k

/-- The head handle taken (R349). -/
def popHead (s : State) (q : QuadId) (n : Nat) (x : Spool) : State :=
  setSpool s q n { x with head := (x.head + 1) % x.cap, n := x.n - 1 }

/-- A handle entered into the ring (R348). -/
def pushTail (s : State) (q : QuadId) (n : Nat) (x : Spool) (h : Word) : State :=
  setSpool (ringWrite s x x.n h) q n { x with n := x.n + 1, allow := x.allow - 1 }

/-- The next waiting word of a queue served, if handles, allowance and room allow it (R204). A push whose handle has become
invalid is taken off the list: its word traps when it is tried again (R348). -/
def serveOne (s : State) (q : QuadId) (n : Nat) : Option State :=
  match lookupN (s.quad q).spools n with
  | none => none
  | some x =>
    match firstSeated s x.id x.pops, decide (0 < x.n) with
    | some (w, key, sl), true =>
      let h := ringRead s x 0
      some (answer (popHead s q n { x with pops := x.pops.erase w }) key sl
        [out32 (BitVec.ofNat 7 w.arg) 1 (fun _ => h) .n32])
    | _, _ =>
      match firstSeated s x.id x.pushes with
      | none => none
      | some (w, key, sl) =>
        let y := { x with pushes := x.pushes.erase w }
        let h : Word := BitVec.ofNat 32 w.arg
        if x.allow = 0 ∨ x.n = x.cap then none
        else if (tileOf (s.quad q) x.world x.launch h).isNone then some (setSpool s q n y)
        else some (answer (pushTail s q n y h) key sl [])

/-- The waiting words of a queue served in their order, at most `k`. -/
def serveSpool : Nat → QuadId → Nat → State → State
  | 0, _, _, s => s
  | k + 1, q, n, s => match serveOne s q n with
    | some s' => serveSpool k q n s'
    | none => s

/-- As many as wait. -/
def serve (q : QuadId) (n : Nat) : M Unit :=
  modify (fun (s : State) => match lookupN (s.quad q).spools n with
    | some x => serveSpool (x.pops.length + x.pushes.length) q n s
    | none => s)

/-- A word joins the words that wait on a queue, behind them, if it is not among them (R204). -/
def joinSpool (c : Cx) (n : Nat) (pop : Bool) (arg : Nat) : M Out := do
  let x ← needSpool c n
  let s ← get
  let me : SpoolWait := { serial := c.g.serial, path := c.p.id, arg := arg }
  let add (l : List SpoolWait) : List SpoolWait :=
    if c.p.spool.isSome && l.contains me then l else waitingOn s x.id (l.erase me) ++ [me]
  set (setSpool s (keyQuad c.key) n (if pop then { x with pops := add x.pops } else { x with pushes := add x.pushes }))
  changePath c (fun (p : Path) => { p with spool := some x.id })
  waitStep

/-- A spool word. -/
def spoolWd (g : Guard) (codes reads dests : List Code) (legal releases : Bool) (run : Cx → M Out) : Wd :=
  { barWd g codes reads dests releases run with legal := fun _ => legal && codes.all (fun r => !isVec r) }

/-- QINIT (R347). -/
def qinit (g : Guard) (d a : Code) (n : Nat) : Wd :=
  spoolWd g [a, up a 1, up a 2] [a, up a 1, up a 2] [] (d == 0 && decide (a.toNat ≤ 125)) false (fun c => do
    let s ← get
    let q := keyQuad c.key
    let base := (c.val a 0).toNat
    let cap := (c.val (up a 1) 0).toNat
    let allow := (c.val (up a 2) 0).toNat
    if (lookupN (s.quad q).spools n).isSome then failCode cSpoolBusy
    else if cap = 0 ∨ 256 < cap ∨ 65535 < allow then failCode cSpoolArg
    else if base % 4 ≠ 0 then failCode cAlign base
    else
      let fits := match s.wg c.g.launch c.g.wg with | some w => decide (base + 4 * cap ≤ w.bytes) | none => false
      if !fits then failCode cScrRange base
      else
        set (setSpool { s with nextId := s.nextId + 1 } q n
          { id := s.nextId, world := c.g.world, launch := c.g.launch, wg := c.g.wg, base := base, cap := cap, head := 0
            n := 0, allow := allow, pops := [], pushes := [] })
        pure {})

/-- Whether the word of a context has been served while it waited: its path has gone on. -/
def served (c : Cx) : M Bool := do
  let s ← get
  pure (c.p.spool.isSome && (pathNow s c).spool != c.p.spool)

/-- A handle accepted (R348): valid as it is accepted, after the release. -/
def accept (c : Cx) (n : Nat) (h : Word) : M Unit := do
  let _ ← needTile c h
  let x ← needSpool c n
  modify (fun (s : State) => pushTail s (keyQuad c.key) n x h)
  serve (keyQuad c.key) n

/-- QPUSH (R348, R204): the release first, then its turn behind the pushes that wait. -/
def qpush (g : Guard) (d a : Code) (n : Nat) : Wd :=
  spoolWd g [a] [a] [] (d == 0) true (fun c => do
    let h := c.val a 0
    let _ ← needSpool c n
    let _ ← needTile c h
    if c.p.spool.isSome then pure ()
    else
      releaseActions c .die
      releaseLog c .die
    serve (keyQuad c.key) n
    if ← served c then pure { go := .moved }
    else
      let x ← needSpool c n
      if c.p.spool.isNone ∧ 0 < x.allow ∧ x.n < x.cap then
        accept c n h
        pure {}
      else joinSpool c n false h.toNat)

/-- QTRYPUSH (R348, R204): waiting pushes that can be served are served first. -/
def qtrypush (g : Guard) (d a : Code) (n : Nat) : Wd :=
  spoolWd g [d, a] [a] [d] true true (fun c => do
    let h := c.val a 0
    let _ ← needSpool c n
    let _ ← needTile c h
    releaseActions c .die
    serve (keyQuad c.key) n
    let x ← needSpool c n
    if x.allow = 0 ∨ x.n = x.cap then pure { regs := [out32 d 1 (fun _ => 0) .n32] }
    else
      releaseLog c .die
      accept c n h
      pure { regs := [out32 d 1 (fun _ => 1) .n32] })

/-- The handle at the head given to the word at issue (R349); the room that it leaves goes to a push that waits. -/
def takeHead (c : Cx) (n : Nat) (x : Spool) (d : Code) : M Out := do
  let s ← get
  let h := ringRead s x 0
  set (popHead s (keyQuad c.key) n x)
  serve (keyQuad c.key) n
  pure { regs := [out32 d 1 (fun _ => h) .n32] }

/-- QPOP (R349, R204): in the order in which the words began to wait. -/
def qpop (g : Guard) (d a : Code) (n : Nat) : Wd :=
  spoolWd g [d] [] [d] (a == 0) false (fun c => do
    let _ ← needSpool c n
    serve (keyQuad c.key) n
    if ← served c then pure { go := .moved }
    else
      let x ← needSpool c n
      if c.p.spool.isNone ∧ 0 < x.n then takeHead c n x d else joinSpool c n true d.toNat)

/-- QTRYPOP (R349, R204): succeeds where a handle remains after every waiting QPOP has been served. -/
def qtrypop (g : Guard) (d a : Code) (n : Nat) : Wd :=
  spoolWd g [d] [] [d] (a == 0) false (fun c => do
    let _ ← needSpool c n
    serve (keyQuad c.key) n
    let x ← needSpool c n
    if x.n = 0 then pure { regs := [out32 d 1 (fun _ => 0xFFFFFFFF) .n32] } else takeHead c n x d)

/-- QALLOW (R350). -/
def qallow (g : Guard) (d a : Code) (n : Nat) : Wd :=
  spoolWd g [a] [a] [] (d == 0) false (fun c => do
    let x ← needSpool c n
    let v := (c.val a 0).toNat
    if 65535 < v then failCode cSpoolArg
    else
      modify (fun (s : State) => setSpool s (keyQuad c.key) n { x with allow := min (x.allow + v) 65535 })
      serve (keyQuad c.key) n
      pure {})

/-- SPOOL (R203). -/
def execSpool (g : Guard) (d a : Code) (m q : BitVec 4) (s : State) : Host.Outcome State Fault Refusal :=
  issueWord (match m.toNat with
    | 0 => qinit g d a q.toNat
    | 1 => qpush g d a q.toNat
    | 2 => qpop g d a q.toNat
    | 3 => qtrypush g d a q.toNat
    | 4 => qtrypop g d a q.toNat
    | _ => qallow g d a q.toNat) s

end Sys2Proof.Machine
end

