-- ==== Sys2Proof/Machine/Spawn.lean ====
section
/-! DEFINITION. SPAWN and its bins (R212, R213), the group words (R95, R213, R214) and the issue ports' and pools' events
(R215, R216). -/

namespace Sys2Proof.Machine

/-! ### Spawn bins (R212, R213) -/

/-- The bin that a thread joins: the one of its key that is not full, else a free one of the 16, with its number. -/
def binFor (k : Core) (launch wg : Nat) (entry : Word) (t : Tag) : Option (Nat × Option Bin) :=
  match k.bins.find? (fun b => b.2.launch == launch && b.2.wg == wg && b.2.entry == entry && b.2.tag == t) with
  | some (n, b) => if b.threads.length < 32 then some (n, some b) else none
  | none => ((List.range 16).find? (fun n => (lookupN k.bins n).isNone)).map (fun n => (n, none))

/-- One thread appended; a bin that is full launches. None where the word must wait. -/
def appendThread (s : State) (g : Group) (entry : Word) (t : Tag) (arg : Word) (i : Nat) : Option State :=
  let c := keyCore g.key
  let k := s.core c
  let lvl : List Word := (List.range 8).map (fun j => (((g.lvl[j]?).getD (Vector.replicate 32 0))[i]?).getD 0)
  let time := match s.wg g.launch g.wg with | some w => w.btime | none => 1024
  match binFor k g.launch g.wg entry t with
  | none => none
  | some (n, b) =>
    let b := b.getD { launch := g.launch, wg := g.wg, entry := entry, tag := t, threads := [], due := s.now + time,
                      expired := false }
    let b := { b with threads := b.threads ++ [(arg, lvl)] }
    let s := s.setCore { k with bins := putN k.bins n b }
    some (if b.threads.length = 32 then launchBin s c n else s)

/-- The lanes of a SPAWN appended in turn, as far as it goes; those appended are noted on the path (R213). -/
def spawnLanes (c : Cx) (entry : Word) (t : Tag) (d : Code) : List Nat → M Unit
  | [] => pure ()
  | i :: r => do
    let s ← get
    match appendThread s c.g entry t (c.val d i) i with
    | none => waitStep
    | some s' =>
      set s'
      changePath c (fun (p : Path) => { p with spawned := p.spawned ||| laneBit i })
      spawnLanes c entry t d r

/-- SPAWN (R213): the entry checked once (R197), a release at CORE scope, then one thread for each lane of L ∧ em. -/
def execSpawn (g : Guard) (d a : Code) (s : State) : Host.Outcome State Fault Refusal :=
  issueWord
    { cls := .u, guard := g, codes := [d, a], legal := fun _ => !isVec a, reads := fun _ => [d, a]
      accept := fun c => !wide (c.tag d) && !isBfp (c.tag d) && c.intTag a
      handler := false, inExit := false, inEntry := false, drains := true
      run := fun c => do
        let e := c.val a 0
        if c.p.read.isSome then pure () else checkJump c true e
        if c.en = 0 then pure {}
        else
          releaseActions c .core
          releaseLog c .core
          spawnLanes c e (c.tag d) d (lanesOf (c.en &&& ~~~c.p.spawned))
          pure {} } s

/-- BTIME (R213). -/
def execBtime (g : Guard) (a : Code) (s : State) : Host.Outcome State Fault Refusal :=
  issueWord
    { cls := .u, guard := g, codes := [a], legal := fun _ => !isVec a, reads := fun _ => [a]
      accept := fun c => c.intTag a, handler := false, inExit := false, inEntry := false
      run := fun c => do
        let n := (c.val a 0).toNat
        if n < 128 ∨ 32768 < n then failCode cSpawnArg
        else
          modify (fun (s : State) => match s.wg c.g.launch c.g.wg with
            | some w => s.setWg { w with btime := n }
            | none => s)
          pure {} } s

/-- BFLUSH (R213): every bin of the workgroup launches at once. -/
def execBflush (g : Guard) (s : State) : Host.Outcome State Fault Refusal :=
  issueWord
    { cls := .u, guard := g, handler := false, inExit := false, inEntry := false
      run := fun c => do
        modify (fun (s : State) => (binsOf (s.core (keyCore c.key)) c.g.launch c.g.wg).foldl
          (fun (s : State) (b : Nat × Bin) => launchBin s (keyCore c.key) b.1) s)
        pure {} } s

/-- BIN_TIMER_EXPIRY (R212): a bin whose time has come launches. -/
def execBinTimerExpiry (c : CoreId) (bin : Nat) (s : State) : Host.Outcome State Fault Refusal :=
  match lookupN (s.core c).bins bin with
  | some b => if b.due ≤ s.now then .next (launchBin s c bin) else .next s
  | none => .next s

/-- BIN_LAUNCH (R212): a full or expired bin that waits launches once the core has the slot and the registers. -/
def execBinLaunch (c : CoreId) (bin : Nat) (s : State) : Host.Outcome State Fault Refusal :=
  match lookupN (s.core c).bins bin with
  | some b => if b.expired || b.threads.length == 32 then .next (launchBin s c bin) else .next s
  | none => .next s

/-! ### Special registers (R214) -/

/-- The numbers that MFSR reads. -/
def srLegal (n : Nat) : Bool := decide (n ≤ 31 ∧ n ≠ 15)
/-- Whether a special register is 64 bits wide. -/
def srWide (n : Nat) : Bool := n == 7 || n == 8
/-- Whether a special register has a value per lane. -/
def srLanes (n : Nat) : Bool := n == 0 || (decide (16 ≤ n) && decide (n ≤ 23))

/-- The value of a special register in a lane (R214). -/
def srValue (s : State) (g : Group) (n i : Nat) : Nat :=
  match n with
  | 0 => i
  | 1 => g.key.slot
  | 2 => g.wg % 2 ^ 32
  | 3 => g.key.core / 4
  | 4 => g.key.die
  | 5 => s.pkg.toNat
  | 6 => g.world
  | 7 => s.now % 2 ^ 64
  | 8 => g.wct % 2 ^ 64
  | 9 => g.em.toNat
  | 10 => g.flags.toNat
  | 11 => g.quota
  | 12 => g.key.core / 8
  | 13 => s.power.ceiling
  | 14 => g.key.core
  | _ =>
    if n < 24 then ((((g.lvl[n - 16]?).getD (Vector.replicate 32 0))[i]?).getD 0).toNat
    else match s.launch g.launch with
      | some l => (l.extWord (n - 24)).toNat
      | none => 0

/-- Every pending result of the group is written (R115, R174). -/
def settleAll (c : Cx) : M Unit :=
  modify (fun (s : State) => match s.group c.key with
    | some g => s.setGroup { g with pending := [] }
    | none => s)

/-- MFSR (R214): a vector destination in every lane of L ∧ em, a uniform one from the lowest of them. A read of `%time` or
`%flags` waits for the group's accesses in flight (R115, R214). -/
def execMfsr (g : Guard) (d : Code) (n : BitVec 7) (s : State) : Host.Outcome State Fault Refusal :=
  issueWord
    { cls := .u, guard := g, codes := [d]
      legal := fun c => srLegal n.toNat && (if srWide n.toNat then pairOk c.g.quota d else true)
      dests := fun _ => if srWide n.toNat then [d, up d 1] else [d]
      drains := n == 7 || n == 10
      run := fun c => do
        if n = 10 then settleAll c else pure ()
        let s ← get
        let g := (s.group c.key).getD c.g
        let t : Tag := if srWide n.toNat then .n64 else .n32
        if !isVec d && c.en == 0 then
          pure { regs := outOf d 1 (fun _ =>
            if srLanes n.toNat then (Config.laneOpen s.tick n.toNat).toNat else srValue s g n.toNat 0) t }
        else pure { regs := outOf d c.en (srValue s g n.toNat) t } } s

/-- MTSR (R213, R115): only `%flags`. -/
def execMtsr (g : Guard) (a : Code) (s : State) : Host.Outcome State Fault Refusal :=
  issueWord
    { cls := .u, guard := g, codes := [a], legal := fun _ => !isVec a, reads := fun _ => [a]
      accept := fun c => c.intTag a, inExit := false, inEntry := false, drains := true
      run := fun c => do
        settleAll c
        modify (fun (s : State) => match s.group c.key with
          | some g => s.setGroup (g.writeFlags (c.val a 0))
          | none => s)
        pure {} } s

/-- ELECT (R213): one bit for the lowest lane of L ∧ em; in single-lane mode lane h only (R234). -/
def execElect (g : Guard) (n : BitVec 3) (s : State) : Host.Outcome State Fault Refusal :=
  issueWord
    { cls := .u, guard := g
      run := fun c => pure { preds := [(n.toNat, c.live, match lowest c.en with | some i => laneBit i | none => 0)] } } s

/-- FMODE (R112, R213). -/
def execFmode (g : Guard) (r : BitVec 2) (s : State) : Host.Outcome State Fault Refusal :=
  issueWord
    { cls := .u, guard := g, inExit := false, inEntry := false
      run := fun c => do
        modify (fun (s : State) => match s.group c.key with
          | some g => s.setGroup (g.setRm r.toNat)
          | none => s)
        pure {} } s

/-! ### REGQ (R95) -/

/-- A group with a new quota: registers that a shrink discards and a grow adds are VOID with zero side-file entries; what
was in flight to them is dropped. -/
def Group.requota (g : Group) (q : Nat) : Group :=
  let lo := min g.quota q
  let gone (n : Nat) : Bool := decide (lo ≤ n)
  { g with
    quota := q
    v := Vector.ofFn (fun (i : Fin 96) => if gone i.val then VReg.void else g.vreg i.val)
    pending := g.pending.filter (fun e => match e.what with | .vec n _ => !gone n | _ => true) }

/-- Accesses in flight to registers at or above a quota dropped (R214). -/
def dropFlights (s : State) (k : Key) (q : Nat) : State :=
  { s with flight := s.flight.filter (fun (f : Inflight) => !(f.key == k && isVec f.dest && decide (q ≤ f.dest.toNat))) }

/-- Whether a group is stalled in a grow (R95). -/
def growing (s : State) (k : Key) : Bool := (s.core (keyCore k)).grows.any (fun x => x.1 == k)

/-- REGQ (R95): a shrink at once; a grow in arrival order, the whole group stalled meanwhile. The grant completes the word. -/
def execRegq (g : Guard) (k : BitVec 4) (s : State) : Host.Outcome State Fault Refusal :=
  issueWord
    { cls := .u, guard := g, legal := fun _ => decide (2 ≤ k.toNat ∧ k.toNat ≤ 12)
      handler := false, inExit := false, inEntry := false
      run := fun c => do
        let s ← get
        let q := 8 * k.toNat
        let id := keyCore c.key
        let core := s.core id
        match s.group c.key with
        | none => pure {}
        | some gr =>
          if q = gr.quota then pure {}
          else if q < gr.quota then
            set (dropFlights (s.setGroup (gr.requota q)) c.key q)
            pure {}
          else if core.grows.isEmpty && decide (q - gr.quota ≤ s.freeRegs id) then
            set (s.setGroup (gr.requota q))
            pure {}
          else
            if growing s c.key then pure ()
            else set (s.setCore { core with grows := core.grows ++ [(c.key, q)] })
            changePath c (fun (p : Path) => { p with grows := true })
            waitStep } s

/-- The paths of a group whose REGQ has been granted go on; others that the grow held back are tried again. -/
def Group.grown (g : Group) (tick : Nat) : Group :=
  let on (p : Path) : Path := if p.grows then p.next tick else { p with parked := none }
  { g with slot0 := g.slot0.map on, slot1 := g.slot1.map on }

/-- REGQ_GROW_GRANT (R95): the oldest pending grow, once the pool holds enough; its word is complete. -/
def execRegqGrowGrant (c : CoreId) (s : State) : Host.Outcome State Fault Refusal :=
  let k := s.core c
  match k.grows with
  | [] => .next s
  | (key, q) :: rest =>
    match s.group key with
    | none => .next (s.setCore { k with grows := rest })
    | some g =>
      if q - g.quota ≤ s.freeRegs c then
        .next (afterWord ((s.setCore { k with grows := rest }).setGroup ((g.requota q).grown s.tick)) key)
      else .next s

/-! ### Issue and withholding (R215, R216) -/

/-- A path of a group changed. -/
def onPath (s : State) (k : Key) (sl : Bool) (f : Path → Path) : State :=
  match s.group k with
  | some g => s.setGroup (g.setSlot sl ((g.slot sl).map f))
  | none => s

/-- ISSUE_AGE_BOOST (R215): a slot eligible for 256 cycles without issuing ranks at priority 15 for its next
selection. -/
def execIssueAgeBoost (k : Key) (slot1 : Bool) (s : State) : Host.Outcome State Fault Refusal :=
  .next (onPath s k slot1 (fun p => if 256 ≤ p.aged then { p with boost := true } else p))

/-- WITHHOLD_EXEMPTION (R216): a slot withheld for 4,096 cycles is exempt for its next word. Withholding changes timing
only, and the model withholds nothing. -/
def execWithholdExemption (k : Key) (slot1 : Bool) (s : State) : Host.Outcome State Fault Refusal :=
  .next (onPath s k slot1 (fun p => if p.issued + 4096 ≤ s.tick then { p with exempt := true } else p))

/-- QUAD_POOL_REASSIGN (R216, R274): Derdieb moves a quad to another pool, only while no group is resident on it, and
sets its refill rate. -/
def execQuadPoolReassign (q : QuadId) (cls : OpClass) (rate : Nat) (s : State) : Host.Outcome State Fault Refusal :=
  if s.groups.any (fun (g : Group) => keyQuad g.key == q) then .next s
  else .next (s.setQuad { s.quad q with cls := cls, refill := rate })

end Sys2Proof.Machine
end

