-- ==== Sys2Proof/Machine/Service.lean ====
section
/-! DEFINITION. Service calls, software traps and the words of the privileged scalar subset (R235-R237, R242, R351-R354 of
chapter 17). -/

namespace Sys2Proof.Machine

/-- A SYS word: class C. `single` words exist in single-lane mode only, the others in normal mode only (R237, R234,
R249, R255). -/
def sysWd (g : Guard) (single : Bool) (codes : List Code) (legal : Cx → Bool) (run : Cx → M Out) : Wd :=
  { cls := .c, guard := g, codes := codes, legal := fun c => legal c && (!single || c.g.single.isSome)
    handler := single, inExit := single, inEntry := single, run := run }

/-! ### SYSC and TRAP (R351) -/

/-- The entry of a service call for the lowest lane of a set: the group as it enters SVEC with TPC behind the SYSC, or the
fault of a bad vector. -/
def callEntry (s : State) (g : Group) (sl : Bool) (p : Path) (n : BitVec 4) (left ret : Word) : M Unit := do
  let svec := match s.world g.world with | some w => w.svec | none => 0
  if svec = 0 ∨ !goodVector s (keyCore g.key) g.world svec then failCode cTrapVector
  else
    let h := (lowest left).getD 0
    modify (fun (s : State) =>
      let s := (landAtoms s g.key).dropPort g.key
      let g := (s.group g.key).getD g
      s.setGroup (enterHandler g sl p svec h (some n) left (causeWord true h cSysc n.toNat) ret left 0))

/-- SYSC (R351): with no lane in L ∧ em nothing is called. -/
def sysc (g : Guard) (d a : Code) (n : BitVec 4) : Wd :=
  sysWd g false [] (fun _ => d == 0 && a == 0) (fun c => do
    if c.en = 0 then pure {}
    else
      let s ← get
      callEntry s c.g c.sl c.p n c.en (c.p.pc + 4)
      pure { go := .moved })

/-- TRAP (R351): a precise fault of code 35. -/
def trapWord (g : Guard) (d a : Code) : Wd :=
  sysWd g false [] (fun _ => d == 0 && a == 0) (fun _ => failCode cTrap)

/-! ### ERET (R352) -/

/-- ERET and ERET.F (R352). -/
def eret (g : Guard) (d a : Code) (i : BitVec 4) : Wd :=
  sysWd g true [] (fun _ => d == 0 && a == 0 && decide (i.toNat ≤ 1)) (fun c => do
    let s ← get
    match c.g.single with
    | none => pure {}
    | some x =>
      let v := c.g.svc
      if i = 1 then
        set (fatalGroup s c.g (bitsOf v.tcause.toNat 16 8) (v.taddrl.toNat + 2 ^ 32 * v.taddrh.toNat) v.tpc x.h v.tmask)
        pure { go := .moved }
      else
        let rest := x.left &&& ~~~laneBit x.h
        match x.svc with
        | some n =>
          if rest ≠ 0 then
            callEntry s c.g x.slot1 x.held n rest x.ret
            pure { go := .moved }
          else if v.tpc.toNat % 4 ≠ 0 ∨ !landed s (keyCore c.key) c.g.world v.tpc then failCode cDoubleFault
          else
            set (s.setGroup (leaveHandler c.g x s.tick))
            pure { go := .moved }
        | none =>
          if v.tpc.toNat % 4 ≠ 0 ∨ !landed s (keyCore c.key) c.g.world v.tpc then failCode cDoubleFault
          else
            set (s.setGroup (leaveHandler c.g x s.tick))
            pure { go := .moved })

/-! ### LRD and LWR (R353) -/

/-- The lane that LSEL selects. -/
def Cx.selected (c : Cx) : Nat := c.g.svc.lsel.toNat % 32

/-- Moves one lane of A into one lane of D, tag and side-file entry with it. -/
def laneMove (g : Guard) (d a : Code) (i : BitVec 4) (from_ to_ : Cx → Nat) : Wd :=
  { sysWd g true [d, a] (fun _ => i == 0 && isVec d && isVec a) (fun c =>
      let t := c.tag a
      pure { regs := outOf d (laneBit (to_ c)) (fun _ => c.valOf a (from_ c)) t
                       (if isBfp t then some (c.side a) else none) })
    with
    judge := [a], legalT := fun c => c.flexOk a && c.destOk (c.tag a) d
    reads := fun c => c.flex a, accept := fun c => c.flexTag a, dests := fun c => destRegs (c.tag a) d }

/-- LRD.P: a predicate bit of the selected lane. -/
def predRead (g : Guard) (d a : Code) (i : BitVec 4) : Wd :=
  let n := i.toNat % 8
  { sysWd g true [d] (fun _ => a == 0 && isVec d) (fun c =>
      let b := hasBit (seePred c.g c.sl c.p.cycle n) c.selected
      pure { regs := [out32 d (laneBit (lowest c.live |>.getD 0)) (fun _ => if b then 1 else 0) .n32] })
    with preads := [n], dests := fun _ => [d] }

/-- LWR.P: a predicate bit of the selected lane written; p7 discards. -/
def predWrite (g : Guard) (d a : Code) (i : BitVec 4) : Wd :=
  let n := i.toNat % 8
  { sysWd g true [a] (fun _ => d == 0 && isVec a) (fun c =>
      let b := hasBit (c.val a ((lowest c.live).getD 0)) 0
      let m := laneBit c.selected
      pure { preds := [(n, m, if b then m else 0)] })
    with reads := fun _ => [a], accept := fun c => c.intTag a }

/-- LRD (R353): lane h of D from the selected lane of A. -/
def lrd (g : Guard) (d a : Code) (i : BitVec 4) : Wd :=
  if i.getLsbD 3 then predRead g d a i
  else laneMove g d a i Cx.selected (fun c => (lowest c.live).getD 0)
/-- LWR (R353): the selected lane of D from lane h of A. -/
def lwr (g : Guard) (d a : Code) (i : BitVec 4) : Wd :=
  if i.getLsbD 3 then predWrite g d a i
  else laneMove g d a i (fun c => (lowest c.live).getD 0) Cx.selected

/-! ### SRV (R232, R354) -/

/-- A service register as SRV reads it. -/
def Service.read (v : Service) (k : Nat) : UReg :=
  let n32 (x : Word) : UReg := { bits := x, tag := .n32, side := 0 }
  match k with
  | 0 => n32 v.tcause | 1 => n32 v.tpc | 2 => n32 v.tmask | 3 => n32 v.taddrl | 4 => n32 v.taddrh
  | 5 => n32 v.mboxl | 6 => n32 v.mboxh | 7 => n32 v.lsel | 8 => v.hsave0 | _ => v.hsave1

/-- A service register written: TPC, LSEL (its reserved bits as zero), HSAVE0, HSAVE1. -/
def Service.write (v : Service) (k : Nat) (x : UReg) : Service :=
  match k with
  | 1 => { v with tpc := x.bits }
  | 7 => { v with lsel := x.bits &&& 31 }
  | 8 => { v with hsave0 := x }
  | 9 => { v with hsave1 := x }
  | _ => v

/-- SRV sD, k. -/
def srvRead (g : Guard) (d k : Code) : Wd :=
  { sysWd g true [d] (fun _ => !isVec d && decide (k.toNat ≤ 9)) (fun c =>
      let r := c.g.svc.read k.toNat
      pure { regs := [out32 d 1 (fun _ => r.bits) r.tag (if isBfp r.tag then some r.side else none)] })
    with dests := fun _ => [d] }

/-- SRV.W k, sA: HSAVE takes value and tag unchecked. -/
def srvWrite (g : Guard) (k a : Code) : Wd :=
  let n := k.toNat
  let save := decide (n = 8 ∨ n = 9)
  { sysWd g true [a] (fun _ => !isVec a && decide (n = 1 ∨ n = 7 ∨ n = 8 ∨ n = 9)) (fun c => do
      let x : UReg := { bits := c.val a 0, tag := c.tag a, side := c.side a }
      modify (fun (s : State) => match s.group c.key with
        | some gr => s.setGroup { gr with svc := gr.svc.write n x }
        | none => s)
      pure {})
    with
    peeks := [a], takes := if save then [a] else [], reads := fun _ => if save then [] else [a], accept := fun c => save || c.intTag a }

/-- SRV (R354). -/
def srv (g : Guard) (d a : Code) (i : BitVec 4) : Wd :=
  if i = 0 then srvRead g d a else if i = 1 then srvWrite g d a else { srvRead g d a with legal := fun _ => false }

/-- SYS minors 0, 1 and 3 to 6 (R237). -/
def execSys (g : Guard) (d a : Code) (m i : BitVec 4) (s : State) : Host.Outcome State Fault Refusal :=
  match m.toNat with
  | 0 => issueWord (sysc g d a i) s
  | 1 => issueWord (trapWord g d a) s i.toNat
  | 3 => issueWord (eret g d a i) s
  | 4 => issueWord (lrd g d a i) s
  | 5 => issueWord (lwr g d a i) s
  | _ => issueWord (srv g d a i) s

/-! ### WAITR (R235, R242) -/

/-- The mailbox slot of a lane. -/
def mailSlot (g : Group) (i : Nat) : Nat := g.context.toNat + 16 * i

/-- WAITR (R242): waits until every lane of L ∧ em has its reply, then reads the replies and clears each STATUS with a
SYSTEM-scope store. -/
def execWaitr (g : Guard) (d : Code) (s : State) : Host.Outcome State Fault Refusal :=
  issueWord
    { sysWd g false [d] (fun c => isVec d && pairOk c.g.quota d) (fun c => do
        if c.en = 0 then pure {}
        else
          let core := keyCore c.key
          let ps ← placeLanes c (laneAddrs c.en (mailSlot c.g)) wantWrite
          let st ← tryLanes ps (fun p => readPlace core .sys (c.policy p.cp) { p with pa := p.pa + 8 } 4)
          if st.any (fun x => x.2 == 0) then waitStep
          else
            let xs ← tryLanes ps (fun p => readPlace core .sys (c.policy p.cp) p 8)
            awaitPromo core (wordsOf ps)
            readyAt core (ps.map (fun x => (.sys, x.2.home / 32)))
            ps.forM (fun x => atPlace x.2 (writeAt core c.g.world .sys (c.policy x.2.cp) true (cellsOf (x.2.home + 8) 0 4)))
            pure { regs := out64 d c.en (atLane xs 0) .n64 })
      with dests := fun _ => [d, up d 1], touches := true } s

end Sys2Proof.Machine
end

