-- ==== Sys2Proof/Machine/Context.lean ====
section
/-! DEFINITION. The CTX words (R261-R265): the end of an exit routine and of an entry routine, the address of the save
window, the rebuild state. -/

namespace Sys2Proof.Machine

/-- A CTX word (R261): refused in single-lane mode (R234). -/
def ctxWd (g : Guard) (codes reads dests : List Code) (legal : Cx → Bool) (run : Cx → M Out) : Wd :=
  { cls := .u, guard := g, codes := codes, legal := fun c => legal c && codes.all (fun r => !isVec r)
    reads := fun _ => reads, accept := fun c => reads.all c.intTag, dests := fun _ => dests
    handler := false, drains := true, run := run }

/-- The snapshot reinstated (R248). -/
def Group.reinstate (g : Group) (x : Snapshot) : Group :=
  { g with p := x.p, em := x.em, flags := x.flags, score := x.score, slot0 := x.slot0, slot1 := x.slot1
           spill := x.spill, pending := [], routine := .normal }

/-- The snapshot of a group (R248 step 2). -/
def Group.snapshot (g : Group) : Snapshot :=
  { p := g.p, em := g.em, flags := g.flags, score := g.score, slot0 := g.slot0, slot1 := g.slot1, spill := g.spill }

/-- XDONE (R262): the routine ends and the group is routine-saved. -/
def execXdone (g : Guard) (a : Code) (s : State) : Host.Outcome State Fault Refusal :=
  issueWord (ctxWd g [a] [a] [] (fun c => c.g.inExit) (fun c => do
    match c.g.routine with
    | .exit snap _ =>
      modify (fun (s : State) => match s.group c.key with
        | some gr => s.setGroup { gr.reinstate snap with saved := c.val a 0, stage := .saved false }
        | none => s)
    | _ => pure ()
    pure { go := .moved })) s

/-- The 256-byte units of the live ranges of a region entry (R243). -/
def liveUnits (e : BitVec 512) : List Nat :=
  (List.range 4).flatMap (fun i =>
    (List.range (bitsOf e.toNat (192 + 32 * i + 10) 10)).map (fun j => bitsOf e.toNat (192 + 32 * i) 10 + j))

/-- Whether the entry routine has rebuilt what its region declares live (R256). -/
def rebuilt (g : Group) (e : BitVec 512) : Bool :=
  (List.range (min g.quota 96)).all (fun j => bitsOf e.toNat (416 + j) 1 == 0 || g.rebuiltV.getLsbD j) &&
  (List.range 32).all (fun j => bitsOf e.toNat (384 + j) 1 == 0 || g.rebuiltU.getLsbD j) &&
  (liveUnits e).all (fun u => g.rebuiltS.getLsbD u)

/-- Every path of a group changed, those on the spill stack too. -/
def Group.mapPaths (g : Group) (f : Path → Path) : Group :=
  { g with slot0 := g.slot0.map f, slot1 := g.slot1.map f, spill := g.spill.map (fun x => { x with path := x.path.map f }) }

/-- The paths resumed as after a control transfer (R256 step 3). -/
def Group.resumePaths (g : Group) (tick : Nat) : Group := g.mapPaths (fun p => p.resume p.pc tick)

/-- EDONE (R256, R263): waits for the routine's fills, checks the rebuild, reinstates the snapshot, posts the withdrawn
entries. -/
def execEdone (g : Guard) (s : State) : Host.Outcome State Fault Refusal :=
  issueWord (ctxWd g [] [] [] (fun c => c.g.inEntry) (fun c => do
    let s ← get
    if (s.quad (keyQuad c.key)).ops.any (fun o => o.by_.serial == c.g.serial && o.rebuilds) then waitStep
    else
      match c.g.routine, regionEntry s c.g with
      | .entry snap, some e =>
        if !rebuilt c.g e then failCode cRebuildShort
        else
          modify (fun (s : State) => match s.group c.key with
            | some gr => repost (s.setGroup ((gr.reinstate snap).resumePaths s.tick)) c.key
            | none => s)
      | _, _ => pure ()
      pure { go := .moved })) s

/-- CTXB (R264): the address of the save window. -/
def execCtxb (g : Guard) (d : Code) (s : State) : Host.Outcome State Fault Refusal :=
  issueWord (ctxWd g [d, up d 1] [] [d, up d 1] (fun c => pairOk c.g.quota d) (fun c =>
    pure { regs := out64 d 1 (fun _ => c.g.context.toNat + 0x1000) .n64 })) s

/-- RMASK (R265). -/
def execRmask (g : Guard) (d : Code) (k : BitVec 4) (s : State) : Host.Outcome State Fault Refusal :=
  issueWord (ctxWd g [d] [] [d] (fun _ => decide (k.toNat ≤ 4)) (fun c =>
    let w : Word := match k.toNat with
      | 0 => c.g.rebuiltV.extractLsb' 0 32
      | 1 => c.g.rebuiltV.extractLsb' 32 32
      | 2 => c.g.rebuiltV.extractLsb' 64 32
      | 3 => c.g.rebuiltU
      | _ => c.g.saved
    pure { regs := [out32 d 1 (fun _ => w) .n32] })) s

end Sys2Proof.Machine
end

