-- ==== Sys2Proof/Machine/Preempt.lean ====
section
/-! DEFINITION. Pre-emption (chapter 18): partitions and requests (R245, R246), which groups are brute-saved (R247), exit
routines (R248, R250), the halt and drain (R246, R74, R183), the saved image (R251-R253), resumption (R254-R259). -/

namespace Sys2Proof.Machine

/-! ### Partitions (R245) -/

/-- A partition: as listed, else the one quad that its number names, `48·die + quad` (log entry 17: Derdieb assigns
partitions outside the interface). -/
def State.part (s : State) (i : Nat) : Partition :=
  (s.parts.find? (fun p => p.id == i)).getD
    { id := i, die := i / 48 % 32, quads := [i % 48], worlds := [], boundary := false, started := [], stage := 0, deadline := 0 }
def State.setPart (s : State) (p : Partition) : State :=
  { s with parts := p :: s.parts.filter (fun x => x.id != p.id) }
/-- The partition's quads. -/
def Partition.ids (p : Partition) : List QuadId := p.quads.map (fun q => { die := p.die, quad := q })
/-- The groups resident on a partition. -/
def State.inPart (s : State) (p : Partition) : List Group := s.groups.filter (fun g => p.holds (keyCore g.key))

/-! ### Stage 1: stop (R246) -/

/-- A path as it stands when its group stops: between units, waiting words not executed (R22, R53, R95, R172, R206); the
threads that a stalled SPAWN has appended are kept (R213). -/
def Path.halt (p : Path) : Path := { p.quiet with promo := none, phase := none, boost := false, exempt := false }

/-- A group stopped: pending fixed-latency results are written, coverage is gone, and the words that wait, those of spilled
paths too, count as not executed (R30, R32, R172, R206). -/
def stopGroup (s : State) (g : Group) : State :=
  forget ((s.dropPort g.key).setGroup { g.mapPaths Path.halt with pending := [], spillHeld := none, stage := .stopped false }) g

/-- Whether a path stands between the words of an issue unit and its next word is to issue (R22). -/
def Path.inUnit (p : Path) : Bool := p.unitPc.isSome && p.parked.isNone && p.read.isNone
/-- Whether a group has such a path. -/
def Group.inUnit (g : Group) : Bool := g.slot0.any Path.inUnit || g.slot1.any Path.inUnit

/-- The groups of a partition whose units are complete stopped, and the engine entries not granted withdrawn (R22, R150,
R246). -/
def haltGroups (s : State) (p : Partition) : State :=
  p.ids.foldl withdraw (((s.inPart p).filter (fun g => g.stage == .running && !g.inUnit)).foldl stopGroup s)

/-- The groups that have completed their units since a request. -/
def haltRest (s : State) : State := (s.parts.filter (fun p => p.stage == 1)).foldl haltGroups s

/-- The bound of stage 1 in ns: the longer of 2 us and 2,304 cycles of the slowest clock of the partition's quads (R150,
R246). -/
def stopBound (s : State) (p : Partition) : Nat :=
  p.ids.foldl (fun n q => max n ((2304000 + s.clock q - 1) / s.clock q)) 2000

/-- PREEMPT_IMMEDIATE (R246, R150, R258): every group stops, at once or once its issue unit is complete, and the entries
not granted are withdrawn. A partition whose request is in progress takes no new one. -/
def execPreemptImmediate (part : Nat) (s : State) : Host.Outcome State Fault Refusal :=
  let p := s.part part
  if p.stage ≠ 0 ∨ (s.inPart p).isEmpty then .next s
  else
    let p := { p with stage := 1, deadline := s.now + stopBound s p, worlds := ((s.inPart p).map (fun g => g.world)).eraseDups }
    .next (haltGroups (s.setPart p) p)

/-- The launches that have started and may hold groups of a partition: those with a group there, or with none placed yet. -/
def startedOn (s : State) (p : Partition) : List Launch :=
  s.launches.filter (fun l => (s.inPart p).any (fun g => g.launch == l.id) || !s.groups.any (fun g => g.launch == l.id))

/-- PREEMPT_BOUNDARY (R245): no further packet of the partition's queues starts. -/
def execPreemptBoundary (part : Nat) (s : State) : Host.Outcome State Fault Refusal :=
  let p := s.part part
  let ls := startedOn s p
  .next (s.setPart { p with
    boundary := true, started := ls.map (fun l => l.id)
    worlds := (p.worlds ++ ls.map (fun l => l.world)).eraseDups })

/-- Whether a BOUNDARY request keeps a world's packets from starting: until every kernel that had started is complete (log
entry 18). -/
def heldBack (s : State) (world : Nat) : Bool :=
  s.parts.any (fun p => p.boundary && p.worlds.contains world && p.started.any (fun l => (s.launch l).isSome))

/-- Whether the engine of a quad has nothing left to retire: no entry of its own, and no seam pass that a leader has been granted
with it as the follower (R141, R150). -/
def engineIdle (s : State) (q : QuadId) : Bool :=
  (s.quad q).entries.isEmpty &&
  !(q.quad % 2 == 1 && (s.quad { q with quad := q.quad - 1 }).entries.any (fun e => e.granted && e.seam))

/-- Whether a copy operation is recorded: it is still stalled on a translation when the bound expires (R91). -/
def CopyOp.recorded (o : CopyOp) (s : State) (p : Partition) : Bool := o.stalled && o.absent && decide (p.deadline ≤ s.now)

/-- Stage 1 is over: every group has stopped, accesses in flight have returned, granted passes have retired, and every copy
operation has completed or is recorded (R91, R246). -/
def stopped (s : State) (p : Partition) : Bool :=
  (s.inPart p).all (fun g => g.stage != .running) &&
  !s.flight.any (fun f => p.holds (keyCore f.key)) &&
  p.ids.all (fun q => engineIdle s q && (s.quad q).ops.all (fun o => o.recorded s p))

/-! ### Which groups are brute-saved (R247) -/

/-- The registers of a mask field of a region entry. -/
def fieldRegs (e : BitVec 512) (lo : Nat) : List Nat := (List.range 32).filter (fun j => bitsOf e.toNat (lo + j) 1 == 1)

/-- The claimed operand slots that the registers of SLOTREG name, whichever workgroup claimed them (R243, R252). -/
def slotsNamed (s : State) (g : Group) (e : BitVec 512) : List Nat :=
  let q := s.quad (keyQuad g.key)
  (fieldRegs e 320).flatMap (fun j =>
    let n := (g.ureg j).bits.toNat
    match lookupN q.slots n with
    | some o => if o.pair then [n - n % 2, n - n % 2 + 1] else [n]
    | none => [])
/-- The allocations that the registers of ACCREG name. -/
def accsNamed (s : State) (g : Group) (e : BitVec 512) : List Nat :=
  (fieldRegs e 352).filterMap (fun j =>
    (accOf (s.quad (keyQuad g.key)) g.world g.launch (g.ureg j).bits).map (fun a => a.base))

/-- The 256-byte units of a range. -/
def unitsOf (o n : Nat) : List Nat :=
  if n = 0 then [] else (List.range ((o + n - 1) / 256 - o / 256 + 1)).map (fun i => o / 256 + i)

/-- Whether a tile's location lies within live units and live slots. -/
def tileLive (t : Tile) (units slots : List Nat) : Bool :=
  if t.inSlot then t.slots.all slots.contains
  else
    let d := t.desc.toNat
    (unitsOf (dLoc d) (dRows d * dCols d * moveBytes (dTag d))).all units.contains

/-- The allocations whose contents an entry reads, each with its quad. -/
def EngEntry.reads (e : EngEntry) (q : QuadId) : List (QuadId × Nat) :=
  let all := e.accs q
  match e.minor.toNat with
  | 0 | 1 => if e.i4.getLsbD 0 then [] else all
  | 2 => all.drop 1
  | 3 | 7 => all
  | _ => []

/-- Whether a tile of a quad lies within the live ranges of a group's region: in live units of its own workgroup's
allocation, or in live slots of its own quad (R247). -/
def tileMine (g : Group) (q : QuadId) (t : Tile) (units slots : List Nat) : Bool :=
  tileLive t (if t.launch = g.launch ∧ t.wg = g.wg then units else []) (if q = keyQuad g.key then slots else [])

/-- Whether what a withdrawn entry will read is live in the group's region (R247). -/
def entryLive (s : State) (g : Group) (x : EngEntry) (units slots accs : List Nat) : Bool :=
  let q := keyQuad g.key
  (x.srcs q).all (fun y => match lookupN (s.quad y.1).tiles y.2 with
    | some { tile := some t, .. } => tileMine g y.1 t units slots
    | _ => true) &&
  (x.reads q).all (fun a => a.1 == q && accs.contains a.2) &&
  (!(decide (x.minor.toNat ≤ 1) && x.i4.getLsbD 1) ||
    (let (a, n) := scaleAt x.minor.toNat x.record; decide (a < 0x40000) && (unitsOf a n).all units.contains))

/-- Whether what a group's recorded drains and withdrawn entries will read is live in its region (R247). -/
def readsLive (s : State) (g : Group) (e : BitVec 512) : Bool :=
  let units := liveUnits e
  let slots := slotsNamed s g e
  let qu := s.quad (keyQuad g.key)
  qu.ops.all (fun o => o.by_.serial != g.serial || o.kind.fills || (match lookupN qu.tiles o.tile with
    | some { tile := some t, .. } => tileMine g qu.id t units slots
    | _ => true)) &&
  g.withdrawn.all (fun x => entryLive s g x units slots (accsNamed s g e))

/-- R247. -/
def bruteSaved (s : State) (g : Group) : Bool :=
  match regionEntry s g with
  | none => true
  | some e =>
    bitsOf e.toNat 0 1 == 1 || g.single.isSome || g.inEntry ||
    !goodVector s (keyCore g.key) g.world (BitVec.ofNat 32 (bitsOf e.toNat 160 32)) || !readsLive s g e

/-! ### Stage 2: exit routines (R248-R250) -/

/-- U: the union of the lanes of every runnable entry and of the lanes that arrived at every join (R248). -/
def Group.unionLanes (g : Group) : Word :=
  ((g.slot0.toList ++ g.slot1.toList).map (fun p => p.live) ++ g.spill.map (fun x => x.entry.mask)).foldl (· ||| ·) 0

/-- The group in a routine: one path of priority 15 at an address, with L and em both U (R248). -/
def Group.intoRoutine (g : Group) (pc : Word) (r : Snapshot → Routine) : Group :=
  let u := g.unionLanes
  { g with
    em := u, slot0 := some (Path.make pc u 15 none g.nextStamp), slot1 := none, pending := [], routine := r g.snapshot }

/-- EXIT_ROUTINE_ENTRY (R247, R248): after stage 1 a group enters its exit routine, or is brute-saved as it stands. -/
def execExitRoutineEntry (k : Key) (s : State) : Host.Outcome State Fault Refusal :=
  match s.stopping k, s.group k with
  | some p, some g =>
    match g.stage, g.routine with
    | .stopped _, .exit _ _ => .next s
    | .stopped _, _ =>
      if p.stage ≠ 1 ∨ !stopped s p then .next s
      else if bruteSaved s g then .next (s.setGroup { g with stage := .saved true })
      else
        match regionEntry s g with
        | none => .next s
        | some e =>
          .next (s.setGroup { g.intoRoutine (BitVec.ofNat 32 (bitsOf e.toNat 160 32)) (fun x => .exit x (s.now + 2000)) with
            stage := .stopped false })
    | _, _ => .next s
  | _, _ => .next s

/-- EXIT_ROUTINE_OVERRUN (R250): the budget has expired; the routine is abandoned at its next word. -/
def execExitRoutineOverrun (k : Key) (s : State) : Host.Outcome State Fault Refusal :=
  match s.group k with
  | some g =>
    match g.routine with
    | .exit snap deadline =>
      if s.now < deadline then .next s
      else .next (abandon s g snap 0 0 ((g.slot0.map (fun p => p.unitPc.getD p.pc)).getD 0))
    | _ => .next s
  | none => .next s

/-! ### Stage 3: halt and drain (R246, R74, R183) -/

/-- A core drained: its dirty bytes and the words it dirtied in the die's remote-data cache are pushed home. -/
def drainCore (c : CoreId) : M Unit := pushCoreHome c

/-- The cores of a partition that hold anything. -/
def State.partCores (s : State) (p : Partition) : List CoreId := (s.cores.map (fun k => k.id)).filter p.holds

/-- HALT_AND_DRAIN (R246, R183): once every group is saved and no promotion is in progress on the cores, everything dirty
is pushed home and the log entries of the contexts' worlds are freed. -/
def execHaltAndDrain (part : Nat) (s : State) : Host.Outcome State Fault Refusal :=
  let p := s.part part
  let cs := s.partCores p
  let saved (g : Group) : Bool := match g.stage with | .saved _ => true | _ => false
  if p.stage ≠ 1 ∨ !(s.inPart p).all saved ∨ !stopped s p ∨ cs.any (fun c => (s.core c).promo.isSome) then .next s
  else
    match (cs.forM drainCore : M Unit) s with
    | .ok _ s' =>
      let s' : State := { s' with cores := s'.cores.map (fun (k : Core) =>
        if p.holds k.id then { k with log := k.log.filter (fun e => !p.worlds.contains e.world) } else k) }
      .next (s'.setPart { p with stage := 3 })
    -- a write-back has no requester (R39)
    | .error (.fault f) s' => .next (noteAlone s' f)
    | .error _ s' => .next s'

/-! ### Stage 4: the saved image (R251-R253) -/

/-- A group as its image keeps it: a routine save keeps no register (R252). -/
def Group.image (g : Group) : Group :=
  match g.stage with
  | .saved false => { g with v := Vector.replicate 96 VReg.void, u := Vector.replicate 32 UReg.void }
  | _ => g
def Group.brute (g : Group) : Bool := match g.stage with | .saved b => b | _ => true

/-- What the save of a partition keeps (R252): the workgroups saved whole, the units live in each workgroup, the slots
and allocations that routine-saved groups name, by quad. -/
structure Keep where
  whole : List (Nat × Nat)
  units : List ((Nat × Nat) × List Nat)
  slots : List (QuadId × Nat)
  accs  : List (QuadId × Nat)
  brute : List Key

def keepOf (s : State) (gs : List Group) : Keep :=
  let soft := gs.filter (fun g => !g.brute)
  let entry (g : Group) : BitVec 512 := (regionEntry s g).getD 0
  { whole := ((gs.filter Group.brute).map (fun g => (g.launch, g.wg))).eraseDups
    units := soft.map (fun g => ((g.launch, g.wg), liveUnits (entry g)))
    slots := soft.flatMap (fun g => (slotsNamed s g (entry g)).map (fun i => (keyQuad g.key, i)))
    accs := soft.flatMap (fun g => (accsNamed s g (entry g)).map (fun i => (keyQuad g.key, i)))
    brute := (gs.filter Group.brute).map (fun g => g.key) }

/-- Whether a workgroup is saved whole. -/
def Keep.all (k : Keep) (launch wg : Nat) : Bool := k.whole.contains (launch, wg)
/-- The live units of a workgroup: those of all its groups' regions. -/
def Keep.live (k : Keep) (launch wg : Nat) : List Nat :=
  (k.units.filter (fun x => x.1 == (launch, wg))).flatMap (fun x => x.2)
/-- Whether the save keeps a slot; those of an ended workgroup are kept for what is in flight on them (R138). -/
def Keep.slot (k : Keep) (q : QuadId) (i : Nat) (o : OpSlot) : Bool :=
  k.all o.launch o.wg || o.ended || k.slots.contains (q, i)
/-- Whether the save keeps an allocation. -/
def Keep.acc (k : Keep) (q : QuadId) (a : Acc) : Bool := k.brute.contains a.owner || k.accs.contains (q, a.base)

/-- A workgroup's scratchpad in the image: whole, or only the bytes of its spool rings (R206, R252). DEDUCED (log entry 108): that
of a workgroup which has ended is kept for the operations still in flight on it (R80, R91). -/
def imageWg (qu : Quad) (k : Keep) (w : Workgroup) : Workgroup :=
  if k.all w.launch w.wg || w.closed then w
  else
    let ring (a : Nat) : Bool := qu.spools.any (fun x => x.2.launch == w.launch && x.2.wg == w.wg &&
      decide (x.2.base ≤ a ∧ a < x.2.base + 4 * x.2.cap))
    { w with scr := w.scr.filter (fun c => ring c.1) }

/-- A tile entry in the image (R91). -/
def imageTile (qu : Quad) (gs : List Group) (k : Keep) (i : Nat) (t : Tile) : Tile :=
  let mine := qu.ops.any (fun o => o.tile == i) || gs.any (fun g => g.withdrawn.any (fun e => e.dst == some i))
  let slots := (qu.slots.filter (fun x => k.slot qu.id x.1 x.2)).map (fun x => x.1)
  if k.all t.launch t.wg || mine || tileLive t (k.live t.launch t.wg) slots then t
  else { t with state := .empty, err := 0 }

/-- A quad in the image. -/
def imageQuad (qu : Quad) (gs : List Group) (k : Keep) : Quad :=
  { qu with
    tiles := qu.tiles.map (fun x => (x.1, { x.2 with tile := x.2.tile.map (imageTile qu
      (gs.filter (fun g => keyQuad g.key == qu.id)) k x.1) }))
    slots := qu.slots.map (fun x => (x.1, if k.slot qu.id x.1 x.2 then x.2 else { x.2 with bytes := [] }))
    accs := qu.accs.map (fun a => if k.acc qu.id a then a else a.clear) }

/-- What stays of a quad when its contexts have left it: the generations (R78, R137). -/
def Quad.vacate (q : Quad) : Quad :=
  { q with
    tiles := q.tiles.map (fun x => (x.1, { x.2 with tile := none }))
    ops := [], slots := [], accs := [], entries := [], ownDue := false, spools := [] }

/-- A core in the image: its bins with their remaining time, its overlay slots by number and address (R251). -/
def imageCore (now : Nat) (worlds : List Nat) (k : Core) : Core :=
  { Core.fresh k.id with
    bins := k.bins.map (fun b => (b.1, { b.2 with due := b.2.due - now }))
    overlay := (k.overlay.filter (fun o => match o.2.world with | some w => worlds.contains w | none => false)).map
      (fun o => (o.1, { o.2 with bytes := [] })) }

/-- Bytes of a slice of the shadow region and of a bay (R38, R253). -/
def sliceBytes : Nat := 0xA00000
def bayBytes : Nat := 0x500000
/-- Where a bay begins in the shadow region: two in the slice of each quad (R38, R253). -/
def bayOffset (b : Nat) : Nat := b / 2 * sliceBytes + b % 2 * bayBytes
/-- Where the die context directory begins: above the slices of the 48 quads, in the last 32 MiB (R38). What it holds of the
images of a die is State.images (log entry 91). -/
def directoryOffset : Nat := 48 * sliceBytes
/-- Bytes of a quad's image: at most (R253). -/
def imageBytes : Nat := 3932160

/-- The lower free bay of a quad's slice of the shadow region (R38, R253). -/
def freeBay (d : Die) (q : Nat) : Option Nat := [2 * q, 2 * q + 1].find? (fun b => (lookupN d.bays b).isNone)
/-- Some bays given up. -/
def State.freeBays (s : State) (die : Nat) (bays : List (Nat × Nat)) : State :=
  let d := s.die die
  s.setDie { d with bays := d.bays.filter (fun b => !bays.any (fun x => x.1 == b.1)) }

/-- The keys that worlds have now, of those that are protected: a guest's context is encrypted under its key (R38, R285). -/
def keysOf (s : State) (ws : List Nat) : List (Nat × Nat) :=
  (ws.filter (fun w => w != 0)).map (fun w => (w, keyNumber s w))

/-- SWAP (R251-R253): the image is written into a free bay of each quad's slice, and the partition's quads are free. Without
free bays the swap waits for an image to be moved. -/
def execSwap (part : Nat) (s : State) : Host.Outcome State Fault Refusal :=
  let p := s.part part
  let die := s.die p.die
  let bays := p.quads.filterMap (freeBay die)
  if p.stage ≠ 3 ∨ bays.length ≠ p.quads.length then .next s
  else
    let versions := bays.map (fun b => (b, (lookupN die.written b).getD 0 + 1))
    let s := s.setDie { die with
      bays := die.bays ++ bays.map (fun b => (b, s.nextId))
      written := versions.foldl (fun l v => putN l v.1 v.2) die.written }
    let gs := s.inPart p
    let keep := keepOf s gs
    let ws := s.wgs.filter (fun w => p.holds w.core)
    let img : Image :=
      { id := s.nextId, part := part, die := p.die, groups := gs.map Group.image
        wgs := ws.map (fun w => imageWg (s.quad (coreQuad w.core)) keep w)
        quads := p.ids.map (fun q => imageQuad (s.quad q) gs keep)
        cores := (s.partCores p).map (fun c => imageCore s.now p.worlds (s.core c)), bays := versions
        keys := keysOf s p.worlds, fault := none, moved := false }
    let s : State := { s with
      nextId := s.nextId + 1, images := s.images ++ [img]
      groups := s.groups.filter (fun g => !p.holds (keyCore g.key))
      wgs := s.wgs.filter (fun w => !p.holds w.core) }
    let s := p.ids.foldl (fun (s : State) q => s.setQuad (s.quad q).vacate) s
    let s := (s.partCores p).foldl (fun (s : State) c =>
      let k := s.core c
      s.setCore { k with
        bins := []
        overlay := k.overlay.filter (fun o => match o.2.world with | some w => !p.worlds.contains w | none => true) }) s
    let s := ws.foldl (fun (s : State) w =>
      if w.banks = 0 then s
      else { s with scrubs := s.scrubs ++ [{ id := s.nextId, core := w.core, banks := w.banks }], nextId := s.nextId + 1 }) s
    .next (s.setPart { p with stage := 0 })

/-- IMAGE_MOVE (R253): an image leaves its bays for device memory in the world's protected range. -/
def execImageMove (image : Nat) (s : State) : Host.Outcome State Fault Refusal :=
  match s.images.find? (fun i => i.id == image) with
  | none => .next s
  | some img =>
    let s := s.freeBays img.die img.bays
    .next { s with images := s.images.map (fun (i : Image) =>
      if i.id == image then { i with moved := true, bays := [] } else i) }

/-! ### Resumption (R254-R259) -/

/-- Row and column of a core in the grid of its die (R210). -/
def coreRow (c : Nat) : Nat := 2 * (c / 4 / 8) + c % 4 / 2
def coreCol (c : Nat) : Nat := 2 * (c / 4 % 8) + c % 4 % 2
/-- The core at a row and column. -/
def coreAt (row col : Nat) : Nat := 4 * (8 * (row / 2) + col / 2) + 2 * (row % 2) + col % 2

/-- Where a quad, core and key of an image go. -/
def mapQuad (m : List (Nat × Nat)) (q : Nat) : Nat := (lookupN m q).getD q
def mapCore (m : List (Nat × Nat)) (c : CoreId) : CoreId := { c with core := 4 * mapQuad m (c.core / 4) + c.core % 4 }
def mapKey (m : List (Nat × Nat)) (k : Key) : Key := { k with core := 4 * mapQuad m (k.core / 4) + k.core % 4 }

/-- Whether a map covers the image's quads one to one, keeps seam pairs and keeps neighbourhoods rectangles with their
member order (R259). -/
def mapOk (img : Image) (m : List (Nat × Nat)) : Bool :=
  let old := img.quads.map (fun q => q.id.quad)
  let new := old.map (mapQuad m)
  old.all (fun q => (lookupN m q).isSome) && decide (new.eraseDups.length = new.length) && new.all (fun q => decide (q < 48)) &&
  old.all (fun q => mapQuad m q % 2 == q % 2) &&
  old.all (fun q => q % 2 == 1 || !old.contains (q + 1) || mapQuad m (q + 1) == mapQuad m q + 1) &&
  img.wgs.all (fun a => img.wgs.all (fun b => match a.nbhd, b.nbhd with
    | some (i, _), some (j, _) => i != j ||
        (let a' := (mapCore m a.core).core
         let b' := (mapCore m b.core).core
         coreRow a' + coreRow b.core.core == coreRow b' + coreRow a.core.core &&
         coreCol a' + coreCol b.core.core == coreCol b' + coreCol a.core.core)
    | _, _ => true))

/-- Whether the numbered resources that a quad of the image names are free on its target (R259). -/
def quadFree (old new : Quad) : Bool :=
  old.tiles.all (fun t => t.2.tile.isNone ||
    (match lookupN new.tiles t.1 with | some { tile := some _, .. } => false | _ => true)) &&
  old.slots.all (fun x => (lookupN new.slots x.1).isNone) &&
  old.spools.all (fun x => (lookupN new.spools x.1).isNone) &&
  old.accs.all (fun a => new.accs.all (fun b => decide (a.base + a.count ≤ b.base ∨ b.base + b.count ≤ a.base))) &&
  old.cls == new.cls

/-- Whether a core has free what the groups, workgroups, bins and overlay slots of the image need. -/
def coreFree (s : State) (img : Image) (m : List (Nat × Nat)) (c : CoreId) : Bool :=
  let t := mapCore m c
  let gs := img.groups.filter (fun g => keyCore g.key == c)
  let banks := ((img.wgs.filter (fun w => w.core == c)).map (fun w => w.banks)).foldl (· + ·) 0
  let k := (img.cores.find? (fun x => x.id == c)).getD (Core.fresh c)
  gs.all (fun g => (s.freeSlots t).contains g.key.slot) &&
  decide ((gs.map (fun g => g.quota)).foldl (· + ·) 0 ≤ s.freeRegs t) && (banks == 0 || decide (banks ≤ s.awakeBanks t)) &&
  k.bins.all (fun b => (lookupN (s.core t).bins b.1).isNone) &&
  k.overlay.all (fun o => match lookupN (s.core t).overlay o.1 with
    | some x => x.state == .absent
    | none => true)

/-- The cores that an image names. -/
def Image.coreIds (img : Image) : List CoreId :=
  (img.groups.map (fun g => keyCore g.key) ++ img.wgs.map (fun w => w.core) ++ img.cores.map (fun k => k.id)).eraseDups

/-- A quad of the image moved onto its target: everything at its index and generation (R91, R259). -/
def restoreQuad (s : State) (m : List (Nat × Nat)) (old : Quad) : State :=
  let id : QuadId := { old.id with quad := mapQuad m old.id.quad }
  let new := s.quad id
  let live := old.tiles.filter (fun t => t.2.tile.isSome)
  s.setQuad { new with
    tiles := live.foldl (fun (l : List (Nat × TileSlot)) t => putN l t.1 t.2) new.tiles
    slots := old.slots ++ new.slots
    accs := new.accs ++ old.accs.map (fun a => { a with owner := mapKey m a.owner })
    accGen := old.accs.foldl (fun l a => putN l a.base (bankGen old a.base)) new.accGen
    spools := old.spools.map (fun x => (x.1, { x.2 with pops := [], pushes := [] })) ++ new.spools
    ops := new.ops ++ old.ops.map (fun o =>
      { o with by_ := { o.by_ with key := mapKey m o.by_.key }, stalled := false, absent := false }) }

/-- A core of the image: its bins run on, its overlay slots are landed again (R251, R254), and no clean copy stays there, so
that the context relies on leases taken after its resumption only (R74). -/
def restoreCore (s : State) (img : Image) (m : List (Nat × Nat)) (old : Core) : State :=
  let id := mapCore m old.id
  let k := s.core id
  let who (w : Option Nat) : Option Issuer :=
    (img.groups.find? (fun g => keyCore g.key == old.id && some g.world == w)).map (fun g =>
      Group.issuer { g with key := mapKey m g.key } s)
  s.setCore { k with
    copies := []
    bins := old.bins.map (fun b => (b.1, { b.2 with due := b.2.due + s.now })) ++ k.bins
    overlay := old.overlay.foldl (fun (l : List (Nat × OverlaySlot)) o =>
      putN l o.1 (if o.2.state = .absent then { o.2 with bytes := [] } else
        { o.2 with state := .fetching, bytes := [], by_ := who o.2.world, frame := none, again := true, initial := false })) k.overlay }

/-- A group of the image: brute-saved, as it was, at its interrupted words (R257); routine-saved, every register VOID, in
its entry routine (R254). -/
def restoreGroup (s : State) (m : List (Nat × Nat)) (g : Group) : Group :=
  let g' := { g with key := mapKey m g.key, stage := .running }
  if g.brute then g'.resumePaths s.tick
  else
    let e := (regionEntry s g).getD 0
    { g' with
      v := Vector.replicate 96 VReg.void, u := Vector.replicate 32 UReg.void, rebuiltV := 0, rebuiltU := 0, rebuiltS := 0 }
      |>.intoRoutine (BitVec.ofNat 32 (bitsOf e.toNat 128 32)) Routine.entry

/-- What a read of an image's bays, or of the memory that it was moved to, meets: a fault that the scrubber found there, or a
failed check of its version or its keys (R38, R56, R287). -/
def imageFault (s : State) (img : Image) : Option Nat :=
  let d := s.die img.die
  match img.fault with
  | some c => some c
  | none =>
    if img.bays.all (fun b => lookupN d.bays b.1 == some img.id && lookupN d.written b.1 == some b.2) &&
        img.keys.all (fun k => keyNumber s k.1 == k.2) then none
    else some cIntegrity

/-- RESUMPTION (R254, R257, R259): a placement that does not fit is refused, once the gated banks that it would need have
been sent to wake (R72). Recorded copy operations start again, and the withdrawn entries of brute-saved groups are posted,
before any word of a group (R91, R151); those of a group saved inside its entry routine wait for its EDONE. DEDUCED (log
entry 89): a recorded drain of a routine-saved group starts here too, before the entry routine has rebuilt what it reads,
as R91 has it start before the group's first word. Nothing of the die's remote-data cache is relied on (R74). -/
def execResumption (image : Nat) (quads : List (Nat × Nat)) (s : State) : Host.Outcome State Fault Refusal :=
  match s.images.find? (fun i => i.id == image) with
  | none => .next s
  | some img =>
    let target (q : Quad) : Quad := s.quad { q.id with quad := mapQuad quads q.id.quad }
    if !mapOk img quads || !img.quads.all (fun q => quadFree q (target q)) then .next s
    else if !img.coreIds.all (coreFree s img quads) then .next (wakeBanks s (img.coreIds.map (mapCore quads)))
    else match imageFault s img with
    | some code => .next ((img.groups.map (fun g => g.world)).eraseDups.foldl (fun (s : State) w =>
        fatalOn s w none 0 code 0 0 0 0) s)
    | none =>
      let s : State := { s.freeBays img.die img.bays with images := s.images.filter (fun i => i.id != image) }
      let s := s.setDie { s.die img.die with copies := [] }
      let s := img.quads.foldl (fun (s : State) q => restoreQuad s quads q) s
      let s := img.groups.foldl (fun (s : State) g => grantSlot s (mapKey quads g.key)) s
      let s : State := { s with
        groups := s.groups ++ img.groups.map (restoreGroup s quads)
        wgs := s.wgs ++ img.wgs.map (fun (w : Workgroup) => { w with core := mapCore quads w.core }) }
      let s := img.cores.foldl (fun (s : State) k => restoreCore s img quads k) s
      let s := s.due (img.quads.flatMap (fun q => q.ops.map (fun o =>
        let id : QuadId := { q.id with quad := mapQuad quads q.id.quad }
        if o.kind.fills then .tileFillComplete id o.id else .tileDrainComplete id o.id)))
      .next ((img.groups.filter (fun g => g.brute && !g.inEntry)).foldl (fun (s : State) g => repost s (mapKey quads g.key)) s)

end Sys2Proof.Machine
end

