-- ==== Sys2Proof/Machine/Collective.lean ====
section
/-! DEFINITION. The collective engine (R268-R273 of chapter 19): descriptors and their checks, the COLL words, matched
operations and what they move, failures. -/

namespace Sys2Proof.Machine

/-! ### Descriptors (R269) -/

def kTag (d : Nat) : Nat := bitsOf d 264 8
def kRed (d : Nat) : Nat := bitsOf d 260 2
def kOp (d : Nat) : Nat := bitsOf d 256 4
def kPeer (d : Nat) : Nat := bitsOf d 208 16
def kGroup (d : Nat) : Nat := bitsOf d 192 16
def kCount (d : Nat) : Nat := bitsOf d 128 40
def kDst (d : Nat) : Nat := bitsOf d 64 64
def kSrc (d : Nat) : Nat := bitsOf d 0 64

/-- Whether an operation reduces. -/
def kReduces (d : Nat) : Bool := kOp d == 2 || kOp d == 3
/-- The tags that a reduction accepts: f32, bf16x2, s32, n32, s64, n64, m64. -/
def reduceTag (t : Nat) : Bool := [0x08, 0x0A, 0x02, 0x03, 0x04, 0x05, 0x06].contains t

/-- The checks of R271 on a descriptor for a group of `n` members and a captured q. BARRIER moves nothing, so only its
COUNT is checked against it. -/
def kValid (d n q : Nat) : Bool :=
  bitsOf d 272 240 == 0 && bitsOf d 263 1 == 0 && bitsOf d 224 32 == 0 && bitsOf d 168 24 == 0 &&
  decide (kOp d ≤ 6) && kRed d != 3 &&
  (if kOp d = 6 then kCount d == 0
   else decide (1 ≤ kCount d) && (if kReduces d then reduceTag (kTag d) else (elemBytes (kTag d)).isSome)) &&
  decide (kPeer d < n) && !(kTag d == 0x06 && q == 0)

/-! ### Groups and operations (R268, R272) -/

/-- The collective group of a number in a world. -/
def State.coll (s : State) (world g : Nat) : Option CollGroup := s.colls.find? (fun c => c.world == world && c.id == g)
/-- The rank of a die of this package in a group. -/
def CollGroup.rankOf (c : CollGroup) (pkg die : Nat) : Option Nat := c.members.findIdx? (fun m => m == (pkg, die))
/-- The operations of every die, each with die and slot. -/
def State.collOps (s : State) : List (Nat × Nat × CollOp) :=
  s.dies.flatMap (fun d => d.coll.map (fun x => (d.id, x.1, x.2)))
/-- An operation put back into its slot. -/
def setColl (s : State) (die slot : Nat) (o : CollOp) : State :=
  let d := s.die die
  s.setDie { d with coll := putN d.coll slot o }
/-- Whether an operation has not finished. -/
def CollOp.open_ (o : CollOp) : Bool := decide (o.state ≤ 2)
/-- Whether an operation includes a rank: PUT and GET involve two members, the others all (R269). -/
def CollOp.includes (o : CollOp) (rank : Nat) : Bool :=
  if kOp o.desc.toNat ≤ 1 then o.rank == rank || kPeer o.desc.toNat == rank else true
/-- An operation aborted with a cause and a fault code. -/
def CollOp.abort (o : CollOp) (cause : Nat) (fcode : Nat := 0) : CollOp :=
  { o with state := 4, cause := cause, fcode := BitVec.ofNat 8 fcode }
/-- Every unfinished operation that satisfies a condition aborted. -/
def abortColls (s : State) (p : Nat → CollOp → Bool) (cause : Nat) : State :=
  { s with dies := s.dies.map (fun (d : Die) =>
      { d with coll := d.coll.map (fun x => (x.1, if x.2.open_ && p d.id x.2 then x.2.abort cause else x.2)) }) }
/-- The status word (R270). -/
def CollOp.status (o : CollOp) : Word :=
  BitVec.ofNat 32 (o.state * 2 ^ 29 + o.cause * 2 ^ 16 + o.fcode.toNat)

/-! ### The COLL words (R268, R271, R272) -/

/-- A COLL word. -/
def collWd (g : Guard) (d a : Code) (run : Cx → M Out) : Wd :=
  { cls := .u, guard := g, codes := [d, a], legal := fun _ => !isVec d && !isVec a
    reads := fun _ => [a], accept := fun c => c.intTag a, dests := fun _ => [d]
    handler := false, inExit := false, inEntry := false, touches := true, run := run }

/-- The operation that a descriptor makes, aborted at once where a check fails (R271); with it the group's count of the
member's operations. -/
def makeColl (s : State) (c : Cx) (desc : Nat) : CollOp × Option CollGroup :=
  let base : CollOp :=
    { world := c.g.world, desc := BitVec.ofNat 512 desc, group := kGroup desc, rank := 0, seq := 0, q := c.g.q.toNat
      state := 1, cause := 0, fcode := 0, by_ := c.g.issuer s, since := s.now, due := 0 }
  match s.coll c.g.world (kGroup desc) with
  | none => (base.abort 1, none)
  | some k =>
    match k.rankOf s.pkg.toNat c.key.die with
    | none => (base.abort 1, none)
    | some r =>
      let n := (lookupN k.posted r).getD 0
      let o := { base with rank := r, seq := n }
      let o := if !kValid desc k.members.length c.g.q.toNat then o.abort 1
        else if k.gone.any o.includes then o.abort 3 else o
      (o, some { k with posted := putN k.posted r (n + 1) })

/-- POST (R271). -/
def execCollPost (g : Guard) (d a : Code) (s : State) : Host.Outcome State Fault Refusal :=
  issueWord (collWd g d a (fun c => do
    let addr := (c.val a 0).toNat
    if addr % 64 ≠ 0 then failCode cAlign addr
    else
      let _ ← windowAt c.g addr 64
      releaseActions c .pkg
      let s ← get
      let die := s.die c.key.die
      match (List.range 64).find? (fun i => (lookupN die.coll i).isNone) with
      | none => waitStep
      | some i =>
        let desc ← readWindow c.g addr 64
        releaseLog c .pkg
        let s ← get
        let (o, k) := makeColl s c desc
        let s := match k with
          | some k => { s with colls := s.colls.map (fun (x : CollGroup) =>
              if x.world == k.world && x.id == k.id then k else x) }
          | none => s
        set (setColl s c.key.die i o)
        let gen := (lookupN die.collGen i).getD 0
        pure { regs := [out32 d 1 (fun _ => BitVec.ofNat 32 (gen.toNat * 256 + i)) .n32] })) s

/-- The operation that a handle names for a world on a die (R270, R272). -/
def collOf (s : State) (die world : Nat) (h : Word) : Option (Nat × CollOp) :=
  let n := h.toNat
  if bitsOf n 16 16 ≠ 0 ∨ bitsOf n 6 2 ≠ 0 then none
  else
    let d := s.die die
    match lookupN d.coll (bitsOf n 0 6) with
    | some o =>
      if ((lookupN d.collGen (bitsOf n 0 6)).getD 0).toNat = bitsOf n 8 8 ∧ o.world = world then some (bitsOf n 0 6, o)
      else none
    | none => none

/-- WAIT (R272): the slot is freed and its generation rises. -/
def execCollWait (g : Guard) (d a : Code) (s : State) : Host.Outcome State Fault Refusal :=
  issueWord (collWd g d a (fun c => do
    let s ← get
    match collOf s c.key.die c.g.world (c.val a 0) with
    | none => pure { regs := [out32 d 1 (fun _ => 0) .n32] }
    | some (i, o) =>
      if o.open_ then waitStep
      else
        let die := s.die c.key.die
        set (s.setDie { die with
          coll := dropN die.coll i, collGen := putN die.collGen i ((lookupN die.collGen i).getD 0 + 1) })
        pure { regs := [out32 d 1 (fun _ => o.status) .n32] })) s

/-- STAT (R272): never stalls. -/
def execCollStat (g : Guard) (d a : Code) (s : State) : Host.Outcome State Fault Refusal :=
  issueWord (collWd g d a (fun c => do
    let s ← get
    let w := match collOf s c.key.die c.g.world (c.val a 0) with
      | none => 0
      | some (_, o) => o.status
    pure { regs := [out32 d 1 (fun _ => w) .n32] })) s

/-! ### Reductions (R271) -/

/-- One step of a reduction: the sum so far and the next rank's value. Floats are rounded RNE, any NaN gives the default
NaN; integers wrap; m64 is reduced by q. -/
def reduceStep (tag red q : Nat) (x y : Nat) : Nat :=
  let flt (f : Fmt) (w : Nat) : Nat :=
    let a := x % 2 ^ w
    let b := y % 2 ^ w
    if (f.decode a).isNan || (f.decode b).isNan then f.nan
    else match red with
      | 0 => (f.add .rne a b).1
      | 1 => (f.minMax false true a b).1
      | _ => (f.minMax true true a b).1
  let int (sgn : Bool) (w : Nat) : Nat :=
    let a := intOf sgn w (x % 2 ^ w)
    let b := intOf sgn w (y % 2 ^ w)
    wrap w (match red with | 0 => a + b | 1 => min a b | _ => max a b)
  match tag with
  | 0x08 => flt fmtF32 32
  | 0x0A => flt fmtBF16 16
  | 0x02 => int true 32
  | 0x03 => int false 32
  | 0x04 => int true 64
  | 0x05 => int false 64
  | _ => match red with | 0 => (x + y) % q | 1 => min x y | _ => max x y

/-! ### What matched operations move (R269, R272) -/

/-- Who asks for a member's translations: the collective engine in the member's world (R55, R269). -/
def CollOp.asker (o : CollOp) : Asker := { o.by_.asker with core := none }

/-- A fault of a member's access carries the member's rank (R273). -/
def atRank {α : Type} (r : Nat) (x : M α) : M α := fun s => match x s with
  | .error (.fault f) s' => .error (.fault { f with lane := some r }) s'
  | y => y

/-- The pieces of an element that lie within one word each: R269 asks for no alignment. -/
def pieces (va e : Nat) : List (Nat × Nat) :=
  if va % 32 + e ≤ 32 then [(va, e)] else (List.range e).map (fun i => (va + i, 1))

/-- Pieces joined, the lowest first. -/
def joinPieces (xs : List (Nat × Nat)) : Nat := xs.foldr (fun x r => x.2 + 256 ^ x.1 * r) 0

/-- An element of `e` bytes at a virtual address of a member. -/
def collRead (o : CollOp) (die va e : Nat) : M Nat := atRank o.rank do
  let xs ← (pieces va e).mapM (fun x => do
    let p ← translate o.asker x.1 wantRead
    let v ← atPlace p (engineRead die p.home x.2)
    pure (x.2, v))
  pure (joinPieces xs)

/-- The physical places of an element that a member's memory takes, with what goes to each, once bytes can merge there. -/
def collPlace (o : CollOp) (va e v : Nat) : M (List (Place × Nat × Nat)) := atRank o.rank do
  (pieces va e).mapM (fun x => do
    let p ← translate o.asker x.1 wantWrite
    mayMerge (p.home / 32)
    pure (p, x.2, v / 256 ^ (x.1 - va)))

/-- The element that a member of another package contributes: a free value (log entry 19). -/
def fabricElem (s : State) (rank i e : Nat) : Nat :=
  ofBytesLE ((List.range e).map (fun j => Config.fabricByte s.tick rank (i * e + j)))

/-- A member of matched operations: rank, its die and operation where it lies in this package, what the fabric says of its
post where it lies in another. -/
structure Party where
  rank : Nat
  here : Option (Nat × Nat × CollOp)
  away : Option RemotePost
  pkg  : Nat
  die  : Nat

/-- The members of the group of an operation, with the operations matched with it (R272). -/
def parties (s : State) (k : CollGroup) (o : CollOp) : List Party :=
  k.members.zipIdx.map (fun m =>
    { rank := m.2, pkg := m.1.1, die := m.1.2
      here := s.collOps.find? (fun x => x.2.2.world == o.world && x.2.2.group == o.group && x.2.2.seq == o.seq &&
        x.2.2.rank == m.2 && x.1 == m.1.2 && m.1.1 == s.pkg.toNat)
      away := k.there.find? (fun x => x.rank == m.2 && x.seq == o.seq && m.1.1 != s.pkg.toNat) })

/-- Whether a member has posted the operation that is matched (R272). -/
def Party.ready (p : Party) : Bool := p.here.isSome || p.away.isSome
/-- Whether a posted descriptor and q agree with an operation's (R272). -/
def CollOp.agrees (o : CollOp) (desc : BitVec 512) (q : Nat) : Bool :=
  let a := desc.toNat
  let b := o.desc.toNat
  kOp a == kOp b && kRed a == kRed b && kTag a == kTag b && kCount a == kCount b && kPeer a == kPeer b && q == o.q
/-- Whether a member's operation agrees with one. -/
def Party.agrees (o : CollOp) (p : Party) : Bool :=
  (match p.here with | some x => o.agrees x.2.2.desc x.2.2.q | none => true) &&
  (match p.away with | some x => o.agrees x.desc x.q | none => true)

/-- The source address of a member's descriptor and its destination. -/
def Party.src (p : Party) : Nat := match p.here with | some x => kSrc x.2.2.desc.toNat | none => 0

/-- Element `i` counted from a member's SRC. -/
def Party.read (p : Party) (e i : Nat) : M Nat := do
  match p.here with
  | some (die, _, o) => collRead o die (p.src + i * e) e
  | none =>
    let s ← get
    pure (fabricElem s p.rank i e)

/-- Elements that a matched operation places at a member, from element `off` of its DST on. -/
structure Put where
  dst : Party
  off : Nat
  xs  : List Nat

/-- The places of the elements that a member of this package takes: place, bytes, value. -/
def Put.places (p : Put) (e : Nat) : M (List (Place × Nat × Nat)) :=
  match p.dst.here with
  | some (_, _, o) => do
    let xs ← p.xs.zipIdx.mapM (fun x => collPlace o (kDst o.desc.toNat + (p.off + x.2) * e) e x.1)
    pure xs.flatten
  | none => pure []

/-- The elements written: in this package merged at home, else sent over the fabric; the latest completion time, which for a
member of another package is the one that the fabric gives (R272). -/
def Put.write (p : Put) (world e : Nat) (ps : List (Place × Nat × Nat)) : M Nat :=
  match p.dst.here with
  | some (_, _, o) => atRank o.rank (ps.foldlM (fun t x => do
      let w ← atPlace x.1 (writeBelow none (cellsOf x.1.home x.2.2 x.2.1))
      pure (max t w)) 0)
  | none => do
    modify (fun (s : State) =>
      s.send (.fabric p.dst.pkg p.dst.die world (p.off * e) (p.xs.flatMap (fun x => bytesLE x e))))
    pure (match p.dst.away with | some x => x.done | none => 0)

/-- The reduction of element `i` in ascending rank order; an m64 operand at or above q is refused (R271). -/
def reduceAt (ps : List Party) (tag red q e i : Nat) : M (Option Nat) := do
  let xs ← ps.mapM (fun p => p.read e i)
  if tag = 0x06 ∧ xs.any (fun x => decide (q ≤ x)) then pure none
  else
    match xs with
    | [] => pure none
    | x :: r => pure (some (r.foldl (reduceStep tag red q) x))

/-- All of a list that is present, or nothing. -/
def allSome : List (Option Nat) → Option (List Nat)
  | [] => some []
  | none :: _ => none
  | some x :: r => (allSome r).map (x :: ·)

/-- What the matched operations read and where it goes (R269); none where an m64 operand is refused. -/
def collPlan (ps : List Party) (o : CollOp) : M (Option (List Put)) := do
  let d := o.desc.toNat
  let tag := kTag d
  let e := (elemBytes tag).getD 4
  let n := kCount d
  let peer : List Party := ps.filter (fun p => p.rank == kPeer d)
  let readAll (p : Party) (m : Nat) : M (List Nat) := (List.range m).mapM (fun i => p.read e i)
  match kOp d with
  | 0 => do
    -- every member puts into its peer's DST
    let xs ← ps.mapM (fun p => readAll p n)
    pure (some (xs.flatMap (fun x => peer.map (fun y => { dst := y, off := 0, xs := x }))))
  | 1 => do
    let xs ← peer.mapM (fun y => readAll y n)
    pure (some (ps.flatMap (fun p => xs.map (fun x => { dst := p, off := 0, xs := x }))))
  | 2 => do
    let xs ← (List.range n).mapM (reduceAt ps tag (kRed d) o.q e)
    pure ((allSome xs).map (fun xs => ps.map (fun p => { dst := p, off := 0, xs := xs })))
  | 3 => do
    let xs ← (List.range (ps.length * n)).mapM (reduceAt ps tag (kRed d) o.q e)
    pure ((allSome xs).map (fun xs => ps.map (fun p => { dst := p, off := 0, xs := (xs.drop (p.rank * n)).take n })))
  | 4 => do
    let xs ← ps.mapM (fun p => do
      let ys ← readAll p n
      pure (p.rank, ys))
    pure (some (ps.flatMap (fun p => xs.map (fun x => { dst := p, off := x.1 * n, xs := x.2 }))))
  | 5 => do
    let xs ← peer.mapM (fun y => readAll y n)
    pure (some (ps.map (fun p => { dst := p, off := 0, xs := xs.flatten })))
  | _ => pure (some [])

/-- The matched operations performed: everything is read, then every place is reached, and only then is anything written,
so that an operation that waits has done nothing yet. The largest completion time, or none (R269, R272). -/
def collRun (ps : List Party) (o : CollOp) : M (Option Nat) := do
  let e := (elemBytes (kTag o.desc.toNat)).getD 4
  match ← collPlan ps o with
  | none => pure none
  | some puts => do
    let at_ ← puts.mapM (fun p => p.places e)
    let ts ← (puts.zip at_).mapM (fun x => x.1.write o.world e x.2)
    pure (some (ts.foldl max 0))

/-- The operations of the parties changed. -/
def setParties (s : State) (ps : List Party) (f : CollOp → CollOp) : State :=
  ps.foldl (fun (s : State) p => match p.here with
    | some (die, slot, o) => setColl s die slot (f o)
    | none => s) s

/-- A fatal fault of a collective access (R273): the member whose memory it concerns is ABORTED with FCODE and its world
torn down; the others see CAUSE 5. -/
def collFault (s : State) (ps : List Party) (o : CollOp) (f : FaultInfo) : State :=
  let r := f.lane.getD o.rank
  let s := setParties (noteError s f) ps (fun x => if !x.open_ then x else if x.rank = r then x.abort 0 f.code else x.abort 5)
  let who := match ps.find? (fun p => p.rank == r) with
    | some { here := some (_, _, x), .. } => x
    | _ => o
  who.by_.fatal s f.code f.addr

/-- What the fabric says of the posts of members of other packages, noted in the table of the group of an operation; each
post is taken once. -/
def notePosts (s : State) (o : CollOp) (posts : List RemotePost) : State :=
  if posts.isEmpty then s
  else { s with colls := s.colls.map (fun (k : CollGroup) =>
    if k.world == o.world && k.id == o.group then
      { k with there := posts.foldl (fun l x =>
          if l.any (fun y => y.rank == x.rank && y.seq == x.seq) then l else l ++ [x]) k.there }
    else k) }

/-- COLL_OPERATION_COMPLETE (R272): the matched operations move their data once every member has posted, those of other
packages as the fabric says (log entry 19); an operation is DONE when every WCT has passed. -/
def execCollOperationComplete (die : Nat) (x : Completion) (s : State) : Host.Outcome State Fault Refusal :=
  match lookupN (s.die die).coll x.slot with
  | none => .next s
  | some o =>
    if o.state = 2 then
      (if o.due < s.now then .next (setColl s die x.slot { o with state := 3 }) else .next s)
    else if o.state ≠ 1 then .next s
    else
      let s := notePosts s o x.posts
      match s.coll o.world o.group with
      | none => .next s
      | some k =>
        let ps := parties s k o
        if !ps.all Party.ready then .next s
        else if !ps.all (Party.agrees o) then .next (setParties s ps (fun x => if x.open_ then x.abort 2 else x))
        else if ps.any (fun p => match p.here with | some x => x.2.2.state != 1 | none => false) then .next s
        else
          match collRun ps o s with
          | .ok (some t) s' => .next (setParties s' ps (fun x => { x with state := 2, due := t }))
          | .ok none _ => .next (setParties s ps (fun x => x.abort 1))
          | .error (.fault f) _ => .next (collFault s ps o f)
          | .error _ s' => .next s'

/-! ### Failures (R273) -/

/-- Whether an operation of a group has made no progress for 1 ms with a member that it is matched with (R272, R273): the
member has not posted, or, since the last of them posted, no data have moved. -/
def stuckOn (s : State) (k : CollGroup) (rank : Nat) (o : CollOp) : Bool :=
  let ps := parties s k o
  let last := ps.foldl (fun t p => match p.here with | some x => max t x.2.2.since | none => t) o.since
  o.world == k.world && o.group == k.id && o.state == 1 && decide (o.since + 1000000 ≤ s.now) &&
  (ps.any (fun p => p.rank == rank && !p.ready) || (ps.all Party.ready && decide (last + 1000000 ≤ s.now)))

/-- COLL_NO_PROGRESS (R273): operations that have waited 1 ms for a member. `group` is the place of the group's table in
the state. -/
def execCollNoProgress (group rank : Nat) (s : State) : Host.Outcome State Fault Refusal :=
  match s.colls[group]? with
  | none => .next s
  | some k => .next (abortColls s (fun _ o => stuckOn s k rank o) 4)

/-- PEER_FAULT (R273). -/
def execPeerFault (group rank : Nat) (s : State) : Host.Outcome State Fault Refusal :=
  match s.colls[group]? with
  | none => .next s
  | some k => .next (abortColls s (fun _ o => o.world == k.world && o.group == k.id && o.includes rank) 5)

/-- A member of the fabric evicted from the meridian group (R273, R278): every unfinished operation that includes it. -/
def evictPackage (s : State) (pkg : Nat) : State :=
  let ranks (k : CollGroup) : List Nat := (k.members.zipIdx.filter (fun m => m.1.1 == pkg)).map (fun m => m.2)
  let s := s.colls.foldl (fun (s : State) k =>
    abortColls s (fun _ o => o.world == k.world && o.group == k.id && (ranks k).any o.includes) 3) s
  { s with colls := s.colls.map (fun (k : CollGroup) => { k with gone := (k.gone ++ ranks k).eraseDups }) }

/-- A package that has joined its fabric group again: its members are there again (R281). -/
def returnPackage (s : State) (pkg : Nat) : State :=
  { s with colls := s.colls.map (fun (k : CollGroup) => { k with
      gone := k.gone.filter (fun r => (k.members[r]?).map (fun m => m.1) != some pkg) }) }

/-- Teardown of a world (R273): its own operations abort with CAUSE 6. -/
def teardownColls (s : State) (world : Nat) : State := abortColls s (fun _ o => o.world == world) 6

end Sys2Proof.Machine
end

