-- ==== Sys2Proof/Machine/Placement.lean ====
section
/-! DEFINITION. Placement (chapter 15): which core a workgroup fits (R210), level bindings (R209), neighbourhoods (R211),
the groups as they are placed (R207, R208, R76, R199), and which bindings no part could hold (R209). -/

namespace Sys2Proof.Machine

/-! ### Whether a workgroup fits a core (R210) -/

/-- The order of the classes (R216, R274). -/
def classRank : OpClass → Nat
  | .floor => 0 | .efficient => 1 | .sustain => 2 | .burst => 3

/-- The address of initial segment `i` (R207). -/
def Launch.segAt (l : Launch) (i : Nat) : DWord := BitVec.ofNat 64 (l.segs + 4096 * i)

/-- Overlay slots free or holding the same segments of the same world. -/
def segsFit (s : State) (l : Launch) (c : CoreId) : Bool :=
  (List.range l.nseg).all (fun i => match lookupN (s.core c).overlay (l.slot0 + i) with
    | none => true
    | some o => o.world.isNone || (o.world == some l.world && o.state != .absent && o.src == l.segAt i))

/-- R210. A core whose partition is being saved takes no workgroup. -/
def fitsCore (s : State) (l : Launch) (c : CoreId) : Bool :=
  decide (l.gpw ≤ (s.freeSlots c).length) && decide (l.gpw * l.quota ≤ s.freeRegs c) && decide (l.scr ≤ s.freeBanks c) &&
  segsFit s l c && decide (classRank l.cls ≤ classRank (s.quad (coreQuad c)).cls) &&
  (s.stopping { die := c.die, core := c.core, slot := 0 }).isNone

/-! ### A workgroup placed -/

/-- `%lvl0`-`%lvl7` of the lanes of group `g` of workgroup `w` (R208). -/
def Launch.levelsOf (l : Launch) (w g : Nat) : Vector Lanes 8 :=
  Vector.ofFn (fun (k : Fin 8) => Vector.ofFn (fun (i : Fin 32) =>
    BitVec.ofNat 32 (l.lvlOf k.val (w * l.wgThreads + 32 * g + i.val))))

/-- Lanes of group `g` of workgroup `w` that are live at launch (R208). -/
def Launch.lanesAt (l : Launch) (w g : Nat) : Word := lowLanes (l.liveIn w - 32 * g)

/-- Group `g` of workgroup `w` as it starts, with its serial: the argument pair stands in s0 and s1 (R224). -/
def Launch.first (l : Launch) (n w g : Nat) (k : Key) : Group :=
  let r := l.group n w k (BitVec.ofNat 32 l.entry) (l.lanesAt w g) (l.levelsOf w g)
  let arg (x : Nat) : UReg := { bits := BitVec.ofNat 32 x, tag := .n64, side := 0 }
  { r with u := (r.u.setIfInBounds 0 (arg l.args.toNat)).setIfInBounds 1 (arg (l.args.toNat / 2 ^ 32)) }

/-- The initial segments on their way into a core's overlay, for the group `g` (R191, R207): no word of the world issues
on the core before they have landed. -/
def bringSegs (s : State) (l : Launch) (c : CoreId) (g : Group) : State :=
  let core := s.core c
  let who := g.issuer s
  let new (i : Nat) : OverlaySlot :=
    { state := .fetching, world := some l.world, bytes := [], src := l.segAt i, by_ := some who, frame := none, again := true, initial := true }
  let put (m : List (Nat × OverlaySlot)) (i : Nat) : List (Nat × OverlaySlot) :=
    putN m (l.slot0 + i) (match lookupN m (l.slot0 + i) with
      | some o => if o.world = some l.world ∧ o.state ≠ .absent then { o with again := o.state == .fetching } else new i
      | none => new i)
  s.setCore { core with overlay := (List.range l.nseg).foldl put core.overlay }

/-- Workgroup `w` placed on a core: its groups in the lowest free slots, its scratchpad zero, its barriers expecting the
placed groups (R76, R199, R210). Its die uses the queue's record (R220). -/
def placeWg (s : State) (l : Launch) (w : Nat) (c : CoreId) (nbhd : Option (Nat × Nat)) : State :=
  let n := l.placedIn w
  let keys := ((s.freeSlots c).take n).map (fun i => ({ die := c.die, core := c.core, slot := i } : Key))
  let wg : Workgroup :=
    { launch := l.id, wg := w, world := l.world, core := c, banks := l.scr, scr := [], nbhd := nbhd
      bars := Vector.replicate 16 { phase := 0, expect := n, count := 0 }, btime := 1024, closed := false }
  let gs := keys.zipIdx.map (fun x => l.first (s.nextId + x.2) w x.2 x.1)
  let s := keys.foldl grantSlot s
  let s : State := { s with groups := s.groups ++ gs, wgs := s.wgs ++ [wg], nextId := s.nextId + n }
  match gs with
  | g :: _ => useReplica (bringSegs s l c g) l.queue c.die
  | [] => s

/-- What a search has placed: the state, and the workgroups' cores. -/
abbrev Placed := State × List (Nat × CoreId)

/-! ### Bindings (R209) -/

/-- Workgroups of a level-`k` instance that is bound to whole workgroups. -/
def Launch.instWgs (l : Launch) (k : Nat) : Nat := l.span k / l.wgThreads

/-- The levels bound to a die, a seam pair or a quad, outermost first: domain and workgroups of an instance. -/
def Launch.nest (l : Launch) : List (Nat × Nat) :=
  (((List.range l.levels).filter (fun k => let d := l.domain k; d == 3 || d == 4 || d == 6)).map
    (fun k => (l.domain k, l.instWgs k))).reverse

/-- Workgroups that are placed whole or not at all: the fewest that are whole instances of every binding and whole
neighbourhoods (R210). -/
def Launch.unit (l : Launch) : Nat := (l.nest.map (fun x => max 1 x.2)).foldl Nat.lcm (max 1 l.nbhd)

/-- The instances of a domain within a die, as lists of cores. -/
def instances : Nat → List (List Nat)
  | 3 => (List.range 48).map (fun q => (List.range 4).map (fun j => 4 * q + j))
  | 4 => (List.range 24).map (fun q => (List.range 8).map (fun j => 8 * q + j))
  | _ => [List.range 192]

/-- Workgroups `w`, `w+1`, … up to `n` of them, each on the lowest core of a list that it fits. -/
def placeFlat (l : Launch) (d : Nat) (cores : List Nat) : Nat → Nat → Placed → Option Placed
  | _, 0, p => some p
  | w, n + 1, p =>
    match cores.find? (fun c => fitsCore p.1 l { die := d, core := c }) with
    | none => none
    | some c =>
      let id : CoreId := { die := d, core := c }
      placeFlat l d cores (w + 1) n (placeWg p.1 l w id none, p.2 ++ [(w, id)])

/-- `n` workgroups from `w` on, in chunks that each lie in one instance of the outermost binding (R209). -/
def placeNest (l : Launch) (d : Nat) : List (Nat × Nat) → List Nat → Nat → Nat → Placed → Option Placed
  | [], cores, w, n, p => placeFlat l d cores w n p
  | (dom, m) :: r, cores, w, n, p =>
    let m := max m 1
    (List.range ((n + m - 1) / m)).foldlM (fun (p : Placed) i =>
      ((instances dom).filter (fun cs => cs.all cores.contains)).findSome? (fun cs =>
        placeNest l d r cs (w + i * m) (min m (n - i * m)) p)) p

/-! ### Neighbourhoods (R211) -/

/-- Shapes (w, h) for `n` members: by area, then |w − h|, then h. -/
def shapes (n : Nat) : List (Nat × Nat) :=
  (List.range 193).flatMap (fun a => if a < n ∨ a = 0 then [] else
    (List.range 16).flatMap (fun diff => (List.range 13).filterMap (fun h =>
      if h = 0 ∨ a % h ≠ 0 then none
      else
        let w := a / h
        if w ≤ 16 ∧ max w h - min w h = diff then some (w, h) else none)))

/-- The first `n` cores of a rectangle, row by row. -/
def rectCores (row col w n : Nat) : List Nat := (List.range n).map (fun i => coreAt (row + i / w) (col + i % w))

/-- The instance of a quad or seam-pair domain that a core lies in. -/
def instanceOf (dom c : Nat) : Nat := if dom = 3 then c / 4 else c / 8

/-- Whether workgroups placed on some cores keep the bindings: those of one instance lie in one die, and in one quad or seam
pair where it is bound to one. -/
def bound (l : Launch) (plan : List (Nat × CoreId)) : Bool :=
  l.nest.all (fun x => plan.all (fun a => plan.all (fun b =>
    a.1 / max 1 x.2 != b.1 / max 1 x.2 ||
      (a.2.die == b.2.die && (x.1 == 6 || instanceOf x.1 a.2.core == instanceOf x.1 b.2.core)))))

/-- The dies in the order of the search: from the one after the previous placement's. -/
def diesAfter (d : Nat) : List Nat := (List.range 32).map (fun i => (d + 1 + i) % 32)

/-- A neighbourhood's members put on the cores of a rectangle. -/
def placeRect (l : Launch) (w d : Nat) (cores : List Nat) (p : Placed) : Placed :=
  let id := p.1.nextId
  let s : State := { p.1 with nextId := id + 1, nbhdDie := d }
  cores.zipIdx.foldl (fun (p : Placed) x =>
    let c : CoreId := { die := d, core := x.1 }
    (placeWg p.1 l (w + x.2) c (some (id, x.2)), p.2 ++ [(w + x.2, c)])) (s, p.2)

/-- `n` workgroups from `w` on in neighbourhoods, `k` at most: each on the first rectangle of R211's search (shapes, then
dies, then positions) that its members fit, that keeps the bindings, and that leaves room for the neighbourhoods that are
placed with it. -/
def placeNbhds (l : Launch) : Nat → Nat → Nat → Placed → Option Placed
  | _, _, 0, p => some p
  | 0, _, _ + 1, _ => none
  | k + 1, w, n, p =>
    let m := min l.nbhd n
    (shapes m).findSome? (fun sh => (diesAfter p.1.nbhdDie).findSome? (fun d =>
      (List.range (13 - sh.2)).findSome? (fun row => (List.range (17 - sh.1)).findSome? (fun col =>
        let cores := rectCores row col sh.1 m
        if cores.all (fun c => fitsCore p.1 l { die := d, core := c }) &&
            bound l (p.2 ++ cores.zipIdx.map (fun x => (w + x.2, { die := d, core := x.1 }))) then
          placeNbhds l k (w + m) (n - m) (placeRect l w d cores p)
        else none))))

/-- `n` workgroups from `w` on placed, or nothing: without neighbourhoods on the lowest die that holds them. -/
def placeUnit (s : State) (l : Launch) (w n : Nat) : Option Placed :=
  if l.nbhd = 0 then (List.range 32).findSome? (fun d => placeNest l d l.nest (List.range 192) w n (s, []))
  else placeNbhds l n w n (s, [])

/-! ### Bindings that no part could hold (R209) -/

/-- Workgroups of the launch that fit one core at once; zero where one fits no core. -/
def coreCapacity (l : Launch) : Nat :=
  min (32 / l.gpw) (min (2048 / (l.gpw * l.quota)) (if l.scr = 0 then 32 else 64 / l.scr))

/-- Whether a part on which nothing is resident could hold the launch's bindings. -/
def holdable (l : Launch) : Bool :=
  coreCapacity l != 0 && (placeUnit State.reset l 0 (min l.unit l.wgCount)).isSome

/-! ### The events -/

/-- Whether the banks that a placement takes on every core of its plan are awake (R72, R210). -/
def planAwake (s : State) (l : Launch) (plan : List (Nat × CoreId)) : Bool :=
  plan.all (fun x =>
    let n := (plan.filter (fun y => y.2 == x.2)).length
    n * l.scr == 0 || decide (n * l.scr ≤ s.awakeBanks x.2))

/-- The next workgroups of a launch placed, if they fit: all of a unit at once (R209, R210). Nothing changes where they
do not. -/
def placeNext (s : State) (l : Launch) : Option State :=
  let alive := match s.world l.world with | some w => !w.failed | none => false
  if l.dead || !alive || decide (l.wgCount ≤ l.next) then none
  else
    let n := min l.unit (l.wgCount - l.next)
    match placeUnit s l l.next n with
    | none => none
    | some (s', plan) =>
      if planAwake s l plan then some (s'.setLaunch { l with next := l.next + n })
      else
        let cs := plan.map (fun x => x.2)
        if (wakeBanks s cs).gated.length = s.gated.length then none else some (wakeBanks s cs)

/-- WORKGROUP_PLACEMENT (R210): in ascending workgroup number, on the lowest die and core that fit (the part's choice:
log entry 20). -/
def execWorkgroupPlacement (launch : Nat) (s : State) : Host.Outcome State Fault Refusal :=
  match s.launch launch with
  | none => .next s
  | some l => .next (if l.nbhd = 0 then (placeNext s l).getD s else s)

/-- NEIGHBOURHOOD_PLACEMENT (R211). -/
def execNeighbourhoodPlacement (launch : Nat) (s : State) : Host.Outcome State Fault Refusal :=
  match s.launch launch with
  | none => .next s
  | some l => .next (if l.nbhd = 0 then s else (placeNext s l).getD s)

end Sys2Proof.Machine
end

