-- ==== Sys2Proof/Machine/Queues.lean ====
section
/-! DEFINITION. Command processors and queues (chapter 16): creation and replicas (R219, R220), capability checks (R218,
R356), packets and their regions (R170, R171, R221), starting, completing and aborting packets (R223-R225), answers
(R228). -/

namespace Sys2Proof.Machine

/-! ### Regions (R170, R171) -/

def regionBase (e : BitVec 128) : Nat := bitsOf e.toNat 0 64
def regionLen (e : BitVec 128) : Nat := bitsOf e.toNat 64 48
/-- Whether an entry makes its packet malformed (R170). -/
def regionBad (e : BitVec 128) : Bool :=
  bitsOf e.toNat 112 16 != 0 ||
  (regionLen e != 0 && decide (2 ^ 57 ≤ regionBase e ∨ 2 ^ 57 ≤ regionBase e + regionLen e - 1))

/-- The home address of a page of a region as the world's tables give it now (R171): none where the page is absent or would
fault. No page request is made; a host page whose translation is not held is asked for by ATS, once for the edge. -/
def regionPlace (world va : Nat) : M (Option Nat) := do
  let s ← get
  let a := fwAsker world
  if 2 ^ 57 ≤ va then pure none
  else if bitsOf va 56 1 = 1 then
    fun s => match translateDevice a va wantRead s with
      | .ok p s' => .ok (some p.home) s'
      | .error (.fault _) _ => .ok none s
      | .error e s' => .error e s'
  else if !xHosten (xlatOf s world) then pure none
  else
    let page := (world, va / 0x1000)
    match heldHost s a va with
    | some p => pure (if p.r then some (hostBase + p.frame + (va - p.base)) else none)
    | none =>
      if s.xlat.asked.contains page && s.xlat.denied.contains page then pure none
      else do
      set { s with xlat := { s.xlat with
        asked := if s.xlat.asked.contains page then s.xlat.asked else page :: s.xlat.asked
        denied := s.xlat.denied.filter (fun x => x != page) } }
      askAts a (xPasid (xlatOf s world)) (va / 0x1000) false
      waitStep

/-- The home words of a region, widened to whole words (R170, R171). -/
def regionWords (world : Nat) (e : BitVec 128) : M (List Nat) := do
  if regionLen e = 0 then pure []
  else
    let first := regionBase e / 32
    let last := (regionBase e + regionLen e - 1) / 32
    let pages := (List.range (last / 128 - first / 128 + 1)).map (fun i => first / 128 + i)
    let ws ← pages.mapM (fun g => do
      let lo := max first (128 * g)
      match ← regionPlace world (32 * lo) with
      | some h => pure ((List.range (min last (128 * g + 127) - lo + 1)).map (fun i => h / 32 + i))
      | none => pure [])
    pure ws.flatten

/-- The words of a list of regions. -/
def regionsWords (world : Nat) (es : List (BitVec 128)) : M (List Nat) := do
  let ws ← es.mapM (regionWords world)
  pure ws.flatten.eraseDups

/-- Every dirty byte of a word pushed home, from every L1 and remote-data cache (R171). -/
def pushEverywhere (w : Nat) : M Unit := do
  let s ← get
  (s.dies.map (fun d => d.id)).forM (fun d => pushRdc d w)
  (s.cores.map (fun c => c.id)).forM (fun c => pushL1Home c w)

/-- Every copy of a word dropped with its lease (R171). -/
def voidCopies (s : State) (w : Nat) : State :=
  { s with
    cores := s.cores.map (fun (c : Core) => { c with copies := dropCopy c.copies w })
    dies := s.dies.map (fun (d : Die) => { d with copies := dropCopy d.copies w }) }

/-- The largest CW of the package: the time by which every merge made so far has its WCT passed. -/
def latestMerge (s : State) : Nat := (s.cores.map (fun c => c.cw)).foldl max 0

/-- An edge of a world acted on: what the host was asked for it is forgotten. -/
def edgeDone (s : State) (world : Nat) : State :=
  { s with xlat := { s.xlat with asked := s.xlat.asked.filter (fun x => x.1 != world) } }

/-- Regions cleaned at producer completion; the time to wait for (R171). -/
def cleanRegions (world : Nat) (es : List (BitVec 128)) : M Nat := do
  let ws ← regionsWords world es
  ws.forM pushEverywhere
  modify (fun (s : State) => edgeDone s world)
  let s ← get
  pure (if ws.isEmpty then 0 else latestMerge s)

/-- Regions invalidated at consumer start (R171). -/
def voidRegions (world : Nat) (es : List (BitVec 128)) : M Unit := do
  let ws ← regionsWords world es
  ws.forM pushEverywhere
  modify (fun (s : State) => edgeDone (ws.foldl voidCopies s) world)

/-! ### Packets (R221) -/

def hdr (w : List DWord) : Nat := ((w[0]?).getD 0).toNat
def word (w : List DWord) (i : Nat) : Nat := ((w[i]?).getD 0).toNat
def pType (w : List DWord) : Nat := bitsOf (hdr w) 0 4
def pBar (w : List DWord) : Bool := bitsOf (hdr w) 4 1 == 1
def pCsig (w : List DWord) : Nat := word w 1
def pTag (w : List DWord) : BitVec 16 := BitVec.ofNat 16 (hdr w / 2 ^ 16)

/-- The wait signals of a BARRIER. -/
def waitSignals (w : List DWord) : List Nat := ([2, 3, 4, 5, 6].map (word w)).filter (· != 0)

/-- The words that a type reserves. -/
def reservedWords : Nat → List Nat
  | 1 => [4, 5, 6, 7]
  | 2 => [5, 6, 7]
  | 3 => [7]
  | 4 => [5, 6, 7]
  | _ => [3, 4, 5, 6, 7]

/-- Whether the packet's own words make it malformed (R221). -/
def packetBad (w : List DWord) : Bool :=
  let t := pType w
  bitsOf (hdr w) 32 32 != 0 || bitsOf (hdr w) 5 11 != 0 || decide (5 < t) || (reservedWords t).any (fun i => word w i != 0) ||
  (t == 2 && !decide (1 ≤ word w 4 ∧ word w 4 ≤ 2 ^ 40)) ||
  (t == 4 && (word w 4 % 4 == 3 || decide (4 ≤ word w 4)))

/-- The pointers of a packet, with the size and alignment of their objects (R217, R218). -/
def packetPointers (w : List DWord) : List (Nat × Nat × Nat) :=
  (if pCsig w = 0 then [] else [(pCsig w, 192, 64)]) ++
  match pType w with
  | 1 => [(word w 2, 64, 64)]
  | 2 => [(word w 2, word w 4, 1), (word w 3, word w 4, 1)]
  | 3 => (waitSignals w).map (fun x => (x, 192, 64))
  | 4 => [(word w 2, 192, 64)]
  | 5 => if word w 2 = 0 then [] else [(word w 2, 8, 8)]
  | _ => []

/-- What is wrong with a packet: MALFORMED, or CAPABILITY with code and address. -/
inductive Bad where
  | malformed
  | capability (code addr : Nat)
  deriving DecidableEq, Repr

/-- A read of the bytes that a signal record's regions take; the access needs the whole record (R222). -/
def readRegions (world sig : Nat) : M (List (BitVec 128)) := do
  let ws ← fwReadWords (signalCap world sig) (sig + 64) 16
  pure ((List.range 8).map (fun i =>
    BitVec.ofNat 128 (((ws[2 * i]?).getD 0).toNat + 2 ^ 64 * ((ws[2 * i + 1]?).getD 0).toNat)))

/-! ### Launch records (R207-R209, R242, R243) -/

/-- Whether a level's descriptor holds a value that R208 does not give it, used or not. -/
def fieldBad (l : Launch) (k : Nat) : Bool :=
  bitsOf (l.lvl k) 7 9 != 0 || bitsOf (l.lvl k) 3 1 != 0 || decide (3 < l.scope k)

/-- Whether a used level breaks R209. -/
def levelBad (l : Launch) (k : Nat) : Bool :=
  let d := l.domain k
  let p := l.span k
  let whole := p % l.wgThreads == 0
  (match d with
    | 0 => p != 1
    | 1 => 32 % p != 0
    | 2 => l.wgThreads % p != 0
    | 5 => !whole || decide (l.scope k < 1) || p / l.wgThreads != l.nbhd ||
        (List.range k).any (fun j => l.domain j == 3 || l.domain j == 4)
    | 7 => decide (l.scope k < 2)
    | _ => !whole || decide (l.scope k < 1)) ||
  (k != 0 && decide (d < l.domain (k - 1)))

/-- Whether a launch record is malformed (R207-R209): a field outside its values, a level that breaks its binding, a binding
that no part could hold; the last condition is R209's own example of one. -/
def launchBad (l : Launch) : Bool :=
  let q := l.field 30 4
  l.field 0 11 != 0 || q == 1 || decide (13 ≤ q) || decide (64 < l.scr) || decide (24 < l.nbhd) ||
  decide (32 < l.slot0 + l.nseg) || l.spill / 2 ^ 56 != 1 ||
  decide (l.entry < 4096 * l.slot0 ∨ 4096 * (l.slot0 + l.nseg) ≤ l.entry) ||
  l.levels == 0 || (List.range 8).any (fun k => decide (l.levels ≤ k) && l.ext k != 0) ||
  (List.range 8).any (fieldBad l) || (List.range l.levels).any (levelBad l) || !holdable l ||
  (l.nbhd == 24 && l.scr == 64 && q == 12 && decide (1 < l.gpw))

/-- Whether a region entry is malformed (R243): EXIT and ENTRY, where they count, are the addresses of words (R9). -/
def entryBad (e : BitVec 512) : Bool :=
  let x := e.toNat
  bitsOf x 1 127 != 0 ||
  (bitsOf x 0 1 == 0 && (bitsOf x 128 2 != 0 || bitsOf x 160 2 != 0)) ||
  (List.range 4).any (fun i => bitsOf x (192 + 32 * i + 20) 12 != 0 ||
    decide (1024 < bitsOf x (192 + 32 * i) 10 + bitsOf x (192 + 32 * i + 10) 10)) ||
  (List.range 32).any (fun j => (bitsOf x (352 + j) 1 == 1 || bitsOf x (320 + j) 1 == 1) && bitsOf x (384 + j) 1 == 0)

/-- The region table as copied at placement (R242): none where RTAB = 0; the flag says whether it is malformed. -/
def readTable (l : Launch) : M (Option (List (BitVec 512)) × Bool) := do
  if l.rtab = 0 then pure (none, false)
  else
    let h ← fwReadWords (derive_ l.world l.rtab 64 64 false) l.rtab 8
    let x := joinWords h
    let n := bitsOf x 0 11
    if n = 0 ∨ 1024 < n ∨ x / 2 ^ 11 ≠ 0 then pure (none, true)
    else
      let es ← (List.range n).mapM (fun r => do
        let w ← fwReadWords (derive_ l.world l.rtab (64 + 64 * n) 64 false) (l.rtab + 64 + 64 * r) 8
        pure (BitVec.ofNat 512 (joinWords w)))
      pure (some es, es.any entryBad)

/-- Pointers of a launch record: its segments, the spill areas of its contexts, 32 of 2 KiB for each workgroup, and its region
table (R207, R217, R218). -/
def launchPointers (l : Launch) : List (Nat × Nat × Nat) :=
  [(l.segs, 4096 * l.nseg, 4096), (l.spill, 65536 * l.wgCount, 2048)] ++ (if l.rtab = 0 then [] else [(l.rtab, 64, 64)])

/-- An initial segment reached and read, all of it (R356). -/
def readSegment (l : Launch) (i : Nat) : M Unit := do
  let p ← fwPlace (derive_ l.world l.segs (4096 * l.nseg) 4096 false) (l.segs + 4096 * i) 4096 wantRead
  (List.range 128).forM (fun j => do
    let x : Place := { p with pa := p.pa + 32 * j }
    let _ ← atPlace x (readBelow x.home 32))

/-- A launch record read and checked with what it names (R356): the launch, or what is wrong with it. -/
def readLaunch (q : Queue) (pidx : Nat) (w : List DWord) : M (Except Bad Launch) := do
  let r ← fwReadWords (derive_ q.world (word w 2) 64 64 false) (word w 2) 8
  let s ← get
  let l : Launch :=
    { id := s.nextId, world := q.world, queue := q.id, pidx := pidx, record := BitVec.ofNat 512 (joinWords r)
      args := BitVec.ofNat 64 (word w 3), table := none, next := 0, ended := 0, dead := false }
  match (launchPointers l).find? pointerBad with
  | some p => pure (.error (.capability 0 p.1))
  | none =>
    (List.range l.nseg).forM (readSegment l)
    let (t, bad) ← readTable l
    if launchBad l || bad then pure (.error .malformed) else pure (.ok { l with table := t })

/-! ### Checking a packet before it starts (R218, R221, R356, R170) -/

/-- Every address that the packet's start reads or writes, reached. -/
def reachAll (q : Queue) (w : List DWord) : M Unit := do
  let signal (x : Nat) (write : Bool) : M Unit := do
    let _ ← fwReadWords (signalCap q.world x) x 24
    if write then fwReady (signalCap q.world x) x else pure ()
  if pCsig w = 0 then pure () else signal (pCsig w) true
  match pType w with
  | 3 => (waitSignals w).forM (fun x => signal x false)
  | 4 => signal (word w 2) true
  | 5 => if word w 2 = 0 then pure () else fwReady (derive_ q.world (word w 2) 8 8 true) (word w 2)
  | _ => pure ()

/-- The regions of the packet's signals, copied (R170): CSIG's, then those of a BARRIER's list. -/
def packetRegions (q : Queue) (w : List DWord) : M (List (BitVec 128) × List (BitVec 128)) := do
  let a ← if pCsig w = 0 then pure [] else readRegions q.world (pCsig w)
  let b ← if pType w = 3 then (waitSignals w).mapM (readRegions q.world) else pure []
  pure (a, b.flatten)

/-- A packet as checked: its regions and, for KERNEL, its launch. -/
structure Checked where
  regions : List (BitVec 128)
  waits   : List (BitVec 128)
  launch  : Option Launch

/-- The checks, CAPABILITY first (R218); a signal's reserved bytes are checked with its regions (R222). -/
def checkPacket (q : Queue) (w : List DWord) : M (Except Bad Checked) := do
  match (packetPointers w).find? pointerBad with
  | some p => pure (.error (.capability 0 p.1))
  | none =>
    reachAll q w
    let l ← if pType w = 1 then do
        let r ← readLaunch q q.ridx w
        pure (some r)
      else pure none
    let (a, b) ← packetRegions q w
    match l with
    | some (.error (.capability c x)) => pure (.error (.capability c x))
    | some (.error .malformed) => pure (.error .malformed)
    | _ =>
      if packetBad w || (a ++ b).any regionBad then pure (.error .malformed)
      else pure (.ok { regions := a, waits := b, launch := match l with | some (.ok x) => some x | _ => none })

/-! ### Completing and aborting (R223-R225) -/

/-- Barriers read their signals again after the part has written one (R224). -/
def wakeBarriers (s : State) : State :=
  { s with queues := s.queues.map (fun (q : Queue) => { q with started := q.started.map (fun (p : Packet) =>
      if pType p.words = 3 then { p with wctDue := some s.now } else p) }) }

/-- CSIG completed, or aborted with a code. -/
def signalRun (world va : Nat) : Option Int → M Unit
  | none => completeSignal world va
  | some a => abortSignal world va a

/-- Whether a fault is a data error, which is fatal to the world, and no failure of R218 (R356). -/
def FaultInfo.isData (f : FaultInfo) : Bool := f.code == cIntegrity || f.code == cMemError

/-- A firmware access for a packet that faults (R218, R356): a data error is fatal to the world; any other fault halts the
queue with a CAPABILITY record. -/
def badAccess (s : State) (q : QueueId) (world pidx : Nat) (tag : BitVec 16) (f : FaultInfo) : State :=
  if f.isData then fatalOn (noteError s f) world (some q) pidx f.code f.addr 0 0 0 (some tag)
  else
    -- page requests that have come to their end are made afresh if the access is tried again
    let gone (r : PageReq) : Bool :=
      f.code == cHost && r.world == world && r.page == f.addr / 0x1000 && (r.failed || !r.waiting)
    let s : State := { s with xlat := { s.xlat with reqs := s.xlat.reqs.filter (fun r => !gone r) } }
    postRecord s q
    { kind := 2, code := BitVec.ofNat 8 f.code, pidx := pidx, qtag := tag, addr := BitVec.ofNat 64 f.addr
      pc := 0, lmask := 0 }

/-- A signal noted as owed. -/
def owe (s : State) (q : QueueId) (o : Owed) : State :=
  match s.queue q with
  | some x => s.setQueue { x with owed := x.owed ++ [o] }
  | none => s

/-- A signal completed or aborted for a packet (R222): one that must wait for its line or page is owed; one whose access
faults is owed until the record is answered (R356). -/
def trySignal (s : State) (q : QueueId) (pidx : Nat) (tag : BitVec 16) (va : Nat) (a : Option Int) : State :=
  match s.queue q with
  | none => s
  | some qu =>
    let o (bad : Bool) : Owed := { pidx := pidx, tag := tag, va := va, code := a, bad := bad }
    match signalRun qu.world va a s with
    | .ok _ s' => wakeBarriers s'
    | .error (.fault f) _ =>
      let s := badAccess s q qu.world pidx tag f
      if f.isData then s else owe s q (o true)
    | .error _ s' => owe s' q (o false)

/-- The signals that a queue's owner still owes, tried again. -/
def retryOwed (s : State) (q : QueueId) : State :=
  match s.queue q with
  | none => s
  | some qu => (qu.owed.filter (fun o => !o.bad)).foldl (fun (s : State) o => trySignal s q o.pidx o.tag o.va o.code)
      (s.setQueue { qu with owed := qu.owed.filter (fun o => o.bad) })

/-- A packet taken off the started ones; what its BAR held back goes on, or aborts with its code (R223, R225). -/
def dropPacket (s : State) (q : QueueId) (pidx : Nat) (code : Option Int) : State :=
  match s.queue q with
  | none => s
  | some qu =>
    let bar := match startedPacket qu pidx with | some p => pBar p.words | none => false
    s.setQueue { qu with
      started := qu.started.filter (fun p => p.pidx != pidx), wake := true
      blocked := qu.blocked && !bar, barred := if bar then code else qu.barred }

/-- A packet completed: CSIG is completed (R222). -/
def completePacket (s : State) (q : QueueId) (p : Packet) : State :=
  match s.queue q with
  | none => s
  | some _ =>
    let s := if pCsig p.words = 0 then s else trySignal s q p.pidx (pTag p.words) (pCsig p.words) none
    dropPacket s q p.pidx none

/-- The ABORTED notice and the abort of CSIG (R225). -/
def abortWords (s : State) (q : QueueId) (pidx : Nat) (w : List DWord) (a : Int) : State :=
  match s.queue q with
  | none => s
  | some _ =>
    let s := if pCsig w = 0 then s else trySignal s q pidx (pTag w) (pCsig w) (some a)
    postRecord s q
      { kind := 5, code := 0, pidx := pidx, qtag := pTag w, addr := 0, pc := 0, lmask := 0 }

/-- A started packet aborted: nothing more is placed for a KERNEL (R225). -/
def abortPacket (s : State) (q : QueueId) (p : Packet) (a : Int) : State :=
  let s := match p.launch with
    | some l => match s.launch l with
      | some x => s.setLaunch { x with dead := true }
      | none => s
    | none => s
  dropPacket (abortWords s q p.pidx p.words a) q p.pidx (some a)

/-- The words of packet `i` of a ring. -/
def readPacket (qu : Queue) (i : Nat) : M (List DWord) :=
  fwReadWords qu.ringCap (qu.ring.toNat + 64 * (i % 2 ^ qu.rlog)) 8

/-- QTAG of packet `i`, where it can be read. -/
def peekTag (s : State) (qu : Queue) (i : Nat) : BitVec 16 :=
  match readPacket qu i s with
  | .ok w _ => pTag w
  | .error _ _ => 0

/-- WIDX (R219). -/
def readWidx (qu : Queue) : M Nat := fwRead qu.widxCap qu.wptr.toNat 8
/-- Whether WIDX stands where R218 allows it. -/
def widxOk (qu : Queue) (x : Nat) : Bool := decide (qu.ridx ≤ x ∧ x ≤ qu.ridx + 2 ^ qu.rlog)

/-- What a queue still has to abort, changed. -/
def setDoom (s : State) (q : QueueId) (d : Option Doom) : State :=
  match s.queue q with
  | some x => s.setQueue { x with doom := d }
  | none => s

/-- Every packet that a queue had to abort has aborted; a reset's have retired with that: RIDX takes WIDX's value (R225, R294). -/
def endDoom (s : State) (q : QueueId) (d : Doom) : State :=
  let s := setDoom s q none
  match s.queue q, d.retire with
  | some x, true => if x.state == 2 || d.next == x.ridx then s else changeQueue s { x with ridx := d.next }
  | _, _ => s

/-- A read of what has to abort that faults (R218): it stands until the record of it is answered. -/
def doomFault (s : State) (q : QueueId) (world : Nat) (d : Doom) (f : FaultInfo) : State :=
  setDoom (badAccess s q world d.next 0 f) q (if f.isData then none else some { d with bad := true })

/-- The next `k` packets of those that have to abort, as far as they can be read now: one whose header is not ready is passed
over. -/
def doomPackets (q : QueueId) : Nat → Doom → State → State
  | 0, d, s => endDoom s q d
  | k + 1, d, s =>
    match s.queue q with
    | none => s
    | some qu =>
      match readPacket qu d.next s with
      | .ok w s' => doomPackets q k { d with next := d.next + 1 } (if pType w = 0 then s' else abortWords s' q d.next w d.code)
      | .error (.fault f) _ => doomFault s q qu.world d f
      | .error _ s' => setDoom s' q (some d)

/-- The packets that a queue still has to abort, as far as WIDX and they can be read now (R225); a WIDX out of its range is
CAPABILITY (R218). -/
def runDoom (s : State) (q : QueueId) : State :=
  match s.queue q with
  | none => s
  | some qu =>
    match qu.doom with
    | none => s
    | some d =>
      if d.bad then s
      else
        match d.stop with
        | some n => doomPackets q (n - d.next) d s
        | none =>
          match (do
              let x ← readWidx qu
              if widxOk qu x then pure x else failCode 0 qu.wptr.toNat) s with
          | .ok x s' => doomPackets q (x - d.next) { d with stop := some x } s'
          | .error (.fault f) _ => doomFault s q qu.world d f
          | .error _ s' => s'

/-- Every packet of a queue that has not started aborted (R225, R238, R294). -/
def abortUnstarted (s : State) (q : QueueId) (a : Int) (retire : Bool := false) : State :=
  match s.queue q with
  | none => s
  | some qu =>
    runDoom (setDoom s q (some { code := a, next := qu.ridx, stop := none, retire := retire, bad := false })) q

/-- A queue DESTROYED (R225). -/
def destroyQueue (s : State) (q : QueueId) : State :=
  match s.queue q with
  | none => s
  | some qu => if qu.state = 2 then s else changeQueue s { qu with state := 2 }

/-! ### Starting (R223, R224) -/

/-- The record of a bad packet. -/
def postBad (s : State) (qu : Queue) (w : List DWord) : Bad → State
  | .malformed => postRecord s qu.id
      { kind := 1, code := 0, pidx := qu.ridx, qtag := pTag w, addr := 0, pc := 0, lmask := 0 }
  | .capability c a => postRecord s qu.id
      { kind := 2, code := BitVec.ofNat 8 c, pidx := qu.ridx, qtag := pTag w, addr := BitVec.ofNat 64 a, pc := 0
        lmask := 0 }

/-- The slot retired: TYPE ← 0 in the header, RIDX advanced (R223). -/
def retireSlot (qu : Queue) (w : List DWord) : M Unit := do
  fwWrite qu.ringCap (qu.ring.toNat + 64 * (qu.ridx % 2 ^ qu.rlog)) (hdr w - pType w) 8
  modify (fun (s : State) => match s.queue qu.id with
    | some x => changeQueue s { x with ridx := x.ridx + 1, wake := true }
    | none => s)

/-- Whether a queue may start its next packet: ACTIVE, its last change acknowledged by every die, nothing with BAR
unfinished, no record still to be written or answered, nothing owed, no reading of a barrier under way, its world alive and its interface in RUN, no BOUNDARY request in
the way (R220, R223, R227, R238, R245, R292, R356). -/
def mayStart (s : State) (qu : Queue) : Bool :=
  qu.state == 0 && qu.acks.isEmpty && !qu.blocked && qu.halted.isEmpty && !qu.held.any (fun r => needsAnswer r.kind) &&
  qu.owed.isEmpty && qu.doom.isNone && !qu.started.any (fun p => p.reading) && !heldBack s qu.world && (match s.world qu.world with | some w => !w.failed && w.accepts | none => false)

/-- The next packet's words; nothing where none is pending or its header is not ready; WIDX is checked (R218, R223). -/
def nextPacket (qu : Queue) : M (Option (List DWord)) := do
  let widx ← readWidx qu
  if !widxOk qu widx then failCode 0 qu.wptr.toNat
  else if widx = qu.ridx then pure none
  else
    let w ← readPacket qu qu.ridx
    pure (if pType w = 0 then none else some w)

/-- The effect of a packet at its start (R224). -/
def beginPacket (qu : Queue) (w : List DWord) (c : Checked) : M Unit := do
  let s ← get
  let p : Packet :=
    { pidx := qu.ridx, words := w, regions := c.regions.filter (fun e => regionLen e != 0)
      waits := c.waits.filter (fun e => regionLen e != 0), launch := c.launch.map (fun l => l.id), since := s.now
      wctDue := if pType w = 3 then some s.now else none, moved := none, reading := false }
  modify (fun (s : State) => match s.queue qu.id with
    | some x => s.setQueue { x with started := x.started ++ [p], blocked := pBar w, barred := none }
    | none => s)
  match pType w with
  | 1 => modify (fun (s : State) => match c.launch with
      | some l => { s with launches := s.launches ++ [l], nextId := s.nextId + 1 }
      | none => s)
  | 4 => do
    let v ← readSignal qu.world (word w 2)
    let x := intOf true 64 (word w 3)
    writeSignal qu.world (word w 2) (match word w 4 with | 0 => x | 1 => v + x | _ => v - x)
    modify (fun (s : State) => completePacket (wakeBarriers s) qu.id p)
  | 5 => do
    if word w 2 = 0 then pure () else fwWrite (derive_ qu.world (word w 2) 8 8 true) (word w 2) s.now 8
    modify (fun (s : State) => completePacket s qu.id p)
  | _ => pure ()

/-- One attempt to start the next packet of a queue, of a given type (R223-R225, R356). -/
def startPacket (s : State) (q : QueueId) (type : Nat) : State :=
  match s.queue q with
  | none => s
  | some qu =>
    if !mayStart s qu then s
    else
      let go : M Unit := do
        match ← nextPacket qu with
        | none => pure ()
        | some w =>
          if pType w ≠ type then pure ()
          else
            fwReady qu.ringCap (qu.ring.toNat + 64 * (qu.ridx % 2 ^ qu.rlog))
            match qu.barred with
            | some a => do
              retireSlot qu w
              modify (fun (s : State) =>
                let s := abortWords s q qu.ridx w a
                match s.queue q with
                | some x => s.setQueue { x with barred := if pBar w then some a else none }
                | none => s)
            | none => do
              match ← checkPacket qu w with
              | .error b => modify (fun (s : State) => postBad s qu w b)
              | .ok c => do
                -- a KERNEL is a consumer: nothing is retired before its regions are void
                if pType w = 1 then voidRegions qu.world c.regions else pure ()
                retireSlot qu w
                beginPacket qu w c
      match go s with
      | .ok _ s' => s'
      | .error (.fault f) _ => badAccess s q qu.world qu.ridx (peekTag s qu qu.ridx) f
      | .error _ s' => s'

/-- KERNEL (R224). -/
def execKernel (q : QueueId) (s : State) : Host.Outcome State Fault Refusal := .next (startPacket s q 1)
/-- COPY (R224). -/
def execCopy (q : QueueId) (s : State) : Host.Outcome State Fault Refusal := .next (startPacket s q 2)
/-- BARRIER (R224). -/
def execBarrier (q : QueueId) (s : State) : Host.Outcome State Fault Refusal := .next (startPacket s q 3)
/-- SIGNAL (R224). -/
def execSignal (q : QueueId) (s : State) : Host.Outcome State Fault Refusal := .next (startPacket s q 4)
/-- MARKER (R224). -/
def execMarker (q : QueueId) (s : State) : Host.Outcome State Fault Refusal := .next (startPacket s q 5)

/-! ### Completions (R224) -/

/-- The packet of a queue that a launch belongs to, while it has not finished. -/
def launchedBy (s : State) (launch : Nat) : Option (QueueId × Packet) :=
  s.queues.findSome? (fun q => (q.started.find? (fun p => p.launch == some launch)).map (fun p => (q.id, p)))

/-- A started packet changed. -/
def setPacket (s : State) (q : QueueId) (p : Packet) : State :=
  match s.queue q with
  | none => s
  | some qu => s.setQueue { qu with started := qu.started.map (fun x => if x.pidx == p.pidx then p else x) }

/-- The end of a packet whose work is done: its regions are cleaned, their completion times awaited, then CSIG is
completed (R171, R224). -/
def finishPacket (s : State) (q : QueueId) (p : Packet) (t : Nat) : State :=
  match s.queue q with
  | none => s
  | some qu =>
    match p.wctDue with
    | some d =>
      if s.now ≤ d then s else completePacket s q p
    | none =>
      match cleanRegions qu.world p.regions s with
      | .ok d s' => setPacket s' q { p with wctDue := some (max t d) }
      | .error (.fault _) s' => setPacket s' q { p with wctDue := some t }
      | .error _ s' => s'

/-- KERNEL_COMPLETION (R224): every group of every workgroup has exited. -/
def execKernelCompletion (launch : Nat) (s : State) : Host.Outcome State Fault Refusal :=
  match s.launch launch with
  | none => .next s
  | some l =>
    if l.ended < l.wgCount ∨ l.dead then .next s
    else
      match launchedBy s launch with
      | none => .next { s with launches := s.launches.filter (fun x => x.id != launch) }
      | some (q, p) =>
        let s := finishPacket s q p 0
        .next (if (launchedBy s launch).isSome then s
          else { s with launches := s.launches.filter (fun (x : Launch) => x.id != launch) })

/-- The capabilities of the ranges of a COPY, its LEN bytes each (R217). -/
def copyCap (q : Queue) (p : Packet) (k : Nat) : Capa := derive_ q.world (word p.words k) (word p.words 4) 1 true

/-- The whole of a COPY (R88, R224): every byte read, then every byte merged; the largest completion time. -/
def copyRun (q : Queue) (p : Packet) : M Nat := do
  let a : Asker := { core := none, world := q.world, queue := some q.id, pidx := p.pidx }
  let n := word p.words 4
  let src ← (List.range n).mapM (fun i => capPlace (copyCap q p 2) a (word p.words 2 + i) 1 wantRead)
  let dst ← (List.range n).mapM (fun i => capPlace (copyCap q p 3) a (word p.words 3 + i) 1 wantWrite)
  let xs ← src.mapM (fun x => atPlace x (engineRead q.owner x.home 1))
  (dst.map (fun x => x.home / 32)).eraseDups.forM mayMerge
  (dst.zip xs).foldlM (fun t x => do
    let w ← atPlace x.1 (writeBelow none (cellsOf x.1.home x.2 1))
    pure (max t w)) 0

/-- COPY_COMPLETION (R224): the bytes move; once every WCT has passed CSIG is completed. -/
def execCopyCompletion (q : QueueId) (pidx : Nat) (s : State) : Host.Outcome State Fault Refusal :=
  match s.queue q with
  | none => .next s
  | some qu =>
    match startedPacket qu pidx with
    | none => .next s
    | some p =>
      if pType p.words ≠ 2 then .next s
      else
        match p.moved with
        | some t => .next (finishPacket s q p t)
        | none =>
        match copyRun qu p s with
        | .ok t s' =>
          let p := { p with moved := some t }
          .next (finishPacket (setPacket s' q p) q p t)
        | .error (.fault f) _ => .next (fatalOn (noteError s f) qu.world (some q) pidx f.code f.addr 0 0 0)
        | .error _ s' => .next s'

/-- What a reading of a signal gave: its VALUE, a fault, or a wait. -/
inductive Seen where
  | value (v : Int)
  | fault (f : FaultInfo)
  | wait
  deriving DecidableEq, Repr

/-- Signals read one after the other, each whatever the others give. -/
def readSignals (world : Nat) : List Nat → State → List Seen × State
  | [], s => ([], s)
  | x :: r, s =>
    let (a, s) : Seen × State := match readSignal world x s with
      | .ok v s' => (.value v, s')
      | .error (.fault f) _ => (.fault f, s)
      | .error _ s' => (.wait, s')
    let (as_, s) := readSignals world r s
    (a :: as_, s)

/-- The first VALUE below zero. -/
def firstAbort (xs : List Seen) : Option Int :=
  xs.findSome? (fun x => match x with | .value v => if v < 0 then some v else none | _ => none)
/-- The first fault. -/
def firstFault (xs : List Seen) : Option FaultInfo :=
  xs.findSome? (fun x => match x with | .fault f => some f | _ => none)

/-- Whether a record that concerns a packet of a queue waits to be written or answered. -/
def Queue.haltedAt (q : Queue) (pidx : Nat) : Bool :=
  q.halted.any (fun x => x.2 == pidx) || q.held.any (fun r => r.pidx == pidx && (r.kind == 1 || r.kind == 2))

/-- BARRIER_SIGNAL_REREAD (R224, R225, R356): a VALUE below zero aborts the packet whatever the other entries give; a fault
halts the queue or is fatal; all zero completes it once the regions of its signals are void. While a reading has to wait the queue
starts no later packet (R356). -/
def execBarrierSignalReread (q : QueueId) (pidx : Nat) (s : State) : Host.Outcome State Fault Refusal :=
  match s.queue q with
  | none => .next s
  | some qu =>
    match startedPacket qu pidx with
    | none => .next s
    | some p =>
      if pType p.words ≠ 3 || qu.haltedAt pidx then .next s
      else
        let (seen, s) := readSignals qu.world (waitSignals p.words) s
        let later : State := setPacket s q { p with wctDue := some (s.now + 10000), reading := seen.any (fun x => x == .wait) }
        match firstAbort seen with
        | some a => .next (abortPacket s q p a)
        | none =>
          match firstFault seen with
          | some f => .next (badAccess later q qu.world pidx (pTag p.words) f)
          | none =>
            if !seen.all (fun x => x == .value 0) then .next later
            else
              match voidRegions qu.world p.waits s with
              | .ok _ s' => .next (completePacket s' q p)
              | .error (.fault f) _ => .next (badAccess s q qu.world pidx (pTag p.words) f)
              | .error _ s' => .next s'

/-! ### Doorbells, polls and answers (R223, R227, R228, R264) -/

/-- DOORBELL (R264, R292): wakes the owner; dropped for a queue that does not exist or is DESTROYED, and before its world's
interface is in RUN. -/
def execDoorbell (q : QueueId) (s : State) : Host.Outcome State Fault Refusal :=
  match s.queue q with
  | none => .next s
  | some qu =>
    let open_ := match s.world qu.world with | some w => w.accepts | none => false
    if qu.state = 2 || !open_ then .next s else .next (s.setQueue { qu with wake := true })

/-- The event of an answer. -/
def answerEvent (q : QueueId) (n a : Nat) : Instr :=
  match a with
  | 1 => .answerResume q n
  | 2 => .answerSkip q n
  | _ => .answerAbort q n

/-- The virtual address of the ANSWER and ACODE bytes of record `n` (R226). -/
def answerAt (qu : Queue) (n : Nat) : Nat := qu.exq.toNat + 64 * (n % 2 ^ qu.elog) + 56
/-- The answer that the last eight bytes of a record hold, and its abort code; the codes 4-255 are ABORT with code −1, and an
ACODE of at least 0 is taken as −1 (R226). -/
def answerOf (x : Nat) : Option (Nat × Int) :=
  let a := bitsOf x 56 8
  let c := intOf true 56 (bitsOf x 0 56)
  if a = 0 then none else if 3 < a then some (3, -1) else some (a, if 0 ≤ c then -1 else c)

/-- The answer of a record read (R228): a data error is fatal to the world; a read that must wait is made again. DESIGN CHOICE
(log entry 105): one that meets another fault finds no answer, and no record of it is posted on the ring that it concerns. -/
def readAnswer (s : State) (qu : Queue) (n : Nat) : Option (Nat × Int) × State :=
  match fwRead qu.exqCap (answerAt qu n) 8 s with
  | .ok x s' => (answerOf x, s')
  | .error (.fault f) _ => (none, if f.isData then badAccess s qu.id qu.world qu.ridx 0 f else s)
  | .error _ s' => (none, s')

/-- The events of the answers to some records of a queue. -/
def readAnswers (q : QueueId) : List Nat → State → List Instr × State
  | [], s => ([], s)
  | n :: r, s =>
    match s.queue q with
    | none => ([], s)
    | some qu =>
      let (a, s) := readAnswer s qu n
      let (es, s) := readAnswers q r s
      ((a.map (fun a => answerEvent q n a.1)).toList ++ es, s)

/-- The records of a queue that wait for an answer. -/
def awaiting (s : State) (qu : Queue) : List Nat :=
  qu.halted.map (fun x => x.1) ++ (s.xlat.demand.filter (fun d => d.queue == qu.id && !d.aborted)).filterMap (fun d => d.n)

/-- QUEUE_POLL (R223, R225, R227, R228): what is owed, held records, answers, and the next packet. One of TYPE 6-15 has no
event of its own. -/
def execQueuePoll (q : QueueId) (s : State) : Host.Outcome State Fault Refusal :=
  match s.queue q with
  | none => .next s
  | some qu =>
    let s := runDoom (retryOwed (s.setQueue { qu with wake := false, polled := s.now }) q) q
    match s.queue q with
    | none => .next s
    | some qu =>
      let s := if qu.held.isEmpty then s else s.due [.heldRecordWrite q]
      let (es, s) := readAnswers q (awaiting s qu) s
      let s := s.due es
      if !mayStart s qu then .next s
      else
        match nextPacket qu s with
        | .ok none s' => .next s'
        | .ok (some w) s' =>
          let t := pType w
          .next (if 5 < t then startPacket s' q t
            else s'.due [match t with | 1 => .kernel q | 2 => .copy q | 3 => .barrier q | 4 => .signal q | _ => .marker q])
        | .error (.fault f) _ => .next (badAccess s q qu.world qu.ridx (peekTag s qu qu.ridx) f)
        | .error _ s' => .next s'

/-- HELD_RECORD_WRITE (R227). -/
def execHeldRecordWrite (q : QueueId) (s : State) : Host.Outcome State Fault Refusal := .next (writeAllHeld s q)

/-- A queue back to ACTIVE once no record of it waits to be written or answered (R227, R228). -/
def reactivate (s : State) (q : QueueId) : State :=
  match s.queue q with
  | none => s
  | some qu =>
    if qu.state = 1 ∧ qu.halted.isEmpty ∧ !qu.held.any (fun r => needsAnswer r.kind)
        ∧ !s.xlat.demand.any (fun d => d.queue == q && !d.aborted) then
      changeQueue s { qu with state := 0, wake := true }
    else s

/-- Stalled copy operations of a world tried again. -/
def retryOps (s : State) (world : Nat) : State :=
  { s with quads := s.quads.map (fun (q : Quad) => { q with ops := q.ops.map (fun o =>
      if o.by_.world == world then { o with stalled := false, absent := false } else o) }) }

/-- The packet at which a queue is halted retired without effect, then finished by `f`. Nothing, where an access must wait: the
answer is then read again (R228). Where the ring itself cannot be reached the packet stays, and that fault is reported (R218). -/
def retireHalted (s : State) (qu : Queue) (f : State → List DWord → State) : State × Bool :=
  match (do let w ← readPacket qu qu.ridx; retireSlot qu w; pure w) s with
  | .ok w s' => (f s' w, true)
  | .error (.fault x) _ => (badAccess s qu.id qu.world qu.ridx 0 x, true)
  | .error _ s' => (s', false)

/-- The answered record of a number forgotten. -/
def forgetHalt (s : State) (q : QueueId) (n : Nat) : State :=
  match s.queue q with
  | some qu => s.setQueue { qu with halted := qu.halted.filter (fun x => x.1 != n) }
  | none => s

/-- The signals owed for a packet, changed. -/
def mendOwed (s : State) (q : QueueId) (f : List Owed → List Owed) : State :=
  match s.queue q with
  | some qu => s.setQueue { qu with owed := f qu.owed, wake := true }
  | none => s

/-- Whether the record of a packet is that of a read made to abort it. -/
def Queue.doomedAt (q : Queue) (pidx : Nat) : Bool :=
  match q.doom with | some d => d.bad && d.next == pidx | none => false

/-- SKIP (none) or ABORT (a code) of a MALFORMED or CAPABILITY record for packet `pidx` (R228): a signal owed for a packet
that has retired is dropped; a started packet completes or aborts; the packet at which the queue stands retires. The flag
says whether the answer has been carried out. -/
def settleHalt (s : State) (qu : Queue) (pidx : Nat) (a : Option Int) : State × Bool :=
  if qu.owed.any (fun o => o.bad && o.pidx == pidx) then
    (mendOwed s qu.id (fun l => l.filter (fun o => !(o.bad && o.pidx == pidx))), true)
  else if qu.doomedAt pidx then
    -- a packet that could not be read to be aborted is passed over; without WIDX there is none
    (match qu.doom with
     | some d => if d.stop.isNone then setDoom s qu.id none
       else runDoom (setDoom s qu.id (some { d with next := d.next + 1, bad := false })) qu.id
     | none => s, true)
  else
    match startedPacket qu pidx, a with
    | some p, none => (completePacket s qu.id p, true)
    | some p, some a => (abortPacket s qu.id p a, true)
    | none, _ =>
      if pidx ≠ qu.ridx ∨ qu.state = 2 then (s, true)
      else retireHalted s qu (fun s w =>
        match a with
        | none => if pCsig w = 0 then s else trySignal s qu.id pidx (pTag w) (pCsig w) none
        | some a =>
          let s := abortWords s qu.id pidx w a
          match s.queue qu.id with
          | some x => s.setQueue { x with barred := if pBar w then some a else x.barred }
          | none => s)

/-- A record of kind 1 or 2 answered by SKIP or ABORT (R228). -/
def answerHalt (s : State) (qu : Queue) (n pidx : Nat) (a : Option Int) : State :=
  let (s, done) := settleHalt s qu pidx a
  if done then reactivate (forgetHalt s qu.id n) qu.id else s

/-- The XLATE_DEMAND record of a number answered: taken off, or marked ABORT; what it stalled is tried again (R55). -/
def answerDemand (s : State) (q : QueueId) (n : Nat) (abort : Bool) : State :=
  match s.xlat.demand.find? (fun d => d.queue == q && d.n == some n && !d.aborted) with
  | none => s
  | some d =>
    let ds := if abort then
        s.xlat.demand.map (fun x => if x == d then { x with aborted := true } else x)
      else s.xlat.demand.filter (fun x => x != d)
    reactivate (retryOps { s with xlat := { s.xlat with demand := ds } } d.world) q

/-- ANSWER_RESUME (R228): the packet, or the access that R218 stopped, is tried again. -/
def execAnswerResume (q : QueueId) (n : Nat) (s : State) : Host.Outcome State Fault Refusal :=
  match s.queue q with
  | none => .next s
  | some qu =>
    match readAnswer s qu n with
    | (some (1, _), s) =>
      match lookupN qu.halted n with
      | some pidx =>
        let again (o : Owed) : Owed := if o.pidx = pidx then { o with bad := false } else o
        let s := reactivate (forgetHalt (mendOwed s q (List.map again)) q n) q
        .next (if qu.doomedAt pidx then runDoom (setDoom s q (qu.doom.map (fun d => { d with bad := false }))) q else s)
      | none => .next (answerDemand s q n false)
    | (_, s) => .next s

/-- ANSWER_SKIP (R228): for an XLATE_DEMAND record it is ABORT. -/
def execAnswerSkip (q : QueueId) (n : Nat) (s : State) : Host.Outcome State Fault Refusal :=
  match s.queue q with
  | none => .next s
  | some qu =>
    match readAnswer s qu n with
    | (some (2, _), s) =>
      match lookupN qu.halted n with
      | some pidx => .next (answerHalt s qu n pidx none)
      | none => .next (answerDemand s q n true)
    | (_, s) => .next s

/-- ANSWER_ABORT (R228). -/
def execAnswerAbort (q : QueueId) (n : Nat) (s : State) : Host.Outcome State Fault Refusal :=
  match s.queue q with
  | none => .next s
  | some qu =>
    match readAnswer s qu n with
    | (some (3, a), s) =>
      match lookupN qu.halted n with
      | some pidx => .next (answerHalt s qu n pidx (some a))
      | none => .next (answerDemand s q n true)
    | (_, s) => .next s

/-! ### Creation, destruction, replicas (R219, R220, R225) -/

/-- QUEUE_CREATE (R219): a record with RLOG or ELOG outside its values, or a pointer not aligned, is refused; RIDX,
VERSION, DROPPED, STATE and reserved bits start at zero; every die but the owner holds a replica (R220). No queue exists before the firmware runs (R295). -/
def execQueueCreate (q : QueueId) (r : BitVec 512) (s : State) : Host.Outcome State Fault Refusal :=
  let x := r.toNat
  let rlog := bitsOf x 176 5
  let elog := bitsOf x 172 4
  let ok := decide (4 ≤ rlog ∧ rlog ≤ 16 ∧ 3 ≤ elog ∧ elog ≤ 12) && bitsOf x 448 64 % 64 == 0 && bitsOf x 384 64 % 64 == 0 &&
    bitsOf x 320 64 % 8 == 0 && decide (q < 65536) && s.trust.running.isSome
  let free := match s.queue q with
    | none => true
    | some o => o.state == 2 && o.started.isEmpty && o.owed.isEmpty && o.doom.isNone
  if !ok || !free then .next s
  else
    let first : Replica := { version := 0, ridx := 0, state := 0, dropped := 0 }
    let qu : Queue :=
      { id := q, ring := BitVec.ofNat 64 (bitsOf x 448 64), exq := BitVec.ofNat 64 (bitsOf x 384 64)
        wptr := BitVec.ofNat 64 (bitsOf x 320 64), ridx := 0, version := 0, dropped := 0, owner := bitsOf x 187 5
        world := bitsOf x 181 6, rlog := rlog, elog := elog, state := 0, acks := [], wake := false
        replicas := ((List.range 32).filter (fun d => d != bitsOf x 187 5)).map (fun d => (d, first))
        polled := s.now, started := [], held := [], exNext := 0, halted := [], barred := none, blocked := false
        owed := [], doom := none }
    .next { s with queues := s.queues.filter (fun (o : Queue) => o.id != q) ++ [qu] }

/-- QUEUE_DESTROY (R225): packets not started abort with −3; those started run to completion. -/
def execQueueDestroy (q : QueueId) (s : State) : Host.Outcome State Fault Refusal :=
  match s.queue q with
  | none => .next s
  | some qu => if qu.state = 2 then .next s else .next (abortUnstarted (destroyQueue s q) q (-3))

/-- REPLICA_INVALIDATION_ACK (R220). A die whose replica is invalid fetches it anew before it uses the record. -/
def execReplicaInvalidationAck (q : QueueId) (die : Nat) (s : State) : Host.Outcome State Fault Refusal :=
  match s.queue q with
  | none => .next s
  | some qu =>
    if qu.acks.contains die then
      .next (s.setQueue { qu with acks := qu.acks.filter (fun d => d != die), wake := true })
    else .next s

end Sys2Proof.Machine
end

