-- ==== Sys2Proof/Machine/Teardown.lean ====
section
/-! DEFINITION. The end of a world's work: teardown (R238), hangs (R239), and the reset of its interface (R294). -/

namespace Sys2Proof.Machine

/-! ### Step 1: the address space -/

/-- The world's translations withdrawn from every TLB and walker; its recoverable stalls end, and what the host was asked
is left to the host (R238). The firmware's own accesses for the world's queues go on until they are over (`fw`): CSIGs are still to
be aborted and notices written, in host memory too. -/
def withdrawXlat (s : State) (w : Nat) (fw : Bool) : State :=
  { s with
    xlat := { s.xlat with
      tlb := s.xlat.tlb.filter (fun e => e.world != w)
      host := s.xlat.host.filter (fun p => p.1 != w || fw)
      ats := (s.xlat.ats.filter (fun p => p.world != w || (fw && p.fw))).map (fun p =>
        if p.world == w then { p with joined := [] } else p)
      denied := s.xlat.denied.filter (fun p => p.1 != w)
      asked := s.xlat.asked.filter (fun p => p.1 != w)
      reqs := s.xlat.reqs.filter (fun r => r.world != w)
      demand := s.xlat.demand.filter (fun d => d.world != w) }
    dies := s.dies.map (fun (d : Die) => { d with walks := d.walks.filter (fun x => x.world != w) })
    flight := s.flight.filter (fun f => match s.group f.key with | some g => g.world != w | none => true) }

/-! ### Step 2: groups, transfers and matrix operations -/

/-- The world of a launch. -/
def launchWorld (s : State) (launch : Nat) : Option Nat := (s.launch launch).map (fun l => l.world)

/-- Nothing more of the world is placed or spawned. -/
def stopLaunches (s : State) (w : Nat) : State :=
  { s with
    launches := s.launches.map (fun (l : Launch) => if l.world == w then { l with dead := true } else l)
    cores := s.cores.map (fun (k : Core) =>
      { k with bins := k.bins.filter (fun b => launchWorld s b.2.launch != some w) }) }

/-- Whether a group is stalled, waiting or in single-lane mode, or stopped for a save (R238). -/
def standsStill (s : State) (g : Group) : Bool :=
  let waits (p : Option Path) : Bool := match p with | some p => p.parked.isSome || p.awaits.isSome | none => false
  g.single.isSome || waits g.slot0 || waits g.slot1 || growing s g.key || g.stage != .running

/-- Groups retired at once, without ACC_LEAK or an exit routine. -/
def killGroups (s : State) (p : Group → Bool) : State :=
  (s.groups.filter p).foldl (fun (s : State) (g : Group) => retireGroup s g.key) s

/-- A copy operation ended: its tile rests as R85 has it, with the ERR that it holds (R90: no other code is ever recorded). -/
def endOp (s : State) (q : QuadId) (o : CopyOp) : State :=
  let s := dropOp s q o.id
  match lookupN (s.quad q).tiles o.tile with
  | some { tile := some t, .. } =>
    restTile s q o.tile { t with state := if o.kind.fills then .empty else .ready }
  | _ => s

/-- The world's copy operations ended. -/
def endOps (s : State) (w : Nat) : State :=
  (s.quads.map (fun q => q.id)).foldl (fun (s : State) q =>
    ((s.quad q).ops.filter (fun o => o.by_.world == w)).foldl (fun (s : State) o => endOp s q o) s) s

/-- Matrix operations of the world discarded: those not granted, or every one (R238). -/
def discardEntries (s : State) (w : Nat) (all : Bool) : State :=
  (s.quads.map (fun q => q.id)).foldl (fun (s : State) q =>
    let out := (s.quad q).entries.filter (fun e => e.world == w && (all || !e.granted))
    out.foldl (fun (s : State) e =>
      let qu := s.quad q
      let s := s.setQuad { qu with entries := qu.entries.filter (fun x => x.id != e.id) }
      let s := (e.srcs q).foldl (fun (s : State) x => addReaders s x (· - 1)) s
      closeWorkgroup (emptyDst s q e) e.launch e.wg) s) s

/-! ### Step 3: scrubbing -/

/-- What a quad holds of a world scrubbed and freed. -/
def scrubQuad (w : Nat) (q : Quad) : Quad :=
  let q := (q.tiles.filter (fun t => match t.2.tile with | some x => x.world == w | none => false)).foldl
    (fun (q : Quad) (t : Nat × TileSlot) => freeTile q t.1) q
  let q := (q.accs.filter (fun a => a.world == w)).foldl freeAcc q
  { q with
    slots := q.slots.filter (fun x => x.2.world != w)
    spools := q.spools.filter (fun x => x.2.world != w)
    ops := q.ops.filter (fun o => o.by_.world != w)
    entries := q.entries.filter (fun e => e.world != w) }

/-- What a core holds of a world scrubbed and freed. -/
def scrubCore (w : Nat) (k : Core) : Core :=
  { k with
    overlay := k.overlay.filter (fun o => o.2.world != some w)
    log := k.log.filter (fun e => e.world != w)
    kept := k.kept.filter (fun x => x.2.world != w)
    stored := k.stored.filter (fun x => x.2 != w)
    waiting := k.waiting.filter (fun r => r.world != w) }

/-- An image without what belongs to a world. -/
def scrubImage (w : Nat) (i : Image) : Image :=
  { i with
    groups := i.groups.filter (fun g => g.world != w), wgs := i.wgs.filter (fun x => x.world != w)
    quads := i.quads.map (scrubQuad w), cores := i.cores.map (scrubCore w) }

/-- A die's collective slots of a world freed (R283). -/
def scrubColl (w : Nat) (d : Die) : Die :=
  (d.coll.filter (fun x => x.2.world == w)).foldl (fun (d : Die) x =>
    { d with coll := dropN d.coll x.1, collGen := putN d.collGen x.1 ((lookupN d.collGen x.1).getD 0 + 1) }) d

/-- Everything of a world scrubbed and freed (R238, R357): its workgroups' banks are zeroed before they are granted
again; the bays of an image of which nothing is left are free (R253, R294). -/
def scrubWorld (s : State) (w : Nat) : State :=
  let s := (s.wgs.filter (fun x => x.world == w && x.banks != 0)).foldl (fun (s : State) (x : Workgroup) =>
    { s with scrubs := s.scrubs ++ [{ id := s.nextId, core := x.core, banks := x.banks }], nextId := s.nextId + 1 }) s
  let images := s.images.map (scrubImage w)
  let empty := images.filter (fun i => i.groups.isEmpty)
  let spare (d : Nat) (b : Nat × Nat) : Bool := empty.any (fun i => i.die == d && i.id == b.2)
  { s with
    wgs := s.wgs.filter (fun x => x.world != w)
    quads := s.quads.map (scrubQuad w)
    cores := s.cores.map (scrubCore w)
    dies := s.dies.map (fun (d : Die) =>
      let d := scrubColl w d
      { d with bays := d.bays.filter (fun b => !spare d.id b) })
    images := images.filter (fun i => !i.groups.isEmpty)
    parts := s.parts.map (fun (p : Partition) =>
      let ws := p.worlds.filter (fun x => x != w)
      -- a pre-emption of the world's contexts alone is abandoned
      { p with worlds := ws, stage := if p.worlds.contains w && ws.isEmpty then 0 else p.stage }) }

/-! ### Step 4: queues -/

/-- The queues of a world. -/
def queuesOf (s : State) (w : Nat) : List QueueId := (s.queues.filter (fun q => q.world == w)).map (fun q => q.id)
/-- Those that are not DESTROYED. -/
def openQueues (s : State) (w : Nat) : List QueueId :=
  (s.queues.filter (fun q => q.world == w && q.state != 2)).map (fun q => q.id)

/-- Every started packet of a queue aborted with a code, every other with −3, unless its queue's end has done so (R225). -/
def abortQueue (s : State) (q : QueueId) (a : Int) (retire : Bool := false) : State :=
  match s.queue q with
  | none => s
  | some qu =>
    let s := qu.started.foldl (fun (s : State) p => abortPacket s q p a) s
    if qu.state = 2 then s else abortUnstarted s q (-3) retire

/-- The notices of a world's fatal faults posted (R238). -/
def postNotices (s : State) (w : Nat) : State :=
  match s.world w with
  | none => s
  | some x =>
    x.notices.foldl (fun (s : State) n => match n.1 with
      | some q => postRecord s q n.2
      | none => (openQueues s w).foldl (fun (s : State) q => postRecord s q n.2) s) (s.setWorld { x with notices := [] })

/-- The launches of a world forgotten. -/
def dropLaunches (s : State) (w : Nat) : State :=
  { s with launches := s.launches.filter (fun (l : Launch) => l.world != w) }

/-! ### The events of R238 and R239 -/

/-- TEARDOWN (R238), steps 1 and 2. One that no fatal fault began (an integrity failure with no requester, R287; an
interface in ERROR, R292) has its notice posted on every queue of the world (code: log entry 22). Groups of the world that
come to stand still later retire by the same event. -/
def execTeardown (world : Nat) (s : State) : Host.Outcome State Fault Refusal :=
  match s.world world with
  | none => .next s
  | some x =>
    if x.failed then
      .next (if x.dying.isSome then killGroups s (fun g => g.world == world && standsStill s g) else s)
    else
      let s := if x.dying.isNone then fatalOn s world none 0 cIntegrity 0 0 0 0 else s
      let s := withdrawXlat s world true
      let s := match s.world world with | some x => s.setWorld { x with failed := true } | none => s
      let s := stopLaunches s world
      let s := endOps s world
      let s := discardEntries s world false
      let s := teardownColls s world
      .next (killGroups s (fun g => g.world == world && standsStill s g))

/-- Whether no group and no running matrix operation of a world is left. -/
def worldGone (s : State) (w : Nat) : Bool :=
  !s.groups.any (fun g => g.world == w) && !s.quads.any (fun q => q.entries.any (fun e => e.world == w))

/-- Whether a teardown of a world is past its first step and not finished. -/
def tearing (s : State) (w : Nat) : Bool := match s.world w with | some x => x.failed && x.dying.isSome | none => false

/-- TEARDOWN_SCRUB (R238), steps 3 and 4: once every group has retired. -/
def execTeardownScrub (world : Nat) (s : State) : Host.Outcome State Fault Refusal :=
  if !tearing s world || !worldGone s world then .next s
  else
    let s := scrubWorld s world
    let s := postNotices ((queuesOf s world).foldl (fun (s : State) q => abortQueue s q (-2)) s) world
    let s := (openQueues s world).foldl destroyQueue s
    let s := dropLaunches s world
    .next (match s.world world with | some x => s.setWorld { x with dying := none } | none => s)

/-- TEARDOWN_CORE_HALT (R238): cores that have not retired the world's groups within 1 ms are halted. -/
def execTeardownCoreHalt (world : Nat) (s : State) : Host.Outcome State Fault Refusal :=
  match s.world world with
  | none => .next s
  | some x =>
    match x.dying with
    | some t =>
      if x.failed ∧ t + 1000000 ≤ s.now then
        .next (killGroups (discardEntries (stopLaunches s world) world true) (fun g => g.world == world))
      else .next s
    | none => .next s

/-- HANG (R239): a packet started longer ago than the watchdog time is fatal to its world. -/
def execHang (q : QueueId) (pidx : Nat) (s : State) : Host.Outcome State Fault Refusal :=
  match s.queue q with
  | none => .next s
  | some qu =>
    match startedPacket qu pidx with
    | none => .next s
    | some p =>
      let t := s.trust.config.watchdog
      if t = 0 ∨ s.now ≤ p.since + t then .next s
      else .next (fatalOn s qu.world (some q) pidx cHang 0 0 0 0)

/-! ### The reset of an interface (R294) -/

/-- The granules that a world owns (R286). -/
def granulesOf (s : State) (w : Nat) : List Nat :=
  s.dies.flatMap (fun d => (d.owners.filter (fun x => x.2 == w)).map (fun x => x.1))

/-- Some bytes of memory gone, wherever they stand, with what is kept of their sectors but the versions, which stay in the
tree (R56). -/
def eraseBytes (s : State) (out : Nat → Bool) : State :=
  let cells (m : List Host.Cell) : List Host.Cell := m.filter (fun c => !out c.1)
  let copies (cs : List Copy) : List Copy := cs.filter (fun c => !out (32 * c.word))
  let words (l : List Nat) : List Nat := l.filter (fun x => !out (32 * x))
  { s with
    mem := cells s.mem
    lines := { s.lines with
      bad := words s.lines.bad, plain := words s.lines.plain, bare := words s.lines.bare
      forged := s.lines.forged.filter (fun x => !out (64 * x)), mac := s.lines.mac.filter (fun x => !out (64 * x.1)) }
    cores := s.cores.map (fun (k : Core) => { k with dirty := cells k.dirty, copies := copies k.copies })
    dies := s.dies.map (fun (d : Die) =>
      { d with
        dirty := cells d.dirty, copies := copies d.copies, writer := d.writer.filter (fun x => !out (32 * x.1))
        author := d.author.filter (fun x => !out x.1) }) }

/-- Protected granules zeroed and their ownership back with Derdieb (R294). -/
def scrubGranules (s : State) (gs : List Nat) : State :=
  let s := eraseBytes s (fun a => gs.contains (a / 0x10000))
  { s with dies := s.dies.map (fun (d : Die) => { d with owners := d.owners.filter (fun x => !gs.contains x.1) }) }

/-- Whether an interface can be reset: CONFIG_LOCKED, RUN or ERROR (R294). World 0 has no interface (R283). -/
def World.resettable (w : World) : Bool := w.id != 0 && w.tdi != .unlocked

/-- The secret slots of a world erased, wherever their bytes stand (R294). -/
def eraseSecrets (s : State) (w : World) : State :=
  eraseBytes s (fun a => w.secrets.any (fun n => decide (w.page + 4096 * n ≤ a ∧ a < w.page + 4096 * n + 4096)))

/-- Steps 1 and 2 of a reset (R294): nothing more starts, the world's work is killed, its packets abort. A teardown in progress
merges into them. -/
def beginReset (s : State) (w : World) : State :=
  let world := w.id
  let s := s.setWorld { w with failed := true, dying := none, resetting := some s.now }
  let s := stopLaunches s world
  let s := endOps s world
  let s := discardEntries s world true
  let s := killGroups s (fun g => g.world == world)
  let s := teardownColls s world
  let s := postNotices ((queuesOf s world).foldl (fun (s : State) q => abortQueue s q (-4) true) s) world
  dropLaunches ((queuesOf s world).foldl writeAllHeld s) world

/-- Whether the aborts of a world's packets are over, but for those that a fault holds up until it is answered. -/
def abortsOver (s : State) (world : Nat) : Bool :=
  (s.queues.filter (fun q => q.world == world)).all (fun q =>
    q.owed.all (fun o => o.bad) && (match q.doom with | some d => d.bad | none => true))

/-- Steps 3 to 6 of a reset (R294). -/
def endReset (s : State) (world : Nat) : State :=
  let s := (queuesOf s world).foldl writeAllHeld s
  -- 3: translations
  let s := withdrawXlat s world false
  -- 4: keys and secrets
  let s := match s.world world with
    | none => s
    | some w => (eraseSecrets s w).setWorld { w with xlat := 0, keyed := false, secrets := [] }
  -- 5: allocations, bays, granules
  let s := scrubGranules (scrubWorld s world) (granulesOf s world)
  -- 6: the interface is unlocked
  let s := match s.world world with
    | none => s
    | some w => s.setWorld { w with tdi := .unlocked, resetting := none }
  -- the debug gate opens when the last interface is unlocked, and every register kept is scrubbed before it does (R293, R357)
  let opens := s.worlds.all (fun w => w.id == 0 || w.tdi == .unlocked)
  let s := if opens then { s with cores := s.cores.map (fun (k : Core) => { k with kept := [] }) } else s
  ({ s with trust := { s.trust with debugOpen := opens } } : State).send (.tdisp world true)

/-- The reset of a world, in R294's order: its work ends; then, once the packets' aborts have been written or 100 ms have passed,
its memory goes out of reach and the rest follows. -/
def resetWorld (s : State) (w : World) : State :=
  let s := if w.resetting.isNone then beginReset s w else s
  let late := match w.resetting with | some t => decide (t + 100000000 ≤ s.now) | none => false
  if abortsOver s w.id || late then endReset s w.id else s

/-- FUNCTION_LEVEL_RESET (R294). -/
def execFunctionLevelReset (world : Nat) (s : State) : Host.Outcome State Fault Refusal :=
  match s.world world with
  | none => .next s
  | some w => .next (if w.resettable then resetWorld s w else s)

/-- STOP_INTERFACE_REQUEST (R292, R294). -/
def execStopInterfaceRequest (world : Nat) (s : State) : Host.Outcome State Fault Refusal :=
  match s.world world with
  | none => .next s
  | some w => .next (if w.resettable then resetWorld s w else s.send (.tdisp world false))

end Sys2Proof.Machine
end

