-- ==== Sys2Proof/Machine/Caches.lean ====
section
/-! DEFINITION. What the caches do on their own (R58, R63, R65-R67), power gating (R71-R73), the patrol scrubber (R39),
the completion of a scrub (R284), invalidations and walks (R48, R50), and the host's answers to translation and page
requests (R51, R52). -/

namespace Sys2Proof.Machine

/-! ### Caches -/

/-- A push by the part on its own: what must wait is left for another step. -/
def tryPush (s : State) (m : M Unit) : State :=
  match m s with
  | .ok _ s' => s'
  | .error _ s' => s'

/-- The clean copy of a word dropped from a cache. -/
def dropClean (s : State) (c : CacheId) (w : Nat) : State :=
  match c with
  | .l1 d k => let x := s.core { die := d, core := k }; s.setCore { x with copies := dropCopy x.copies w }
  | .rdc d => let x := s.die d; s.setDie { x with copies := dropCopy x.copies w }
  | .l2 _ => s

/-- The dirty bytes of a word that a cache sends home. An L2's lines are home contents. -/
def pushFrom (c : CacheId) (w : Nat) : M Unit :=
  match c with
  | .l1 d k => pushL1Home { die := d, core := k } w
  | .rdc d => pushRdc d w
  | .l2 _ => pure ()

/-- The copies that a cache keeps. -/
def copiesOf (s : State) : CacheId → List Copy
  | .l1 d k => (s.core { die := d, core := k }).copies
  | .rdc d => (s.die d).copies
  | .l2 _ => []

/-- LEASE_EXPIRY (R63): an expired copy is absent for reading. -/
def execLeaseExpiry (c : CacheId) (word : Nat) (s : State) : Host.Outcome State Fault Refusal :=
  .next (if (copiesOf s c).any (fun x => x.word == word && decide (x.expiry ≤ s.now)) then dropClean s c word else s)

/-- The latest lease granted on a line (R65). -/
def lineMax (s : State) (line : Nat) : Nat :=
  max ((lookupN s.lines.eMax (2 * line)).getD 0) ((lookupN s.lines.eMax (2 * line + 1)).getD 0)
/-- The bytes of a line at home. -/
def lineData (s : State) (line : Nat) : BitVec 512 := BitVec.ofNat 512 (readLE s.mem (64 * line) 64)
/-- The state of a host line at its proxy die. -/
def mesiOf (s : State) (line : Nat) : Mesi := (lookupN s.lines.mesi line).getD .i
def setMesi (s : State) (line : Nat) (st : Mesi) : State :=
  { s with lines := { s.lines with mesi := if st = .i then dropN s.lines.mesi line else putN s.lines.mesi line st } }

/-- A host line leaves its proxy die (R266), once the leases granted on it have passed (log entry 23). -/
def evictHostLine (s : State) (line : Nat) : State :=
  if mesiOf s line = .i ∨ s.now ≤ lineMax s line then s
  else if mesiOf s line = .m then (setMesi s line .i).send (.cxl line "DirtyEvict" (some (lineData s line)))
  else (setMesi s line .i).send (.cxl line "CleanEvict" none)

/-- MERGE_AT_HOME (R59, R66-R68): dirty bytes of a word merge at home. -/
def execMergeAtHome (c : CacheId) (word : Nat) (s : State) : Host.Outcome State Fault Refusal :=
  .next (tryPush s (pushFrom c word))

/-! ### Gating (R71-R73) -/

/-- Whether a cache holds dirty bytes of a word. -/
def dirtyIn (s : State) (c : CacheId) (w : Nat) : Bool :=
  match c with
  | .l1 d k => !(wordCells (s.core { die := d, core := k }).dirty w).isEmpty
  | .rdc d => !(wordCells (s.die d).dirty w).isEmpty
  | .l2 _ => false

/-- Whether a proxy die holds a host line of a word. -/
def holdsHost (s : State) (c : CacheId) (w : Nat) : Bool :=
  match c with
  | .rdc d => isHost (32 * w) && wordDie w == d && mesiOf s (wordLine w) != .i
  | _ => false

/-- A word out of a cache: its dirty bytes go home, its clean copy and its host line go. -/
def evictWord (s : State) (c : CacheId) (w : Nat) : State :=
  let s := dropClean (tryPush s (pushFrom c w)) c w
  if holdsHost s c w then evictHostLine s (wordLine w) else s

/-- EVICTION (R58, R60, R266): dirty bytes go home, a clean copy goes, a host line leaves its proxy. -/
def execEviction (c : CacheId) (word : Nat) (s : State) : Host.Outcome State Fault Refusal := .next (evictWord s c word)

/-- WAY_GATE (R71): the way is closed to new allocations; then its words go; it is gated once nothing of them is left. -/
def execWayGate (c : CacheId) (way : Nat) (words : List Nat) (s : State) : Host.Outcome State Fault Refusal :=
  let u : PowerUnit := .way c way
  if s.gated.contains u then .next s
  else if !s.closing.contains u then .next { s with closing := s.closing ++ [u] }
  else
    let s := words.foldl (fun (s : State) w => evictWord s c w) s
    if words.any (fun w => dirtyIn s c w || holdsHost s c w) then .next s
    else .next { s with closing := s.closing.filter (fun x => x != u), gated := s.gated ++ [u] }

/-- WAY_WAKE (R71, R72): a way returns invalid, a bank with every byte zero. -/
def execWayWake (u : PowerUnit) (s : State) : Host.Outcome State Fault Refusal :=
  .next { s with gated := s.gated.filter (fun x => x != u), waking := s.waking.filter (fun x => x != u) }

/-- BANK_GATE (R72): a bank is gated only while no allocation covers it. -/
def execBankGate (c : CoreId) (bank : Nat) (s : State) : Host.Outcome State Fault Refusal :=
  let u : PowerUnit := .bank c.die c.core bank
  if 64 ≤ bank ∨ s.gated.contains u ∨ s.waking.contains u
      ∨ s.freeBanks c ≤ (sleeping c s.gated).length + (sleeping c s.waking).length then .next s
  else .next { s with gated := s.gated ++ [u] }

/-- SCRUB_COMPLETE (R284): released banks are zeroed and may be granted again. -/
def execScrubComplete (id : Nat) (s : State) : Host.Outcome State Fault Refusal :=
  .next { s with scrubs := s.scrubs.filter (fun (x : Scrub) => x.id != id) }

/-- What the scrubber finds wrong with a saved image (R39, R38): what was altered shows where a guest's key protects it. The
address logged is the place in the shadow region of a bay, above the die's usable range (R38). -/
def scrubImageAt (s : State) (p : Image → Bool) (die : Nat) (at_ : Nat) (found : Finding) : State :=
  let mark (code : Nat) (s : State) : State :=
    { s with images := s.images.map (fun (i : Image) => if p i && i.fault.isNone then { i with fault := some code } else i) }
  match found with
  | .clean => s
  | .uncorrectable =>
    let d := s.die die
    ((mark cMemError s).setDie { d with errors := (at_, at_) :: d.errors }).send (.deviceEvent cMemError at_)
  | .altered =>
    { s with images := s.images.map (fun (i : Image) =>
      if p i && !i.keys.isEmpty && i.fault.isNone then { i with fault := some cIntegrity } else i) }

/-- PATROL_SCRUB (R39, R287): a word of bonded DRAM is read and written back corrected, which changes no value; an
uncorrectable error is logged and raised as a device event, a failed check tears down the owning world. What the scrubber finds
in the memory itself comes with the event (log entry 91). -/
def execPatrolScrub (read : Patrol) (s : State) : Host.Outcome State Fault Refusal :=
  match read.at_ with
  | .bay die b =>
    .next (scrubImageAt s (fun i => i.die == die && i.bays.any (fun x => x.1 == b)) die (0x400000000 + bayOffset b) read.found)
  | .moved image => .next (scrubImageAt s (fun i => i.id == image && i.moved) ((s.images.find? (fun i => i.id == image)).map
      (fun i => i.die) |>.getD 0) 0 read.found)
  | .word word =>
    let h := 32 * word
    if !isDram h then .next s
    else
      let s : State := match read.found with
        | .clean => s
        | .uncorrectable => if s.lines.bad.contains word then s else { s with lines := { s.lines with bad := word :: s.lines.bad } }
        | .altered => if isProtected s h && !s.lines.forged.contains (word / 2) then
            { s with lines := { s.lines with forged := word / 2 :: s.lines.forged } } else s
      let s := if s.lines.bad.contains word then
          let d := s.die (homeDie h)
          (s.setDie { d with errors := (h, h) :: d.errors }).send (.deviceEvent cMemError h)
        else s
      .next (if isProtected s h && sectorBad s (word / 2) then s.due [.teardown (granuleOwner s h)] else s)

/-! ### Walks and invalidations (R48, R50) -/

/-- The translation that a core holds installed in the TLBs of others (R48: one walk serves every miss that joined it). -/
def shareTlb (s : State) (c : CoreId) (world : Nat) (host : Bool) (va : Nat) (cs : List CoreId) : State :=
  match findTlb s c world host va with
  | some e => (cs.filter (fun x => x != c)).foldl (fun (s : State) x => fillTlb s x e) s
  | none => s

/-- WALK_COMPLETE (R46-R48): one of a die's 128 walks ends with a translation for every core that joined it, or without one:
an absent or faulting result makes no entry, and the accesses that waited meet it themselves; copy operations that waited
are tried again (R85). An uncorrectable word that the walk itself meets is logged and raised as a device event (R39). -/
def execWalkComplete (c : CoreId) (world : Nat) (va : DWord) (s : State) : Host.Outcome State Fault Refusal :=
  let page := va.toNat / 0x1000
  let d := s.die c.die
  match (d.walks.take 128).find? (fun x => x.world == world && x.page == page) with
  | none => .next s
  | some w =>
    let s := s.setDie { d with walks := d.walks.filter (fun x => !(x.world == world && x.page == page)) }
    match w.joined with
    | [] => .next s
    | k :: _ =>
      if !xEn (xlatOf s world) then .next s
      else
        let a : Asker := { core := some k, world := world, queue := none, pidx := 0 }
        match walkIn a va.toNat wantRead s with
        | .ok _ s' => .next (retryOps (shareTlb s' k world false va.toNat w.joined) world)
        | .error (.fault f) _ => .next (retryOps (noteAlone s f) world)
        | .error _ s' => .next s'

/-- Whether a page meets a range; no range means all (R50). -/
def meets (range : Option (Nat × Nat)) (base size : Nat) : Bool :=
  match range with
  | none => true
  | some (b, n) => decide (base < b + n ∧ b < base + size)

/-- The words of some worlds that hold translations: releasing stores whose lanes have been translated (R172). -/
def holdingWords (s : State) (ws : List Nat) : List (Nat × Int) :=
  (s.groups.filter (fun g => ws.contains g.world)).flatMap (fun g =>
    let held (p : Option Path) : List (Nat × Int) := match p with
      | some p => if p.placed.isSome then [(g.serial, p.id)] else []
      | none => []
    held g.slot0 ++ held g.slot1 ++ g.spill.flatMap (fun x => held x.path))

/-- The code fetches of some worlds that hold translations. -/
def holdingCode (s : State) (ws : List Nat) : List (CoreId × Nat) :=
  s.cores.flatMap (fun k => (k.overlay.filter (fun o =>
    o.2.state == .fetching && o.2.frame.isSome && (match o.2.world with | some w => ws.contains w | none => false))).map
    (fun o => (k.id, o.1)))

/-- An invalidation of some worlds begins: the translations are gone at once, the accesses that hold one are noted (R50). -/
def invalidate (s : State) (ws : List Nat) (host : Bool) (range : Option (Nat × Nat)) : State :=
  let mine (f : Inflight) : Bool := match s.group f.key with | some g => ws.contains g.world | none => false
  let i : Invalidation :=
    { id := s.nextId, worlds := ws, host := host, range := range, after := (s.flight.filter mine).map (fun f => f.id)
      words := holdingWords s ws, codes := holdingCode s ws }
  { s with
    nextId := s.nextId + 1
    xlat := { s.xlat with
      tlb := s.xlat.tlb.filter (fun e => !(ws.contains e.world && e.host == host && meets range e.base e.size))
      host := s.xlat.host.filter (fun p => !(host && ws.contains p.1 && meets range p.2.base p.2.size))
      denied := s.xlat.denied.filter (fun p => !(host && ws.contains p.1 && meets range (4096 * p.2) 4096))
      invs := s.xlat.invs ++ [i] } }

/-- ATS_INVALIDATION_REQUEST (R50, R51): for the worlds of the PASID, or of every PASID; one completion answers it. DESIGN
CHOICE (log entry 87): the queue takes 32 requests, and one that finds it full is dropped without a completion. -/
def execAtsInvalidationRequest (pasid : Option (BitVec 20)) (range : Option (Nat × Nat)) (s : State) :
    Host.Outcome State Fault Refusal :=
  let named (w : World) : Bool := match pasid with | some p => xPasid w.xlat.toNat == p.toNat | none => true
  let ws := (s.worlds.filter (fun w => xHosten w.xlat.toNat && named w)).map (fun w => w.id)
  if 32 ≤ (s.xlat.invs.filter (fun i => i.host)).length then .next s else .next (invalidate s ws true range)

/-- DEVICE_INVALIDATION (R50): for the device half, through a queue of the driver. -/
def execDeviceInvalidation (world : Nat) (range : Option (Nat × Nat)) (s : State) : Host.Outcome State Fault Refusal :=
  .next (invalidate s [world] false range)

/-- Every dirty byte of the package sent home (R58: the part may evict at any time). -/
def pushPackage : M Unit := do
  let s ← get
  pushAll (s.cores.flatMap (fun k => dirtyWords k.dirty) ++ s.dies.flatMap (fun d => dirtyWords d.dirty)).eraseDups
    pushEverywhere

/-- Whether every access that an invalidation waits for is complete (R50): loads and atomics have returned, releasing stores
have stored, segments have landed; that stores have merged is seen to by the caller. -/
def settledFor (s : State) (i : Invalidation) : Bool :=
  !s.flight.any (fun f => i.after.contains f.id) &&
  !(holdingWords s i.worlds).any i.words.contains && !(holdingCode s i.worlds).any i.codes.contains

/-- INVALIDATION_COMPLETION (R50). -/
def execInvalidationCompletion (id : Nat) (s : State) : Host.Outcome State Fault Refusal :=
  match s.xlat.invs.find? (fun i => i.id == id) with
  | none => .next s
  | some i =>
    if !settledFor s i then .next s
    else
      match pushPackage s with
      | .ok _ s' =>
        let s : State := { s' with xlat := { s'.xlat with invs := s'.xlat.invs.filter (fun x => x.id != id) } }
        .next (s.send (.invalidated id))
      | .error _ s' => .next s'

/-! ### The host's answers (R47, R51, R52) -/

/-- The owners of a world's queues look again: an access of theirs may have waited (R356). -/
def wakeQueues (s : State) (p : Nat → Bool) : State :=
  { s with queues := s.queues.map (fun (q : Queue) => if p q.world && q.state != 2 then { q with wake := true } else q) }

/-- What waited for a translation in a world goes on. -/
def resumeWorld (s : State) (world : Nat) : State := wakeQueues (retryOps s world) (fun w => w == world)

/-- A host page as a TLB holds it (R47). -/
def hostEntry (world : Nat) (p : HostPage) (c : CoreId) : TlbEntry :=
  { core := none, quad := coreQuad c, world := world, host := true, base := p.base, size := p.size, frame := p.frame
    r := p.r, w := p.w, x := p.x, cp := 0, prot := false, d := true, leaf := 0, bits := 0 }

/-- ATS_TRANSLATION_COMPLETION (R47, R52): what the host permits of a page, for every core that asked for it. One that permits
nothing makes no entry: the accesses then ask for the page. In a world whose address space has been withdrawn only the firmware has
asked (R238). -/
def execAtsTranslationCompletion (world : Nat) (page : HostPage) (s : State) : Host.Outcome State Fault Refusal :=
  let asked (x : AtsReq) : Bool :=
    x.world == world && decide (page.base ≤ 4096 * x.page ∧ 4096 * x.page < page.base + page.size)
  let rs := s.xlat.ats.filter asked
  if rs.isEmpty then .next s
  else
    let s : State := { s with xlat := { s.xlat with ats := s.xlat.ats.filter (fun x => !asked x) } }
    if page.r || page.w || page.x then
      let s := (rs.flatMap (fun r => r.joined)).eraseDups.foldl (fun (s : State) c => fillTlb s c (hostEntry world page c)) s
      let held := s.xlat.host.filter (fun p => !(p.1 == world && meets (some (page.base, page.size)) p.2.base p.2.size))
      let s : State := if rs.any (fun r => r.fw) then { s with xlat := { s.xlat with host := (world, page) :: held } } else s
      .next (resumeWorld s world)
    else
      let new := rs.map (fun r => (world, r.page))
      .next (resumeWorld { s with xlat := { s.xlat with denied := (new ++ s.xlat.denied).eraseDups } } world)

/-- The request of an id that the host has been sent and that waits for its answer. -/
def openReq (s : State) (id : Nat) : Option PageReq :=
  s.xlat.reqs.find? (fun r => r.id == id && r.waiting && r.sent && !r.failed)
/-- A page request changed. -/
def setReq (s : State) (r : PageReq) : State :=
  { s with xlat := { s.xlat with reqs := s.xlat.reqs.map (fun x => if x.id == r.id then r else x) } }

/-- Page requests that waited for the host's allocation sent, as many as it has room for (R52). -/
def sendWaiting (s : State) : State :=
  (s.xlat.reqs.filter (fun r => r.waiting && !r.sent)).foldl (fun (s : State) r =>
    if pagesOut s < pageLimit s then
      (setReq s { r with sent := true, since := s.now }).send
        (.pageRequest r.id (xPasid (xlatOf s r.world)) r.page r.write r.exec)
    else s) s

/-- A page request that is no longer outstanding: those that waited for its place go out, and what waited in its world goes
on. -/
def answered (s : State) (r : PageReq) : State := resumeWorld (sendWaiting (setReq s { r with waiting := false })) r.world

/-- PRG_RESPONSE (R52): on Success the translation is asked for again; any other answer fails the access. -/
def execPrgResponse (id : Nat) (answer : PrgAnswer) (s : State) : Host.Outcome State Fault Refusal :=
  match openReq s id with
  | none => .next s
  | some r =>
    match answer with
    | .success =>
      let page (base size : Nat) : Bool := meets (some (4096 * r.page, 4096)) base size
      let s : State := { s with xlat := { s.xlat with
        tlb := s.xlat.tlb.filter (fun e => !(e.world == r.world && e.host && page e.base e.size))
        host := s.xlat.host.filter (fun p => !(p.1 == r.world && page p.2.base p.2.size))
        denied := s.xlat.denied.filter (fun p => p != (r.world, r.page)) } }
      .next (answered s { r with successes := r.successes + 1 })
    | .failure => .next (answered s { r with failed := true })
    | .invalid => .next (answered s { r with failed := true })

/-- PAGE_REQUEST_TIMEOUT (R52): no answer within the configuration record's time. -/
def execPageRequestTimeout (id : Nat) (s : State) : Host.Outcome State Fault Refusal :=
  match openReq s id with
  | none => .next s
  | some r =>
    if r.since + s.trust.config.pageTimeout ≤ s.now then .next (answered s { r with failed := true }) else .next s

end Sys2Proof.Machine
end

