-- ==== Sys2Proof/Machine/HostLink.lean ====
section
/-! DEFINITION. The host links (chapter 19): snoops of host lines (R69, R266), ownership (R69), back-invalidates (R70),
host accesses to device memory (R263, R286). -/

namespace Sys2Proof.Machine

/-! ### Snoops (R266) -/

/-- The 64 bytes of a line written at home. -/
def putLine (s : State) (line : Nat) (d : BitVec 512) : State := { s with mem := writeLE s.mem (64 * line) d.toNat 64 }

/-- What the host wrote after it took a line. -/
def hostWrites (s : State) (line : Nat) (written : Option (BitVec 512)) : State :=
  match written with | some d => putLine s line d | none => s

/-- A snoop that waits until the leases granted on its line have passed. -/
def holdSnoop (s : State) (i : Instr) : State :=
  if s.lines.snoops.contains i then s else { s with lines := { s.lines with snoops := s.lines.snoops ++ [i] } }
/-- A snoop answered: it waits no more. -/
def freeSnoop (s : State) (i : Instr) : State :=
  { s with lines := { s.lines with snoops := s.lines.snoops.filter (fun x => x != i) } }

/-- A snoop that takes away the line or its ownership: from M and E (and S where `shared`) it waits for E_max of every word
of the line; then dirty bytes are written back and the line goes to `next`. -/
def takeLine (s : State) (i : Instr) (line : Nat) (shared : Bool) (next : Mesi) (answer : String)
    (after : State → State) : State :=
  let st := mesiOf s line
  if st = .i then after ((freeSnoop s i).send (.cxl line "RspI" none))
  else if st = .s && !shared then (freeSnoop s i).send (.cxl line "RspS" none)
  else if s.now ≤ lineMax s line then holdSnoop s i
  else
    let data := if st = .m then some (lineData s line) else none
    after ((setMesi (freeSnoop s i) line next).send (.cxl line answer data))

/-- SNPINV (R266): the line goes to I; `written` is what the host then stores in it. -/
def execSnpinv (line : Nat) (written : Option (BitVec 512)) (s : State) : Host.Outcome State Fault Refusal :=
  if !isHost (64 * line) then .next s
  else .next (takeLine s (.snpinv line written) line true .i "RspI" (fun s => hostWrites s line written))

/-- SNPDATA (R266): M and E go to S after the wait, S is kept. -/
def execSnpdata (line : Nat) (s : State) : Host.Outcome State Fault Refusal :=
  if !isHost (64 * line) then .next s
  else .next (takeLine s (.snpdata line) line false .s "RspS" (fun s => s))

/-- SNPCUR (R266): the state is kept; from M the data is returned. -/
def execSnpcur (line : Nat) (s : State) : Host.Outcome State Fault Refusal :=
  if !isHost (64 * line) then .next s
  else .next (s.send (match mesiOf s line with
    | .m => .cxl line "RspData" (some (lineData s line))
    | .e => .cxl line "RspE" none
    | .s => .cxl line "RspS" none
    | .i => .cxl line "RspI" none))

/-- Everything that waited for a line goes on, whatever its world: copy operations and the queues' owners (R88). -/
def resumeAll (s : State) : State := wakeQueues (s.worlds.foldl (fun (s : State) w => retryOps s w.id) s) (fun _ => true)

/-- OWNERSHIP_GRANT (R69): the answer to an RdOwn; the line is in M and stores may merge. -/
def execOwnershipGrant (line : Nat) (s : State) : Host.Outcome State Fault Refusal :=
  if s.lines.rdOwn.contains line then
    let s := setMesi { s with lines := { s.lines with rdOwn := s.lines.rdOwn.filter (fun x => x != line) } } line .m
    .next (resumeAll (trimRdc s (homeDie (64 * line))))
  else .next s

/-! ### Device lines that the host holds (R70, R263, R286) -/

/-- The bytes of a line merged at home, word by word. -/
def mergeLine (s : State) (line : Nat) (d : BitVec 512) : State :=
  [2 * line, 2 * line + 1].foldl (fun (s : State) w =>
    (mergeNow s w (cellsOf (32 * w) (d.toNat / 2 ^ (256 * (w % 2)) % 2 ^ 256) 32)).1) s

/-- BACK_INVALIDATE_RESPONSE (R70): the host has given the line up, with its data where it held it modified. -/
def execBackInvalidateResponse (line : Nat) (data : Option (BitVec 512)) (s : State) : Host.Outcome State Fault Refusal :=
  if !s.lines.backInv.contains line then .next s
  else
    let modified := lookupN s.lines.held line == some true
    let s : State := { s with lines := { s.lines with
      backInv := s.lines.backInv.filter (fun x => x != line), held := dropN s.lines.held line } }
    let s := match data with
      | some d => if modified then mergeLine s line d else s
      | none => s
    .next (resumeAll s)

/-- HOST_HDM_ACCESS (R263, R70, R286): one byte of the spread window read or written by the host, at the home that R36 gives
it; `holds` says that the host keeps the line in its caches, modified where it stored. An access to a protected range is
answered with an error and logged, its write dropped; so is one to a metadata carve-out. -/
def execHostHdmAccess (pa : Nat) (store : Option Byte) (holds : Bool) (s : State) : Host.Outcome State Fault Refusal :=
  if pa < 0x8000000000 ∨ 0x10000000000 ≤ pa then .next (s.send (.hdm pa none))
  else
    let h := homeOf pa
    let d := homeDie h
    if isProtected s h || isCarve s h then
      let die := s.die d
      .next ((s.setDie { die with errors := (pa, h) :: die.errors }).send (.hdm pa none))
    else
      let line := h / 64
      let hold (s : State) (m : Bool) : State :=
        if holds then
          let was := (lookupN s.lines.held line).getD false
          { s with lines := { s.lines with held := putN s.lines.held line (m || was) } }
        else s
      match store with
      | some b =>
        if holds then .next ((hold s true).send (.hdm pa (some b)))
        else .next ((mergeNow s (h / 32) [(h, b)]).1.send (.hdm pa (some b)))
      | none =>
        if s.lines.bad.contains (h / 32) then
          let die := s.die d
          .next ((s.setDie { die with errors := (pa, h) :: die.errors }).send (.hdm pa none))
        else .next ((hold s false).send (.hdm pa (some (readCell s.mem h))))

end Sys2Proof.Machine
end

