-- ==== Sys2Proof/Machine/Power.lean ====
section
/-! DEFINITION. Power (chapter 20): droop (R275), energy counters (R276), monitors (R277), the meridian (R278-R282), and
the registers of BAR0 (R4, R264, R276, R277). -/

namespace Sys2Proof.Machine

/-! ### Droop (R275) -/

/-- The stretched cycles of some ns at a clock of `f` MHz: a stretched cycle lasts at most twice the nominal period; their
number within what that allows is a free value (R275; log entry 109). -/
def stretchedIn (ns f tick : Nat) : Nat :=
  let least := (ns * f + 1999) / 2000
  least + Config.stretchedMore tick % ((ns * f + 999) / 1000 + 1 - least)

/-- DROOP (R275): the switch closes for as long as the duty counter lets it, 50 ns in any 1 us window; for the rest the
clock is stretched. Closings and stretched cycles are counted (R277). -/
def execDroop (q : QuadId) (ns : Nat) (s : State) : Host.Outcome State Fault Refusal :=
  let qu := s.quad q
  let recent (l : List (Nat × Nat)) (w : Nat) : List (Nat × Nat) := l.filter (fun x => decide (s.now < x.1 + w))
  let n := min ns (50 - ((recent qu.closings 1000).map (fun x => x.2)).foldl (· + ·) 0)
  .next (s.setQuad { qu with
    closings := recent qu.closings 2000 ++ (if n = 0 then [] else [(s.now, n)])
    stretched := recent qu.stretched 2000 ++ (if n < ns then [(s.now, stretchedIn (ns - n) (s.clock q) s.tick)] else []) })

/-- Closings and stretched cycles of a quad in the window of 1 us of a number (R275, R277). -/
def droopCount (q : Quad) (w : Nat) : Nat :=
  let inW (l : List (Nat × Nat)) : List (Nat × Nat) := l.filter (fun x => x.1 / 1000 == w)
  (inW q.closings).length + ((inW q.stretched).map (fun x => x.2)).foldl (· + ·) 0

/-! ### Energy (R276) -/

/-- A read of the package's LO (R276): the low half is returned and the high half latched; the counter has counted on (a
free value, log entry 25) and wraps. -/
def readEnergy (s : State) : State × Word :=
  let e := s.power.energy + Config.energyUsed s.tick 0
  ({ s with power := { s.power with energy := e, latch := e.extractLsb' 32 32 } }, e.extractLsb' 0 32)

/-- A read of a die's LO (R276). -/
def readDieEnergy (s : State) (i : Nat) : State × Word :=
  let d := s.die i
  let e := d.energy + Config.energyUsed s.tick (1 + i)
  (s.setDie { d with energy := e, latch := e.extractLsb' 32 32 }, e.extractLsb' 0 32)

/-! ### Monitors (R277) -/

/-- Bits of CTL that are kept: EN, UNIT, SRC. -/
def ctlKept (v : Word) : Word := v &&& 0x40003F0F

/-- MIN, MAX, COUNT and the bins as before any sample. -/
def Monitor.clear (x : Monitor) : Monitor := { Monitor.fresh with ctl := x.ctl, base := x.base, width := x.width }

/-- CTL written (R277): CLR clears, reserved bits are ignored. -/
def writeCtl (s : State) (die m : Nat) (v : Word) : State :=
  let x := monitorOf s die m
  let x := if hasBit v 31 then x.clear else x
  setMonitor s die m { x with ctl := ctlKept v, window := s.now / 1000 }

/-- MONITOR_CTL_WRITE (R277); not in recovery (R295). -/
def execMonitorCtlWrite (die m : Nat) (v : Word) (s : State) : Host.Outcome State Fault Refusal :=
  if 32 ≤ die ∨ 8 ≤ m ∨ s.trust.recovery then .next s else .next (writeCtl s die m v)

/-- Whether a monitor samples a source that is looked at every 1 us. -/
def Monitor.windowed (x : Monitor) : Bool := x.on && [1, 2, 3, 8].contains x.src

/-- What such a source shows as a window of 1 us ends: for droop the count of the quad that UNIT names, else what the
silicon measures, a free value (R277; where the windows begin: log entry 109). -/
def windowValue (s : State) (die : Nat) (x : Monitor) : Word :=
  if x.src = 3 then BitVec.ofNat 32 (droopCount (s.quad { die := die, quad := x.unit }) (s.now / 1000 - 1))
  else Config.sensor s.tick die x.ctl

/-- MONITOR_SAMPLE (R277): what the monitor's source has measured; nothing is sampled while EN is 0 or SRC names no
source. -/
def execMonitorSample (die m : Nat) (v : Word) (s : State) : Host.Outcome State Fault Refusal :=
  let x := monitorOf s die m
  if 32 ≤ die ∨ 8 ≤ m ∨ !x.on ∨ x.src = 0 ∨ 8 < x.src then .next s
  else .next (setMonitor s die m { x.sample v with window := s.now / 1000 })

/-- What a read of a register of BAR0 returns that changes nothing (R4, R264, R276, R277): the HI latches and the monitors;
doorbells, write-only bits and reserved places read as zero. -/
def readRegister (s : State) (addr : Nat) : Word :=
  if addr = 0x02000004 then s.power.latch
  else if 0x02000100 ≤ addr ∧ addr < 0x02000200 ∧ addr % 8 = 4 then (s.die ((addr - 0x02000100) / 8)).latch
  else if 0x02010000 ≤ addr ∧ addr < 0x02018000 then
    let o := addr - 0x02010000
    let x := monitorOf s (o / 0x400) (o % 0x400 / 0x80)
    match o % 0x80 with
    | 0x00 => ctlKept x.ctl
    | 0x04 => x.base
    | 0x08 => x.width
    | 0x0C => x.min
    | 0x10 => x.max
    | 0x14 => x.count
    | n => if 0x40 ≤ n ∧ n % 4 = 0 then (x.bins[(n - 0x40) / 4]?).getD 0 else 0
  else 0

/-- ENERGY_LO_READ (R276, R4): a read of the register at an offset of BAR0; that of an energy counter's LO latches the
counter's high half. In recovery BAR0 holds the recovery mailbox alone (R295): every other place reads as zero. -/
def execEnergyLoRead (addr : Nat) (s : State) : Host.Outcome State Fault Refusal :=
  let (s, v) :=
    if s.trust.recovery then (s, 0)
    else if addr = 0x02000000 then readEnergy s
    else if 0x02000100 ≤ addr ∧ addr < 0x02000200 ∧ addr % 8 = 0 then readDieEnergy s ((addr - 0x02000100) / 8)
    else (s, readRegister s addr)
  .next (s.send (.read v))

/-- REGISTER_WRITE (R4, R264, R276, R277): a write of a register of BAR0. Read-only registers and reserved places ignore
it, and in recovery every place but the mailbox (R295). -/
def execRegisterWrite (addr : Nat) (v : Word) (s : State) : Host.Outcome State Fault Refusal :=
  if s.trust.recovery then .next s
  else if 0x10000000 ≤ addr ∧ addr < 0x10080000 then
    -- either half of a doorbell wakes the owner
    .next (match s.queue ((addr - 0x10000000) / 8) with
      | none => s
      | some qu =>
        let open_ := match s.world qu.world with | some w => w.accepts | none => false
        if qu.state = 2 || !open_ then s else s.setQueue { qu with wake := true })
  else if 0x02010000 ≤ addr ∧ addr < 0x02018000 then
    let o := addr - 0x02010000
    let die := o / 0x400
    let m := o % 0x400 / 0x80
    let x := monitorOf s die m
    .next (match o % 0x80 with
      | 0 => writeCtl s die m v
      | 4 => setMonitor s die m { x with base := v }
      | 8 => setMonitor s die m { x with width := v }
      | _ => s)
  else .next s

/-! ### The meridian: limits and ceilings (R278-R280) -/

/-- A limit rounded down to a multiple of 25 MHz, between 600 and 2,100 MHz (R278). -/
def roundLimit (x : Nat) : Nat := max 600 (min 2100 (x / 25 * 25))

/-- Whether a member's limit counts (R279). -/
def Member.counts (m : Member) : Bool := m.state == .active || m.state == .silent || m.state == .leaving

/-- The minimum of the limits in force (R279). -/
def Meridian.least (g : Meridian) : Nat := ((g.members.filter Member.counts).map (fun m => m.limit)).foldl min 2100

/-- Whether every active member's heartbeat has come and none is SILENT (R280). -/
def Meridian.heard (g : Meridian) : Bool :=
  g.members.all (fun m => m.state != .silent && (m.state != .active || m.beat))

/-- A member changed. -/
def Meridian.put (g : Meridian) (m : Member) : Meridian :=
  { g with members := g.members.map (fun x => if x.id == m.id then m else x) }

/-- The ceiling lowered to the minimum at once, where that is lower (R280). -/
def Meridian.lower (g : Meridian) : Meridian := { g with ceiling := min g.ceiling g.least }

/-- Whether this package belongs to a fabric group, and how it stands there. -/
def Power.mine (p : Power) : Option Member := p.fabric.members.find? (fun m => m.id == p.self && m.state != .evicted)

/-- C from the groups' ceilings (R279, R281): a joiner runs at the lower of its limit and the group's ceiling. -/
def Power.settle (p : Power) : Power :=
  { p with ceiling := if p.mine.isSome then min p.dies.ceiling p.fabric.ceiling else p.dies.ceiling }

/-- The package's limit in its fabric group is its die group's ceiling (R279). -/
def Power.relay (p : Power) : Power :=
  match p.mine with
  | some m => { p with fabric := (p.fabric.put { m with limit := p.dies.ceiling }).lower }
  | none => p

/-- Power changed and C with it. -/
def State.setPower (s : State) (p : Power) : State := { s with power := p.relay.settle }
/-- One of the two groups. -/
def Power.group (p : Power) (fabric : Bool) : Meridian := if fabric then p.fabric else p.dies
def Power.setGroup (p : Power) (fabric : Bool) (g : Meridian) : Power :=
  if fabric then { p with fabric := g } else { p with dies := g }

/-! ### Notices (R282) -/

/-- The lowest-numbered of some queues, the ACTIVE ones first: the queue that Derdieb names (log entry 26). -/
def lowestQueue (qs : List Queue) : Option QueueId :=
  match ((qs.filter (fun q => q.state == 0)).map (fun q => q.id)).min? with
  | some q => some q
  | none => (qs.map (fun q => q.id)).min?

/-- The queue named for notices: at the join, else as soon as there is one to name (log entry 26). -/
def State.namedQueue (s : State) : Option QueueId :=
  match s.power.notify with
  | some q => some q
  | none => if s.power.mine.isSome then lowestQueue s.queues else none

/-- A MERIDIAN notice of a member: on the queue named at the join, and for a die on every ACTIVE queue too. -/
def meridianNotice (s : State) (fabric : Bool) (member event : Nat) : State :=
  let addr := if fabric then member % 2 ^ 20 + event * 2 ^ 26 else s.pkg.toNat + member % 64 * 2 ^ 20 + event * 2 ^ 26
  let named := s.namedQueue.toList
  let qs := if fabric then named else (named ++ (s.queues.filter (fun q => q.state == 0)).map (fun q => q.id)).eraseDups
  qs.foldl (fun (s : State) q => postRecord s q
    { kind := 7, code := 0, pidx := 0, qtag := 0, addr := BitVec.ofNat 64 addr, pc := 0, lmask := 0 }) s

/-! ### Surveys (R278, R281) -/

/-- What a survey makes of a member: missed heartbeats count, a joiner's time has come. -/
def Member.surveyed (m : Member) (fabric : Bool) (t : Nat) : Member :=
  let missed := if m.beat then 0 else m.missed + 1
  let m' := { m with missed := missed, beat := false }
  match m.state with
  | .active => if 3 ≤ missed then { m' with state := .silent } else m'
  | .silent => if fabric && decide (32 ≤ missed) then { m' with state := .evicted } else m'
  | .joining => if m.joinAt ≤ t then { m' with state := .active, missed := 0 } else { m' with missed := 0 }
  | _ => m'

/-- A group after a survey at time `t`: raises enter the minimum when every active member was heard, and what rises applies
at the next survey (R280); those that left are out. -/
def Meridian.surveyed (g : Meridian) (fabric : Bool) (t : Nat) : Meridian :=
  let heard := g.heard
  let ms := (g.members.filter (fun m => m.state != .leaving)).map (fun m => m.surveyed fabric t)
  let ms := if heard then ms.map (fun m => match m.raise with
      | some r => { m with limit := max m.limit r, raise := none }
      | none => m) else ms
  let g' : Meridian := { g with members := ms }
  { g' with rise := if heard && decide (g'.ceiling < g'.least) then g'.rise ++ [(t + 100000, g'.least)] else g'.rise }.lower

/-- What follows from the members' changes of state: notices, device events, evictions (R281, R282). -/
def surveyNotices (s : State) (fabric : Bool) (old new : Meridian) : State :=
  new.members.foldl (fun (s : State) m =>
    match old.members.find? (fun x => x.id == m.id) with
    | none => s
    | some o =>
      if o.state = .active ∧ m.state = .silent then
        let s := meridianNotice s fabric m.id 1
        if fabric then s else s.send (.deviceEvent 0 m.id)
      else if o.state = .silent ∧ m.state = .evicted then evictPackage (meridianNotice s fabric m.id 3) m.id
      else s) s

/-- SURVEY (R278): the survey whose time has come is closed, with the heartbeats received for it; a package in
a fabric group sends its own: its limit in force, the announcements pending in it and the clamp that it has made. One that
leaves sees its group no more (log entry 110). -/
def execSurvey (s : State) : Host.Outcome State Fault Refusal :=
  let t := (s.power.survey + 1) * 100000
  if s.now < t then .next s
  else
    let p := s.power
    let d := p.dies.surveyed false t
    let f := p.fabric.surveyed true t
    let left : Bool := match p.mine with | some m => m.state == .leaving | none => false
    let f := if left then { f with members := [], rise := [], ceiling := 2100 } else f
    let s' := s.setPower { p with dies := d, fabric := f, survey := p.survey + 1, clamped := none }
    let s' := surveyNotices (surveyNotices s' false p.dies d) true p.fabric f
    .next ((match s'.power.mine with
      | some m => s'.send (.heartbeat t m.limit (d.members.flatMap (fun (x : Member) => x.announce)) p.clamped)
      | none => s').due [.ceilingApply])

/-- MERIDIAN_HEARTBEAT (R278, R280, R281): a member's limit, announcement and raise. An announcement whose stamp is no
survey time at least 200 us after the heartbeat's survey takes no effect; a limit lower than the one known is a clamp that
the member made (log entry 110). Its skew from the survey time is measured at every die (R277; log entry 109). -/
def execMeridianHeartbeat (fabric : Bool) (member : Nat) (b : Beat) (s : State) : Host.Outcome State Fault Refusal :=
  let g := s.power.group fabric
  match g.members.find? (fun m => m.id == member) with
  | none => .next s
  | some m =>
    if m.state = .evicted then .next s
    else
      let t := (s.power.survey + 1) * 100000
      let ann := match b.announce with
        | some (l, x) => if x % 100000 = 0 ∧ t + 200000 ≤ x ∧ roundLimit l < m.limit then (m.announce ++ [(roundLimit l, x)]).eraseDups
          else m.announce
        | none => m.announce
      let m' := { m with
        beat := true, announce := ann, limit := min m.limit (roundLimit b.limit)
        raise := match b.raise with | some r => some (roundLimit r) | none => m.raise
        state := if m.state = .silent then .active else m.state, missed := 0 }
      let s' := s.setPower (s.power.setGroup fabric (g.put m').lower)
      let s' := (s'.dies.map (fun d => d.id)).foldl (fun (s : State) d => s.measure d 7 (s.now % 100000)) s'
      .next (if m.state = .silent then meridianNotice s' fabric member 2 else s')

/-- A member at a survey time: its announcements that fall due lower its limit (R280). -/
def Member.apply (m : Member) (now : Nat) : Member :=
  { m with
    limit := ((m.announce.filter (fun a => decide (a.2 ≤ now))).map (fun a => a.1)).foldl min m.limit
    announce := m.announce.filter (fun a => decide (now < a.2)) }

/-- A group at a survey time: announcements that fall due lower the limits, the rises due apply unless a member is SILENT,
and no ceiling lies above the minimum (R280). -/
def Meridian.apply (g : Meridian) (now : Nat) : Meridian :=
  let g' : Meridian := { g with members := g.members.map (fun m => m.apply now) }
  let up := if g.members.any (fun m => m.state == .silent) then [] else g.rise.filter (fun r => decide (r.1 ≤ now))
  { g' with
    ceiling := min (up.foldl (fun c r => max c r.2) g.ceiling) g'.least
    rise := g.rise.filter (fun r => decide (now < r.1)) }

/-- CEILING_APPLY (R279, R280). -/
def execCeilingApply (s : State) : Host.Outcome State Fault Refusal :=
  let p := s.power
  .next (s.setPower { p with dies := p.dies.apply s.now, fabric := p.fabric.apply s.now })

/-- A member's limit lowered by a clamp. -/
def Meridian.clamp (g : Meridian) (member limit : Nat) : Meridian :=
  match g.members.find? (fun m => m.id == member) with
  | some m => (g.put { m with limit := min m.limit (roundLimit limit) }).lower
  | none => g

/-- CLAMP (R280): a die lowers its own clock at once and the clamp is broadcast with its stamp. -/
def execClamp (die limit : Nat) (s : State) : Host.Outcome State Fault Refusal :=
  let s := s.setPower { s.power with dies := s.power.dies.clamp die limit, clamped := some (roundLimit limit, s.now) }
  .next (s.send (.clamp (roundLimit limit) s.now))

/-- CLAMP_RECEIPT (R280): another member's clamp. -/
def execClampReceipt (fabric : Bool) (member limit : Nat) (s : State) : Host.Outcome State Fault Refusal :=
  .next (s.setPower (s.power.setGroup fabric ((s.power.group fabric).clamp member limit)))

/-- The first survey time at least 200 us after `t`. -/
def joinTime (t : Nat) : Nat := (t + 200000 + 99999) / 100000 * 100000

/-- JOIN (R281): a member is JOINING until the first survey time at least 200 us later. Derdieb names a queue for notices
when the package itself joins (log entry 26). A member that rejoins is again a member of its collective groups (R273). -/
def execJoin (member limit : Nat) (s : State) : Host.Outcome State Fault Refusal :=
  let f := s.power.fabric
  if f.members.any (fun m => m.id == member && m.state != .evicted) then .next s
  else
    let m : Member := { Member.fresh member with
      limit := roundLimit limit, state := .joining, joinAt := joinTime s.now, beat := true }
    let f := { f with members := f.members.filter (fun x => x.id != member) ++ [m] }
    let notify := if member = s.power.self then lowestQueue s.queues else s.power.notify
    .next (returnPackage (s.setPower { s.power with fabric := f, notify := notify }) member)

/-- LEAVE (R281): out of the group at the next survey time. -/
def execLeave (member : Nat) (s : State) : Host.Outcome State Fault Refusal :=
  let f := s.power.fabric
  match f.members.find? (fun m => m.id == member) with
  | some m => .next (if m.state = .active then s.setPower { s.power with fabric := f.put { m with state := .leaving } } else s)
  | none => .next s

end Sys2Proof.Machine
end

