-- ==== Sys2Proof/Machine/Trust.lean ====
section
/-! DEFINITION. Trust (chapter 21): worlds and keys (R283, R285), ownership (R286), the SPDM responder (R288-R291), TDISP
interfaces and the debug gate (R292, R293), boot and recovery (R295). -/

namespace Sys2Proof.Machine

/-! ### Boot and recovery (R295) -/

/-- Whether an image passes the boot ROM's checks. -/
def imageOk (rollback : Nat) (i : BootImage) : Bool := i.signed && decide (rollback ≤ i.version)

/-- Whether the metadata carve-outs of a configuration record have room: on every die more than a quarter of the protected
range, and of that of the CXL slot of its port, for the versions and MACs, and the tree besides (R56). DESIGN CHOICE (log entry
91): a record that gives less counts as one that fails its check. -/
def carveOk (c : BootConfig) : Bool :=
  let len (l : List (Nat × Nat)) (i : Nat) : Nat := ((l[i]?).map (·.2)).getD 0
  (List.range 32).all (fun d =>
    let n := len c.protect d + (match d with
      | 0 => len c.cxlProtect 0 | 7 => len c.cxlProtect 1 | 24 => len c.cxlProtect 2 | 31 => len c.cxlProtect 3 | _ => 0)
    n == 0 || decide (n < 4 * len c.carve d))
/-- Whether a configuration record passes the boot ROM's check. -/
def configOk (c : BootConfig) : Bool := c.signed && carveOk c

/-- POWER_ON (R295, R285): everything but flash, the fused counter and the leaf index is as at reset; the image in flash and the
configuration record are verified, else the part stays in recovery. A package key is drawn. `made` is the image that flash was
made with: it is there until a commit writes another (log entry 90). -/
def execPowerOn (made : BootImage) (cfg : BootConfig) (s : State) : Host.Outcome State Fault Refusal :=
  let r := State.reset
  let flash := s.trust.flash.getD made
  let ok := imageOk s.trust.rollback flash && configOk cfg
  .next { r with
    tick := s.tick, given := s.given, agenda := s.agenda
    trust := { r.trust with
      powered := true, recovery := !ok, running := if ok then some flash else none, flash := some flash
      config := if configOk cfg then cfg else r.trust.config
      rollback := s.trust.rollback, leaf := s.trust.leaf, responses := s.trust.responses, pkgKey := s.trust.pkgKey + 1 } }

/-- RECOVERY_IMAGE (R295): an image from the mailbox runs if it passes the same checks; without a configuration record that passed
its own the part stays in recovery. -/
def execRecoveryImage (img : BootImage) (s : State) : Host.Outcome State Fault Refusal :=
  if s.trust.recovery && imageOk s.trust.rollback img && configOk s.trust.config then
    .next { s with trust := { s.trust with recovery := false, running := some img } }
  else .next s

/-- RECOVERY_COMMIT (R295): the image that runs is written to flash when the host asks for it. -/
def execRecoveryCommit (s : State) : Host.Outcome State Fault Refusal :=
  match s.trust.running with
  | some i => .next { s with trust := { s.trust with flash := some i } }
  | none => .next s

/-! ### Worlds (R283, R285, R286) -/

/-- A translation record as the part holds it: HOSTEN, PASID, ROOT, DEMAND and EN; its reserved bits read as zero (R4,
R42). -/
def recordKept (x : BitVec 128) : BitVec 128 := x &&& 0x800FFFFF000FFFFFFFFFF003#128

/-- The collective groups that Derdieb builds for a world (R268): at most 65,536 members each. -/
def makeColls (world : Nat) (w : WorldConfig) : List CollGroup :=
  (w.colls.filter (fun g => decide (g.1 < 65536 ∧ g.2.length ≤ 65536))).map (fun g =>
    { id := g.1, world := world, members := g.2, posted := [], gone := [], there := [] })

/-- A world as Derdieb creates it: its key drawn, its interface unlocked. -/
def World.make (id : Nat) (w : WorldConfig) : World :=
  { id := id, xlat := recordKept w.xlat, tvec := w.tvec, svec := w.svec, keyGen := 1, keyed := true, page := w.secretPage
    tdi := .unlocked, secrets := [], dying := none, resetting := none, failed := false, notices := [] }

/-- WORLD_CREATE (R285, R295, R238, R268): a world 0-63, once the firmware runs. A world whose address space was withdrawn is
rebuilt when its teardown has ended; one whose key was erased draws a new key. For a world that stands, the firmware
changes the translation record while no group of it is resident (R42), and builds further collective groups; the
translations cached under the old record are dropped (DESIGN CHOICE, log entry 90). -/
def execWorldCreate (world : Nat) (w : WorldConfig) (s : State) : Host.Outcome State Fault Refusal :=
  if s.trust.running.isNone ∨ 64 ≤ world then .next s
  else
    match s.world world with
    | none => .next { s with worlds := s.worlds ++ [World.make world w], colls := s.colls ++ makeColls world w }
    | some o =>
      if o.failed ∧ o.dying.isNone ∧ o.resetting.isNone then
        let s := { s with colls := s.colls.filter (fun (c : CollGroup) => c.world != world) ++ makeColls world w }
        .next (s.setWorld { o with
          xlat := recordKept w.xlat, tvec := w.tvec, svec := w.svec, page := w.secretPage, failed := false
          keyGen := if o.keyed then o.keyGen else o.keyGen + 1, keyed := true })
      else if o.failed ∨ o.dying.isSome ∨ s.groups.any (fun (g : Group) => g.world == world) then .next s
      else
        let new := (makeColls world w).filter (fun c => (s.coll world c.id).isNone)
        let s := { s with
          colls := s.colls ++ new, xlat := { s.xlat with tlb := s.xlat.tlb.filter (fun (e : TlbEntry) => e.world != world) } }
        .next (s.setWorld { o with xlat := recordKept w.xlat })

/-- The sectors of a 4 KiB page, and whether an address lies in it. -/
def pageSectors (page : Nat) : List Nat := (List.range 64).map (fun i => 64 * page + i)
def inPage (page a : Nat) : Bool := a / 0x1000 == page

/-- Whether no cache holds a dirty byte of a page. -/
def pageClean (s : State) (page : Nat) : Bool :=
  !s.cores.any (fun k => k.dirty.any (fun c => inPage page c.1)) && !s.dies.any (fun d => d.dirty.any (fun c => inPage page c.1))

/-- A page put back as the host returned it (R56): its bytes and MACs; the versions are those that the tree has kept. -/
def returnPage (s : State) (page : Nat) (sectors : List (BitVec 512 × Option Seal)) : State :=
  let s := eraseBytes s (inPage page)
  let xs := (pageSectors page).zip sectors
  { s with
    mem := xs.foldl (fun m x => writeLE m (64 * x.1) x.2.1.toNat 64) s.mem
    lines := { s.lines with mac := xs.filterMap (fun x => x.2.2.map (fun y => (x.1, y))) ++ s.lines.mac } }

/-- OWNERSHIP_TABLE_WRITE (R286, R56): a granule of a protected range given to a world, while no group of a world that it
concerns is resident; or a page of it sent to the host, as ciphertext with its MACs, or put back as it came from there. What
comes back is checked when it is read: whatever the host made of it, its versions are those of the tree (log entry 91). -/
def execOwnershipTableWrite (granule : Nat) (what : GranuleWrite) (s : State) : Host.Outcome State Fault Refusal :=
  let h := granule * 0x10000
  let old := granuleOwner s h
  let world := match what with | .give w => w | _ => old
  if !isProtected s h || s.groups.any (fun (g : Group) => g.world == world || g.world == old) then .next s
  else
    match what with
    | .give w =>
      let d := s.die (homeDie h)
      .next (s.setDie { d with owners := putN d.owners granule w })
    | .out i =>
      let page := 16 * granule + i % 16
      .next (if pageClean s page then
        s.send (.page (0x1000 * page) ((pageSectors page).map (fun x => (sectorData s x, lookupN s.lines.mac x)))) else s)
    | .back i sectors => .next (returnPage s (16 * granule + i % 16) sectors)

/-! ### The SPDM responder (R288, R289) -/

/-- Codes of SPDM 1.3 (log entry 27). -/
def spdmError := 0x7F
def eInvalid := 1
def eUnexpected := 4
def eUnspecified := 5
def eUnsupported := 7
def eSessionLimit := 10

/-- A response sent, within a session where it answers a message of one: no session sees another's (R288). The responses are
numbered. -/
def respond (s : State) (code : Nat) (body : List Byte) (session : Option Nat := none) : State :=
  ({ s with trust := { s.trust with responses := s.trust.responses + 1 } } : State).send (.spdm session (BitVec.ofNat 8 code) body)
/-- ERROR with a code. -/
def refuseRequest (s : State) (e : Nat) (session : Option Nat := none) : State :=
  respond s spdmError [BitVec.ofNat 8 e] session
/-- Bytes that the spec does not give: free values (log entry 28). -/
def openBytes (s : State) (code n : Nat) : List Byte :=
  (List.range n).map (fun i => Config.spdmByte code s.trust.responses i)

/-- A signature made with the next leaf; none is left after 1,048,576 (R289). -/
def sign (s : State) (f : State → State) : State :=
  if 1048576 ≤ s.trust.leaf then refuseRequest s eUnspecified
  else f { s with trust := { s.trust with leaf := s.trust.leaf + 1 } }

/-- A request answered only by running firmware, and in its order: version, then algorithms, then the rest. -/
def answering (s : State) (ready : Bool) (f : State) : Host.Outcome State Fault Refusal :=
  if s.trust.running.isNone then .next s else .next (if ready then f else refuseRequest s eUnexpected)

/-- GET_VERSION (R288): SPDM 1.3; the negotiation starts over. -/
def execGetVersion (s : State) : Host.Outcome State Fault Refusal :=
  answering s true (respond { s with trust := { s.trust with versioned := true, negotiated := false } } 0x04 [0x13])
/-- GET_CAPABILITIES (R288). -/
def execGetCapabilities (s : State) : Host.Outcome State Fault Refusal :=
  answering s s.trust.versioned (respond s 0x61 (openBytes s 0x61 4))
/-- What the part supports, in the order of R288's table: LMS with SHA-256 and height 20 as the extended asymmetric algorithm,
SHA-384 for transcripts and for measurements, ECDHE on secp384r1, AES-256-GCM. PRESUMED (log entry 27): the numbers that stand for
them, LMS's from its registry and the others from SPDM's bit masks. -/
def algorithms : List Byte := [8, 2, 4, 0x10, 2]

/-- NEGOTIATE_ALGORITHMS (R288): the one algorithm of each kind that the part supports, whatever the request offers. -/
def execNegotiateAlgorithms (_body : List Byte) (s : State) : Host.Outcome State Fault Refusal :=
  answering s s.trust.versioned (respond { s with trust := { s.trust with negotiated := true } } 0x63 algorithms)
/-- GET_DIGESTS (R288). -/
def execGetDigests (s : State) : Host.Outcome State Fault Refusal :=
  answering s s.trust.negotiated (respond s 0x01 (openBytes s 0x01 48))
/-- GET_CERTIFICATE (R288). -/
def execGetCertificate (slot : Nat) (s : State) : Host.Outcome State Fault Refusal :=
  answering s s.trust.negotiated (respond s 0x02 (openBytes s (0x0200 + slot) 64))
/-- CHALLENGE (R288, R289): signed. -/
def execChallenge (nonce : List Byte) (s : State) : Host.Outcome State Fault Refusal :=
  answering s s.trust.negotiated (sign s (fun s => respond s 0x03 (nonce ++ openBytes s 0x03 48)))

/-! ### Measurements (R290) -/

/-- The bytes of a digest. -/
def digestBytes (d : BitVec 384) : List Byte := bytesLE d.toNat 48

/-- A TDISP state as block 4 names it (log entry 28). -/
def tdiCode : Tdi → Byte
  | .unlocked => 0 | .locked => 1 | .run => 2 | .error => 3

/-- What block 16 + w digests (R290): the function that the world is bound to, which has its number (R283), whether it has a key,
its vectors, the digest of its interface report, its granules. -/
def worldReport (s : State) (w : Nat) : List Nat :=
  match s.world w with
  | some x => [w, if x.keyed then 1 else 0, x.tvec.toNat, x.svec.toNat, (Config.digest (Config.interfaceReport w)).toNat,
      (granulesOf s w).length] ++ granulesOf s w
  | none => [w]

/-- A measurement block; none for a reserved index. -/
def measurement (s : State) (i : Nat) : Option (List Byte) :=
  match i with
  | 1 => some (digestBytes ((s.trust.running.map (fun i => i.digest)).getD 0))
  | 2 => some (digestBytes s.trust.config.digest)
  | 3 => some (digestBytes (Config.digest [3]) ++ bytesLE s.trust.rollback 8)
  | 4 => some ((List.range 64).map (fun w => match s.world w with | some x => tdiCode x.tdi | none => 0) ++
      [if s.trust.debugOpen then 1 else 0])
  | _ => if 16 ≤ i ∧ i < 80 then some (digestBytes (Config.digest (worldReport s (i - 16)))) else none

/-- The indices of the blocks. -/
def blockIndices : List Nat := [1, 2, 3, 4] ++ (List.range 64).map (fun w => 16 + w)

/-- GET_MEASUREMENTS (R288-R290): one block, their number (index 0), or all of them (255). -/
def execGetMeasurements (index : Nat) (signed : Bool) (s : State) : Host.Outcome State Fault Refusal :=
  let body : Option (List Byte) :=
    if index = 0 then some [BitVec.ofNat 8 blockIndices.length]
    else if index = 255 then some (blockIndices.flatMap (fun i => (measurement s i).getD []))
    else measurement s index
  answering s s.trust.negotiated (match body with
    | none => refuseRequest s eInvalid
    | some b => if signed then sign s (fun s => respond s 0x60 (b ++ openBytes s 0x60 48)) else respond s 0x60 b)

/-! ### Sessions (R288) -/

/-- A session by its id. -/
def sessionOf (s : State) (id : Nat) : Option Session := s.trust.sessions.find? (fun x => x.id == id)
def setSessions (s : State) (xs : List Session) : State := { s with trust := { s.trust with sessions := xs } }

/-- KEY_EXCHANGE (R288, R289): signed; at most 16 sessions. -/
def execKeyExchange (body : List Byte) (s : State) : Host.Outcome State Fault Refusal :=
  answering s s.trust.negotiated (
    if 16 ≤ s.trust.sessions.length then refuseRequest s eSessionLimit
    else sign s (fun (s : State) =>
      let id := s.trust.nextId
      let x : Session := { id := id, secured := false, keyNo := 0 }
      let s : State := { s with trust := { s.trust with sessions := s.trust.sessions ++ [x], nextId := id + 1 } }
      respond s 0x64 (openBytes s 0x64 body.length) (some id)))

/-- A request within a session. -/
def inSession (s : State) (id : Nat) (secured : Bool) (f : Session → State) : Host.Outcome State Fault Refusal :=
  answering s s.trust.negotiated (match sessionOf s id with
    | none => refuseRequest s eInvalid
    | some x => if x.secured = secured then f x else refuseRequest s eUnexpected (some id))

/-- FINISH (R288): the session is secured. -/
def execFinish (session : Nat) (s : State) : Host.Outcome State Fault Refusal :=
  inSession s session false (fun _ => respond (setSessions s (s.trust.sessions.map (fun x =>
    if x.id == session then { x with secured := true } else x))) 0x65 [] (some session))
/-- HEARTBEAT (R288). -/
def execHeartbeat (session : Nat) (s : State) : Host.Outcome State Fault Refusal :=
  inSession s session true (fun _ => respond s 0x68 [] (some session))
/-- KEY_UPDATE (R288). -/
def execKeyUpdate (session : Nat) (s : State) : Host.Outcome State Fault Refusal :=
  inSession s session true (fun _ => respond (setSessions s (s.trust.sessions.map (fun x =>
    if x.id == session then { x with keyNo := x.keyNo + 1 } else x))) 0x69 [] (some session))
/-- END_SESSION (R288). -/
def execEndSession (session : Nat) (s : State) : Host.Outcome State Fault Refusal :=
  inSession s session true (fun _ => respond (setSessions s (s.trust.sessions.filter (fun x => x.id != session))) 0x6C [] (some session))

/-- Whether a slot of a world's secret area lies in a protected page of the world (R291, R286). -/
def secretPage (s : State) (w : World) (slot : Nat) : Bool :=
  let h := w.page + 4096 * slot
  h % 4096 == 0 && isProtected s h && isProtected s (h + 4095) && granuleOwner s h == w.id

/-- Whether a secret may be delivered (R291). -/
def secretOk (s : State) (session world slot : Nat) (bytes : List Byte) : Bool :=
  (match sessionOf s session with | some x => x.secured | none => false) && decide (slot < 16 ∧ bytes.length ≤ 4096) &&
  (match s.world world with
    | some w => (w.tdi == .locked || w.tdi == .run) && !w.secrets.contains slot && secretPage s w slot
    | none => false)

/-- DELIVER_SECRET (R291): the bytes stand in the slot's 4 KiB of the world's secret area; a slot is written once. At any other
time than R291's the answer is InvalidRequest. -/
def execDeliverSecret (session world slot : Nat) (bytes : List Byte) (s : State) : Host.Outcome State Fault Refusal :=
  answering s true (
    match s.world world with
    | none => refuseRequest s eInvalid (some session)
    | some w =>
      if !secretOk s session world slot bytes then refuseRequest s eInvalid (some session)
      else
        let cells : List Host.Cell := bytes.zipIdx.map (fun x => (w.page + 4096 * slot + x.2, x.1))
        let s := (dirtyWords cells).foldl (fun (s : State) k => (mergeNow s k (cells.filter (fun c => c.1 / 32 == k))).1) s
        respond (match s.world world with
          | some w => s.setWorld { w with secrets := w.secrets ++ [slot] }
          | none => s) 0x7E [] (some session))

/-- UNSUPPORTED_REQUEST (R288): any other request. -/
def execUnsupportedRequest (_code : Byte) (s : State) : Host.Outcome State Fault Refusal :=
  answering s true (refuseRequest s eUnsupported)

/-! ### Interfaces and the debug gate (R292, R293) -/

/-- An interface's state changed, with the answer. -/
def setTdi (s : State) (w : World) (t : Tdi) : State := (s.setWorld { w with tdi := t }).send (.tdisp w.id true)

/-- LOCK_INTERFACE_REQUEST (R292, R293): a debug session is disconnected and the gate closed first. -/
def execLockInterfaceRequest (world : Nat) (s : State) : Host.Outcome State Fault Refusal :=
  match s.world world with
  | none => .next (s.send (.tdisp world false))
  | some w =>
    if w.id = 0 ∨ w.tdi ≠ .unlocked then .next (s.send (.tdisp world false))
    else .next (setTdi { s with trust := { s.trust with debugOn := false, debugOpen := false } } w .locked)

/-- START_INTERFACE_REQUEST (R292): the world's queues accept packets. -/
def execStartInterfaceRequest (world : Nat) (s : State) : Host.Outcome State Fault Refusal :=
  match s.world world with
  | none => .next (s.send (.tdisp world false))
  | some w => if w.tdi = .locked then .next (setTdi s w .run) else .next (s.send (.tdisp world false))

/-- An interface in CONFIG_LOCKED or RUN goes to ERROR and its world is torn down (R292). -/
def interfaceError (s : State) (world : Nat) : State :=
  match s.world world with
  | none => s
  | some w => if w.tdi = .locked ∨ w.tdi = .run then (s.setWorld { w with tdi := .error }).due [.teardown world] else s

/-- LOCKED_CONFIG_WRITE (R292). -/
def execLockedConfigWrite (world : Nat) (s : State) : Host.Outcome State Fault Refusal := .next (interfaceError s world)
/-- IDE_INTEGRITY_FAILURE (R292). -/
def execIdeIntegrityFailure (world : Nat) (s : State) : Host.Outcome State Fault Refusal := .next (interfaceError s world)

/-- DEBUG_SESSION_CONNECT (R293, R357): only while the gate is open and nothing waits to be scrubbed; what retired groups'
registers keep is scrubbed before. -/
def execDebugSessionConnect (s : State) : Host.Outcome State Fault Refusal :=
  if s.trust.debugOpen && s.scrubs.isEmpty then
    .next { s with trust := { s.trust with debugOn := true }, cores := s.cores.map (fun (k : Core) => { k with kept := [] }) }
  else .next s

/-! ### Package time -/

/-- WAIT_UNTIL_PACKAGE_TIME_PASSES (R162): nothing happens until package time has passed `t`. -/
def execWaitUntilPackageTimePasses (t : Nat) (s : State) : Host.Outcome State Fault Refusal :=
  .next (if s.now ≤ t then { s with now := t + 1 } else s)

end Sys2Proof.Machine
end

