-- ==== Sys2Proof/Machine/Unlisted.lean ====
section
/-! DEFINITION. The words of the opcode map that have no row in the opcode table (R33): each runs by its own meaning. -/

namespace Sys2Proof.Machine

/-- The meaning of a word beside the table. -/
def execBeside (b : Beside) (s : State) : Host.Outcome State Fault Refusal :=
  match b with
  | .cvt g d a t => execCvt g d a t s
  | .xlane g d a b x => execXlane g d a b x s
  | .slide g d a b x => execSlide g d a b x s
  | .laneop g d a m => execLaneop g d a m s
  | .maddm g d a b x => execMaddm g d a b x s
  | .mmulm g d a b x => execMmulm g d a b x s
  | .nttb g d a b x => execNttb g d a b x s
  | .bfp g d a m i => execBfp g d a m i s
  | .st g d a m o => execSt g d a m o s
  | .sts g d a m o => execSts g d a m o s
  | .pref g a m o => execPref g a m o s
  | .stu g d a m o => execStu g d a m o s
  | .tile g d a m i => execTile g d a m i s
  | .spool g d a m q => execSpool g d a m q s
  | .mtx g d a m i => execMtx g d a m i s
  | .exit g => execExit g s
  | .sys g d a m i => execSys g d a m i s

end Sys2Proof.Machine
end

