-- ==== Sys2Proof/Machine/Schedule.lean ====
section
/-! DEFINITION. What the next step is about: which path slot issues (R215), the word it fetches (R191), and which of the
part's own events are due. -/

namespace Sys2Proof.Machine

/-! ### Issue (R215) -/

/-- Whether segments that the part itself brings into a core for a world are still on their way (R191, R207, R254). -/
def bringing (s : State) (c : CoreId) (world : Nat) : Bool :=
  (s.core c).overlay.any (fun o => o.2.again && o.2.state == .fetching && o.2.world == some world)

/-- A slot that a port may select. -/
structure Ready where
  key  : Key
  sl   : Bool
  path : Path
  last : Nat
  deriving DecidableEq, Repr

/-- Whether a slot may issue while its core's partition is being stopped (R22, R246): the words of an exit routine, and what
completes an issue unit that has begun. -/
def mayFinish (s : State) (g : Group) (p : Path) : Bool :=
  (s.stopping g.key).isNone || g.stage != .running || p.inUnit

/-- The slots of a group that a port may select; a resumed group issues once its withdrawn entries are posted (R151). -/
def readyOf (s : State) (g : Group) : List Ready :=
  if unsettled g || growing s g.key || bringing s (keyCore g.key) g.world || g.reposting then []
  else [false, true].filterMap (fun sl =>
    match g.slot sl with
    | some p => if slotReady s.now s.tick g sl && mayFinish s g p then
        some { key := g.key, sl := sl, path := p, last := if sl then g.last1 else g.last0 } else none
    | none => none)

/-- The port of a key. -/
def portOf (k : Key) : Nat := (k.die * 192 + k.core) * 4 + k.slot % 4

/-- The tick at which a port last issued. -/
def portLast (s : State) (port : Nat) : Nat :=
  (s.groups.filter (fun g => portOf g.key == port)).foldl (fun m g => max m (max g.last0 g.last1)) 0

/-- The priority at which a slot ranks: 15 once it has been eligible for 256 cycles without issuing. -/
def Ready.pri (r : Ready) : Nat := if r.path.boost then 15 else r.path.pri.toNat

/-- Whether `a` is selected before `b` on one port (R215). -/
def Ready.before (a b : Ready) : Bool :=
  if a.pri ≠ b.pri then decide (b.pri < a.pri)
  else if a.last ≠ b.last then decide (a.last < b.last)
  else if a.key.slot ≠ b.key.slot then decide (a.key.slot < b.key.slot)
  else !a.sl

/-- The slot that issues next: ports take turns, the one that has waited longest first. -/
def pickSlot (s : State) : Option Ready :=
  let rs := s.groups.flatMap (readyOf s)
  match rs with
  | [] => none
  | r :: _ =>
    let port := rs.foldl (fun p x =>
      let q := portOf x.key
      if portLast s q < portLast s p || (portLast s q == portLast s p && decide (q < p)) then q else p) (portOf r.key)
    (rs.filter (fun x => portOf x.key == port)).foldl (fun (b : Option Ready) x =>
      match b with
      | none => some x
      | some y => if x.before y then some x else some y) none

/-- What a path slot meets where its PC stands: a word that has issued and waits there, as it was fetched then (R197), a fetch
that faults (R191), or a word. -/
def fetchOf (s : State) (r : Ready) : Option Word :=
  match r.path.read, s.group r.key with
  | some x, _ => some x.word
  | none, none => none
  | none, some g =>
    if landed s (keyCore r.key) g.world r.path.pc then some (overlayWord s (keyCore r.key) r.path.pc) else none

/-- SEG_ABSENT at a fetch (R19, R191). -/
def fetchFault (s : State) (r : Ready) : State :=
  match s.group r.key with
  | none => s
  | some g => raise s g r.sl r.path { code := cSegAbsent, addr := r.path.pc.toNat, lane := none, mask := 0 }

/-- Groups whose ranks or arrivals are not at rest settled (R185, R189). -/
def settleGroups (s : State) : State :=
  (s.groups.filter unsettled).foldl (fun (s : State) (g : Group) => afterWord s g.key) s

/-- Slots that may be selected have been eligible for one cycle more (R215). -/
def ageSlots (s : State) : State :=
  { s with groups := s.groups.map (fun (g : Group) =>
      (readyOf s g).foldl (fun (g : Group) r => g.setSlot r.sl (some { r.path with aged := r.path.aged + 1 })) g) }

/-- Resumed groups whose withdrawn entries could not all be posted at once try again (R151). -/
def repostRest (s : State) : State :=
  (s.groups.filter Group.reposting).foldl (fun (s : State) (g : Group) => repost s g.key) s

/-- Package time and the model's tick go on, by the same for every step; what goes on without an event of its own does. -/
def advance (s : State) : State :=
  ageSlots (settleGroups (repostRest (haltRest { s with tick := s.tick + 1, now := s.now + 1, cur := none })))

/-! ### Events of the part itself -/

/-- Whether bytes of a word on their way home can move on: they merge, or the request that they wait for has still to be
sent, or to be sent again because the line has been taken away since (R58, R69, R70, R266). -/
def mergeable (s : State) (w : Nat) : Bool :=
  if isHost (32 * w) then lookupN s.lines.mesi (wordLine w) == some .m || !s.lines.rdOwn.contains (wordLine w)
  else (lookupN s.lines.held (wordLine w)).isNone || !s.lines.backInv.contains (wordLine w)

/-- Events of cores: stores on their way home, segments, promotions, bins, grows (R58, R197, R178, R181, R212, R95). -/
def coreEvents (s : State) (k : Core) : List Instr :=
  (k.leaving.filter (mergeable s)).map (fun w => .mergeAtHome (.l1 k.id.die k.id.core) w) ++
  (k.overlay.filter (fun o => o.2.state == .fetching)).map (fun o => .segmentLanded k.id o.1) ++
  (if (takeable k.promo k.waiting).isSome then [.promotionRequest k.id] else []) ++
  (match k.promo with
   | some p =>
     let dead := match s.world p.world with | some w => w.failed | none => true
     (if dead || (match p.time with | some t => decide (t < s.now) | none => true) then [.promotionAcknowledge k.id] else []) ++
     (if !p.timedOut && decide (p.since + 4000 ≤ s.now) then [.promotionStallTimeout k.id] else [])
   | none => []) ++
  let stopping := (s.stopping { die := k.id.die, core := k.id.core, slot := 0 }).isSome
  (if stopping then [] else k.bins).flatMap (fun b =>
    let fits := match s.launch b.2.launch with
      | some l => !(s.freeSlots k.id).isEmpty && decide (l.quota ≤ s.freeRegs k.id)
      | none => false
    if b.2.expired || b.2.threads.length == 32 then (if fits then [.binLaunch k.id b.1] else [])
    else if b.2.due ≤ s.now then [.binTimerExpiry k.id b.1] else []) ++
  (match k.grows with
   | (key, q) :: _ => match s.group key with
     | some g => if q - g.quota ≤ s.freeRegs k.id then [.regqGrowGrant k.id] else []
     | none => [.regqGrowGrant k.id]
   | [] => [])

/-- Events of quads: transfers and the matrix engine (R88, R139, R138). -/
def quadEvents (s : State) (q : Quad) : List Instr :=
  (q.ops.filter (fun o => !o.stalled)).map (fun o =>
    if o.kind.fills then .tileFillComplete q.id o.id else .tileDrainComplete q.id o.id) ++
  (if q.running then [.operationRetire q.id]
   else if (choose s q.id).isSome then [.passGrant q.id] else []) ++
  (q.entries.filter (fun e => !e.granted && decide (e.band < 3 ∧ e.arrived + 4000 ≤ s.now))).map (fun e =>
    .bandRise q.id e.id) ++
  ((q.slots.filter (fun x => !(releaseEnded s q).slots.any (fun y => y.1 == x.1))).map (fun x => .slotRelease q.id x.1))

/-- Events of queues (R220, R223, R224, R227, R239). -/
def queueEvents (s : State) (q : Queue) : List Instr :=
  let past (p : Packet) : Bool := match p.wctDue with | some t => decide (t < s.now) | none => true
  let idle := q.state == 2 && q.held.isEmpty && q.owed.isEmpty && q.halted.isEmpty && q.doom.isNone
  let owes := q.owed.any (fun o => !o.bad) || (match q.doom with | some d => !d.bad | none => false)
  q.acks.map (fun d => .replicaInvalidationAck q.id d) ++
  (if !idle && ((q.wake && q.acks.isEmpty && q.state != 2) || decide (q.polled + 50000 ≤ s.now)
      || (owes && decide (q.polled + 100 ≤ s.now))) then [.queuePoll q.id] else []) ++
  q.started.flatMap (fun p =>
    (match pType p.words with
     | 1 => match p.launch.bind s.launch with
       | some l => if l.wgCount ≤ l.ended && !l.dead && past p then [.kernelCompletion l.id] else []
       | none => []
     | 2 => if past p then [.copyCompletion q.id p.pidx] else []
     | 3 => if !q.haltedAt p.pidx && (match p.wctDue with | some t => decide (t ≤ s.now) | none => true) then [.barrierSignalReread q.id p.pidx]
       else []
     | _ => []) ++
    (if s.trust.config.watchdog != 0 && decide (p.since + s.trust.config.watchdog < s.now) then [.hang q.id p.pidx] else []))

/-- Placements (R210, R211). -/
def launchEvents (s : State) (l : Launch) : List Instr :=
  if l.wgCount ≤ l.next || l.dead || (placeNext s l).isNone then []
  else if l.nbhd = 0 then [.workgroupPlacement l.id] else [.neighbourhoodPlacement l.id]

/-- Teardown and the end of a reset (R238, R294). -/
def worldEvents (s : State) (w : World) : List Instr :=
  (match w.resetting with
   | some t => if abortsOver s w.id || decide (t + 100000000 ≤ s.now) then [.functionLevelReset w.id] else []
   | none => []) ++
  match w.dying with
  | none => []
  | some t =>
    if !w.failed || s.groups.any (fun g => g.world == w.id && standsStill s g) then [.teardown w.id]
    else if worldGone s w.id then [.teardownScrub w.id]
    else if t + 1000000 ≤ s.now then [.teardownCoreHalt w.id] else []

/-- Pre-emption (R246-R251). -/
def partEvents (s : State) (p : Partition) : List Instr :=
  if p.stage = 3 then
    let d := s.die p.die
    match p.quads.find? (fun q => (freeBay d q).isNone) with
    | none => [.swap p.id]
    -- an image that fills a bay of the quad's slice moves on (R253)
    | some q => ((s.images.find? (fun i => i.die == p.die && i.bays.any (fun b => b.1 / 2 == q))).map
        (fun i => Instr.imageMove i.id)).toList
  else if p.stage ≠ 1 then []
  else
    let gs := s.inPart p
    let saved (g : Group) : Bool := match g.stage with | .saved _ => true | _ => false
    gs.filterMap (fun g =>
      match g.stage, g.routine with
      | .stopped _, .exit _ d => if d ≤ s.now then some (.exitRoutineOverrun g.key) else none
      | .stopped _, _ => if stopped s p then some (.exitRoutineEntry g.key) else none
      | _, _ => none) ++
    (if gs.all saved && stopped s p && !(s.partCores p).any (fun c => (s.core c).promo.isSome) then [.haltAndDrain p.id]
     else [])

/-- Events of path slots (R190, R215). -/
def groupEvents (s : State) (g : Group) : List Instr :=
  [false, true].flatMap (fun sl =>
    match g.slot sl with
    | none => []
    | some p =>
      (if !p.yielded.isEmpty && decide (p.issued + 64 ≤ s.tick) then [.yieldExpiry g.key sl] else []) ++
      (if !p.boost && decide (256 ≤ p.aged) then [.issueAgeBoost g.key sl] else []))

/-- Members of this package for which operations have waited too long (R273). -/
def stuckEvents (s : State) : List Instr :=
  s.colls.zipIdx.flatMap (fun k =>
    (k.1.members.zipIdx.filter (fun m => m.1.1 == s.pkg.toNat && s.collOps.any (fun x => stuckOn s k.1 m.2 x.2.2))).map
      (fun m => .collNoProgress k.2 m.2))

/-- Collective operations that can move on (R272, R273). -/
def collEvents (s : State) (d : Die) : List Instr :=
  d.coll.filterMap (fun x =>
    let o := x.2
    if (o.state == 2 && decide (o.due < s.now)) ||
        (o.state == 1 && (match s.coll o.world o.group with
          | some k => (parties s k o).all Party.ready
          | none => false)) then
      some (.collOperationComplete d.id { slot := x.1, posts := [] })
    else none)

/-- A survey that is due, after the heartbeats of the package's own members (R278). -/
def surveyEvents (s : State) : List Instr :=
  let p := s.power
  if s.now < (p.survey + 1) * 100000 then []
  else
    let beat (m : Member) : Beat := { limit := m.limit, announce := none, raise := none }
    let late := (p.dies.members.filter (fun m => !m.beat)).map (fun m => Instr.meridianHeartbeat false m.id (beat m))
    let mine := match p.mine with
      | some m => if m.beat then [] else [Instr.meridianHeartbeat true m.id (beat m)]
      | none => []
    if late.isEmpty && mine.isEmpty then [.survey] else late ++ mine

/-- Monitors that are to look at their source, a window of 1 us having ended (R277). -/
def monitorEvents (s : State) : List Instr :=
  s.dies.flatMap (fun d => (d.monitors.filter (fun x => x.2.windowed && decide (x.2.window < s.now / 1000))).map (fun x =>
    .monitorSample d.id x.1 (windowValue s d.id x.2)))

/-- Snoops whose wait is over (R266). -/
def snoopEvents (s : State) : List Instr :=
  s.lines.snoops.filter (fun i => match i with
    | .snpinv line _ => decide (lineMax s line < s.now)
    | .snpdata line => decide (lineMax s line < s.now)
    | _ => false)

/-- Every event that the part may do now. -/
def dueEvents (s : State) : List Instr :=
  s.cores.flatMap (coreEvents s) ++ s.quads.flatMap (quadEvents s) ++ s.queues.flatMap (queueEvents s) ++
  s.launches.flatMap (launchEvents s) ++ s.worlds.flatMap (worldEvents s) ++ s.parts.flatMap (partEvents s) ++
  s.groups.flatMap (groupEvents s) ++ s.dies.flatMap (collEvents s) ++ stuckEvents s ++ surveyEvents s ++ monitorEvents s ++
  snoopEvents s ++
  s.flight.map (fun f => .accessComplete f.id) ++
  s.dies.flatMap (fun d => (d.walks.take 128).map (fun x =>
    .walkComplete { die := d.id, core := 0 } x.world (BitVec.ofNat 64 (4096 * x.page)))) ++
  (s.xlat.invs.filter (settledFor s)).map (fun i => .invalidationCompletion i.id) ++
  (s.xlat.reqs.filter (fun r => r.waiting && r.sent && !r.failed && decide (r.since + s.trust.config.pageTimeout ≤ s.now))).map
    (fun r => .pageRequestTimeout r.id) ++
  s.waking.map .wayWake ++ s.scrubs.map (fun x => .scrubComplete x.id)

/-- The event that is done next: they take turns. -/
def nextEvent (s : State) : Option Instr :=
  let es := dueEvents s
  es[s.tick / 2 % max 1 es.length]?

/-- Nothing can be done: time passes until the first parked path may go on, or a monitor's window of 1 us ends. -/
def idleEvent (s : State) : Instr :=
  let ts := s.groups.flatMap (fun g => [g.slot0, g.slot1].filterMap (fun p => p.bind (fun p => p.parked)))
  let ts := if s.dies.any (fun d => d.monitors.any (fun x => x.2.windowed)) then (s.now / 1000 * 1000 + 999) :: ts else ts
  .waitUntilPackageTimePasses (match ts with | [] => s.now | t :: r => r.foldl min t)

end Sys2Proof.Machine
end

