-- ==== Sys2Proof/Machine/Dispatch.lean ====
section
/-! DEFINITION. The meaning of every row of the opcode table: one arm per constructor of Instr. -/

namespace Sys2Proof.Machine

def exec (i : Instr) (s : State) : Host.Outcome State Fault Refusal :=
  match i with
  | .zero g x => Sys2Proof.Machine.execZero g x s
  | .add g d a b => Sys2Proof.Machine.execAdd g d a b s
  | .addSat g d a b => Sys2Proof.Machine.execAddSat g d a b s
  | .sub g d a b => Sys2Proof.Machine.execSub g d a b s
  | .subSat g d a b => Sys2Proof.Machine.execSubSat g d a b s
  | .mul g d a b => Sys2Proof.Machine.execMul g d a b s
  | .mulHi g d a b => Sys2Proof.Machine.execMulHi g d a b s
  | .fma g d a b => Sys2Proof.Machine.execFma g d a b s
  | .fmaNeg g d a b => Sys2Proof.Machine.execFmaNeg g d a b s
  | .min g d a b => Sys2Proof.Machine.execMin g d a b s
  | .minNan g d a b => Sys2Proof.Machine.execMinNan g d a b s
  | .max g d a b => Sys2Proof.Machine.execMax g d a b s
  | .maxNan g d a b => Sys2Proof.Machine.execMaxNan g d a b s
  | .addi g d a im => Sys2Proof.Machine.execAddi g d a im s
  | .muli g d a im => Sys2Proof.Machine.execMuli g d a im s
  | .and g d a b => Sys2Proof.Machine.execAnd g d a b s
  | .andn g d a b => Sys2Proof.Machine.execAndn g d a b s
  | .or g d a b => Sys2Proof.Machine.execOr g d a b s
  | .orn g d a b => Sys2Proof.Machine.execOrn g d a b s
  | .xor g d a b => Sys2Proof.Machine.execXor g d a b s
  | .xnor g d a b => Sys2Proof.Machine.execXnor g d a b s
  | .shl g d a b => Sys2Proof.Machine.execShl g d a b s
  | .rol g d a b => Sys2Proof.Machine.execRol g d a b s
  | .shr g d a b => Sys2Proof.Machine.execShr g d a b s
  | .sar g d a b => Sys2Proof.Machine.execSar g d a b s
  | .shiShl g d a c => Sys2Proof.Machine.execShiShl g d a c s
  | .shiShr g d a c => Sys2Proof.Machine.execShiShr g d a c s
  | .shiSar g d a c => Sys2Proof.Machine.execShiSar g d a c s
  | .shiRol g d a c => Sys2Proof.Machine.execShiRol g d a c s
  | .cmp g c p a b => Sys2Proof.Machine.execCmp g c p a b s
  | .cmpAnd g c p a b => Sys2Proof.Machine.execCmpAnd g c p a b s
  | .sel g d a b => Sys2Proof.Machine.execSel g d a b s
  | .neg g d a => Sys2Proof.Machine.execNeg g d a s
  | .abs g d a => Sys2Proof.Machine.execAbs g d a s
  | .rcp g d a => Sys2Proof.Machine.execRcp g d a s
  | .rsq g d a => Sys2Proof.Machine.execRsq g d a s
  | .sqrt g d a => Sys2Proof.Machine.execSqrt g d a s
  | .exp2 g d a => Sys2Proof.Machine.execExp2 g d a s
  | .log2 g d a => Sys2Proof.Machine.execLog2 g d a s
  | .floor g d a => Sys2Proof.Machine.execFloor g d a s
  | .ceil g d a => Sys2Proof.Machine.execCeil g d a s
  | .trunc g d a => Sys2Proof.Machine.execTrunc g d a s
  | .rint g d a => Sys2Proof.Machine.execRint g d a s
  | .popc g d a => Sys2Proof.Machine.execPopc g d a s
  | .clz g d a => Sys2Proof.Machine.execClz g d a s
  | .brev g d a => Sys2Proof.Machine.execBrev g d a s
  | .not g d a => Sys2Proof.Machine.execNot g d a s
  | .fract g d a => Sys2Proof.Machine.execFract g d a s
  | .movi g d im => Sys2Proof.Machine.execMovi g d im s
  | .mov g d a => Sys2Proof.Machine.execMov g d a s
  | .gtag g d a => Sys2Proof.Machine.execGtag g d a s
  | .stag g d a => Sys2Proof.Machine.execStag g d a s
  | .movp g d n => Sys2Proof.Machine.execMovp g d n s
  | .pmov g a n => Sys2Proof.Machine.execPmov g a n s
  | .nttpX g d a k => Sys2Proof.Machine.execNttpX g d a k s
  | .nttpBr g d a k => Sys2Proof.Machine.execNttpBr g d a k s
  | .split g d a j => Sys2Proof.Machine.execSplit g d a j s
  | .ld g d a k o => Sys2Proof.Machine.execLd g d a k o s
  | .lds g d a k o => Sys2Proof.Machine.execLds g d a k o s
  | .lda g d a sc w => Sys2Proof.Machine.execLda g d a sc w s
  | .ldaP g d a sc w => Sys2Proof.Machine.execLdaP g d a sc w s
  | .stl g d a sc w => Sys2Proof.Machine.execStl g d a sc w s
  | .atomAdd g d a w sc => Sys2Proof.Machine.execAtomAdd g d a w sc s
  | .atomMin g d a w sc => Sys2Proof.Machine.execAtomMin g d a w sc s
  | .atomMax g d a w sc => Sys2Proof.Machine.execAtomMax g d a w sc s
  | .atomAnd g d a w sc => Sys2Proof.Machine.execAtomAnd g d a w sc s
  | .atomOr g d a w sc => Sys2Proof.Machine.execAtomOr g d a w sc s
  | .atomXor g d a w sc => Sys2Proof.Machine.execAtomXor g d a w sc s
  | .atomExch g d a w sc => Sys2Proof.Machine.execAtomExch g d a w sc s
  | .atomCas g d a w sc => Sys2Proof.Machine.execAtomCas g d a w sc s
  | .atomIncw g d a w sc => Sys2Proof.Machine.execAtomIncw g d a w sc s
  | .redAddScope g d a w sc => Sys2Proof.Machine.execRedAdd g d a w sc s
  | .redMinScope g d a w sc => Sys2Proof.Machine.execRedMin g d a w sc s
  | .redMaxScope g d a w sc => Sys2Proof.Machine.execRedMax g d a w sc s
  | .redAndScope g d a w sc => Sys2Proof.Machine.execRedAnd g d a w sc s
  | .redOrScope g d a w sc => Sys2Proof.Machine.execRedOr g d a w sc s
  | .redXorScope g d a w sc => Sys2Proof.Machine.execRedXor g d a w sc s
  | .redExchScope g d a w sc => Sys2Proof.Machine.execRedExch g d a w sc s
  | .redCasScope g d a w sc => Sys2Proof.Machine.execRedCas g d a w sc s
  | .redIncwScope g d a w sc => Sys2Proof.Machine.execRedIncw g d a w sc s
  | .fenceCore g => Sys2Proof.Machine.execFenceCore g s
  | .fenceDie g => Sys2Proof.Machine.execFenceDie g s
  | .fencePkg g => Sys2Proof.Machine.execFencePkg g s
  | .fenceSys g => Sys2Proof.Machine.execFenceSys g s
  | .fenceOrf g => Sys2Proof.Machine.execFenceOrf g s
  | .fenceTfence g => Sys2Proof.Machine.execFenceTfence g s
  | .ldu g d a k o => Sys2Proof.Machine.execLdu g d a k o s
  | .bari g a b => Sys2Proof.Machine.execBari g a b s
  | .bara g d a b => Sys2Proof.Machine.execBara g d a b s
  | .barw g n a b => Sys2Proof.Machine.execBarw g n a b s
  | .bart g d b => Sys2Proof.Machine.execBart g d b s
  | .collPost g d a => Sys2Proof.Machine.execCollPost g d a s
  | .collWait g d a => Sys2Proof.Machine.execCollWait g d a s
  | .collStat g d a => Sys2Proof.Machine.execCollStat g d a s
  | .cfetch g d a => Sys2Proof.Machine.execCfetch g d a s
  | .cwait g a => Sys2Proof.Machine.execCwait g a s
  | .cdrop g a => Sys2Proof.Machine.execCdrop g a s
  | .bra g im => Sys2Proof.Machine.execBra g im s
  | .brd g im => Sys2Proof.Machine.execBrd g im s
  | .call g im => Sys2Proof.Machine.execCall g im s
  | .jmpi g a => Sys2Proof.Machine.execJmpi g a s
  | .calli g d a => Sys2Proof.Machine.execCalli g d a s
  | .ret g a => Sys2Proof.Machine.execRet g a s
  | .jmpf g im => Sys2Proof.Machine.execJmpf g im s
  | .ppri g n => Sys2Proof.Machine.execPpri g n s
  | .yield g => Sys2Proof.Machine.execYield g s
  | .setem g a => Sys2Proof.Machine.execSetem g a s
  | .getem g d => Sys2Proof.Machine.execGetem g d s
  | .spawn g d a => Sys2Proof.Machine.execSpawn g d a s
  | .btime g a => Sys2Proof.Machine.execBtime g a s
  | .bflush g => Sys2Proof.Machine.execBflush g s
  | .mfsr g d n => Sys2Proof.Machine.execMfsr g d n s
  | .mtsr g a => Sys2Proof.Machine.execMtsr g a s
  | .regq g k => Sys2Proof.Machine.execRegq g k s
  | .elect g n => Sys2Proof.Machine.execElect g n s
  | .modset g a => Sys2Proof.Machine.execModset g a s
  | .fmode g r => Sys2Proof.Machine.execFmode g r s
  | .waitr g d => Sys2Proof.Machine.execWaitr g d s
  | .xdone g a => Sys2Proof.Machine.execXdone g a s
  | .edone g => Sys2Proof.Machine.execEdone g s
  | .ctxb g d => Sys2Proof.Machine.execCtxb g d s
  | .rmask g d k => Sys2Proof.Machine.execRmask g d k s
  | .nop => Sys2Proof.Machine.execNop s
  | .himm im => Sys2Proof.Machine.execHimm im s
  | .hstall c => Sys2Proof.Machine.execHstall c s
  | .hrcv o => Sys2Proof.Machine.execHrcv o s
  | .hkeep k j n => Sys2Proof.Machine.execHkeep k j n s
  | .hmod r c l => Sys2Proof.Machine.execHmod r c l s
  | .land => Sys2Proof.Machine.execLand s
  | .region im => Sys2Proof.Machine.execRegion im s
  | .hscore m => Sys2Proof.Machine.execHscore m s
  | .leaseExpiry c word => Sys2Proof.Machine.execLeaseExpiry c word s
  | .eviction c word => Sys2Proof.Machine.execEviction c word s
  | .mergeAtHome c word => Sys2Proof.Machine.execMergeAtHome c word s
  | .wayGate c way words => Sys2Proof.Machine.execWayGate c way words s
  | .wayWake u => Sys2Proof.Machine.execWayWake u s
  | .bankGate c bank => Sys2Proof.Machine.execBankGate c bank s
  | .patrolScrub read => Sys2Proof.Machine.execPatrolScrub read s
  | .walkComplete c world va => Sys2Proof.Machine.execWalkComplete c world va s
  | .atsTranslationCompletion world page => Sys2Proof.Machine.execAtsTranslationCompletion world page s
  | .atsInvalidationRequest pasid range => Sys2Proof.Machine.execAtsInvalidationRequest pasid range s
  | .deviceInvalidation world range => Sys2Proof.Machine.execDeviceInvalidation world range s
  | .invalidationCompletion id => Sys2Proof.Machine.execInvalidationCompletion id s
  | .prgResponse id answer => Sys2Proof.Machine.execPrgResponse id answer s
  | .pageRequestTimeout id => Sys2Proof.Machine.execPageRequestTimeout id s
  | .snpinv line written => Sys2Proof.Machine.execSnpinv line written s
  | .snpdata line => Sys2Proof.Machine.execSnpdata line s
  | .snpcur line => Sys2Proof.Machine.execSnpcur line s
  | .ownershipGrant line => Sys2Proof.Machine.execOwnershipGrant line s
  | .backInvalidateResponse line data => Sys2Proof.Machine.execBackInvalidateResponse line data s
  | .hostHdmAccess pa store holds => Sys2Proof.Machine.execHostHdmAccess pa store holds s
  | .tileFillComplete q op => Sys2Proof.Machine.execTileFillComplete q op s
  | .tileDrainComplete q op => Sys2Proof.Machine.execTileDrainComplete q op s
  | .transferFatalFault q op code => Sys2Proof.Machine.execTransferFatalFault q op code s
  | .passGrant q => Sys2Proof.Machine.execPassGrant q s
  | .bandRise q entry => Sys2Proof.Machine.execBandRise q entry s
  | .operationRetire q => Sys2Proof.Machine.execOperationRetire q s
  | .slotRelease q slot => Sys2Proof.Machine.execSlotRelease q slot s
  | .segmentLanded c slot => Sys2Proof.Machine.execSegmentLanded c slot s
  | .workgroupPlacement launch => Sys2Proof.Machine.execWorkgroupPlacement launch s
  | .neighbourhoodPlacement launch => Sys2Proof.Machine.execNeighbourhoodPlacement launch s
  | .binTimerExpiry c bin => Sys2Proof.Machine.execBinTimerExpiry c bin s
  | .binLaunch c bin => Sys2Proof.Machine.execBinLaunch c bin s
  | .regqGrowGrant c => Sys2Proof.Machine.execRegqGrowGrant c s
  | .issueAgeBoost k slot1 => Sys2Proof.Machine.execIssueAgeBoost k slot1 s
  | .withholdExemption k slot1 => Sys2Proof.Machine.execWithholdExemption k slot1 s
  | .yieldExpiry k slot1 => Sys2Proof.Machine.execYieldExpiry k slot1 s
  | .quadPoolReassign q cls rate => Sys2Proof.Machine.execQuadPoolReassign q cls rate s
  | .doorbell q => Sys2Proof.Machine.execDoorbell q s
  | .queuePoll q => Sys2Proof.Machine.execQueuePoll q s
  | .kernel q => Sys2Proof.Machine.execKernel q s
  | .copy q => Sys2Proof.Machine.execCopy q s
  | .barrier q => Sys2Proof.Machine.execBarrier q s
  | .signal q => Sys2Proof.Machine.execSignal q s
  | .marker q => Sys2Proof.Machine.execMarker q s
  | .kernelCompletion launch => Sys2Proof.Machine.execKernelCompletion launch s
  | .copyCompletion q pidx => Sys2Proof.Machine.execCopyCompletion q pidx s
  | .barrierSignalReread q pidx => Sys2Proof.Machine.execBarrierSignalReread q pidx s
  | .queueCreate q r => Sys2Proof.Machine.execQueueCreate q r s
  | .queueDestroy q => Sys2Proof.Machine.execQueueDestroy q s
  | .replicaInvalidationAck q die => Sys2Proof.Machine.execReplicaInvalidationAck q die s
  | .heldRecordWrite q => Sys2Proof.Machine.execHeldRecordWrite q s
  | .answerResume q n => Sys2Proof.Machine.execAnswerResume q n s
  | .answerSkip q n => Sys2Proof.Machine.execAnswerSkip q n s
  | .answerAbort q n => Sys2Proof.Machine.execAnswerAbort q n s
  | .teardown world => Sys2Proof.Machine.execTeardown world s
  | .teardownScrub world => Sys2Proof.Machine.execTeardownScrub world s
  | .teardownCoreHalt world => Sys2Proof.Machine.execTeardownCoreHalt world s
  | .hang q pidx => Sys2Proof.Machine.execHang q pidx s
  | .preemptImmediate part => Sys2Proof.Machine.execPreemptImmediate part s
  | .preemptBoundary part => Sys2Proof.Machine.execPreemptBoundary part s
  | .exitRoutineEntry k => Sys2Proof.Machine.execExitRoutineEntry k s
  | .exitRoutineOverrun k => Sys2Proof.Machine.execExitRoutineOverrun k s
  | .haltAndDrain part => Sys2Proof.Machine.execHaltAndDrain part s
  | .swap part => Sys2Proof.Machine.execSwap part s
  | .resumption image quads => Sys2Proof.Machine.execResumption image quads s
  | .imageMove image => Sys2Proof.Machine.execImageMove image s
  | .promotionRequest c => Sys2Proof.Machine.execPromotionRequest c s
  | .promotionAcknowledge c => Sys2Proof.Machine.execPromotionAcknowledge c s
  | .promotionAckReceipt k c => Sys2Proof.Machine.execPromotionAckReceipt k c s
  | .promotionStallTimeout c => Sys2Proof.Machine.execPromotionStallTimeout c s
  | .collOperationComplete die x => Sys2Proof.Machine.execCollOperationComplete die x s
  | .collNoProgress group rank => Sys2Proof.Machine.execCollNoProgress group rank s
  | .peerFault group rank => Sys2Proof.Machine.execPeerFault group rank s
  | .meridianHeartbeat fabric member beat => Sys2Proof.Machine.execMeridianHeartbeat fabric member beat s
  | .clamp die limit => Sys2Proof.Machine.execClamp die limit s
  | .clampReceipt fabric member limit => Sys2Proof.Machine.execClampReceipt fabric member limit s
  | .join member limit => Sys2Proof.Machine.execJoin member limit s
  | .leave member => Sys2Proof.Machine.execLeave member s
  | .droop q ns => Sys2Proof.Machine.execDroop q ns s
  | .energyLoRead addr => Sys2Proof.Machine.execEnergyLoRead addr s
  | .monitorCtlWrite die m v => Sys2Proof.Machine.execMonitorCtlWrite die m v s
  | .monitorSample die m x => Sys2Proof.Machine.execMonitorSample die m x s
  | .registerWrite addr v => Sys2Proof.Machine.execRegisterWrite addr v s
  | .negotiateAlgorithms body => Sys2Proof.Machine.execNegotiateAlgorithms body s
  | .getCertificate slot => Sys2Proof.Machine.execGetCertificate slot s
  | .challenge nonce => Sys2Proof.Machine.execChallenge nonce s
  | .getMeasurements index signed => Sys2Proof.Machine.execGetMeasurements index signed s
  | .keyExchange body => Sys2Proof.Machine.execKeyExchange body s
  | .finish session => Sys2Proof.Machine.execFinish session s
  | .heartbeat session => Sys2Proof.Machine.execHeartbeat session s
  | .keyUpdate session => Sys2Proof.Machine.execKeyUpdate session s
  | .endSession session => Sys2Proof.Machine.execEndSession session s
  | .deliverSecret session world slot bytes => Sys2Proof.Machine.execDeliverSecret session world slot bytes s
  | .unsupportedRequest code => Sys2Proof.Machine.execUnsupportedRequest code s
  | .lockInterfaceRequest world => Sys2Proof.Machine.execLockInterfaceRequest world s
  | .startInterfaceRequest world => Sys2Proof.Machine.execStartInterfaceRequest world s
  | .stopInterfaceRequest world => Sys2Proof.Machine.execStopInterfaceRequest world s
  | .functionLevelReset world => Sys2Proof.Machine.execFunctionLevelReset world s
  | .lockedConfigWrite world => Sys2Proof.Machine.execLockedConfigWrite world s
  | .ideIntegrityFailure world => Sys2Proof.Machine.execIdeIntegrityFailure world s
  | .worldCreate world w => Sys2Proof.Machine.execWorldCreate world w s
  | .ownershipTableWrite granule what => Sys2Proof.Machine.execOwnershipTableWrite granule what s
  | .powerOn flash cfg => Sys2Proof.Machine.execPowerOn flash cfg s
  | .recoveryImage img => Sys2Proof.Machine.execRecoveryImage img s
  | .reservedEncoding w => Sys2Proof.Machine.execReservedEncoding w s
  | .waitUntilPackageTimePasses t => Sys2Proof.Machine.execWaitUntilPackageTimePasses t s
  | .accessComplete id => Sys2Proof.Machine.execAccessComplete id s
  | .scrubComplete id => Sys2Proof.Machine.execScrubComplete id s
  | .survey => Sys2Proof.Machine.execSurvey s
  | .ceilingApply => Sys2Proof.Machine.execCeilingApply s
  | .getVersion => Sys2Proof.Machine.execGetVersion s
  | .getCapabilities => Sys2Proof.Machine.execGetCapabilities s
  | .getDigests => Sys2Proof.Machine.execGetDigests s
  | .debugSessionConnect => Sys2Proof.Machine.execDebugSessionConnect s
  | .recoveryCommit => Sys2Proof.Machine.execRecoveryCommit s

end Sys2Proof.Machine
end

