-- ==== Sys2Proof/Machine/Step.lean ====
section
/-! DEFINITION. One step: an event that is due, the next word of a path slot, or time passing. -/

namespace Sys2Proof.Machine

/-- What a word decodes to, run. -/
def runDecoded (d : Decoded) (s : State) : Host.Outcome State Fault Refusal :=
  match d with
  | .row i => exec i s
  | .beside b => execBeside b s

/-- The word of a selected slot fetched and run; a fetch that faults traps (R191). -/
def issueFrom (s : State) (r : Ready) : Host.Outcome State Fault Refusal :=
  match fetchOf s r with
  | none => .next (fetchFault s r)
  | some w => runDecoded (decodeWord w) { s with cur := some (r.key, r.sl), turn := true }

/-- What happens when no event stands in the agenda: words and the part's own events take turns. -/
def stepFree (s : State) : Host.Outcome State Fault Refusal :=
  let event (i : Instr) : Host.Outcome State Fault Refusal := exec i { s with turn := false }
  if s.turn then
    match nextEvent s with
    | some i => event i
    | none =>
      match pickSlot s with
      | some r => issueFrom s r
      | none => event (idleEvent s)
  else
    match pickSlot s with
    | some r => issueFrom s r
    | none =>
      match nextEvent s with
      | some i => event i
      | none => event (idleEvent s)

/-- One step: what stands in the agenda comes first, one event at a time. -/
def step (s : State) : Host.Outcome State Fault Refusal :=
  match s.agenda with
  | i :: r => exec i { s with tick := s.tick + 1, now := s.now + 1, cur := none, agenda := r }
  | [] => stepFree (advance s)

/-! ### A word placed where the step fetches -/

/-- A launch of the host's world for a word placed from outside: quota 96, everything else zero. -/
def plantLaunch (id : Nat) : Launch :=
  { id := id, world := 0, queue := 0, pidx := 0, record := BitVec.ofNat 512 (12 * 2 ^ 30), args := 0, table := none
    next := 1, ended := 0, dead := false }

/-- A world 0 for it. -/
def plantWorld : World :=
  { id := 0, xlat := 0, tvec := 0, svec := 0, keyGen := 0, keyed := false, page := 0, tdi := .unlocked, secrets := []
    dying := none, resetting := none, failed := false, notices := [] }

/-- A word in an overlay slot of a core, LANDED for a world. -/
def plantWord (s : State) (c : CoreId) (world : Nat) (pc w : Word) : State :=
  let n := pc.toNat / 0x1000
  let o : OverlaySlot := (lookupN (s.core c).overlay n).getD
    { state := .landed, world := some world, bytes := [], src := 0, by_ := none, frame := none, again := false, initial := false }
  setOverlay s c n { o with
    state := .landed, world := some world, again := false, bytes := writeLE o.bytes (pc.toNat % 0x1000) w.toNat 4 }

/-- A state with a word where the next step fetches: at the PC of the slot that the step selects, or, where no group can
issue, at the first word of a new group of the host's world on core 0 of die 0 (log entry 29). -/
def State.withFetchWord (s : State) (_nbits w : Nat) : State :=
  let s : State := { s with agenda := [], turn := false }
  match pickSlot (advance s) with
  | some r =>
    match s.group r.key with
    | some g => plantWord s (keyCore r.key) g.world r.path.pc (BitVec.ofNat 32 w)
    | none => s
  | none =>
    let l := plantLaunch s.nextId
    let n := s.nextId + 1
    let k : Key := { die := 0, core := 0, slot := ((s.freeSlots { die := 0, core := 0 }).head?).getD 0 }
    let g := l.group n 0 k 0 0xFFFFFFFF (Vector.replicate 8 (Vector.replicate 32 0))
    let wg : Workgroup :=
      { launch := l.id, wg := 0, world := 0, core := keyCore k, banks := 0, scr := [], nbhd := none
        bars := Vector.replicate 16 { phase := 0, expect := 1, count := 0 }, btime := 1024, closed := false }
    let s : State := { s with
      nextId := n + 1, launches := s.launches ++ [l], wgs := s.wgs ++ [wg], groups := s.groups ++ [g]
      worlds := if (s.world 0).isSome then s.worlds else s.worlds ++ [plantWorld] }
    plantWord s (keyCore k) 0 0 (BitVec.ofNat 32 w)

end Sys2Proof.Machine
end

