-- ==== Sys2Proof/Safety.lean ====
section
/-! DEFINITION. The terms in which statements about the machine are made: a word at issue in its ordinary circumstances,
what a word leaves behind and what it leaves alone, an event that takes effect, and when memory is in its form. -/

namespace Sys2Proof.Machine

/-! ### A word at issue -/

/-- A word with guard `gd` issues as `c`: the slot named is the one that the step has chosen, and every
earlier result of the group has landed (R26, R28). -/
structure AtIssue (s : State) (c : Cx) (gd : Guard) : Prop where
  cur     : s.cur = some (c.key, c.sl)
  group   : s.group c.key = some c.g
  slot    : c.g.slot c.sl = some c.p
  reads   : c = Cx.of s.now c.g c.sl c.p gd
  written : c.g.pending = []
  late    : c.p.late = []
  flight  : ∀ f ∈ s.flight, f.key ≠ c.key

/-- The same in ordinary code (in single-lane mode or not): neither in an exit nor in an entry routine (R249, R255). The
word may have waited, with the sources that it read at its issue (R28). -/
structure Tries (s : State) (c : Cx) (gd : Guard) : Prop extends AtIssue s c gd where
  plain   : c.g.routine = .normal

/-- The same of a word that has not waited. -/
structure Issues (s : State) (c : Cx) (gd : Guard) : Prop extends Tries s c gd where
  fresh   : c.p.read = none

/-- No prefix of the word is pending (R22). -/
structure Bare (c : Cx) : Prop where
  himm : c.p.himm = none
  hrcv : c.p.hrcv = none
  hmod : c.p.hmod = none

/-- No prefix, or an HMOD that asks for a rounding mode alone (R25). -/
structure Rounds (c : Cx) : Prop where
  himm : c.p.himm = none
  hrcv : c.p.hrcv = none
  hmod : ∀ h, c.p.hmod = some h → bitsOf h.toNat 16 3 = 0 ∧ bitsOf h.toNat 13 3 = 0

/-- No HRCV, and no rounding mode of an HMOD: the prefixes that an access may carry are HIMM and the cache hints of HMOD
(R22-R25). -/
structure Addressed (c : Cx) : Prop where
  hrcv : c.p.hrcv = none
  hmod : ∀ h, c.p.hmod = some h → bitsOf h.toNat 19 3 = 0

/-- The group's world is defined and not torn down (R238). -/
def Alive (s : State) (c : Cx) : Prop := ∃ w, s.world c.g.world = some w ∧ w.failed = false

/-! ### What a word leaves -/

/-- The bits, tag and side-file entry of a register by its operand code, once every result has landed. -/
def Group.bitsAt (g : Group) (r : Code) (i : Nat) : Word :=
  if isVec r then (g.vreg r.toNat).lane i else (g.ureg (r.toNat - 96)).bits
def Group.tagAt (g : Group) (r : Code) : Tag :=
  if isVec r then (g.vreg r.toNat).tag else (g.ureg (r.toNat - 96)).tag
def Group.sideAt (g : Group) (r : Code) : DWord :=
  if isVec r then (g.vreg r.toNat).side else (g.ureg (r.toNat - 96)).side

/-- A path without its mark of slots that it waits for to issue (R190) and without its notes of late results (R28). -/
def Path.unmarked (p : Path) : Path := { p with yielded := [], late := [] }

/-- A group with those marks of its paths taken off. -/
def Group.unmarked (g : Group) : Group := { g with slot0 := g.slot0.map Path.unmarked, slot1 := g.slot1.map Path.unmarked }

/-- A path gone on to `pc`: its prefixes consumed, its lanes, priority and return PC as they were (R22, R28). -/
structure WentTo (q q' : Path) (pc : Word) : Prop where
  pc     : q'.pc = pc
  kept   : q'.live = q.live ∧ q'.pri = q.pri ∧ q'.rpc = q.rpc ∧ q'.stamp = q.stamp
  himm   : q'.himm = none
  hrcv   : q'.hrcv = none
  hmod   : q'.hmod = none
  parked : q'.parked = none

/-- The path of a slot goes on as a word says: to the next word, to a target without counts or coverage pending (R28,
R31), or as the word has left it. -/
def WentOn (p p' : Option Path) : Go → Prop
  | .seq => ∀ q, p = some q → ∃ q', p' = some q' ∧ WentTo q q' (q.pc + 4) ∧ q'.stalls = q.stalls.tail
  | .jump pc => ∀ q, p = some q → ∃ q', p' = some q' ∧ WentTo q q' pc ∧ q'.stalls = [] ∧ q'.keep = none
  | .moved => p'.map Path.unmarked = p.map Path.unmarked

/-- What the results `o` of a word of group `k`, slot `sl`, leave in a group: the registers, predicates and flags that
the word writes, in the lanes that it writes, and nothing else of the group (R15, R93, R98, R115) but when its slots last
issued (R215) and a held access of the spill area (R186). -/
structure Results (sl : Bool) (o : Out) (a b : Group) : Prop where
  regs   : ∀ x ∈ o.regs, ∀ l, lowest x.mask = some l →
    b.tagAt x.code = (if x.only then a.tagAt x.code else x.tag) ∧ b.sideAt x.code = x.side.getD (a.sideAt x.code) ∧
    ∀ i < 32, b.bitsAt x.code i =
      if x.only then a.bitsAt x.code i else if isVec x.code then (if hasBit x.mask i then x.val i else a.bitsAt x.code i) else x.val l
  others : ∀ r, (∀ x ∈ o.regs, x.code ≠ r) → ∀ i,
    b.bitsAt r i = a.bitsAt r i ∧ b.tagAt r = a.tagAt r ∧ b.sideAt r = a.sideAt r
  preds  : ∀ x ∈ o.preds, x.1 < 7 → b.pred x.1 = (a.pred x.1 &&& ~~~x.2.1) ||| (x.2.2 &&& x.2.1)
  preds' : ∀ n, (∀ x ∈ o.preds, x.1 ≠ n) → b.pred n = a.pred n
  flags  : b.flags = a.flags ||| o.flags
  path   : WentOn (a.slot sl) (b.slot sl) o.go
  other  : (b.slot (!sl)).map Path.unmarked = (a.slot (!sl)).map Path.unmarked
  kept   : b.key = a.key ∧ b.world = a.world ∧ b.launch = a.launch ∧ b.wg = a.wg ∧ b.quota = a.quota ∧ b.em = a.em ∧
    b.q = a.q ∧ b.wct = a.wct ∧ b.region = a.region ∧ b.score = a.score ∧ b.spill = a.spill ∧ b.spillPtr = a.spillPtr ∧
    b.context = a.context ∧ b.svc = a.svc ∧ b.single = a.single ∧ b.routine = a.routine ∧ b.stage = a.stage ∧
    b.saved = a.saved ∧ b.lvl = a.lvl ∧ b.cls = a.cls ∧ b.spawnPri = a.spawnPri ∧ b.withdrawn = a.withdrawn ∧
    b.nextStamp = a.nextStamp

/-- What a word of group `k` leaves of the machine beside its own effect on memory, which `s` already holds: `Results` in
its group, every other group as it was, and of the rest only the records of posted matrix operations changed, if the word
overwrites their registers (R144), and the reuse latches of the ports (R31, R32). -/
structure Leaves (s u : State) (k : Key) (sl : Bool) (o : Out) : Prop where
  group  : ∃ a b, s.group k = some a ∧ u.group k = some b ∧ Results sl o a b.unmarked
  groups : ∀ k', k' ≠ k → (u.group k').map Group.unmarked = (s.group k').map Group.unmarked
  quads  : ∀ q, { u.quad q with entries := [] } = { s.quad q with entries := [] }
  rest   : ∃ gs qs ps, u = { s with groups := gs, quads := qs, ports := ps }

/-- Instruction `i` completes as the word `c` with the results `o` and no other effect: what follows a word (ranks and
arrivals brought to rest, R185 and R189) starts from a state that holds just these. -/
def Does (i : Instr) (s : State) (c : Cx) (o : Out) : Prop :=
  ∃ u, exec i s = .next (afterWord u c.key) ∧ Leaves s u c.key c.sl o

/-- Instruction `i` completes as the word `c` with the results `o` after an effect of its own that leaves `s'`. -/
def DoesAfter (i : Instr) (s s' : State) (c : Cx) (o : Out) : Prop :=
  ∃ u, exec i s = .next (afterWord u c.key) ∧ Leaves s' u c.key c.sl o

/-! ### Operands -/

/-- Operand `r` holds a value of tag `t`: below the quota and, for a 64-bit tag, an aligned pair with that tag in both
registers (R13, R14, R99). -/
structure Holds (c : Cx) (r : Code) (t : Tag) : Prop where
  tag   : c.tag r = t
  quota : oneOk c.g.quota r = true
  pair  : wide t = true → pairOk c.g.quota r = true ∧ c.tag (up r 1) = t

/-- Operand `r` may take a result of tag `t` (R13, R14). -/
structure Accepts (c : Cx) (r : Code) (t : Tag) : Prop where
  quota : oneOk c.g.quota r = true
  pair  : wide t = true → pairOk c.g.quota r = true

/-- Element `k` (of `w` bits) of an operand in lane `i`, as bits and as an integer (R107, R110). -/
def Cx.elem (c : Cx) (w : Nat) (r : Code) (i k : Nat) : Nat := elemAt w (c.valOf r i) k
def Cx.elemInt (c : Cx) (sgn : Bool) (w : Nat) (r : Code) (i k : Nat) : Int := intOf sgn w (c.elem w r i k)

/-- `n` elements of `w` bits packed into one value (R110). -/
def packed (w n : Nat) (f : Nat → Nat) : Nat := ((List.range n).map (fun k => f k % 2 ^ w * 2 ^ (w * k))).sum

/-- The flags of all elements of the lanes of a mask, ORed (R110, R115). -/
def flagsOver (m : Word) (n : Nat) (f : Nat → Nat → Word) : Word :=
  joinFlags ((lanesOf m).map (fun i => joinFlags ((List.range n).map (f i))))

/-- The number that a finite value stands for. -/
def FVal.value : FVal → Option Rat
  | .fin neg m e => some ((if neg then -1 else 1) * (m : Rat) * (2 : Rat) ^ e)
  | _ => none

/-- A fault of the word at issue, without lanes or address: the state in which it is raised (R229, R231). -/
def Traps (i : Instr) (s : State) (c : Cx) (code : Nat) : Prop :=
  exec i s = .next (raise s c.g c.sl c.p { code := code, addr := 0, lane := none, mask := 0 })

/-- A hint word completes: of the machine only the issuing group changes, to `g'` with its path gone on to the next word
and changed by `f`, and its slot noted as having issued (R20-R22, R215). -/
def Hints (i : Instr) (s : State) (c : Cx) (g' : Group) (f : Path → Path) : Prop :=
  ∃ u b, exec i s = .next (afterWord u c.key) ∧ u.group c.key = some b ∧
    b.unmarked = ((g'.setSlot c.sl (some (f { c.p with
      pc := c.p.pc + 4, cycle := c.p.cycle + 1, issued := s.tick, aged := 0, parked := none, boost := false
      exempt := false }))).issuedAt c.sl s.tick).unmarked ∧
    (∀ k', k' ≠ c.key → (u.group k').map Group.unmarked = (s.group k').map Group.unmarked) ∧
    ∃ gs ps, u = { s with groups := gs, ports := ps }

/-- A word beside the opcode table completes as `Does` and `DoesAfter` say of a row of it. -/
def DoesBesideAfter (b : Beside) (s s' : State) (c : Cx) (o : Out) : Prop :=
  ∃ u, execBeside b s = .next (afterWord u c.key) ∧ Leaves s' u c.key c.sl o

/-- The offset of a memory word: I4 sign-extended, or with HIMM the 26-bit value (R23, R103). -/
def Cx.displacement (c : Cx) (o : BitVec 4) : Int :=
  match c.p.himm with
  | none => o.toInt
  | some h => (h ++ o : BitVec 26).toInt

/-- The address of a lane from a 64-bit pair, and from a window register (R103): base and scaled offset, wrapping. -/
def Cx.address (c : Cx) (a : Code) (o : BitVec 4) (n i : Nat) : Nat :=
  (((c.val64 a i : Int) + c.displacement o * n) % 2 ^ 64).toNat
def Cx.windowAddress (c : Cx) (a : Code) (o : BitVec 4) (n i : Nat) : Nat :=
  ((((c.val a i).toNat : Int) + c.displacement o * n) % 2 ^ 32).toNat

/-! ### What a core sees -/

/-- The byte of a home address as a core sees it: the L1's dirty byte, else the dirty byte of its die's remote-data cache,
else home's (R57, R58, R60). -/
def seen (s : State) (c : CoreId) (a : Nat) : Byte :=
  match findCell (s.core c).dirty a with
  | some b => b
  | none => (findCell (s.die c.die).dirty a).getD (readCell s.mem a)

/-- A byte is as the core saw it, but for the A and D bits that translation sets in the entries of page tables (R46). -/
def Kept (s t : State) (c : CoreId) (x : Nat) : Prop :=
  seen t c x = seen s c x ∨
  (x % 8 = 0 ∧ ∃ m ∈ ([0x10, 0x20, 0x30] : List Byte), seen t c x = seen s c x ||| m)

/-- The dirty bytes of the caches in their form: addresses strictly rising; a remote-data cache holds bytes of other dies
only (R60). -/
structure CachesWf (s : State) : Prop where
  cores : ∀ k ∈ s.cores, rising k.dirty = true
  dies  : ∀ d ∈ s.dies, rising d.dirty = true ∧ ∀ x ∈ d.dirty, wordDie (x.1 / 32) ≠ d.id

/-! ### Accesses that go through at once -/

/-- An address of a world is mapped in the device half for an access `w` of core `k`, and its byte stands at home address `h`:
the core finds the translation in its own or its quad's TLB, outside encryption, with the right, and for a write with D set
(R41-R47). -/
structure Mapped (s : State) (k : CoreId) (world : Nat) (w : Want) (va h : Nat) : Prop where
  half : 2 ^ 56 ≤ va ∧ va < 2 ^ 57
  on   : xEn (xlatOf s world) = true
  page : ∃ e, findTlb s k world false va = some e ∧ e.prot = false ∧
    (w.write = true → e.w = true ∧ e.d = true) ∧ (w.exec = true → e.x = true) ∧ h = homeOf (e.frame + (va - e.base))
  same : h % 4096 = va % 4096

/-- The word of a home address may be read and merged at home at once: device memory, without an error, outside a protected
range, not held by the host (R39, R56, R69, R70). -/
structure OpenAt (s : State) (h : Nat) : Prop where
  device : isHost (32 * (h / 32)) = false
  sound  : h / 32 ∉ s.lines.bad
  plain  : isProtected s (32 * (h / 32)) = false
  free   : lookupN s.lines.held (wordLine (h / 32)) = none

/-- Both, for the address of a lane of word `c`. -/
def AtHand (s : State) (c : Cx) (w : Want) (va : Nat) : Prop :=
  ∃ h, Mapped s (keyCore c.key) c.g.world w va h ∧ OpenAt s h

/-- Nothing that a release or a store of word `c` would wait for (R162, R178, R181): its core's L1 and its die's remote-data cache
hold nothing dirty, no promotion is in progress at the core, the times that a release waits for have passed, and the word has
neither pushed nor translated anything yet. -/
structure Calm (s : State) (c : Cx) : Prop where
  l1    : (s.core (keyCore c.key)).dirty = []
  rdc   : (s.die c.key.die).dirty = []
  promo : (s.core (keyCore c.key)).promo = none
  times : (s.core (keyCore c.key)).cd < s.now ∧ (s.core (keyCore c.key)).cw < s.now ∧ c.g.wct < s.now
  first : c.p.awaits = none ∧ c.p.placed = none

/-- A tile in operand slots as the engine may read it: its descriptor is valid and its slots' bytes are in their form (R82,
R146). -/
structure EngineTile (s : State) (q : QuadId) (t : Tile) : Prop where
  desc  : descOk s (s.quad q) t.launch t.wg t.desc.toNat = true
  slot  : t.inSlot = true
  bytes : ∀ x ∈ (s.quad q).slots, memoryWf x.2.bytes = true

/-- An element of a tile as the engine reads it: zero outside its shape (R146). -/
def engineElem (s : State) (q : QuadId) (t : Tile) (i j : Nat) : Nat :=
  if i < dRows t.desc.toNat ∧ j < dCols t.desc.toNat then locRead s (s.quad q) t i j (moveBytes t.tag) else 0

/-- The firmware holds the host page of an address of a world with read and write permission; the byte stands at `h`, in a line
that is in M and has no error (R47, R69, R356). -/
structure FwHolds (s : State) (world va h : Nat) : Prop where
  half : va < 2 ^ 56
  on   : xHosten (xlatOf s world) = true
  page : ∃ p, s.xlat.host.find? (fun p => p.1 == world && decide (p.2.base ≤ va ∧ va < p.2.base + p.2.size)) = some p ∧
    p.2.r = true ∧ p.2.w = true ∧ h = hostBase + p.2.frame + (va - p.2.base)
  same : h % 4096 = va % 4096
  line : lookupN s.lines.mesi (wordLine (h / 32)) = some .m ∧ h / 32 ∉ s.lines.bad ∧
    lookupN s.lines.held (wordLine (h / 32)) = none

/-- The byte that a store of `n` bytes a lane leaves at a home address, the lanes ascending, each with the home address of
its element: the last lane's that covers it. -/
def lastStored (ps : List (Nat × Nat)) (n : Nat) (data : Nat → Nat) (x : Nat) : Option Byte :=
  (ps.reverse.find? (fun p => decide (p.2 ≤ x ∧ x < p.2 + n))).map (fun p => BitVec.ofNat 8 (data p.1 / 256 ^ (x - p.2)))

end Sys2Proof.Machine
end

