-- ==== Sys2Proof/WellFormed.lean ====
section
/-! DEFINITION. What a well-formed instruction is: its operand codes are of the class its entry requires, its fields
hold no reserved value, and an event names units that the package has (R2). Whether a well-formed word is legal can
still depend on the quota and on tags, which the machine judges when it runs (R13, R17, R126). -/

namespace Sys2Proof

/-- The checks, by name. -/
inductive Check where
  | uniformCode | evenUniform | evenVector | promoBase | srNumber | quotaCode | rmaskWord | hmodField
  | nttpDistance | nttpSame | reservedWord | coreRange | quadRange | slotRange | worldRange | dieRange
  deriving DecidableEq, Repr

/-- The code names a uniform register (R12). -/
def isUniform (c : Code) : Bool := decide (96 ≤ c.toNat)
/-- The code names the even register of a uniform pair (R14). -/
def isEvenUniform (c : Code) : Bool := isUniform c && decide (c.toNat % 2 = 0)
/-- The core exists (R2). -/
def coreOk (c : CoreId) : Bool := decide (c.die < 32 ∧ c.core < 192)
/-- The quad exists (R2). -/
def quadOk (q : QuadId) : Bool := decide (q.die < 32 ∧ q.quad < 48)
/-- The group slot exists (R2). -/
def keyOk (k : Key) : Bool := decide (k.die < 32 ∧ k.core < 192 ∧ k.slot < 32)
/-- The cache exists (R57). -/
def cacheOk : CacheId → Bool
  | .l1 d c => decide (d < 32 ∧ c < 192)
  | .rdc d => decide (d < 32)
  | .l2 d => decide (d < 32)
/-- The checks of an instruction. -/
def checks : Instr → List (Check × Bool)
  | .zero _ _ => [(.reservedWord, false)]
  | .add _ _ _ _ => []
  | .addSat _ _ _ _ => []
  | .sub _ _ _ _ => []
  | .subSat _ _ _ _ => []
  | .mul _ _ _ _ => []
  | .mulHi _ _ _ _ => []
  | .fma _ _ _ _ => []
  | .fmaNeg _ _ _ _ => []
  | .min _ _ _ _ => []
  | .minNan _ _ _ _ => []
  | .max _ _ _ _ => []
  | .maxNan _ _ _ _ => []
  | .addi _ _ _ _ => []
  | .muli _ _ _ _ => []
  | .and _ _ _ _ => []
  | .andn _ _ _ _ => []
  | .or _ _ _ _ => []
  | .orn _ _ _ _ => []
  | .xor _ _ _ _ => []
  | .xnor _ _ _ _ => []
  | .shl _ _ _ _ => []
  | .rol _ _ _ _ => []
  | .shr _ _ _ _ => []
  | .sar _ _ _ _ => []
  | .shiShl _ _ _ _ => []
  | .shiShr _ _ _ _ => []
  | .shiSar _ _ _ _ => []
  | .shiRol _ _ _ _ => []
  | .cmp _ _ _ _ _ => []
  | .cmpAnd _ _ _ _ _ => []
  | .sel _ _ _ _ => []
  | .neg _ _ _ => []
  | .abs _ _ _ => []
  | .rcp _ _ _ => []
  | .rsq _ _ _ => []
  | .sqrt _ _ _ => []
  | .exp2 _ _ _ => []
  | .log2 _ _ _ => []
  | .floor _ _ _ => []
  | .ceil _ _ _ => []
  | .trunc _ _ _ => []
  | .rint _ _ _ => []
  | .popc _ _ _ => []
  | .clz _ _ _ => []
  | .brev _ _ _ => []
  | .not _ _ _ => []
  | .fract _ _ _ => []
  | .movi _ _ _ => []
  | .mov _ _ _ => []
  | .gtag _ _ _ => []
  | .stag _ _ a => [(.uniformCode, isUniform a)]
  | .movp _ _ _ => []
  | .pmov _ _ _ => []
  | .nttpX _ d a k => [(.nttpDistance, decide (k.toNat < 5)), (.nttpSame, decide (d ≠ a))]
  | .nttpBr _ _ _ k => [(.nttpDistance, decide (k.toNat < 5))]
  | .split _ _ _ _ => []
  | .ld _ _ _ _ _ => []
  | .lds _ _ _ _ _ => []
  | .lda _ _ _ _ _ => []
  | .ldaP _ _ a _ _ => [(.promoBase, isEvenUniform a && decide (a.toNat ≤ 124))]
  | .stl _ _ _ _ _ => []
  | .atomAdd _ _ _ _ _ => []
  | .atomMin _ _ _ _ _ => []
  | .atomMax _ _ _ _ _ => []
  | .atomAnd _ _ _ _ _ => []
  | .atomOr _ _ _ _ _ => []
  | .atomXor _ _ _ _ _ => []
  | .atomExch _ _ _ _ _ => []
  | .atomCas _ _ _ _ _ => []
  | .atomIncw _ _ _ _ _ => []
  | .redAddScope _ _ _ _ _ => []
  | .redMinScope _ _ _ _ _ => []
  | .redMaxScope _ _ _ _ _ => []
  | .redAndScope _ _ _ _ _ => []
  | .redOrScope _ _ _ _ _ => []
  | .redXorScope _ _ _ _ _ => []
  | .redExchScope _ _ _ _ _ => []
  | .redCasScope _ _ _ _ _ => []
  | .redIncwScope _ _ _ _ _ => []
  | .fenceCore _ => []
  | .fenceDie _ => []
  | .fencePkg _ => []
  | .fenceSys _ => []
  | .fenceOrf _ => []
  | .fenceTfence _ => []
  | .ldu _ d a _ _ => [(.uniformCode, isUniform d), (.uniformCode, isUniform a)]
  | .bari _ a _ => [(.uniformCode, isUniform a)]
  | .bara _ d a _ => [(.uniformCode, isUniform d), (.uniformCode, isUniform a)]
  | .barw _ _ a _ => [(.uniformCode, isUniform a)]
  | .bart _ d _ => [(.uniformCode, isUniform d)]
  | .collPost _ d a => [(.uniformCode, isUniform d), (.uniformCode, isUniform a)]
  | .collWait _ d a => [(.uniformCode, isUniform d), (.uniformCode, isUniform a)]
  | .collStat _ d a => [(.uniformCode, isUniform d), (.uniformCode, isUniform a)]
  | .cfetch _ d a => [(.uniformCode, isUniform d), (.evenUniform, isEvenUniform a)]
  | .cwait _ a => [(.uniformCode, isUniform a)]
  | .cdrop _ a => [(.uniformCode, isUniform a)]
  | .bra _ _ => []
  | .brd _ _ => []
  | .call _ _ => []
  | .jmpi _ _ => []
  | .calli _ _ _ => []
  | .ret _ _ => []
  | .jmpf _ _ => []
  | .ppri _ _ => []
  | .yield _ => []
  | .setem _ a => [(.uniformCode, isUniform a)]
  | .getem _ d => [(.uniformCode, isUniform d)]
  | .spawn _ _ a => [(.uniformCode, isUniform a)]
  | .btime _ a => [(.uniformCode, isUniform a)]
  | .bflush _ => []
  | .mfsr _ _ n => [(.srNumber, decide (n.toNat < 15 ∨ (16 ≤ n.toNat ∧ n.toNat < 32)))]
  | .mtsr _ a => [(.uniformCode, isUniform a)]
  | .regq _ k => [(.quotaCode, decide (2 ≤ k.toNat ∧ k.toNat ≤ 12))]
  | .elect _ _ => []
  | .modset _ a => [(.evenUniform, isEvenUniform a)]
  | .fmode _ _ => []
  | .waitr _ d => [(.evenVector, decide (d.toNat < 96 ∧ d.toNat % 2 = 0))]
  | .xdone _ a => [(.uniformCode, isUniform a)]
  | .edone _ => []
  | .ctxb _ d => [(.evenUniform, isEvenUniform d)]
  | .rmask _ d k => [(.uniformCode, isUniform d), (.rmaskWord, decide (k.toNat < 5))]
  | .nop => []
  | .himm _ => []
  | .hstall _ => []
  | .hrcv _ => []
  | .hkeep _ _ _ => []
  | .hmod r c l => [(.hmodField, decide (r.toNat < 5 ∧ c.toNat < 4 ∧ l.toNat < 7))]
  | .land => []
  | .region _ => []
  | .hscore _ => []
  | .leaseExpiry c _ => [(.coreRange, cacheOk c)]
  | .eviction c _ => [(.coreRange, cacheOk c)]
  | .mergeAtHome c _ => [(.coreRange, cacheOk c)]
  | .wayGate c _ _ => [(.coreRange, cacheOk c)]
  | .wayWake _ => []
  | .bankGate c _ => [(.coreRange, coreOk c)]
  | .patrolScrub _ => []
  | .walkComplete c world _ => [(.coreRange, coreOk c), (.worldRange, decide (world < 64))]
  | .atsTranslationCompletion world _ => [(.worldRange, decide (world < 64))]
  | .atsInvalidationRequest _ _ => []
  | .deviceInvalidation world _ => [(.worldRange, decide (world < 64))]
  | .invalidationCompletion _ => []
  | .prgResponse _ _ => []
  | .pageRequestTimeout _ => []
  | .snpinv _ _ => []
  | .snpdata _ => []
  | .snpcur _ => []
  | .ownershipGrant _ => []
  | .backInvalidateResponse _ _ => []
  | .hostHdmAccess _ _ _ => []
  | .tileFillComplete q _ => [(.quadRange, quadOk q)]
  | .tileDrainComplete q _ => [(.quadRange, quadOk q)]
  | .transferFatalFault q _ _ => [(.quadRange, quadOk q)]
  | .passGrant q => [(.quadRange, quadOk q)]
  | .bandRise q _ => [(.quadRange, quadOk q)]
  | .operationRetire q => [(.quadRange, quadOk q)]
  | .slotRelease q _ => [(.quadRange, quadOk q)]
  | .segmentLanded c _ => [(.coreRange, coreOk c)]
  | .workgroupPlacement _ => []
  | .neighbourhoodPlacement _ => []
  | .binTimerExpiry c _ => [(.coreRange, coreOk c)]
  | .binLaunch c _ => [(.coreRange, coreOk c)]
  | .regqGrowGrant c => [(.coreRange, coreOk c)]
  | .issueAgeBoost k _ => [(.slotRange, keyOk k)]
  | .withholdExemption k _ => [(.slotRange, keyOk k)]
  | .yieldExpiry k _ => [(.slotRange, keyOk k)]
  | .quadPoolReassign q _ _ => [(.quadRange, quadOk q)]
  | .doorbell _ => []
  | .queuePoll _ => []
  | .kernel _ => []
  | .copy _ => []
  | .barrier _ => []
  | .signal _ => []
  | .marker _ => []
  | .kernelCompletion _ => []
  | .copyCompletion _ _ => []
  | .barrierSignalReread _ _ => []
  | .queueCreate _ _ => []
  | .queueDestroy _ => []
  | .replicaInvalidationAck _ die => [(.dieRange, decide (die < 32))]
  | .heldRecordWrite _ => []
  | .answerResume _ _ => []
  | .answerSkip _ _ => []
  | .answerAbort _ _ => []
  | .teardown world => [(.worldRange, decide (world < 64))]
  | .teardownScrub world => [(.worldRange, decide (world < 64))]
  | .teardownCoreHalt world => [(.worldRange, decide (world < 64))]
  | .hang _ _ => []
  | .preemptImmediate _ => []
  | .preemptBoundary _ => []
  | .exitRoutineEntry k => [(.slotRange, keyOk k)]
  | .exitRoutineOverrun k => [(.slotRange, keyOk k)]
  | .haltAndDrain _ => []
  | .swap _ => []
  | .resumption _ _ => []
  | .imageMove _ => []
  | .promotionRequest c => [(.coreRange, coreOk c)]
  | .promotionAcknowledge c => [(.coreRange, coreOk c)]
  | .promotionAckReceipt k c => [(.slotRange, keyOk k), (.coreRange, coreOk c)]
  | .promotionStallTimeout c => [(.coreRange, coreOk c)]
  | .collOperationComplete die _ => [(.dieRange, decide (die < 32))]
  | .collNoProgress _ _ => []
  | .peerFault _ _ => []
  | .survey => []
  | .meridianHeartbeat _ _ _ => []
  | .ceilingApply => []
  | .clamp die _ => [(.dieRange, decide (die < 32))]
  | .clampReceipt _ _ _ => []
  | .join _ _ => []
  | .leave _ => []
  | .droop q _ => [(.quadRange, quadOk q)]
  | .energyLoRead _ => []
  | .monitorCtlWrite die _ _ => [(.dieRange, decide (die < 32))]
  | .monitorSample die _ _ => [(.dieRange, decide (die < 32))]
  | .registerWrite _ _ => []
  | .getVersion => []
  | .getCapabilities => []
  | .negotiateAlgorithms _ => []
  | .getDigests => []
  | .getCertificate _ => []
  | .challenge _ => []
  | .getMeasurements _ _ => []
  | .keyExchange _ => []
  | .finish _ => []
  | .heartbeat _ => []
  | .keyUpdate _ => []
  | .endSession _ => []
  | .deliverSecret _ world _ _ => [(.worldRange, decide (world < 64))]
  | .unsupportedRequest _ => []
  | .lockInterfaceRequest world => [(.worldRange, decide (world < 64))]
  | .startInterfaceRequest world => [(.worldRange, decide (world < 64))]
  | .stopInterfaceRequest world => [(.worldRange, decide (world < 64))]
  | .functionLevelReset world => [(.worldRange, decide (world < 64))]
  | .lockedConfigWrite world => [(.worldRange, decide (world < 64))]
  | .ideIntegrityFailure world => [(.worldRange, decide (world < 64))]
  | .debugSessionConnect => []
  | .worldCreate world _ => [(.worldRange, decide (world < 64))]
  | .ownershipTableWrite _ (.give world) => [(.worldRange, decide (world < 64))]
  | .ownershipTableWrite _ (.out _) => []
  | .ownershipTableWrite _ (.back _ _) => []
  | .powerOn _ _ => []
  | .recoveryImage _ => []
  | .recoveryCommit => []
  | .reservedEncoding w => [(.reservedWord, decide (decodeWord w = .row (.reservedEncoding w)))]
  | .waitUntilPackageTimePasses _ => []
  | .accessComplete _ => []
  | .scrubComplete _ => []

/-- Every check of the instruction holds. -/
def wellFormed (i : Instr) : Bool := (checks i).all (·.2)

/-- The first check that fails, by name. -/
def firstIll (i : Instr) : Option Check := ((checks i).find? (fun c => !c.2)).map (·.1)

end Sys2Proof
end

