-- ==== Sys2Proof/Certificates/Slice0/Obligations.lean ====
section
/-! DEFINITION. The statements about the machine that are to be proved. -/

open Sys2Proof Sys2Proof.Machine

/-! ### Vector arithmetic (07_vector_arithmetic.md) -/

/-- ADD, SUB, MUL, FMA, MIN, MAX and their variants on integer tags (R129-R132 of 07): per element of each lane, the
exact result modulo `2^w` or clamped; no flag is set; the result takes the common tag. -/
def Obligations.IntegerArithmetic : Prop :=
  ∀ (s : State) (c : Cx) (g : Guard) (d a b : Code) (t : Tag) (w n : Nat) (sgn : Bool),
    elemOf t = some (w, n, .int sgn) → Issues s c g → Rounds c → c.lanes ≠ 0 →
    Holds c a t → Holds c b t → Accepts c d t →
    let x := c.elemInt sgn w a
    let y := c.elemInt sgn w b
    let R (f : Nat → Nat → Int) : Out := { regs := outOf d c.lanes (fun i => packed w n (fun k => wrap w (f i k))) t }
    Does (.add g d a b) s c (R (fun i k => x i k + y i k)) ∧
    Does (.addSat g d a b) s c (R (fun i k => clampInt sgn w (x i k + y i k))) ∧
    Does (.sub g d a b) s c (R (fun i k => x i k - y i k)) ∧
    Does (.subSat g d a b) s c (R (fun i k => clampInt sgn w (x i k - y i k))) ∧
    Does (.mul g d a b) s c (R (fun i k => x i k * y i k)) ∧
    Does (.mulHi g d a b) s c (R (fun i k => x i k * y i k / 2 ^ w)) ∧
    Does (.min g d a b) s c (R (fun i k => min (x i k) (y i k))) ∧
    Does (.minNan g d a b) s c (R (fun i k => min (x i k) (y i k))) ∧
    Does (.max g d a b) s c (R (fun i k => max (x i k) (y i k))) ∧
    Does (.maxNan g d a b) s c (R (fun i k => max (x i k) (y i k))) ∧
    (Holds c d t →
      let z := c.elemInt sgn w d
      Does (.fma g d a b) s c (R (fun i k => x i k * y i k + z i k)) ∧
      Does (.fmaNeg g d a b) s c (R (fun i k => -(x i k * y i k) + z i k)))

/-- The same words on float tags (R128-R132 of 07, R110, R115): each element is rounded once under the effective mode,
and the flags of all elements of all lanes are ORed into %flags. -/
def Obligations.FloatArithmetic : Prop :=
  ∀ (s : State) (c : Cx) (g : Guard) (d a b : Code) (t : Tag) (w n : Nat) (f : Fmt),
    elemOf t = some (w, n, .flt f) → Issues s c g → Rounds c → c.lanes ≠ 0 →
    Holds c a t → Holds c b t → Accepts c d t →
    let x := c.elem w a
    let y := c.elem w b
    let R (e : Nat → Nat → Nat × Word) : Out :=
      { regs := outOf d c.lanes (fun i => packed w n (fun k => (e i k).1)) t
        flags := flagsOver c.lanes n (fun i k => (e i k).2) }
    let sat (x y : Nat) (r : Nat × Word) : Nat × Word :=
      if (f.decode x).isFin ∧ (f.decode y).isFin ∧ (f.decode r.1).isInf then
        (f.signed (f.decode r.1).neg? f.maxBits, r.2) else r
    Does (.add g d a b) s c (R (fun i k => f.add c.rm (x i k) (y i k))) ∧
    Does (.sub g d a b) s c (R (fun i k => f.add c.rm (x i k) (f.negBits (y i k)))) ∧
    Does (.addSat g d a b) s c (R (fun i k => sat (x i k) (y i k) (f.add c.rm (x i k) (y i k)))) ∧
    Does (.subSat g d a b) s c
      (R (fun i k => sat (x i k) (f.negBits (y i k)) (f.add c.rm (x i k) (f.negBits (y i k))))) ∧
    Does (.mul g d a b) s c (R (fun i k => f.mul c.rm (x i k) (y i k))) ∧
    Does (.min g d a b) s c (R (fun i k => f.minMax false false (x i k) (y i k))) ∧
    Does (.minNan g d a b) s c (R (fun i k => f.minMax false true (x i k) (y i k))) ∧
    Does (.max g d a b) s c (R (fun i k => f.minMax true false (x i k) (y i k))) ∧
    Does (.maxNan g d a b) s c (R (fun i k => f.minMax true true (x i k) (y i k))) ∧
    (Holds c d t →
      let z := c.elem w d
      Does (.fma g d a b) s c (R (fun i k => f.fma c.rm false (x i k) (y i k) (z i k))) ∧
      Does (.fmaNeg g d a b) s c (R (fun i k => f.fma c.rm true (x i k) (y i k) (z i k))))

/-- AND, OR, XOR and their X variants (R134 of 07): the registers of the operands combined bit by bit; the result
takes A's tag, and A's side-file entry where it carries a BFP tag; no flag is set. Tags that the rule does not accept
are TAG_MISMATCH, a VOID source FMT_VOID. -/
def Obligations.BitwiseLogic : Prop :=
  (∀ (s : State) (c : Cx) (g : Guard) (d a b : Code) (t u : Tag),
     Issues s c g → Bare c → c.lanes ≠ 0 → t ≠ .void → u ≠ .void →
     (t = u ∨ (t = .b32 ∧ wide u = false) ∨ (u = .b32 ∧ wide t = false)) →
     Holds c a t → Holds c b u → Accepts c d t →
     let R (f : Word → Word → Word) : Out := { regs := (List.range (if wide t then 2 else 1)).map (fun j =>
       out32 (up d j) c.lanes (fun i => f (c.val (up a j) i) (c.val (up b j) i)) t
         (if isBfp t then some (c.side a) else none)) }
     Does (.and g d a b) s c (R (fun x y => x &&& y)) ∧ Does (.andn g d a b) s c (R (fun x y => x &&& ~~~y)) ∧
     Does (.or g d a b) s c (R (fun x y => x ||| y)) ∧ Does (.orn g d a b) s c (R (fun x y => x ||| ~~~y)) ∧
     Does (.xor g d a b) s c (R (fun x y => x ^^^ y)) ∧ Does (.xnor g d a b) s c (R (fun x y => ~~~(x ^^^ y)))) ∧
  (∀ (s : State) (c : Cx) (g : Guard) (d a b : Code) (i : Instr),
     i ∈ [Instr.and g d a b, .andn g d a b, .or g d a b, .orn g d a b, .xor g d a b, .xnor g d a b] →
     Issues s c g → Bare c → c.lanes ≠ 0 →
     (∀ t u, t ≠ .void → u ≠ .void → t ≠ u → ¬ (t = .b32 ∧ wide u = false) → ¬ (u = .b32 ∧ wide t = false) →
       Holds c a t → Holds c b u → Accepts c d t → Traps i s c cMismatch) ∧
     (∀ t, Holds c a t → Holds c b .void ∨ (t = .void ∧ ∃ u, Holds c b u) → Accepts c d t → Traps i s c cVoid))

/-- SHL, SHR, SAR, ROL by a register and SHI by an immediate (R135 of 07): any count; at or above the width SHL and
SHR give zero, SAR copies of the sign, ROL the count modulo the width. Of SHI a count at or above the width is
ILLEGAL; a tag of A, or of B, that the rule does not accept is TAG_MISMATCH. ADDI and MULI (R133 of 07): the exact sum
or product with the immediate, sign-extended from eight bits or, with HIMM, from thirty, modulo `2^w`; any tag but
s32, n32, s64 and n64 is TAG_MISMATCH. -/
def Obligations.ShiftsAndImmediates : Prop :=
  ((∀ (s : State) (c : Cx) (g : Guard) (d a b : Code) (n : BitVec 6) (t : Tag),
      Issues s c g → Bare c → c.lanes ≠ 0 → (isInt32 t ∨ t = .s64 ∨ t = .n64) → Holds c a t → Accepts c d t →
      let w := if wide t then 64 else 32
      let shl (x n : Nat) : Nat := if n < w then x * 2 ^ n % 2 ^ w else 0
      let shr (x n : Nat) : Nat := if n < w then x / 2 ^ n else 0
      let sar (x n : Nat) : Nat :=
        if n < w then wrap w (intOf true w x / 2 ^ n) else if intOf true w x < 0 then 2 ^ w - 1 else 0
      let rol (x n : Nat) : Nat := x * 2 ^ (n % w) % 2 ^ w + x / 2 ^ (w - n % w)
      let R (f : Nat → Nat → Nat) (k : Nat → Nat) : Out :=
        { regs := outOf d c.lanes (fun i => f (c.valOf a i) (k i)) t }
      (∀ u, isInt32 u → Holds c b u →
        let k (i : Nat) : Nat := (c.val b i).toNat
        Does (.shl g d a b) s c (R shl k) ∧ Does (.shr g d a b) s c (R shr k) ∧
        Does (.sar g d a b) s c (R sar k) ∧ Does (.rol g d a b) s c (R rol k)) ∧
      (n.toNat < w →
        let k (_ : Nat) : Nat := n.toNat
        Does (.shiShl g d a n) s c (R shl k) ∧ Does (.shiShr g d a n) s c (R shr k) ∧
        Does (.shiSar g d a n) s c (R sar k) ∧ Does (.shiRol g d a n) s c (R rol k))) ∧
   (∀ (s : State) (c : Cx) (g : Guard) (d a b : Code) (n : BitVec 6) (t : Tag),
      Issues s c g → Bare c → c.lanes ≠ 0 → t ≠ .void → Holds c a t → Accepts c d t →
      let shifted : Prop := isInt32 t ∨ t = .s64 ∨ t = .n64
      (∀ i ∈ [Instr.shl g d a b, .shr g d a b, .sar g d a b, .rol g d a b],
        oneOk c.g.quota b = true → c.tag b ≠ .void → (¬ shifted ∨ isInt32 (c.tag b) = false) → Traps i s c cMismatch) ∧
      (∀ i ∈ [Instr.shiShl g d a n, .shiShr g d a n, .shiSar g d a n, .shiRol g d a n],
        ((if wide t then 64 else 32) ≤ n.toNat → Traps i s c cIllegal) ∧
        (n.toNat < (if wide t then 64 else 32) → ¬ shifted → Traps i s c cMismatch))) ∧
   (∀ (g : Guard) (d a : Code) (n : BitVec 6),
      decodeWord (0x0E#6 ++ g ++ d ++ a ++ 0#2 ++ n) = .row (.shiShl g d a n) ∧
      decodeWord (0x0E#6 ++ g ++ d ++ a ++ 1#2 ++ n) = .row (.shiShr g d a n) ∧
      decodeWord (0x0E#6 ++ g ++ d ++ a ++ 2#2 ++ n) = .row (.shiSar g d a n) ∧
      decodeWord (0x0E#6 ++ g ++ d ++ a ++ 3#2 ++ n) = .row (.shiRol g d a n))) ∧
  ((∀ (s : State) (c : Cx) (g : Guard) (d a : Code) (im : BitVec 8) (t : Tag),
      Issues s c g → c.p.hrcv = none → c.p.hmod = none → c.lanes ≠ 0 →
      (t = .s32 ∨ t = .n32 ∨ t = .s64 ∨ t = .n64) → Holds c a t → Accepts c d t →
      let w := if wide t then 64 else 32
      let k : Int := match c.p.himm with
        | none => im.toInt
        | some h => (h ++ im : BitVec 30).toInt
      let R (f : Int → Int → Int) : Out :=
        { regs := outOf d c.lanes (fun i => wrap w (f (c.valOf a i) k)) t }
      Does (.addi g d a im) s c (R (fun x y => x + y)) ∧ Does (.muli g d a im) s c (R (fun x y => x * y))) ∧
   (∀ (s : State) (c : Cx) (g : Guard) (d a : Code) (im : BitVec 8) (t : Tag),
      Issues s c g → c.p.hrcv = none → c.p.hmod = none → c.lanes ≠ 0 → t ≠ .void →
      t ≠ .s32 → t ≠ .n32 → t ≠ .s64 → t ≠ .n64 → Holds c a t → Accepts c d t →
      Traps (.addi g d a im) s c cMismatch ∧ Traps (.muli g d a im) s c cMismatch) ∧
   (∀ (g : Guard) (d a : Code) (im : BitVec 8),
      decodeWord (0x07#6 ++ g ++ d ++ a ++ im) = .row (.addi g d a im) ∧
      decodeWord (0x08#6 ++ g ++ d ++ a ++ im) = .row (.muli g d a im)))

/-- CMP and CMP.AND (R136 of 07): a condition per lane, replacing the predicate's bits in lanes(E) or combined with
them; integers by their signedness, b32 and m64 as unsigned, floats as quiet comparisons with NV for a signalling NaN.
A write to p7 is discarded, as `Results` says of every word. SEL (R137 of 07): the guard selects and does not gate
lanes; any equal tags but VOID and BFP; other tags are TAG_MISMATCH, and X = 1 is ILLEGAL. -/
def Obligations.ComparisonAndSelection : Prop :=
  (∀ (s : State) (c : Cx) (g : Guard) (k p : BitVec 3) (a b : Code) (t : Tag),
     Issues s c g → Bare c → c.lanes ≠ 0 → Holds c a t → Holds c b t →
     (t = .m64 → ∀ i, hasBit c.lanes i → c.val64 a i < c.g.q.toNat ∧ c.val64 b i < c.g.q.toNat) →
     let T (x y : Int) : Bool := match k.toNat with
       | 0 => decide (x = y)
       | 1 => decide (x ≠ y)
       | 2 => decide (x < y)
       | 3 => decide (x ≤ y)
       | 4 => decide (y < x)
       | 5 => decide (y ≤ x)
       | 6 => false
       | _ => true
     let C (f : Nat → Bool) (fl : Word) : Prop :=
       Does (.cmp g k p a b) s c { preds := [(p.toNat, c.lanes, maskOf f)], flags := fl } ∧
       Does (.cmpAnd g k p a b) s c { preds := [(p.toNat, c.lanes, c.g.pred p.toNat &&& maskOf f)], flags := fl }
     let ints (sgn : Bool) : Prop :=
       let w := if wide t then 64 else 32
       C (fun i => T (intOf sgn w (c.valOf a i)) (intOf sgn w (c.valOf b i))) 0
     let flts (f : Fmt) : Prop :=
       C (fun i => match cmpVal (f.decode (c.valOf a i)) (f.decode (c.valOf b i)) with
         | none => k == 1 || k == 6
         | some z => T z 0)
         (joinFlags ((lanesOf c.lanes).map (fun i =>
           if (f.decode (c.valOf a i)).isSig || (f.decode (c.valOf b i)).isSig then fNV else 0)))
     (t = .s32 ∨ t = .s64 → ints true) ∧ (t = .n32 ∨ t = .n64 ∨ t = .b32 ∨ t = .m64 → ints false) ∧
     (t = .f32 → flts fmtF32) ∧ (t = .f64 → flts fmtF64)) ∧
  ((∀ (s : State) (c : Cx) (g : Guard) (d a b : Code) (t : Tag),
      Issues s c g → Bare c → c.en ≠ 0 → t ≠ .void → isBfp t = false → Holds c a t → Holds c b t → Accepts c d t →
      Does (.sel g d a b) s c
        { regs := outOf d c.en (fun i => if hasBit c.grd i then c.valOf a i else c.valOf b i) t }) ∧
   (∀ (s : State) (c : Cx) (g : Guard) (d a b : Code) (t u : Tag),
      Issues s c g → Bare c → c.en ≠ 0 → t ≠ .void → u ≠ .void → Holds c a t → Holds c b u → Accepts c d t →
      (t ≠ u ∨ isBfp t = true) → Traps (.sel g d a b) s c cMismatch) ∧
   (∀ (g : Guard) (d a b : Code), decodeWord (0x10#6 ++ g ++ d ++ a ++ b ++ 0#1) = .row (.sel g d a b) ∧
      decodeWord (0x10#6 ++ g ++ d ++ a ++ b ++ 1#1) = .row (.reservedEncoding (0x10#6 ++ g ++ d ++ a ++ b ++ 1#1))))

/-- NEG, ABS, POPC, CLZ, BREV and NOT on integer values (R138 of 07). NEG, ABS and the roundings of float elements,
and RCP to LOG2 (R138 of 07): one rounding per element, flags ORed over elements and lanes. Each of the sixteen words
completes for every operand of a tag that it takes. -/
def Obligations.UnaryOperations : Prop :=
  (∀ (s : State) (c : Cx) (g : Guard) (d a : Code) (t : Tag),
     Issues s c g → Bare c → c.lanes ≠ 0 → t ≠ .void → Holds c a t →
     let bits := if wide t then 64 else 32
     (∀ w n sgn, elemOf t = some (w, n, .int sgn) → Accepts c d t →
       let R (f : Int → Int) : Out :=
         { regs := outOf d c.lanes (fun i => packed w n (fun k => wrap w (f (c.elemInt sgn w a i k)))) t }
       Does (.neg g d a) s c (R (fun x => -x)) ∧ Does (.abs g d a) s c (R (fun x => (x.natAbs : Int)))) ∧
     (isInt32 t ∨ t = .s64 ∨ t = .n64 →
       (oneOk c.g.quota d = true →
         let R (f : Nat → Nat) : Out := { regs := [out32 d c.lanes (fun i => BitVec.ofNat 32 (f (c.valOf a i))) .n32] }
         Does (.popc g d a) s c (R (fun x => ((List.range bits).map (fun j => x / 2 ^ j % 2)).sum)) ∧
         Does (.clz g d a) s c (R (fun x => if x = 0 then bits else bits - 1 - Nat.log2 x))) ∧
       (Accepts c d t →
         Does (.brev g d a) s c { regs := outOf d c.lanes (fun i =>
           packed 1 bits (fun j => c.valOf a i / 2 ^ (bits - 1 - j))) t })) ∧
     (Accepts c d t →
       let side := if isBfp t then some (c.side a) else none
       Does (.not g d a) s c { regs := outOf d c.lanes (fun i => 2 ^ bits - 1 - c.valOf a i) t side })) ∧
  (∀ (s : State) (c : Cx) (g : Guard) (d a : Code) (t : Tag) (w n : Nat) (f : Fmt),
     elemOf t = some (w, n, .flt f) → Issues s c g → Rounds c → c.lanes ≠ 0 → Holds c a t → Accepts c d t →
     let R (e : Nat → Nat × Word) : Out :=
       { regs := outOf d c.lanes (fun i => packed w n (fun k => (e (c.elem w a i k)).1)) t
         flags := flagsOver c.lanes n (fun i k => (e (c.elem w a i k)).2) }
     Does (.neg g d a) s c (R (fun x => (f.negBits x, 0))) ∧ Does (.abs g d a) s c (R (fun x => (f.absBits x, 0))) ∧
     Does (.floor g d a) s c (R (f.toIntegral .rdn false)) ∧ Does (.ceil g d a) s c (R (f.toIntegral .rup false)) ∧
     Does (.trunc g d a) s c (R (f.toIntegral .rtz false)) ∧ Does (.rint g d a) s c (R (f.toIntegral c.rm true)) ∧
     Does (.fract g d a) s c (R (f.fract c.rm)) ∧
     (t = .f32 ∨ t = .f64 ∨ t = .bf16x2 ∨ t = .f16x2 →
       Does (.rcp g d a) s c (R (f.rcp c.rm)) ∧ Does (.rsq g d a) s c (R (f.rsq c.rm)) ∧
       Does (.sqrt g d a) s c (R (f.sqrt c.rm)) ∧ Does (.exp2 g d a) s c (R (f.exp2 c.rm)) ∧
       Does (.log2 g d a) s c (R (f.log2 c.rm)))) ∧
  (∀ (s : State) (c : Cx) (g : Guard) (d a : Code) (t : Tag) (i : Instr),
     Issues s c g → Bare c → c.lanes ≠ 0 → Holds c a t → Accepts c d t →
     let float : Prop := t = .f32 ∨ t = .f64 ∨ t = .bf16x2 ∨ t = .f16x2
     let int : Prop := isInt32 t = true ∨ t = .s64 ∨ t = .n64
     let takes : Prop :=
       (i ∈ [Instr.neg g d a, .abs g d a] ∧ elemOf t ≠ none) ∨
       (i ∈ [Instr.rcp g d a, .rsq g d a, .sqrt g d a, .exp2 g d a, .log2 g d a] ∧ float) ∨
       (i ∈ [Instr.floor g d a, .ceil g d a, .trunc g d a, .rint g d a, .fract g d a] ∧
         (float ∨ t = .e4m3x4 ∨ t = .e5m2x4)) ∨
       (i ∈ [Instr.popc g d a, .clz g d a, .brev g d a] ∧ int) ∨ (i = .not g d a ∧ t ≠ .void)
     takes → ∃ o, Does i s c o)

/-- Special operands of RCP, RSQ, SQRT, EXP2, LOG2 and FRACT in every format that they take (R129 of 07), with the NaN
inputs. -/
def Obligations.SpecialOperands : Prop :=
  ∀ (f : Fmt) (rm : Rm), (f = fmtF32 ∨ f = fmtF64 ∨ f = fmtBF16 ∨ f = fmtF16) →
    let neg (x : Nat) : Nat := f.signBit + x
    let one : Nat := f.bias * 2 ^ f.fb
    let bad : Nat × Word := (f.nan, fNV)
    (f.rcp rm (neg f.infBits) = (neg 0, 0) ∧ f.rcp rm (neg 0) = (neg f.infBits, fDZ) ∧
      f.rcp rm 0 = (f.infBits, fDZ) ∧ f.rcp rm f.infBits = (0, 0)) ∧
    (f.rsq rm (neg f.infBits) = bad ∧ f.rsq rm (neg 0) = (neg f.infBits, fDZ) ∧ f.rsq rm 0 = (f.infBits, fDZ) ∧
      f.rsq rm f.infBits = (0, 0)) ∧
    (f.sqrt rm (neg f.infBits) = bad ∧ f.sqrt rm (neg 0) = (neg 0, 0) ∧ f.sqrt rm 0 = (0, 0) ∧
      f.sqrt rm f.infBits = (f.infBits, 0)) ∧
    (f.exp2 rm (neg f.infBits) = (0, 0) ∧ f.exp2 rm (neg 0) = (one, 0) ∧ f.exp2 rm 0 = (one, 0) ∧
      f.exp2 rm f.infBits = (f.infBits, 0)) ∧
    (f.log2 rm (neg f.infBits) = bad ∧ f.log2 rm (neg 0) = (neg f.infBits, fDZ) ∧ f.log2 rm 0 = (neg f.infBits, fDZ) ∧
      f.log2 rm f.infBits = (f.infBits, 0) ∧ f.log2 rm one = (0, 0)) ∧
    (f.fract rm (neg f.infBits) = bad ∧ f.fract rm (neg 0) = (0, 0) ∧ f.fract rm 0 = (0, 0) ∧
      f.fract rm f.infBits = bad) ∧
    (∀ x m e, f.decode x = .fin true m e → m ≠ 0 → f.rsq rm x = bad ∧ f.sqrt rm x = bad ∧ f.log2 rm x = bad) ∧
    (∀ x sig, f.decode x = .nan sig →
      let q : Nat × Word := (f.nan, if sig then fNV else 0)
      f.rcp rm x = q ∧ f.rsq rm x = q ∧ f.sqrt rm x = q ∧ f.exp2 rm x = q ∧ f.log2 rm x = q ∧ f.fract rm x = q)

/-- Rounding (R112): of an exact value `±m·2^e` no larger than the largest finite one, RNE gives the nearest value of
the format, the one with an even last bit where two are equally near; RTZ, RDN and RUP give the neighbour on their
side, so that no value of the format lies between. NX is set when the result differs (R113). -/
def Obligations.RoundingModes : Prop :=
  ∀ (f : Fmt) (rm : Rm) (neg : Bool) (m : Nat) (e : Int),
    (f = fmtF32 ∨ f = fmtF64 ∨ f = fmtBF16 ∨ f = fmtF16 ∨ f = fmtE4M3 ∨ f = fmtE5M2) →
    ∀ top, (f.decode f.maxBits).value = some top →
    let x : Rat := (if neg then -1 else 1) * (m : Rat) * (2 : Rat) ^ e
    x ≤ top → -top ≤ x →
    let r := f.round rm neg m e false
    ∃ y, (f.decode r.1).value = some y ∧
      (r.2 &&& fNX = 0 ↔ y = x) ∧
      (∀ b z, (f.decode b).value = some z →
        match rm with
        | .rne => (y - x).abs ≤ (z - x).abs ∧ ((y - x).abs = (z - x).abs → z ≠ y → r.1 % 2 = 0)
        | .rtz => (0 ≤ x → y ≤ x ∧ (z ≤ x → z ≤ y)) ∧ (x ≤ 0 → x ≤ y ∧ (x ≤ z → y ≤ z))
        | .rdn => y ≤ x ∧ (z ≤ x → z ≤ y)
        | .rup => x ≤ y ∧ (x ≤ z → y ≤ z))

/-- MOV, MOVI, GTAG, STAG, MOVP and PMOV (R142, R143 of 07). GTAG reads any tag, VOID included; STAG keeps every bit;
a predicate write to p7 is discarded, as `Results` says of every word. MOVI (R142 of 07, R23): fifteen bits
sign-extended, or with HIMM the exact 32 bits; tag s32. -/
def Obligations.Moves : Prop :=
  (∀ (s : State) (c : Cx) (g : Guard) (d a : Code) (n : BitVec 3),
     Issues s c g → Bare c → c.lanes ≠ 0 →
     (∀ t, t ≠ .void → Holds c a t → Accepts c d t →
       let side := if isBfp t then some (c.side a) else none
       Does (.mov g d a) s c { regs := outOf d c.lanes (c.valOf a) t side }) ∧
     (oneOk c.g.quota d = true →
       (oneOk c.g.quota a = true →
         Does (.gtag g d a) s c { regs := [out32 d c.lanes (fun _ => BitVec.ofNat 32 (tagCode (c.tag a))) .n32] }) ∧
       Does (.movp g d n) s c { regs := [out32 d c.lanes (fun _ => c.g.pred n.toNat) .n32] }) ∧
     (∀ u, isInt32 u → Holds c a u →
       Does (.pmov g a n) s c { preds := [(n.toNat, c.lanes, maskOf (fun i => hasBit (c.val a i) i))] } ∧
       (∀ t, isVec a = false → codeTag (c.val a 0).toNat = some t → Accepts c d t → 
         Does (.stag g d a) s c { regs := (List.range (if wide t then 2 else 1)).map (fun j =>
           let r := up d j
           let side := if isBfp t then some 0 else none
           out32 r c.lanes (fun i => c.g.bitsAt r i) t side) }))) ∧
  ((∀ (s : State) (c : Cx) (g : Guard) (d : Code) (im : BitVec 15),
      Issues s c g → c.p.hrcv = none → c.p.hmod = none → c.lanes ≠ 0 → oneOk c.g.quota d = true →
      (c.p.himm = none →
        Does (.movi g d im) s c { regs := [out32 d c.lanes (fun _ => im.signExtend 32) .s32] }) ∧
      (∀ h : BitVec 17, c.p.himm = some (h.setWidth 22) →
        Does (.movi g d im) s c { regs := [out32 d c.lanes (fun _ => (h ++ im : BitVec 32)) .s32] })) ∧
   (∀ (g : Guard) (d : Code) (im : BitVec 15), decodeWord (0x13#6 ++ g ++ d ++ im) = .row (.movi g d im)))

/-- NTTP.X, NTTP.BR and SPLIT (R144, R139 of 08): a lane whose partner takes no part keeps its value; NTTP.X writes the lanes
that exchange and no other, of a uniform register the lowest enabled one where it does. SPLIT (R139 of
08): block `j` of a BFP register expanded to two f32 registers, elements 2i and 2i+1. -/
def Obligations.LaneExchanges : Prop :=
  (∀ (s : State) (c : Cx) (g : Guard) (d a : Code) (k : BitVec 4) (t : Tag),
     Issues s c g → Bare c → c.lanes ≠ 0 → k.toNat ≤ 4 → t ≠ .void → isBfp t = false → Holds c a t →
     (d ≠ a → Holds c d t →
       let h := 2 ^ k.toNat
       let both (i : Nat) : Bool := hasBit c.lanes i && hasBit c.lanes (i ^^^ h)
       let into (r : Code) : Word := maskOf (fun i => both i && (isVec r || some i == lowest c.lanes))
       let toD (i : Nat) : Nat := if i / h % 2 = 1 then c.valOf a (i ^^^ h) else c.valOf d i
       let toA (i : Nat) : Nat := if i / h % 2 = 0 then c.valOf d (i ^^^ h) else c.valOf a i
       Does (.nttpX g d a k) s c { regs := outOf d (into d) toD t ++ outOf a (into a) toA t }) ∧
     (Accepts c d t →
       let rev (i : Nat) : Nat := i / 2 ^ k.toNat * 2 ^ k.toNat + packed 1 k.toNat (fun j => i / 2 ^ (k.toNat - 1 - j))
       Does (.nttpBr g d a k) s c { regs := outOf d c.lanes (fun i =>
         if hasBit c.lanes (rev i) then c.valOf a (rev i) else c.valOf a i) t })) ∧
  (∀ (s : State) (c : Cx) (g : Guard) (d a : Code) (j : BitVec 3) (m : Nat),
     Issues s c g → Bare c → c.lanes ≠ 0 → oneOk c.g.quota a = true → oneOk c.g.quota d = true →
     pairOk c.g.quota d = true → bfpWidth (c.tag a) = some m → j.toNat < 32 / (2 * m) →
     let E := (c.side a).toNat / 2 ^ (8 * j.toNat) % 256
     let e (hi i : Nat) : Nat × Word :=
       bfpExpand m E ((c.val a i).toNat / 2 ^ (2 * m * j.toNat + m * hi) % 2 ^ m)
     Does (.split g d a j) s c
       { regs := [out32 d c.lanes (fun i => BitVec.ofNat 32 (e 0 i).1) .f32,
                  out32 (up d 1) c.lanes (fun i => BitVec.ofNat 32 (e 1 i).1) .f32]
         flags := joinFlags ((lanesOf c.lanes).map (fun i => (e 0 i).2 ||| (e 1 i).2)) })

/-- What the front end checks of an arithmetic word on vector lanes, in its order (R18, R19, R128 of 07, R126): no
lane, no check and no effect; a code at or above the quota is ILLEGAL; a VOID operand is FMT_VOID; tags that differ or
are not accepted are TAG_MISMATCH. -/
def Obligations.ArithmeticChecks : Prop :=
  ∀ (s : State) (c : Cx) (g : Guard) (d a b : Code) (i : Instr), Issues s c g → Bare c →
    i ∈ [Instr.add g d a b, .addSat g d a b, .sub g d a b, .subSat g d a b, .mul g d a b, .mulHi g d a b, .min g d a b,
         .minNan g d a b, .max g d a b, .maxNan g d a b] →
    (c.lanes = 0 → Does i s c {}) ∧
    (c.lanes ≠ 0 → (∃ r ∈ [d, a, b], oneOk c.g.quota r = false) → Traps i s c cIllegal) ∧
    (c.lanes ≠ 0 → (∀ r ∈ [d, a, b], oneOk c.g.quota r = true) →
      wide (c.tag a) = false → wide (c.tag b) = false →
      (c.tag a = .void ∨ c.tag b = .void → Traps i s c cVoid) ∧
      (c.tag a ≠ .void → c.tag b ≠ .void → (c.tag a ≠ c.tag b ∨ elemOf (c.tag a) = none) → Traps i s c cMismatch))

/-! ### Memory and the scratchpad window (05_registers_tags_access.md, 10, 11) -/

/-- LD, LDU and LDA (R105, R172): the addresses aligned, translated and read, the destination takes the bytes read,
with the tag of the load kind; nothing else of the group changes; the time that an LD took is measured (R277). They complete
where every lane's address is mapped and its word can be read at once. LDU reads once, for the lowest live lane. LDS, and
LDU of a window address (R75, R77, R105): every lane's bytes lie in one allocation; they are read little-endian and
nothing else changes. -/
def Obligations.WindowAndMemoryLoads : Prop :=
  (∀ (s s₁ s₂ : State) (c : Cx) (g : Guard) (d a : Code) (k o : BitVec 4) (t : Tag) (ps : List (Nat × Place))
     (xs : List (Nat × Nat)),
     Tries s c g → Addressed c → Alive s c → isAddr t → Holds c a t → s₁.given.deferAccess = false →
     let core := keyCore c.key
     (∀ m addr n, m ≠ 0 → addr = c.address a o (loadSize k) → n = loadSize k →
       (∀ i, hasBit m i → addr i % n = 0) → spanOk c.g.quota (loadRegs k) d = true →
       placeLanes c (laneAddrs m addr) wantRead s = .ok ps s₁ →
       tryLanes ps (fun p => atPlace p (loadPlain core (c.policy p.cp) p.home n)) s₁ = .ok xs s₂ →
       (k = 14 → ∀ i, hasBit m i → atLane xs 0 i < c.g.q.toNat) →
       (m = c.lanes →
         DoesAfter (.ld g d a k o) s (s₂.measureLoad c.key.die (some c.since)) c { regs := loadOuts k d m (atLane xs 0) }) ∧
       (c.takes = true → isVec d = false → isVec a = false → lowest c.live = lowest m → m = laneBit ((lowest m).getD 0) →
         DoesAfter (.ldu g d a k o) s s₂ c { regs := loadOuts k d m (atLane xs 0) })) ∧
     (∀ (sc : BitVec 2) (w : BitVec 1), c.p.himm = none → c.lanes ≠ 0 →
       let n := if w = 1 then 8 else 4
       (∀ i, hasBit c.lanes i → c.val64 a i % n = 0) → spanOk c.g.quota (n / 4) d = true →
       placeLanes c (laneAddrs c.lanes (c.val64 a)) wantRead s = .ok ps s₁ →
       tryLanes ps (fun p => readPlace core (scopeOf sc.toNat) (c.policy p.cp) p n) s₁ = .ok xs s₂ →
       DoesAfter (.lda g d a sc w) s s₂ c { regs := loadOuts (if w = 1 then 12 else 6) d c.lanes (atLane xs 0) })) ∧
  (∀ (s : State) (c : Cx) (g : Guard) (d a : Code) (k o : BitVec 4) (t : Tag),
     Tries s c g → Addressed c → Alive s c → isAddr t → Holds c a t → s.given.deferAccess = false →
     (∀ m, m ≠ 0 → k ≠ 14 → spanOk c.g.quota (loadRegs k) d = true →
       let addr := c.address a o (loadSize k)
       (∀ i, hasBit m i → addr i % loadSize k = 0 ∧ AtHand s c wantRead (addr i)) →
       (m = c.lanes → ∃ s' x, DoesAfter (.ld g d a k o) s s' c { regs := loadOuts k d m x }) ∧
       (c.takes = true → isVec d = false → isVec a = false → lowest c.live = lowest m → m = laneBit ((lowest m).getD 0) →
         ∃ s' x, DoesAfter (.ldu g d a k o) s s' c { regs := loadOuts k d m x })) ∧
     (∀ (sc : BitVec 2) (w : BitVec 1), c.p.himm = none → c.lanes ≠ 0 →
       let n := if w = 1 then 8 else 4
       spanOk c.g.quota (n / 4) d = true →
       (∀ i, hasBit c.lanes i → c.val64 a i % n = 0 ∧ AtHand s c wantRead (c.val64 a i)) →
       ∃ s' x, DoesAfter (.lda g d a sc w) s s' c { regs := loadOuts (if w = 1 then 12 else 6) d c.lanes x })) ∧
  (∀ (s : State) (c : Cx) (g : Guard) (d a : Code) (k o : BitVec 4) (t : Tag) (m : Word) (W : Nat → Workgroup × Nat),
     Issues s c g → Addressed c → (∀ h, c.p.hmod = some h → bitsOf h.toNat 16 3 = 0 ∧ bitsOf h.toNat 13 3 = 0) →
     Alive s c → isInt32 t → Holds c a t → spanOk c.g.quota (loadRegs k) d = true → m ≠ 0 →
     let n := loadSize k
     let x (i : Nat) : Nat := if hasBit m i then readLE (W i).1.scr (W i).2 n else 0
     (∀ i, hasBit m i → c.windowAddress a o n i % n = 0 ∧
       windowFor s c.g.launch c.g.wg (c.windowAddress a o n i) n = some (W i)) →
     (k = 14 → ∀ i, hasBit m i → x i < c.g.q.toNat) →
     (m = c.lanes → Does (.lds g d a k o) s c { regs := loadOuts k d m x }) ∧
     (c.takes = true → isVec d = false → isVec a = false → m = laneBit ((lowest c.live).getD 0) →
       Does (.ldu g d a k o) s c { regs := loadOuts k d m x }))

/-- LDA.PKG.P and LDA.SYS.P (R178): once every core of the domain has acknowledged and package time has passed the
largest time that came back, the word reads as an LDA does. -/
def Obligations.PromotingLoad : Prop :=
  ∀ (s : State) (c : Cx) (g : Guard) (d a : Code) (sc w : BitVec 1) (t u : Tag) (cores : List CoreId) (x : Promoting),
    Tries s c g → Addressed c → c.p.himm = none → Alive s c → c.g.single = none → c.lanes ≠ 0 →
    isAddr t → Holds c a t → 96 ≤ a.toNat → a.toNat ≤ 124 → c.tag (up a 2) = u → isInt32 u →
    let n := if w = 1 then 8 else 4
    let kind : BitVec 4 := if w = 1 then 12 else 6
    let addrs := laneAddrs c.lanes (c.val64 a)
    spanOk c.g.quota (n / 4) d = true → domainCores (c.val (up a 2) 0).toNat = some cores →
    (∀ i, hasBit c.lanes i → c.val64 a i % n = 0) → x.waiting = [] →
    (∀ (s₁ s₂ s₃ : State) (ps qs : List (Nat × Place)) (xs : List (Nat × Nat)), placeLanes c addrs wantRead s = .ok ps s₁ →
      (pathNow s₁ c).promo = some x → x.latest < s₁.now →
      placeLanes c addrs wantRead s₁ = .ok qs s₂ → s₂.given.deferAccess = false →
      tryLanes qs (fun p => readPlace (keyCore c.key) (if sc = 1 then .sys else .pkg) (c.policy p.cp) p n) s₂ = .ok xs s₃ →
      DoesAfter (.ldaP g d a sc w) s s₃ c { regs := loadOuts kind d c.lanes (atLane xs 0) }) ∧
    (c.p.promo = some x → x.latest < s.now → s.given.deferAccess = false →
      (∀ i, hasBit c.lanes i → AtHand s c wantRead (c.val64 a i)) →
      ∃ s' y, DoesAfter (.ldaP g d a sc w) s s' c { regs := loadOuts kind d c.lanes y })

/-- STL (R173): every lane's address translated, then the release of its scope once, then every point of the store
reached, then the stores at the point of its scope, and last the basting log brought up to date with them (R174); no register
changes. It completes at once where nothing of the core waits to be pushed or to pass, and every lane's word can be written. -/
def Obligations.OrderedStore : Prop :=
  ∀ (s : State) (c : Cx) (g : Guard) (d a : Code) (sc : BitVec 2) (w : BitVec 1) (t : Tag),
    Tries s c g → Addressed c → c.p.himm = none → Alive s c → c.lanes ≠ 0 → isAddr t → Holds c a t →
    let n := if w = 1 then 8 else 4
    spanOk c.g.quota (n / 4) d = true → (∀ r ∈ spanOf d (n / 4), c.tag r ≠ .void) → c.dataTag d (n / 4) = true →
    (∀ i, hasBit c.lanes i → c.val64 a i % n = 0) →
    let scope := scopeOf sc.toNat
    (∀ (s₁ s₂ s₃ s₄ s₅ : State) (ps : List (Nat × Place)),
      let done (p : Path) : Path := { p with placed := some [] }
      stlPlaces c (c.val64 a) s = .ok ps s₁ → (∀ x ∈ wordsOf ps, promoHolds s₁ (keyCore c.key) x = false) →
      releaseActions c scope s₁ = .ok () s₂ →
      readyAt (keyCore c.key) (ps.map (fun x => ((c.policy x.2.cp).reaches scope, x.2.home / 32))) s₂ = .ok () s₃ →
      stlWrite c d scope n (n / 4) ps s₃ = .ok () s₄ → (changePath c done >>= fun _ => releaseLog c scope) s₄ = .ok () s₅ →
      DoesAfter (.stl g d a sc w) s s₅ c {}) ∧
    (Calm s c → (∀ i, hasBit c.lanes i → AtHand s c wantWrite (c.val64 a i)) →
      ∃ s', DoesAfter (.stl g d a sc w) s s' c {})

/-- The atomics and reductions (R152-R156): a word whose lanes are all performed gives each lane the old value, with
the data's tag (ATOM), or nothing (RED); each of the eighteen completes where nothing of the core waits to be pushed and
every lane's word can be read and written at once. What an atomic writes at an address from the old value `x`, the data `y` and
for CAS the compare value `z` (R153), and the lanes of one address in ascending order, each seeing what the one before
has left (R155; float ADD apart). -/
def Obligations.Atomics : Prop :=
  (∀ (s : State) (c : Cx) (g : Guard) (d a : Code) (sc : BitVec 2) (w : BitVec 1) (t u : Tag) (op : AtomOp),
     Tries s c g → Addressed c → c.p.himm = none → Alive s c → c.lanes ≠ 0 → s.given.deferAccess = false →
     isAddr t → Holds c a t → op.takes (w == 1) u = true → spanOk c.g.quota (op.regs w) d = true →
     (∀ r ∈ spanOf d (op.regs w), c.tag r = u) →
     let both (s' : State) (olds : Nat → Nat) : Prop :=
       let A : Out := { regs := outOf d c.lanes olds u }
       let pair (atom red : Guard → Code → Code → BitVec 1 → BitVec 2 → Instr) : Prop :=
         DoesAfter (atom g d a w sc) s s' c A ∧ DoesAfter (red g d a w sc) s s' c {}
       match op with
       | .add => pair .atomAdd .redAddScope
       | .min => pair .atomMin .redMinScope
       | .max => pair .atomMax .redMaxScope
       | .and => pair .atomAnd .redAndScope
       | .or => pair .atomOr .redOrScope
       | .xor => pair .atomXor .redXorScope
       | .exch => pair .atomExch .redExchScope
       | .cas => pair .atomCas .redCasScope
       | .incw => pair .atomIncw .redIncwScope
     (∀ s' olds, atomRun c op (scopeOf sc.toNat) d a w s = .ok olds s' → both s' (atLane olds 0)) ∧
     (Calm s c → (∀ i, hasBit c.lanes i → c.val64 a i % wordSize w = 0 ∧ AtHand s c wantWrite (c.val64 a i)) →
       ∃ s' olds, both s' olds)) ∧
  ((∀ (t : Tag) (x y z : Nat), x < 2 ^ tagBits t → y < 2 ^ tagBits t →
     AtomOp.exch.apply t x z y = y ∧ AtomOp.cas.apply t x z y = (if x = z then y else x) ∧
     AtomOp.and.apply t x z y = x &&& y ∧ AtomOp.or.apply t x z y = x ||| y ∧ AtomOp.xor.apply t x z y = x ^^^ y ∧
     AtomOp.incw.apply t x z y = (if x ≥ y then 0 else x + 1) ∧
     (isFloatTag t = false → AtomOp.add.apply t x z y = (x + y) % 2 ^ tagBits t) ∧
     (∀ sgn, elemOf t = some (tagBits t, 1, .int sgn) →
       let v := intOf sgn (tagBits t)
       v (AtomOp.min.apply t x z y) = min (v x) (v y) ∧ v (AtomOp.max.apply t x z y) = max (v x) (v y))) ∧
   (∀ (o : AtomOp) (t : Tag) (data : Nat → Nat × Nat) (x i : Nat) (ls : List Nat), ¬ (o = .add ∧ isFloatTag t) →
     combine o t data x [] = (x, []) ∧
     combine o t data x (i :: ls) =
       ((combine o t data (o.apply t x (data i).1 (data i).2) ls).1,
        (i, x) :: (combine o t data (o.apply t x (data i).1 (data i).2) ls).2)))

/-- The fences (R162, R167, R174). CORE and DIE log what the core has stored; PKG and SYS empty the log as their
pushes are made; a fence that pushes completes once package time has passed the times that it waits for: by the model's
choice (log entry 69, DEDUCED) the times as they stood when its pushes were made, `awaits`, whatever the core's times are by
then. The wait of a PACKAGE fence is measured (R277). TFENCE pushes without waiting; ORF finds every earlier result landed. Each
completes at once where nothing of the core waits to be pushed or to pass. -/
def Obligations.Fences : Prop :=
  ∀ (s s' : State) (c : Cx) (g : Guard) (T : Nat),
    Tries s c g → Bare c → c.takes = true → Alive s c →
    let core := keyCore c.key
    let log := logStored core c.g.world s = .ok () s'
    let took (t : State) : State := t.measure c.key.die 6 (s.now - c.since)
    (narrowHeld s core = false → log → DoesAfter (.fenceCore g) s s' c {}) ∧
    (narrowHeld s core = false → c.p.awaits = some T → T < s.now → log → DoesAfter (.fenceDie g) s s' c {}) ∧
    (c.p.awaits = some T → T < s.now →
      DoesAfter (.fencePkg g) s (took s) c {} ∧ Does (.fenceSys g) s c {}) ∧
    (c.p.awaits = none → (s.core core).dirty = [] → rdcOwn s core = [] →
      (s.core core).cw < s.now → (s.core core).cd < s.now → c.g.wct < s.now →
      ∃ s₁ : State, (s₁.core core).log = [] ∧ (s₁.core core).stored = [] ∧ s₁.mem = s.mem ∧
        DoesAfter (.fencePkg g) s (took s₁) c {} ∧ DoesAfter (.fenceSys g) s s₁ c {}) ∧
    (pushCoreHome core s = .ok () s' → DoesAfter (.fenceTfence g) s s' c {}) ∧
    (Calm s c → ∀ i ∈ [Instr.fenceCore g, .fenceDie g, .fencePkg g, .fenceSys g, .fenceTfence g],
      ∃ s₁, DoesAfter i s s₁ c {}) ∧
    Does (.fenceOrf g) s c {}

/-! ### Control flow (13_control_flow.md) -/

/-- BRA, CALL and JMPF (R193): the path goes to the target, CALL leaves the return address in v15 of every live lane.
With the guard false in every live lane the word does nothing; where live lanes disagree it traps NONUNIFORM (R11). -/
def Obligations.UniformTransfers : Prop :=
  ∀ (s : State) (c : Cx) (g : Guard) (im : BitVec 22) (f : BitVec 15), Issues s c g → Bare c → c.live ≠ 0 →
    let t : Word := c.p.pc + 4 + (4 : Word) * im.signExtend 32
    let u : Word := (4 : Word) * f.setWidth 32
    (c.live &&& ~~~c.grd = 0 →
      (landed s (keyCore c.key) c.g.world t = true →
        Does (.bra g im) s c { go := .jump t } ∧
        Does (.call g im) s c { regs := [out32 15 c.live (fun _ => c.p.pc + 4) .n32], go := .jump t }) ∧
      (landed s (keyCore c.key) c.g.world u = true → Does (.jmpf g f) s c { go := .jump u }) ∧
      (landed s (keyCore c.key) c.g.world t = false →
        exec (.bra g im) s = .next
          (raise s c.g c.sl c.p { code := cSegAbsent, addr := t.toNat, lane := none, mask := 0 }))) ∧
    (c.live &&& c.grd = 0 → Does (.bra g im) s c {} ∧ Does (.call g im) s c {} ∧ Does (.jmpf g f) s c {}) ∧
    (c.live &&& c.grd ≠ 0 → c.live &&& ~~~c.grd ≠ 0 →
      Traps (.bra g im) s c cNonuniform ∧ Traps (.call g im) s c cNonuniform ∧ Traps (.jmpf g f) s c cNonuniform)

/-- BRD (R188, R194): no lane, no effect; every live lane, the path moves; else it gives way to two children, the one
with the lowest enabled lane created last, under a join at the reconvergence point that HRCV names (R24). Divergence
of a path whose group has no other entry (R185, R188): both children stand in the slots, the one created last in slot
0, with the parent's priority. With a reconvergence point a join is created before them (R186, R188): at that PC, with
ARR = 0, PEND the parent's lanes, the parent's priority and reconvergence point; the children reconverge there, and the
entry's bytes stand in the group's spill area. The word completes in both cases. -/
def Obligations.DivergentBranch : Prop :=
  (∀ (s s₁ : State) (c : Cx) (g : Guard) (im : BitVec 22) (g' : Group),
     Issues s c g → c.p.himm = none → c.p.hmod = none →
     let t := c.en &&& c.grd
     let n := c.live &&& ~~~t
     let target : Word := c.p.pc + 4 + (4 : Word) * im.signExtend 32
     let rejoin : Option Word := c.p.hrcv.map (fun o => c.p.pc + 4 + (4 : Word) * o.signExtend 32)
     let kids : List (Word × Word) := match lowest c.en with
       | some i => if hasBit t i then [(c.p.pc + 4, n), (target, t)] else [(target, t), (c.p.pc + 4, n)]
       | none => []
     (t = 0 → Does (.brd g im) s c {}) ∧
     (t ≠ 0 → landed s (keyCore c.key) c.g.world target = true →
       (n = 0 → Does (.brd g im) s c { go := .jump target }) ∧
       (n ≠ 0 → diverge c.g c.sl c.p kids rejoin s = .ok g' s₁ →
         DoesAfter (.brd g im) s (s₁.setGroup (keepWct s₁ g')) c { go := .moved }) ∧
       (n ≠ 0 → c.g.slot (!c.sl) = none → c.g.spill = [] →
         rejoin = none ∨ (Alive s c ∧ (s.core (keyCore c.key)).dirty = [] ∧
           ∃ h, Mapped s (keyCore c.key) c.g.world wantWrite c.g.spillPtr.toNat h ∧ h % 32 = 0) →
         ∃ s', DoesAfter (.brd g im) s s' c { go := .moved }))) ∧
  (∀ (s : State) (g : Group) (sl : Bool) (p : Path) (t u m n : Word),
     g.routine = .normal → g.slot sl = some p → g.slot (!sl) = none → g.spill = [] →
     ∃ g', diverge g sl p [(t, m), (u, n)] none s = .ok g' s ∧
       g'.slot0 = some (Path.make u n p.pri p.rpc (g.nextStamp + 1)) ∧
       g'.slot1 = some (Path.make t m p.pri p.rpc g.nextStamp) ∧ g'.spill = [] ∧ g'.nextStamp = g.nextStamp + 2 ∧
       ∀ r i, g'.bitsAt r i = g.bitsAt r i) ∧
  (∀ (s : State) (g : Group) (sl : Bool) (p : Path) (t u m n r : Word) (h : Nat) (w : World),
     let core := keyCore g.key
     let join : Entry := { join := true, pc := r, mask := 0, pend := p.live, pri := p.pri, rpc := p.rpc }
     g.routine = .normal → g.slot sl = some p → g.slot (!sl) = none → g.spill = [] →
     s.world g.world = some w → w.failed = false → memoryWf s.mem = true → CachesWf s → (s.core core).dirty = [] →
     Mapped s core g.world wantWrite g.spillPtr.toNat h → h % 32 = 0 →
     ∃ g' s', diverge g sl p [(t, m), (u, n)] (some r) s = .ok g' s' ∧
       g'.spill = [{ stamp := g.nextStamp, entry := join, path := none }] ∧
       g'.slot0 = some (Path.make u n p.pri (some r) (g.nextStamp + 2)) ∧
       g'.slot1 = some (Path.make t m p.pri (some r) (g.nextStamp + 1)) ∧ g'.nextStamp = g.nextStamp + 3 ∧
       (∀ i < 32, seen s' core (h + i) = BitVec.ofNat 8 (entryBits join / 256 ^ i)) ∧ ∀ r i, g'.bitsAt r i = g.bitsAt r i)

/-- JMPI, CALLI and RET with one target for every lane that moves (R194, R195): the path goes there; JMPI and CALLI
ask for a LAND word; RET moves all of L, the others the lanes of L ∧ em ∧ guard; CALLI links. PPRI, YIELD, SETEM and
GETEM (R190, R196): the path's priority, its last place in creation order, the bits of em of live lanes, and these
read back. -/
def Obligations.JumpsAndPathWords : Prop :=
  (∀ (s : State) (c : Cx) (g : Guard) (d a : Code) (t : Tag) (x : Word), Issues s c g → Bare c → isInt32 t → Holds c a t →
     oneOk c.g.quota d = true → c.live ≠ 0 →
     let on := c.en &&& c.grd
     (on = 0 → Does (.jmpi g a) s c {} ∧ Does (.calli g d a) s c {}) ∧
     ((∀ i, hasBit c.live i → c.val a i = x) → x.toNat % 4 = 0 → landed s (keyCore c.key) c.g.world x = true →
       (c.takes = true → Does (.ret g a) s c { go := .jump x }) ∧
       (on = c.live → isLandAt s (keyCore c.key) x = true →
         Does (.jmpi g a) s c { go := .jump x } ∧
         Does (.calli g d a) s c { regs := [out32 d on (fun _ => c.p.pc + 4) .n32], go := .jump x }))) ∧
  (∀ (s : State) (c : Cx) (g : Guard) (n : BitVec 4) (d a : Code) (t : Tag), Issues s c g → Bare c → c.takes = true →
     c.g.single = none →
     let put (f : Path → Path) : State := s.setGroup (c.g.setSlot c.sl (some (f c.p)))
     DoesAfter (.ppri g n) s (put (fun p => { p with pri := n })) c {} ∧
     DoesAfter (.yield g) s
       (put (fun p => { p with stamp := leastStamp c.g - 1, yielded := portRivals s c.key c.sl p.pri })) c {} ∧
     (isVec d = false → Does (.getem g d) s c { regs := [out32 d c.live (fun _ => c.g.em &&& c.live) .n32] }) ∧
     (isVec a = false → isInt32 t → c.tag a = t →
       DoesAfter (.setem g a) s
         (s.setGroup { c.g with em := (c.g.em &&& ~~~c.live) ||| (c.val a 0 &&& c.live) }) c {}))

/-- CFETCH, CWAIT and CDROP on a slot that the world holds (R191, R197): CFETCH makes an ABSENT slot FETCHING from the
translated address, CWAIT goes on when nothing is being fetched, CDROP makes the slot ABSENT. -/
def Obligations.CodeSegments : Prop :=
  ∀ (s s₁ : State) (c : Cx) (g : Guard) (d a : Code) (t u : Tag) (o : OverlaySlot) (p : Place),
    Tries s c g → Bare c → c.takes = true → c.g.single = none → Alive s c → isVec d = false → c.tag d = t → isInt32 t →
    let core := keyCore c.key
    let n := (c.val d 0).toNat
    n ≤ 31 → lookupN (s.core core).overlay n = some o → o.world = some c.g.world →
    (o.state ≠ .fetching →
      Does (.cwait g d) s c {} ∧
      DoesAfter (.cdrop g d) s (setOverlay s core n { o with state := .absent, bytes := [] }) c {}) ∧
    (o.state = .absent → isVec a = false → isAddr u → Holds c a u → c.val64 a 0 % 4096 = 0 →
      translate (groupAsker s c.g (c.p.unitPc.getD c.p.pc)) (c.val64 a 0) wantExec s = .ok p s₁ →
      DoesAfter (.cfetch g d a) s (setOverlay s₁ core n
        { o with state := .fetching, src := BitVec.ofNat 64 (c.val64 a 0), by_ := some (c.g.issuer s₁), frame := some p
                 initial := false }) c {}) ∧
    (∀ h, o.state = .absent → isVec a = false → isAddr u → Holds c a u → c.val64 a 0 % 4096 = 0 →
      Mapped s core c.g.world wantExec (c.val64 a 0) h →
      ∃ f : Place, f.home = h ∧ DoesAfter (.cfetch g d a) s (setOverlay s core n
        { o with state := .fetching, src := BitVec.ofNat 64 (c.val64 a 0), by_ := some (c.g.issuer s), frame := some f
                 initial := false }) c {})

/-! ### Synchronisation and scheduling (14, 15) -/

/-- BARI, BARA, BARW and BART (R199, R201-R204): the count that meets the expected one completes the phase; BARA
returns the phase before its arrival; BARW goes on once the phase has completed, and its predicate tells of a phase
long past. -/
def Obligations.Barriers : Prop :=
  ∀ (s s₁ : State) (c : Cx) (g : Guard) (d a : Code) (n : BitVec 3) (b : BitVec 4) (t : Tag),
    Tries s c g → Bare c → c.takes = true → c.g.single = none → isVec d = false → isVec a = false → c.tag a = t →
    isInt32 t →
    let x := barrierOf s c.g.launch c.g.wg b.toNat
    let v := (c.val a 0).toNat
    let arrived : Barrier :=
      if x.expect ≤ x.count + v then { x with phase := x.phase + 1, count := x.count + v - x.expect }
      else { x with count := x.count + v }
    let token : Out := { regs := [out32 d 1 (fun _ => x.phase.setWidth 32) .n32] }
    let gap := (x.phase - BitVec.ofNat 16 v).toNat
    let waited (old : Word) : Out := { preds := [(n.toNat, c.live, old)] }
    (1 ≤ v → v ≤ 65535 → DoesAfter (.bari g a b) s (setBarrier s c.g.launch c.g.wg b.toNat
      (if v ≤ x.count then { phase := x.phase + 1, expect := v, count := 0 } else { x with expect := v })) c {}) ∧
    (v = 0 → DoesAfter (.bara g d a b) s (setBarrier s c.g.launch c.g.wg b.toNat arrived) c token) ∧
    (0 < v → v ≤ x.expect → narrowHeld s (keyCore c.key) = false →
      logStored (keyCore c.key) c.g.world s = .ok () s₁ →
      DoesAfter (.bara g d a b) s (setBarrier s₁ c.g.launch c.g.wg b.toNat arrived) c token) ∧
    (0 < v → v ≤ x.expect → Calm s c →
      ∃ s', DoesAfter (.bara g d a b) s (setBarrier s' c.g.launch c.g.wg b.toNat arrived) c token) ∧
    (gap = 1 → Does (.barw g n a b) s c (waited 0)) ∧
    (c.p.phase = none → 2 ≤ gap → gap ≤ 0x7FFF → Does (.barw g n a b) s c (waited 0xFFFFFFFF)) ∧
    Does (.bart g d b) s c
      { regs := [out32 d 1 (fun _ => BitVec.ofNat 32 (x.phase.toNat * 65536 + (x.expect - x.count))) .n32] }

/-- SPAWN, BTIME and BFLUSH (R212, R213): with no lane enabled nothing is spawned; else one thread for each enabled
lane that has none yet, in lane order, after a release at CORE scope, at once where its bin has room for all of them; BFLUSH launches every bin of the workgroup. A thread spawned
(R212): it joins the bin of its key after the threads there, with the level values of its lane; of a key that has no bin yet
the lowest free one, due BTIME later. The thirty-second thread launches the bin: a group of thirty-two lanes at the entry, each
with its thread's argument in v0, in the core's lowest free slot, where that slot and its registers are free; else the full
bin waits for them. -/
def Obligations.Spawning : Prop :=
  (∀ (s s₁ s₂ : State) (c : Cx) (g : Guard) (d a : Code) (t u : Tag) (w : Workgroup),
     Tries s c g → Bare c → c.takes = true → c.g.single = none → isVec a = false → c.tag a = t → isInt32 t →
     let e := c.val a 0
     (oneOk c.g.quota d = true → c.tag d = u → u ≠ .void → wide u = false → isBfp u = false → e.toNat % 4 = 0 →
       landed s (keyCore c.key) c.g.world e = true → isLandAt s (keyCore c.key) e = true →
       (c.en = 0 → Does (.spawn g d a) s c {}) ∧
       (c.en ≠ 0 → narrowHeld s (keyCore c.key) = false → logStored (keyCore c.key) c.g.world s = .ok () s₁ →
         spawnLanes c e u d (lanesOf (c.en &&& ~~~c.p.spawned)) s₁ = .ok () s₂ → DoesAfter (.spawn g d a) s s₂ c {}) ∧
       (c.en ≠ 0 → Calm s c →
         let bins := (s.core (keyCore c.key)).bins
         let new := (lanesOf (c.en &&& ~~~c.p.spawned)).length
         (match bins.find? (fun x => x.2.launch == c.g.launch && x.2.wg == c.g.wg && x.2.entry == e && x.2.tag == u) with
          | some (_, b) => b.threads.length + new ≤ 32
          | none => ∃ n < 16, lookupN bins n = none) →
         ∃ s', DoesAfter (.spawn g d a) s s' c {})) ∧
     (128 ≤ e.toNat → e.toNat ≤ 32768 → s.wg c.g.launch c.g.wg = some w →
       DoesAfter (.btime g a) s (s.setWg { w with btime := e.toNat }) c {}) ∧
     DoesAfter (.bflush g) s ((binsOf (s.core (keyCore c.key)) c.g.launch c.g.wg).foldl
       (fun (s : State) (b : Nat × Bin) => launchBin s (keyCore c.key) b.1) s) c {}) ∧
  (∀ (s : State) (g : Group) (entry arg : Word) (t : Tag) (i n : Nat) (b : Bin) (w : Workgroup),
     let c := keyCore g.key
     let bins := (s.core c).bins
     let mine := bins.find? (fun x => x.2.launch == g.launch && x.2.wg == g.wg && x.2.entry == entry && x.2.tag == t)
     let thread : Word × List Word :=
       (arg, (List.range 8).map (fun j => (((g.lvl[j]?).getD (Vector.replicate 32 0))[i]?).getD 0))
     let binned (s' : State) (b : Bin) : Prop := appendThread s g entry t arg i = some s' ∧
       lookupN (s'.core c).bins n = some b ∧ (∀ m, m ≠ n → lookupN (s'.core c).bins m = lookupN bins m) ∧ s'.groups = s.groups
     s.wg g.launch g.wg = some w → i < 32 →
     (mine = some (n, b) → b.threads.length < 31 → ∃ s', binned s' { b with threads := b.threads ++ [thread] }) ∧
     (mine = none → n < 16 → lookupN bins n = none → (∀ m < n, lookupN bins m ≠ none) →
       ∃ s', binned s' { launch := g.launch, wg := g.wg, entry := entry, tag := t, threads := [thread],
                         due := s.now + w.btime, expired := false }) ∧
     (∀ l : Launch, mine = some (n, b) → b.threads.length = 31 → s.launch g.launch = some l →
       let threads := b.threads ++ [thread]
       (∀ k ks, s.freeSlots c = k :: ks → l.quota ≤ s.freeRegs c →
         s.stopping { die := c.die, core := c.core, slot := k } = none →
         ∃ s' x, appendThread s g entry t arg i = some s' ∧ lookupN (s'.core c).bins n = none ∧ s'.groups = s.groups ++ [x] ∧
           x.key = { die := c.die, core := c.core, slot := k } ∧ x.launch = g.launch ∧ x.wg = g.wg ∧ x.quota = l.quota ∧
           x.slot0 = some (Path.make entry 0xFFFFFFFF l.pri none 0) ∧ x.slot1 = none ∧ (x.vreg 0).tag = t ∧
           ∀ j < 32, ∃ y, threads[j]? = some y ∧ (x.vreg 0).lane j = y.1 ∧
             ∀ m < 8, ((x.lvl[m]?).bind (fun v => v[j]?)) = some ((y.2[m]?).getD 0)) ∧
       (s.freeSlots c = [] ∨ s.freeRegs c < l.quota ∨
           (∃ k ks, s.freeSlots c = k :: ks ∧ s.stopping { die := c.die, core := c.core, slot := k } ≠ none) →
         ∃ s', binned s' { b with threads := threads, expired := true })))

/-- MFSR, MTSR, ELECT, FMODE, MODSET and REGQ (R95, R112, R114, R140, R214): special registers read; %flags, its
rounding mode and the modulus written; the lowest enabled lane elected; the quota shrunk at once, the registers above
it VOID. A new quota (R95): registers below both quotas keep their values; those above the smaller one are VOID, with
zero side-file entries. -/
def Obligations.GroupWords : Prop :=
  (∀ (s : State) (c : Cx) (g : Guard) (d a : Code) (n : BitVec 7) (k : BitVec 4) (p : BitVec 3) (r : BitVec 2) (t : Tag),
     Issues s c g → Bare c → c.takes = true →
     let put (x : Group) : State := s.setGroup x
     (n.toNat ≤ 31 → n.toNat ≠ 15 → c.en ≠ 0 →
       let w := n.toNat = 7 ∨ n.toNat = 8
       (if w then pairOk c.g.quota d else oneOk c.g.quota d) = true →
       Does (.mfsr g d n) s c { regs := outOf d c.en (srValue s c.g n.toNat) (if w then .n64 else .n32) }) ∧
     Does (.elect g p) s c { preds := [(p.toNat, c.live, match lowest c.en with | some i => laneBit i | none => 0)] } ∧
     (isVec a = false → c.tag a = t → isInt32 t →
       DoesAfter (.mtsr g a) s (put { c.g with flags := c.val a 0 &&& 0x33F }) c {}) ∧
     DoesAfter (.fmode g r) s (put { c.g with flags := (c.g.flags &&& 0xFFFFFCFF) ||| (r.setWidth 32 <<< 8) }) c {} ∧
     (c.g.single = none → isVec a = false → isAddr t → Holds c a t →
       c.val64 a 0 % 2 = 1 → 3 ≤ c.val64 a 0 → c.val64 a 0 < 2 ^ 62 →
       DoesAfter (.modset g a) s (put { c.g with q := BitVec.ofNat 64 (c.val64 a 0) }) c {}) ∧
     (c.g.single = none → 2 ≤ k.toNat → k.toNat ≤ 12 →
       (8 * k.toNat = c.g.quota → Does (.regq g k) s c {}) ∧
       (8 * k.toNat < c.g.quota →
         DoesAfter (.regq g k) s (dropFlights (put (c.g.requota (8 * k.toNat))) c.key (8 * k.toNat)) c {}) ∧
       (c.g.quota < 8 * k.toNat → (s.core (keyCore c.key)).grows = [] →
         8 * k.toNat - c.g.quota ≤ s.freeRegs (keyCore c.key) →
         DoesAfter (.regq g k) s (put (c.g.requota (8 * k.toNat))) c {}))) ∧
  (∀ (g : Group) (q n : Nat), n < 96 →
     let h := g.requota q
     h.quota = q ∧ h.u = g.u ∧ h.p = g.p ∧
     (n < g.quota → n < q → h.vreg n = g.vreg n) ∧
     (g.quota ≤ n ∨ q ≤ n → (h.vreg n).tag = .void ∧ (h.vreg n).side = 0))

/-! ### Hints, service calls, contexts (01, 17, 18) -/

/-- The hint words (R20-R27, R29, R31, R241): NOP and LAND do nothing; the prefixes wait for their target; HSTALL
replaces the counts, HKEEP with N > 0 the coverage; HSCORE sets the scoreboard and REGION begins a region. A word of major 0x00,
and a reserved encoding where it is checked, is ILLEGAL (R17, R18, R33); a reserved hint is always checked; a reserved
word of class V with no lane does nothing. -/
def Obligations.HintAndReservedWords : Prop :=
  (∀ (s : State) (c : Cx) (h : BitVec 22) (n21 : BitVec 21) (k j m : BitVec 7) (r p l : BitVec 3) (on : BitVec 1)
     (rid : BitVec 10),
     Issues s c 7 → c.p.unitPc = none → Bare c →
     let first (q : Path) : Path := { q with unitPc := some c.p.pc }
     Hints .nop s c c.g id ∧ Hints .land s c c.g id ∧
     Hints (.himm h) s c c.g (fun q => { first q with himm := some h }) ∧
     Hints (.hrcv h) s c c.g (fun q => { first q with hrcv := some h }) ∧
     (r.toNat ≤ 4 → p.toNat ≤ 3 → l.toNat ≤ 6 →
       Hints (.hmod r p l) s c c.g (fun q => { first q with hmod := some (r ++ p ++ l ++ (0 : BitVec 13)) })) ∧
     Hints (.hstall n21) s c c.g (fun q =>
       { q with stalls := (List.range 7).map (fun i => n21.extractLsb' (3 * i) 3), loose := 0 }) ∧
     Hints (.hkeep k j m) s c c.g (fun q => if m = 0 then q else { q with keep := some (k, j, m) }) ∧
     Hints (.hscore on) s c { c.g with score := on == 1 } id ∧
     (∀ x, s.launch c.g.launch = some x → x.table = none → Hints (.region rid) s c { c.g with region := some rid } id)) ∧
  (∀ (s : State) (c : Cx) (g : Guard) (x : BitVec 22) (w : Word),
     (Issues s c g → Traps (.zero g x) s c cIllegal) ∧
     (Issues s c (gOf w) →
       (majOf w = 0x3F ∨ classOf (majOf w).toNat ≠ .v ∨ c.lanes ≠ 0 ∧ majOf w ≠ 0x10 →
         Traps (.reservedEncoding w) s c cIllegal) ∧
       (majOf w ≠ 0x3F → majOf w ≠ 0x10 → classOf (majOf w).toNat = .v → c.lanes = 0 →
         Does (.reservedEncoding w) s c {})))

/-- Trap entry (R231, R232): a precise fault of ordinary code, in a world whose TVEC names a LAND word that it may
fetch, freezes both slots, loads the service registers and enters the handler for the lowest offending lane. The results
of atomics that are on their way are written first (R158); no other register changes. -/
def Obligations.TrapEntry : Prop :=
  ∀ (s : State) (g : Group) (sl : Bool) (p : Path) (f : FaultInfo) (arg : Nat) (w : World),
    g.routine = .normal → isPrecise f.code = true → g.single = none → s.world g.world = some w → w.tvec ≠ 0 →
    goodVector s (keyCore g.key) g.world w.tvec = true → s.group g.key = some g → g.slot sl = some p → f.addr < 2 ^ 64 →
    let h := f.lane.getD ((lowest p.live).getD 0)
    let pc := p.unitPc.getD p.pc
    ∃ g', (raise s g sl p f arg).group g.key = some g' ∧
      g'.svc.tcause = BitVec.ofNat 32 (h % 32 * 2 ^ 24 + f.code % 256 * 2 ^ 16 + arg % 16) ∧
      g'.svc.tpc = (if f.code = cTrap then p.pc + 4 else pc) ∧
      g'.svc.tmask = (if f.mask = 0 then laneBit h else f.mask) ∧
      g'.svc.taddrl.toNat + 2 ^ 32 * g'.svc.taddrh.toNat = f.addr ∧
      g'.svc.mboxl.toNat + 2 ^ 32 * g'.svc.mboxh.toNat = g.context.toNat ∧
      g'.svc.lsel = BitVec.ofNat 32 h ∧ g'.svc.hsave0 = g.svc.hsave0 ∧ g'.svc.hsave1 = g.svc.hsave1 ∧
      (∃ x, g'.single = some x ∧ x.h = h ∧ x.slot1 = sl ∧ x.svc = none ∧ x.held.pc = pc ∧ x.held.live = p.live) ∧
      (∃ q, g'.slot sl = some q ∧ q.pc = w.tvec ∧ q.live = p.live ∧ q.himm = none ∧ q.hrcv = none ∧ q.hmod = none ∧
        q.stalls = []) ∧
      g'.pending = [] ∧ g'.p = g.p ∧ g'.em = g.em ∧ g'.flags = g.flags ∧
      ((∀ x ∈ s.flight, x.key = g.key → x.vals = none) → ∀ r i, g'.bitsAt r i = g.bitsAt r i ∧ g'.tagAt r = g.tagAt r) ∧
      (∀ k, k ≠ g.key → (raise s g sl p f arg).group k = s.group k) ∧ (raise s g sl p f arg).mem = s.mem

/-- Where no handler can be entered (R229, R231, R234): a world with TVEC zero, a vector that names no LAND word in a
slot of the world, or a fault in single-lane mode makes the fault fatal, the last two with codes of their own; the
address of an uncorrectable word is logged at its die (R39). The first fatal fault of a world (R238): a FATAL notice with
code, address, PC, lane and mask is noted, the world is marked with the time, and its teardown becomes due. A group's fatal fault
is one for the queue and the packet of its launch; its paths then stand still (the model's 1 ms: log entry 92). By the model's
reading (log entry 92, DEDUCED) the notice is kept with the world until the teardown posts it: once every group has retired it is
on the queue's list of records to write, with the event that writes it due. -/
def Obligations.FatalFaults : Prop :=
  (∀ (s : State) (g : Group) (sl : Bool) (p : Path) (f : FaultInfo) (arg : Nat) (w : World),
     g.routine = .normal → isPrecise f.code = true → s.world g.world = some w →
     let pc := p.unitPc.getD p.pc
     let fatal (code : Nat) : State := fatalGroup (noteError s f) g code f.addr pc (f.lane.getD 0) f.mask
     (g.single ≠ none → raise s g sl p f arg = fatal cDoubleFault) ∧
     (g.single = none → w.tvec = 0 → raise s g sl p f arg = fatal f.code) ∧
     (g.single = none → w.tvec ≠ 0 → goodVector s (keyCore g.key) g.world w.tvec = false →
       raise s g sl p f arg = fatal cTrapVector)) ∧
  (∀ (s : State) (q : QueueId) (qu : Queue) (w : World) (pidx code addr lane : Nat) (pc mask : Word),
     s.world w.id = some w → w.failed = false → w.dying = none → s.queue q = some qu →
     let t := fatalOn s w.id (some q) pidx code addr pc lane mask
     t.groups = s.groups ∧ t.mem = s.mem ∧ t.queues = s.queues ∧ t.agenda = s.agenda ++ [.teardown w.id] ∧
     ∃ r, t.world w.id = some { w with dying := some s.now, notices := w.notices ++ [(some q, r)] } ∧ r.kind = 4 ∧
       r.code = BitVec.ofNat 8 code ∧ r.pidx = pidx ∧ r.qtag = qtagOf qu pidx ∧ r.addr = BitVec.ofNat 64 addr ∧
       r.pc = BitVec.ofNat 64 (pc.toNat + 2 ^ 32 * (lane % 32)) ∧ r.lmask = mask) ∧
  (∀ (s : State) (g : Group) (l : Launch) (code addr lane : Nat) (pc mask : Word), s.launch g.launch = some l →
     let t := fatalOn s g.world (some l.queue) l.pidx code addr pc lane mask
     let u := fatalGroup s g code addr pc lane mask
     u.worlds = t.worlds ∧ u.queues = t.queues ∧ u.agenda = t.agenda ∧ u.mem = t.mem ∧ (∀ k, k ≠ g.key → u.group k = t.group k) ∧
     ∀ h, s.group g.key = some h → ∃ h', u.group g.key = some h' ∧ h'.v = h.v ∧ h'.u = h.u ∧ h'.p = h.p ∧ h'.flags = h.flags ∧
       ∀ sl q, h'.slot sl = some q → q.parked = some (s.now + 1000000)) ∧
  (∀ (s : State) (w : World) (t : Nat) (q : QueueId) (y : Queue) (r : ExRecord), s.world w.id = some w → w.failed = true →
     w.dying = some t → worldGone s w.id = true → (some q, r) ∈ w.notices → s.queue q = some y →
     ∃ u z, exec (.teardownScrub w.id) s = .next u ∧ u.queue q = some z ∧ r ∈ z.held ∧ .heldRecordWrite q ∈ u.agenda)

/-- SYSC and ERET (R351, R352): SYSC enters SVEC with the enabled lanes to be served, lowest first; ERET of a fault
handler, or of the last lane of a call, goes back to TPC with both slots as they were. The return (R352): the trapping
path as it was, at TPC, with no count, coverage or prefix pending; the other slot stays as it is, and the group leaves
single-lane mode. -/
def Obligations.ServiceCallAndReturn : Prop :=
  (∀ (s : State) (c : Cx) (g : Guard) (n : BitVec 4) (w : World) (i : Nat), Issues s c g → Bare c → c.takes = true →
     s.world c.g.world = some w →
     (c.g.single = none → c.en ≠ 0 → lowest c.en = some i → w.svec ≠ 0 →
       goodVector s (keyCore c.key) c.g.world w.svec = true →
       DoesBesideAfter (.sys g 0 0 0 n) s
         (s.setGroup (enterHandler c.g c.sl c.p w.svec i (some n) c.en
           (BitVec.ofNat 32 (2 ^ 31 + i * 2 ^ 24 + 36 * 2 ^ 16 + n.toNat)) (c.p.pc + 4) c.en 0)) c { go := .moved }) ∧
     (c.g.single = none → c.en = 0 → ∃ u, execBeside (.sys g 0 0 0 n) s = .next (afterWord u c.key) ∧
       Leaves s u c.key c.sl {}) ∧
     (∀ x, c.g.single = some x → (x.svc = none ∨ x.left &&& ~~~laneBit x.h = 0) → c.g.svc.tpc.toNat % 4 = 0 →
       landed s (keyCore c.key) c.g.world c.g.svc.tpc = true →
       DoesBesideAfter (.sys g 0 0 3 0) s (s.setGroup (leaveHandler c.g x s.tick)) c { go := .moved })) ∧
  (∀ (g : Group) (x : Single) (tick : Nat),
     let h := leaveHandler g x tick
     h.single = none ∧ h.slot (!x.slot1) = g.slot (!x.slot1) ∧
     (∃ q, h.slot x.slot1 = some q ∧ WentTo x.held q g.svc.tpc ∧ q.stalls = [] ∧ q.keep = none ∧ q.unitPc = none) ∧
     h.p = g.p ∧ h.em = g.em ∧ h.flags = g.flags ∧ h.svc = g.svc ∧
     (∀ r i, h.bitsAt r i = g.bitsAt r i ∧ h.tagAt r = g.tagAt r))

/-- WAITR (R242): with no lane enabled it does nothing; else it goes on once every enabled lane's STATUS is not zero,
with the replies in D, and each STATUS is cleared by a store of SYSTEM scope, at once where the replies stand at home and
nothing of the core waits to be pushed. -/
def Obligations.WaitReply : Prop :=
  ∀ (s s₁ s₂ s₃ s₄ s₅ : State) (c : Cx) (g : Guard) (d : Code) (ps : List (Nat × Place)) (st xs : List (Nat × Nat)),
    Tries s c g → Bare c → c.takes = true → c.g.single = none → Alive s c → isVec d = true → pairOk c.g.quota d = true →
    let core := keyCore c.key
    (c.en = 0 → Does (.waitr g d) s c {}) ∧
    (c.en ≠ 0 → placeLanes c (laneAddrs c.en (fun i => c.g.context.toNat + 16 * i)) wantWrite s = .ok ps s₁ →
      tryLanes ps (fun p => readPlace core .sys (c.policy p.cp) { p with pa := p.pa + 8 } 4) s₁ = .ok st s₂ → (∀ x ∈ st, x.2 ≠ 0) →
      tryLanes ps (fun p => readPlace core .sys (c.policy p.cp) p 8) s₂ = .ok xs s₃ →
      (∀ x ∈ ps, promoHolds s₃ core (x.2.home / 32) = false) →
      readyAt core (ps.map (fun x => (.sys, x.2.home / 32))) s₃ = .ok () s₄ →
      ps.forM (fun x => atPlace x.2 (writeAt core c.g.world .sys (c.policy x.2.cp) true (cellsOf (x.2.home + 8) 0 4))) s₄ =
        .ok () s₅ →
      DoesAfter (.waitr g d) s s₅ c { regs := out64 d c.en (atLane xs 0) .n64 }) ∧
    (c.en ≠ 0 → Calm s c → c.g.context.toNat % 16 = 0 →
      (∀ i, hasBit c.en i → ∃ h, Mapped s core c.g.world wantWrite (c.g.context.toNat + 16 * i) h ∧ OpenAt s h ∧
        sliceWord (homeWord s (h / 32)) (h + 8) 4 ≠ 0) →
      ∃ s' x, DoesAfter (.waitr g d) s s' c { regs := out64 d c.en x .n64 })

/-- XDONE, EDONE, CTXB and RMASK (R256, R261-R265): XDONE ends an exit routine, reinstates the snapshot and saves its
operand; EDONE ends an entry routine that has rebuilt what its region declares live and posts the withdrawn
operations; CTXB and RMASK read the save window's address and the rebuild state. -/
def Obligations.ContextWords : Prop :=
  ∀ (s : State) (c : Cx) (g : Guard) (d a : Code) (k : BitVec 4) (t : Tag) (snap : Snapshot) (n : Nat) (e : BitVec 512),
    AtIssue s c g → Bare c → c.takes = true → c.g.single = none →
    (c.g.routine = .exit snap n → isVec a = false → c.tag a = t → isInt32 t →
      DoesAfter (.xdone g a) s
        (s.setGroup { c.g.reinstate snap with saved := c.val a 0, stage := .saved false }) c { go := .moved }) ∧
    (c.g.routine = .entry snap → regionEntry s c.g = some e → rebuilt c.g e = true →
      (∀ o ∈ (s.quad (keyQuad c.key)).ops, o.by_.serial = c.g.serial → o.rebuilds = false) →
      DoesAfter (.edone g) s (repost (s.setGroup ((c.g.reinstate snap).resumePaths s.tick)) c.key) c { go := .moved }) ∧
    (c.g.routine = .normal → isVec d = false →
      (pairOk c.g.quota d = true → Does (.ctxb g d) s c { regs := out64 d 1 (fun _ => c.g.context.toNat + 0x1000) .n64 }) ∧
      (k.toNat ≤ 4 →
        let w : Word := match k.toNat with
          | 0 => c.g.rebuiltV.extractLsb' 0 32
          | 1 => c.g.rebuiltV.extractLsb' 32 32
          | 2 => c.g.rebuiltV.extractLsb' 64 32
          | 3 => c.g.rebuiltU
          | _ => c.g.saved
        Does (.rmask g d k) s c { regs := [out32 d 1 (fun _ => w) .n32] }))

/-! ### Words, steps, reset, memory (01, 02) -/

/-- Words of the spec's examples, bit by bit, decode to what they stand for (R8, R33). A sanity statement. -/
def Obligations.ExampleWords : Prop :=
  decodeWord 0b0000_0110_1000_0001_1000_0001_0000_0100#32 = .row (.add 10 3 1 2) ∧
  decodeWord 0b0001_0001_1100_0001_1000_0001_0000_0100#32 = .row (.fma 7 3 1 2) ∧
  decodeWord 0b0011_1101_1110_0001_0000_0100_0000_1010#32 = .row (.cmp 7 4 2 4 5) ∧
  decodeWord 0b1000_0000_0100_0011_0000_0010_0111_0001#32 = .row (.ld 1 6 2 7 1) ∧
  decodeWord 0b1001_1000_0100_0010_0000_0010_0000_0001#32 = .row (.atomAdd 1 4 2 0 1) ∧
  decodeWord 0b1100_1100_0100_0000_0000_0000_0000_0011#32 = .row (.brd 1 3) ∧
  decodeWord 0b1110_1001_1100_1011_0000_0000_0000_0000#32 = .row (.mfsr 7 22 0) ∧
  decodeWord 0b0100_1101_1111_1100_0000_0000_0000_0010#32 = .row (.movi 7 120 2) ∧
  decodeWord 0b1110_1101_1100_0000_0000_0000_0000_0011#32 = .beside (.sys 7 0 0 0 3)

/-- Decoding and encoding agree on every word (R8, R12, R17, R33): the word of a well-formed row decodes to that row
with every operand, and a word that decodes to a well-formed row, or to a word beside the table, is its encoding. In
the table's numbering of bits every row but a reserved encoding is found. -/
def Obligations.DecodeAndEncodeAgree : Prop :=
  (∀ (i : Instr) (w : Word), wellFormed i = true → encode i = some w →
    decodeWord w = .row i ∧ decodeTableWord 32 w.toNat = (if i = .reservedEncoding w then none else some i)) ∧
  (∀ (w : Word) (i : Instr), decodeWord w = .row i → wellFormed i = true → encode i = some w) ∧
  (∀ (w : Word) (b : Beside), decodeWord w = .beside b → encodeBeside b = w)

/-- A step (R28, R191, R197, R215): the word at the PC of the selected slot runs as exec of what it decodes to, with the slot
noted as issuing; a word that has issued and waits runs as it was fetched then; a PC outside the landed slots of the group's
world is SEG_ABSENT. That an event that is due comes before every issue, and that a step is one tick and one nanosecond, are the
model's choice (log entries 7 and 8, DESIGN CHOICE). -/
def Obligations.StepRunsTheDecodedWord : Prop :=
  (∀ (s : State) (i : Instr) (r : List Instr), s.agenda = i :: r →
    step s = exec i { s with tick := s.tick + 1, now := s.now + 1, cur := none, agenda := r }) ∧
  (∀ (s : State) (r : Ready), s.agenda = [] → ((advance s).turn = false ∨ nextEvent (advance s) = none) →
    pickSlot (advance s) = some r →
    let u := advance s
    let on : State := { u with cur := some (r.key, r.sl), turn := true }
    (∀ g x, u.group r.key = some g → r.path.read = some x →
      (∀ i, decodeWord x.word = .row i → step s = exec i on) ∧ (∀ b, decodeWord x.word = .beside b → step s = execBeside b on)) ∧
    (∀ g, u.group r.key = some g → r.path.read = none →
      (landed u (keyCore r.key) g.world r.path.pc = true →
        let w := overlayWord u (keyCore r.key) r.path.pc
        (∀ i, decodeWord w = .row i → step s = exec i on) ∧ (∀ b, decodeWord w = .beside b → step s = execBeside b on)) ∧
      (landed u (keyCore r.key) g.world r.path.pc = false →
        step s = .next (raise u g r.sl r.path
          { code := cSegAbsent, addr := r.path.pc.toNat, lane := none, mask := 0 }))))

/-- The machine after reset: CD and CW are 0 (R161), no tile or accumulator entry has left generation 0 (R78, R136),
the energy counters are 0 (R276), and, by the model's choice (log entries 29, 7, 32 and 97), nothing is resident, cached,
queued or outstanding, and memory and caches are in their form. -/
def Obligations.ResetIsEmpty : Prop :=
  let s := State.reset
  memoryWf s.mem = true ∧ CachesWf s ∧ s.groups = [] ∧ s.wgs = [] ∧ s.launches = [] ∧ s.worlds = [] ∧ s.queues = [] ∧ s.flight = [] ∧
  s.agenda = [] ∧ s.outbox = [] ∧
  (∀ c, (s.core c).dirty = [] ∧ (s.core c).copies = [] ∧ (s.core c).log = [] ∧ (s.core c).overlay = [] ∧
    (s.core c).cd = 0 ∧ (s.core c).cw = 0) ∧
  (∀ q, (s.quad q).tiles = [] ∧ (s.quad q).accGen = [] ∧ (s.quad q).accs = [] ∧ (s.quad q).entries = []) ∧
  (∀ d, (s.die d).energy = 0 ∧ (s.die d).dirty = [] ∧ (s.die d).errors = []) ∧ s.power.energy = 0

/-- Every step keeps the form of memory: addresses strictly rising, no listed byte equal to what an unlisted one reads
as. -/
def Obligations.StepsKeepMemoryForm : Prop :=
  ∀ s s' : State, memoryWf s.mem = true → step s = .next s' → memoryWf s'.mem = true

/-! ### Caches and gating (03_caches_and_leases.md, 02) -/

/-- MERGE_AT_HOME of a core's dirty bytes (R58, R59, R65, R66, R68), and EVICTION, which does the same and drops the
clean copy: where the line may merge and the die's remote-data cache holds nothing of the word, nor the names of cores whose
bytes it carried, home takes the dirty bytes and keeps the others, the L1 holds none of them any more, and the completion time,
4 ns after the later of now and E_max, counts for CD, CW and `%wct` of every group of the core. Bytes stored through a page with
PROT = 0 into a protected range (R285) leave of the others what deciphers under the package key. -/
def Obligations.MergesReachHome : Prop :=
  ∀ (s : State) (c : CoreId) (w : Nat),
    let k := s.core c
    let it : CacheId := .l1 c.die c.core
    let wct := max s.now ((lookupN s.lines.eMax w).getD 0) + 4
    memoryWf s.mem = true → rising k.dirty = true → wordCells k.dirty w ≠ [] →
    wordCells (s.die c.die).dirty w = [] → (∀ a, a / 32 = w → lookupN (s.die c.die).author a = none) →
    let rest (a : Nat) : Byte := if isProtected s (32 * w) = true ∧ w ∈ s.lines.plain then wordByte (bareWord s w) (a % 32)
      else readCell s.mem a
    (if isHost (32 * w) then lookupN s.lines.mesi (wordLine w) = some .m else lookupN s.lines.held (wordLine w) = none) →
    ∃ t u, exec (.mergeAtHome it w) s = .next t ∧ exec (.eviction it w) s = .next u ∧
      u.mem = t.mem ∧ copiesOf u it = (copiesOf t it).filter (fun x => x.word != w) ∧
      (∀ a, readCell t.mem a = if a / 32 = w then (findCell k.dirty a).getD (rest a) else readCell s.mem a) ∧
      (∀ a, findCell (t.core c).dirty a = if a / 32 = w then none else findCell k.dirty a) ∧
      (t.core c).cd = max k.cd wct ∧ (t.core c).cw = max k.cw wct ∧
      (∀ key g, s.group key = some g →
        t.group key = some (if keyCore g.key = c then { g with wct := max g.wct wct } else g))

/-- LEASE_EXPIRY (R63): from its expiry on a copy is absent for reading; one whose lease is in force stays; dirty
bytes beside it are unaffected. EVICTION of a clean word (R58) drops the copy alone; of a host line, at its proxy die, it sends
DirtyEvict with the data from M, else CleanEvict, and the line is in I (R266): that it waits until the leases granted on the line
have passed is the model's (log entry 23, DEDUCED; R69 says so of snoops). WAY_GATE, BANK_GATE and WAY_WAKE (R71, R72): a way is first closed to new allocations; then one with nothing
dirty and no host line in it is gated with its copies dropped, and no way is gated that still holds either; a bank only while no
allocation covers it; what wakes is neither gated nor waking. PATROL_SCRUB (R39, R287) changes no byte: an uncorrectable error of
bonded DRAM is logged at its die and raised as a device event, and a protected sector that fails its check tears down its
world; what it finds in memory comes with the event (log entry 91), and in a bay of a saved context a read of the image meets it.
SCRUB_COMPLETE (R284) lets the released banks be granted again. -/
def Obligations.CachesOnTheirOwn : Prop :=
  ((∀ (s : State) (c : CacheId) (w : Nat), ∃ t, exec (.leaseExpiry c w) s = .next t ∧ t.mem = s.mem ∧
     ((∃ x ∈ copiesOf s c, x.word = w ∧ x.expiry ≤ s.now) →
       copiesOf t c = (copiesOf s c).filter (fun x => x.word != w)) ∧
     ((∀ x ∈ copiesOf s c, x.word = w → s.now < x.expiry) → t = s) ∧
     (∀ k, (t.core k).dirty = (s.core k).dirty) ∧ (∀ d, (t.die d).dirty = (s.die d).dirty)) ∧
   (∀ (s : State) (d k w : Nat), wordCells (s.core { die := d, core := k }).dirty w = [] →
     ∃ t, exec (.eviction (.l1 d k) w) s = .next t ∧ t.mem = s.mem ∧ t.lines = s.lines ∧ t.outbox = s.outbox ∧
       copiesOf t (.l1 d k) = (copiesOf s (.l1 d k)).filter (fun x => x.word != w)) ∧
   (∀ (s : State) (d w : Nat), wordCells (s.die d).dirty w = [] →
     ∃ t, exec (.eviction (.rdc d) w) s = .next t ∧ t.mem = s.mem ∧
       copiesOf t (.rdc d) = (copiesOf s (.rdc d)).filter (fun x => x.word != w) ∧
       (isHost (32 * w) = true → wordDie w = d → mesiOf s (wordLine w) ≠ .i →
         (lineMax s (wordLine w) < s.now →
           mesiOf t (wordLine w) = .i ∧
           t.outbox = s.outbox ++ [if mesiOf s (wordLine w) = .m then .cxl (wordLine w) "DirtyEvict" (some (lineData s (wordLine w)))
             else .cxl (wordLine w) "CleanEvict" none]) ∧
         (s.now ≤ lineMax s (wordLine w) → t.lines = s.lines ∧ t.outbox = s.outbox)))) ∧
  ((∀ (s : State) (c : CacheId) (n : Nat) (ws : List Nat), .way c n ∉ s.gated →
     (.way c n ∉ s.closing → exec (.wayGate c n ws) s = .next { s with closing := s.closing ++ [.way c n] }) ∧
     (.way c n ∈ s.closing → (∀ w ∈ ws, dirtyIn s c w = false ∧ holdsHost s c w = false) →
       ∃ t, exec (.wayGate c n ws) s = .next t ∧ t.gated = s.gated ++ [.way c n] ∧ .way c n ∉ t.closing ∧ t.mem = s.mem ∧
         ∀ x, x ∈ copiesOf t c ↔ x ∈ copiesOf s c ∧ x.word ∉ ws) ∧
     (∀ t, exec (.wayGate c n ws) s = .next t → .way c n ∈ t.gated →
       ∀ w ∈ ws, dirtyIn t c w = false ∧ holdsHost t c w = false)) ∧
   (∀ (s : State) (u : PowerUnit), ∃ t, exec (.wayWake u) s = .next t ∧ t.mem = s.mem ∧
     ∀ x, (x ∈ t.gated ↔ x ∈ s.gated ∧ x ≠ u) ∧ (x ∈ t.waking ↔ x ∈ s.waking ∧ x ≠ u)) ∧
   (∀ (s : State) (c : CoreId) (n : Nat), n < 64 → .bank c.die c.core n ∉ s.gated → .bank c.die c.core n ∉ s.waking →
     let asleep := (sleeping c s.gated).length + (sleeping c s.waking).length
     (asleep < s.freeBanks c → exec (.bankGate c n) s = .next { s with gated := s.gated ++ [.bank c.die c.core n] }) ∧
     (s.freeBanks c ≤ asleep → exec (.bankGate c n) s = .next s))) ∧
  ((∀ (s : State) (w : Nat) (f : Finding), ∃ t, exec (.patrolScrub ⟨.word w, f⟩) s = .next t ∧ t.mem = s.mem ∧ t.groups = s.groups ∧
     (isDram (32 * w) = true → w ∈ s.lines.bad ∨ f = .uncorrectable → w ∈ t.lines.bad ∧
       (t.die (homeDie (32 * w))).errors = (32 * w, 32 * w) :: (s.die (homeDie (32 * w))).errors ∧
       t.outbox = s.outbox ++ [.deviceEvent cMemError (32 * w)]) ∧
     (w ∉ s.lines.bad → f ≠ .uncorrectable → t.dies = s.dies ∧ t.outbox = s.outbox) ∧
     (isDram (32 * w) = true → isProtected s (32 * w) = true → sectorBad s (w / 2) = true ∨ f = .altered →
       t.agenda = s.agenda ++ [.teardown (granuleOwner s (32 * w))])) ∧
   (∀ (s : State) (d b : Nat), exec (.patrolScrub ⟨.bay d b, .clean⟩) s = .next s ∧
     ∃ t, exec (.patrolScrub ⟨.bay d b, .uncorrectable⟩) s = .next t ∧ t.mem = s.mem ∧ t.groups = s.groups ∧
       (∃ a, (t.die d).errors = (a, a) :: (s.die d).errors ∧ t.outbox = s.outbox ++ [.deviceEvent cMemError a]) ∧
       t.images = s.images.map (fun i =>
         if i.die = d ∧ i.fault = none ∧ (∃ x ∈ i.bays, x.1 = b) then { i with fault := some cMemError } else i)) ∧
   (∀ (s : State) (id : Nat), ∃ t, exec (.scrubComplete id) s = .next t ∧
     (∀ x, x ∈ t.scrubs ↔ x ∈ s.scrubs ∧ x.id ≠ id) ∧ t.groups = s.groups ∧ t.wgs = s.wgs))

/-! ### Translation (02_memory_and_translation.md) -/

/-- WALK_COMPLETE and ACCESS_COMPLETE (R47, R48, R50, R54): a walk that ends well leaves a translation with every core
that joined it; one of a world whose device half is off, or one that faults, leaves none, and the waiting accesses meet
the fault. An access whose value comes back writes its destination in its lanes, and leaves the list of those in
flight; so does an atomic whose values have come back. The host's answers (R47, R51, R52): what the host permits of a page that
was asked for is held by every core that asked; where it permits nothing no translation is made. Success to a page
request drops the page's translations, so that it is asked for again; any other answer, and none within the time of the
configuration record, fails the request. Invalidations (R50): the translations of the range are gone at once from every
TLB, and what the completion waits for is noted; one completion answers a request whatever worlds it names; it is sent when those
accesses are done and, as the model does it, every dirty byte has been pushed. -/
def Obligations.TranslationsArrive : Prop :=
  ((∀ (s : State) (c k : CoreId) (ks : List CoreId) (w : Nat) (va : DWord),
     let page := va.toNat / 0x1000
     ((s.die c.die).walks.take 128).find? (fun x => x.world == w && x.page == page) =
       some { world := w, page := page, joined := k :: ks } →
     let gone := s.setDie { s.die c.die with
       walks := (s.die c.die).walks.filter (fun x => !(x.world == w && x.page == page)) }
     let a : Asker := { core := some k, world := w, queue := none, pidx := 0 }
     (xEn (xlatOf s w) = false → exec (.walkComplete c w va) s = .next gone) ∧
     (xEn (xlatOf s w) = true →
       (∀ p s', walkIn a va.toNat wantRead gone = .ok p s' →
         ∃ t, exec (.walkComplete c w va) s = .next t ∧ t.mem = s'.mem ∧ ∀ j ∈ k :: ks, findTlb t j w false va.toNat ≠ none) ∧
       (∀ f s', walkIn a va.toNat wantRead gone = .error (.fault f) s' →
         ∃ t, exec (.walkComplete c w va) s = .next t ∧ t.mem = s.mem ∧ t.xlat = s.xlat ∧ t.groups = s.groups ∧
           ∀ q ∈ t.quads, ∀ o ∈ q.ops, o.by_.world = w → o.stalled = false))) ∧
   (∀ (s s' : State) (id : Nat) (f : Inflight) (g g' : Group) (xs : List (Nat × Nat)),
     s.flight.find? (fun x => x.id == id) = some f → s.group f.key = some g →
     let gone : State := { s with flight := s.flight.filter (fun x => x.id != id) }
     f.fetch gone = .ok xs s' → s'.group f.key = some g' →
     ∃ t h, exec (.accessComplete id) s = .next t ∧ t.mem = s'.mem ∧ t.flight = s'.flight ∧ t.group f.key = some h ∧
       ∀ r ∈ f.outs (atLane xs 0), isVec r.code = true →
         (∀ i < 32, h.bitsAt r.code i = if hasBit f.lanes i then r.val i else g'.bitsAt r.code i) ∧
         (lowest f.lanes ≠ none → h.tagAt r.code = f.tag)) ∧
   (∀ (s : State) (id : Nat) (f : Inflight) (g : Group) (vs : List Lanes),
     s.flight.find? (fun x => x.id == id) = some f → s.group f.key = some g → f.vals = some vs →
     ∃ t, exec (.accessComplete id) s = .next t ∧ t.mem = s.mem ∧ (∀ x, x ∈ t.flight ↔ x ∈ s.flight ∧ x.id ≠ id))) ∧
  ((∀ (s : State) (w : Nat) (p : HostPage),
     let asked (q : AtsReq) : Bool := q.world == w && decide (p.base ≤ 4096 * q.page ∧ 4096 * q.page < p.base + p.size)
     (s.xlat.ats.any asked = false → exec (.atsTranslationCompletion w p) s = .next s) ∧
     (s.xlat.ats.any asked = true → ∃ t, exec (.atsTranslationCompletion w p) s = .next t ∧
       t.xlat.ats = s.xlat.ats.filter (fun q => !asked q) ∧ t.mem = s.mem ∧
       ((p.r || p.w || p.x) = true → ∀ q ∈ s.xlat.ats, asked q = true →
         (∀ c ∈ q.joined, ∀ va, p.base ≤ va → va < p.base + p.size → ∃ e, findTlb t c w true va = some e ∧
           e.base = p.base ∧ e.frame = p.frame ∧ e.r = p.r ∧ e.w = p.w ∧ e.x = p.x) ∧
         (q.fw = true → (w, p) ∈ t.xlat.host)) ∧
       ((p.r || p.w || p.x) = false → t.xlat.tlb = s.xlat.tlb ∧ t.xlat.host = s.xlat.host ∧
         ∀ q ∈ s.xlat.ats, asked q = true → (w, q.page) ∈ t.xlat.denied))) ∧
   (∀ (s : State) (id : Nat) (r : PageReq), openReq s id = some r →
     let now (t : State) (r : PageReq) : Prop :=
       (∃ x ∈ t.xlat.reqs, x.id = id) ∧ (∀ x ∈ t.xlat.reqs, x.id = id → x = r) ∧ t.mem = s.mem
     let page (base size : Nat) : Bool := meets (some (4096 * r.page, 4096)) base size
     (∃ t, exec (.prgResponse id .success) s = .next t ∧
       now t { r with waiting := false, successes := r.successes + 1 } ∧
       (∀ e, e ∈ t.xlat.tlb ↔ e ∈ s.xlat.tlb ∧ ¬ (e.world = r.world ∧ e.host = true ∧ page e.base e.size = true)) ∧
       (∀ e, e ∈ t.xlat.host ↔ e ∈ s.xlat.host ∧ ¬ (e.1 = r.world ∧ page e.2.base e.2.size = true))) ∧
     (∀ a, a ≠ PrgAnswer.success → ∃ t, exec (.prgResponse id a) s = .next t ∧
       now t { r with waiting := false, failed := true } ∧ t.xlat.tlb = s.xlat.tlb ∧ t.xlat.host = s.xlat.host) ∧
     (r.since + s.trust.config.pageTimeout ≤ s.now → ∃ t, exec (.pageRequestTimeout id) s = .next t ∧
       now t { r with waiting := false, failed := true } ∧ t.xlat.tlb = s.xlat.tlb ∧ t.xlat.host = s.xlat.host) ∧
     (s.now < r.since + s.trust.config.pageTimeout → exec (.pageRequestTimeout id) s = .next s))) ∧
  ((∀ (s : State) (w : Nat) (r : Option (Nat × Nat)), ∃ t i, exec (.deviceInvalidation w r) s = .next t ∧
     (∀ e, e ∈ t.xlat.tlb ↔ e ∈ s.xlat.tlb ∧ ¬ (e.world = w ∧ e.host = false ∧ meets r e.base e.size = true)) ∧
     t.xlat.host = s.xlat.host ∧ t.xlat.invs = s.xlat.invs ++ [i] ∧ i.id = s.nextId ∧ i.worlds = [w] ∧ i.host = false ∧
     (∀ n, n ∈ i.after ↔ ∃ f ∈ s.flight, f.id = n ∧ ∃ g, s.group f.key = some g ∧ g.world = w) ∧
     t.mem = s.mem ∧ t.groups = s.groups) ∧
   (∀ (s : State) (p : Option (BitVec 20)) (r : Option (Nat × Nat)),
     let mine (w : Nat) : Prop := ∃ x ∈ s.worlds, x.id = w ∧ xHosten x.xlat.toNat = true ∧
       ∀ n, p = some n → xPasid x.xlat.toNat = n.toNat
     (s.xlat.invs.filter (fun i => i.host)).length < 32 → ∃ t i, exec (.atsInvalidationRequest p r) s = .next t ∧
       (∀ e, e ∈ t.xlat.tlb ↔ e ∈ s.xlat.tlb ∧ ¬ (mine e.world ∧ e.host = true ∧ meets r e.base e.size = true)) ∧
       (∀ e, e ∈ t.xlat.host ↔ e ∈ s.xlat.host ∧ ¬ (mine e.1 ∧ meets r e.2.base e.2.size = true)) ∧
       t.xlat.invs = s.xlat.invs ++ [i] ∧ i.id = s.nextId ∧ i.host = true ∧ (∀ w, w ∈ i.worlds ↔ mine w) ∧
       t.mem = s.mem ∧ t.groups = s.groups) ∧
   (∀ (s : State) (id : Nat) (i : Invalidation), s.xlat.invs.find? (fun x => x.id == id) = some i →
     (settledFor s i = false → exec (.invalidationCompletion id) s = .next s) ∧
     (settledFor s i = true → (∀ k ∈ s.cores, k.dirty = []) → (∀ d ∈ s.dies, d.dirty = []) →
       exec (.invalidationCompletion id) s = .next
         { s with xlat := { s.xlat with invs := s.xlat.invs.filter (fun x => x.id != id) }
                  outbox := s.outbox ++ [.invalidated id] })))

/-! ### Host links (03, 19_host_and_device_links.md) -/

/-- SNPINV, SNPDATA and SNPCUR (R266, R69): a snoop that takes the line or its ownership waits until package time has
passed every lease granted on the line; then it is answered, with the data from M, and the line is in I or S.
OWNERSHIP_GRANT, BACK_INVALIDATE_RESPONSE and HOST_HDM_ACCESS (R69, R70, R263, R286): the line asked for is in M; the
line that the host gives up merges with the host's data; the host reads and writes one byte of the window at its home,
and an access to a protected range or to a metadata carve-out (R56) is answered with an error and logged, its write
dropped; a line that the host keeps once it has stored in it is held modified. -/
def Obligations.HostLinks : Prop :=
  (∀ (s : State) (line : Nat) (d : Option (BitVec 512)), isHost (64 * line) = true →
     let st := mesiOf s line
     let data : Option (BitVec 512) := if st = .m then some (lineData s line) else none
     let written (t : State) : Prop := t.mem = match d with
       | some x => writeLE s.mem (64 * line) x.toNat 64
       | none => s.mem
     (lineMax s line < s.now ∨ st = .i → ∃ t, exec (.snpinv line d) s = .next t ∧ mesiOf t line = .i ∧ written t ∧
       t.outbox = s.outbox ++ [.cxl line "RspI" data]) ∧
     (s.now ≤ lineMax s line → st ≠ .i → ∃ t, exec (.snpinv line d) s = .next t ∧ .snpinv line d ∈ t.lines.snoops ∧
       t.mem = s.mem ∧ t.outbox = s.outbox ∧ t.lines.mesi = s.lines.mesi) ∧
     (lineMax s line < s.now → st = .m ∨ st = .e → ∃ t, exec (.snpdata line) s = .next t ∧ mesiOf t line = .s ∧
       t.mem = s.mem ∧ t.outbox = s.outbox ++ [.cxl line "RspS" data]) ∧
     (s.now ≤ lineMax s line → st = .m ∨ st = .e → ∃ t, exec (.snpdata line) s = .next t ∧
       .snpdata line ∈ t.lines.snoops ∧ t.mem = s.mem ∧ t.outbox = s.outbox ∧ t.lines.mesi = s.lines.mesi) ∧
     (st = .s → ∃ t, exec (.snpdata line) s = .next t ∧ mesiOf t line = .s ∧
       t.outbox = s.outbox ++ [.cxl line "RspS" none]) ∧
     (∃ m, exec (.snpcur line) s = .next { s with outbox := s.outbox ++ [m] } ∧
       (st = .m → m = .cxl line "RspData" (some (lineData s line))))) ∧
  ((∀ (s : State) (line : Nat), line ∈ s.lines.rdOwn → ∃ t, exec (.ownershipGrant line) s = .next t ∧
     mesiOf t line = .m ∧ line ∉ t.lines.rdOwn ∧ t.mem = s.mem) ∧
   (∀ (s : State) (line : Nat) (d : BitVec 512), line ∈ s.lines.backInv → lookupN s.lines.held line = some true →
     memoryWf s.mem = true → ∃ t, exec (.backInvalidateResponse line (some d)) s = .next t ∧
       line ∉ t.lines.backInv ∧ lookupN t.lines.held line = none ∧
       (∀ i < 64, readCell t.mem (64 * line + i) = d.extractLsb' (8 * i) 8) ∧
       (∀ a, a < 64 * line ∨ 64 * line + 64 ≤ a → readCell t.mem a = readCell s.mem a)) ∧
   (∀ (s : State) (line : Nat) (d : Option (BitVec 512)), line ∈ s.lines.backInv →
     (d = none ∨ lookupN s.lines.held line ≠ some true) →
     ∃ t, exec (.backInvalidateResponse line d) s = .next t ∧ line ∉ t.lines.backInv ∧ t.mem = s.mem) ∧
   (∀ (s : State) (pa : Nat) (b : Byte) (h : Bool), memoryWf s.mem = true → 0x8000000000 ≤ pa → pa < 0x10000000000 →
     let a := homeOf pa
     ((isProtected s a || isCarve s a) = true → ∀ st, ∃ t, exec (.hostHdmAccess pa st h) s = .next t ∧ t.mem = s.mem ∧
       t.outbox = s.outbox ++ [.hdm pa none] ∧ (t.die (homeDie a)).errors = (pa, a) :: (s.die (homeDie a)).errors) ∧
     ((isProtected s a || isCarve s a) = false →
       (∃ t, exec (.hostHdmAccess pa (some b) true) s = .next t ∧ t.mem = s.mem ∧
         lookupN t.lines.held (a / 64) = some true) ∧
       (a / 32 ∉ s.lines.bad → ∃ t, exec (.hostHdmAccess pa (some b) false) s = .next t ∧
         (∀ x, readCell t.mem x = if x = a then b else readCell s.mem x) ∧ t.outbox = s.outbox ++ [.hdm pa (some b)]) ∧
       (a / 32 ∉ s.lines.bad → ∃ t, exec (.hostHdmAccess pa none h) s = .next t ∧ t.mem = s.mem ∧
         t.outbox = s.outbox ++ [.hdm pa (some (readCell s.mem a))]))))

/-! ### Tiles and the matrix engine (04, 09) -/

/-- A copy operation ends (R85, R89, R90): done, its tile is READY; ended by a fatal fault, a filled tile is EMPTY and
a drained one READY, with ERR the fault's code and memory as it was; stalled, it stays queued and is tried again, and it is noted
whether what it waits for is a translation (R91). Where every element's address is mapped and its word is free, it is done. What
moves (R83, R84, R88, R321), of a valid descriptor: a fill puts into each element that is not padded the bytes at its address, as
home has them under what the quad's remote-data cache holds dirty, and PAD into the others; a drain puts each element that is not
padded at its address, row by row (elements that share one: log entry 86), leaves every other byte of memory, and drops the
issuing core's copies of the words (R89). TRANSFER_FATAL_FAULT also ends one that a code from 1 to 7 is given to. -/
def Obligations.TransfersEnd : Prop :=
  ∀ (s : State) (q : QuadId) (id : Nat) (op : CopyOp) (gen : Byte) (t : Tile) (code : Byte),
    let qu := s.quad q
    qu.ops.find? (fun o => o.id == id) = some op → lookupN qu.tiles op.tile = some { gen := gen, tile := some t } →
    wgAlive s t.launch t.wg = true →
    let fills := op.kind.fills
    let run : M Unit := if fills then fillRun q op t else drainRun q op t
    let ev : Instr := if fills then .tileFillComplete q id else .tileDrainComplete q id
    let tile (u : State) : Option Tile := (lookupN (u.quad q).tiles op.tile).bind (fun x => x.tile)
    let gone (u : State) : Prop := (u.quad q).ops = qu.ops.filter (fun o => o.id != id)
    (∀ s', run s = .ok () s' → ∃ u, exec ev s = .next u ∧ u.mem = s'.mem ∧ tile u = some { t with state := .ready } ∧ gone u) ∧
    (∀ f s', run s = .error (.fault f) s' → ∃ u, exec ev s = .next u ∧ exec (.transferFatalFault q id code) s = .next u ∧
      u.mem = s.mem ∧ gone u ∧
      tile u = some { t with state := if fills then .empty else .ready, err := BitVec.ofNat 8 f.code }) ∧
    (∀ e s', run s = .error e s' → (∀ f, e ≠ .fault f) →
      (∃ u, exec ev s = .next u ∧ u.mem = s'.mem ∧ tile u = some t ∧
        (u.quad q).ops = (s'.quad q).ops.map (fun o => if o.id == id then
          { o with stalled := true, absent := !op.reached (dTag t.desc.toNat) t.desc.toNat s } else o)) ∧
      (1 ≤ code.toNat → code.toNat ≤ 7 → ∃ u, exec (.transferFatalFault q id code) s = .next u ∧ u.mem = s.mem ∧ gone u ∧
        tile u = some { t with state := if fills then .empty else .ready, err := code })) ∧
    (let d := t.desc.toNat
     let elems := (elements d).filter (fun x => !padded d x.1 x.2)
     let va (x : Nat × Nat) : Nat := elemAddr (op.row d x.1) d x.2 (moveBytes (dTag d))
     ((∀ x ∈ elems, va x % moveBytes (dTag d) = 0 ∧ ∃ h, OpenAt s h ∧
         Mapped s (keyCore op.by_.key) op.by_.world (if fills then wantRead else wantWrite) (va x) h) →
       ∃ u, exec ev s = .next u ∧ tile u = some { t with state := .ready } ∧ gone u) ∧
     (∀ H : Nat × Nat → Nat, let e := moveBytes (dTag d)
       descOk s qu t.launch t.wg d = true → memoryWf s.mem = true → CachesWf s → (∀ x ∈ s.wgs, memoryWf x.scr = true) →
       (∀ x ∈ qu.slots, memoryWf x.2.bytes = true) →
       (∀ x ∈ elems, va x % e = 0 ∧ OpenAt s (H x) ∧ liveCopy s.now (s.die q.die).copies (H x / 32) = none ∧
         Mapped s (keyCore op.by_.key) op.by_.world (if fills then wantRead else wantWrite) (va x) (H x)) →
       (fills = true → ∃ u, exec ev s = .next u ∧ u.mem = s.mem ∧ ∀ x ∈ elements d,
         if padded d x.1 x.2 then locRead u (u.quad q) t x.1 x.2 e = padValue d e
         else ∀ k < e, locRead u (u.quad q) t x.1 x.2 e / 256 ^ k % 256 =
           ((findCell (s.die q.die).dirty (H x + k)).getD (readCell s.mem (H x + k))).toNat) ∧
       (fills = false → ∃ u, exec ev s = .next u ∧
         (∀ a, readCell u.mem a = ((elems.reverse.find? (fun x => decide (H x ≤ a ∧ a < H x + e))).map (fun x =>
           BitVec.ofNat 8 (locRead s qu t x.1 x.2 e / 256 ^ (a - H x)))).getD (readCell s.mem a)) ∧
         ∀ x ∈ elems, ∀ y ∈ (u.core (keyCore op.by_.key)).copies, y.word ≠ H x / 32)) ∧
     (elems ≠ [] → (∀ x ∈ elems, 2 ^ 57 ≤ va x) → ∃ u, exec (.transferFatalFault q id code) s = .next u ∧ u.mem = s.mem ∧
       gone u ∧ tile u = some { t with state := if fills then .empty else .ready, err := 1 }))

/-- What the arbiter grants (R139, R141): of the entries that may be granted, the oldest of the highest band; where more than n
waiting entries have at most n passes left for others before them (no more than 15 less those granted since they arrived), only
among those; it runs, and a pass is counted against every waiting entry that does not depend on it. OPERATION_RETIRE and
SLOT_RELEASE (R138, R145): a granted operation retires and leaves the table (a seam pass waits for the follower's own). What it
computes: ACZERO has cleared its accumulator (R339); MMA of m64 tiles (R149, R336) adds the 64 products of each element to it,
or to zero, modulo q; MMA of floating-point tiles without scales (R147, R336) adds them in the order of groups of eight, the
flags going to the group; ACRD of an m64 accumulator puts its elements into the tile, ACWR takes those of the tile modulo q
(R340). A slot of a workgroup that has ended is released once no tile located in any of the
workgroup's slots is being read or transferred. -/
def Obligations.MatrixOperations : Prop :=
  let among (s : State) (q : QuadId) : List EngEntry := match (s.quad q).bound with
    | none => eligible s q
    | some n => (eligible s q).filter (fun e => (s.quad q).slacks.any (fun x => x.1.id == e.id && decide (x.2 ≤ n)))
  ((∀ (s : State) (q : QuadId) (x : EngEntry), choose s q = some x →
     ∃ l r, among s q = l ++ x :: r ∧ (∀ e ∈ l, e.band < x.band) ∧ (∀ e ∈ r, e.band ≤ x.band)) ∧
   (∀ (s : State) (q : QuadId), (choose s q = none ↔ among s q = []) ∧
     ((s.quad q).slacks.map (fun x => x.1) = (s.quad q).entries.filter (fun e => !e.granted)) ∧
     (∀ x ∈ (s.quad q).slacks, x.2 ≤ 15 - x.1.passes) ∧
     (∀ n, (s.quad q).bound = some n → n < ((s.quad q).slacks.filter (fun x => decide (x.2 ≤ n))).length)) ∧
   (∀ (s : State) (q : QuadId) (x : EngEntry), choose s q = some x → x.seam = false →
     ∃ u, exec (.passGrant q) s = .next u ∧ u.mem = s.mem ∧ u.groups = s.groups ∧ (u.quad q).ownDue = false ∧
       (u.quad q).entries = (s.quad q).entries.map (fun e =>
         if e.id = x.id then { e with granted := true }
         else if e.granted ∨ depends q x e then e else { e with passes := e.passes + 1 })) ∧
   (∀ (s : State) (q : QuadId) (n : Nat), ∃ u, exec (.bandRise q n) s = .next u ∧ u.mem = s.mem ∧
     (u.quad q).entries = (s.quad q).entries.map (fun e =>
       if e.id = n ∧ e.granted = false ∧ e.band < 3 ∧ e.arrived + 4000 ≤ s.now then
         { e with band := e.band + 1, arrived := e.arrived + 4000 } else e))) ∧
  ((∀ (s : State) (q : QuadId) (e : EngEntry), (s.quad q).entries.find? (fun x => x.granted) = some e →
     (e.seam = true → (s.quad (followerOf q)).running = true → exec (.operationRetire q) s = .next s) ∧
     (e.seam = false → ∃ u, exec (.operationRetire q) s = .next u ∧ u.mem = s.mem ∧ ∀ x ∈ (u.quad q).entries, x.id ≠ e.id) ∧
     (e.minor = 13 → e.spoiled = false → ∀ a, accOf (s.quad q) e.world e.launch (recAt e.record 0) = some a →
       ∃ u, exec (.operationRetire q) s = .next u ∧ (u.quad q).accs = (s.quad q).accs.map (fun x =>
         if x.base = a.base then a.clear else x))) ∧
   (∀ (s : State) (q : QuadId) (e : EngEntry) (a : Acc) (t v : Tile) (n m : Nat),
     (s.quad q).entries.find? (fun x => x.granted) = some e → e.spoiled = false → e.spots = [] → 3 ≤ e.q → e.q < 2 ^ 62 →
     let acc (k : Nat) (u : State) : Option Acc := accOf (u.quad q) e.world e.launch (recAt e.record k)
     let tile (k : Nat) : Option (Nat × Tile) := tileOf (s.quad q) e.world e.launch (recAt e.record k)
     let done (u : State) : Prop := exec (.operationRetire q) s = .next u ∧ u.mem = s.mem
     let x := engineElem s q t
     let y := engineElem s q v
     EngineTile s q t →
     (e.minor = 0 → e.i4.getLsbD 1 = false → EngineTile s q v → tile 0 = some (n, t) → tile 1 = some (m, v) → acc 2 s = some a →
       let old (i j : Nat) : Nat := if e.i4.getLsbD 0 then 0 else gridElem a.grid i j
       (a.m64 = true → t.tag = 6 → v.tag = 6 → ∃ u b, done u ∧ acc 2 u = some b ∧ ∀ i j, i < 64 → j < 64 →
         gridElem b.grid i j = (old i j + ((List.range 64).map (fun k => x i k * y k j)).sum) % e.q) ∧
       (∀ f f', a.m64 = false → tileFmt t.tag = some f → tileFmt v.tag = some f' → ∃ u b, done u ∧ acc 2 u = some b ∧
         let dot (i j : Nat) : Nat × Word := fpDot (fun k => f.decode (x i k)) (fun k => f'.decode (y k j)) (old i j)
         (∀ i j, i < 64 → j < 64 → gridElem b.grid i j = (dot i j).1) ∧
         ∀ g, s.group e.key = some g → g.serial = e.serial → ∃ h, u.group e.key = some h ∧
           h.flags = g.flags ||| joinFlags ((List.range 64).flatMap (fun i => (List.range 64).map (fun j => (dot i j).2))))) ∧
     (e.minor = 7 → e.i4 = 0 → a.m64 = true → t.tag = 5 ∨ t.tag = 6 → wgAlive s t.launch t.wg = true → tile 1 = some (n, t) →
       acc 0 s = some a → ∃ u, done u ∧ ∀ i j, i < dRows t.desc.toNat → j < dCols t.desc.toNat →
         locRead u (u.quad q) t i j 8 = gridElem a.grid i j) ∧
     (e.minor = 8 → a.m64 = true → t.tag = 5 ∨ t.tag = 6 → tile 0 = some (n, t) → acc 1 s = some a → ∃ u b, done u ∧
       acc 1 u = some b ∧ ∀ i j, i < 64 → j < 64 → gridElem b.grid i j =
         if i < dRows t.desc.toNat ∧ j < dCols t.desc.toNat then x i j % e.q else gridElem a.grid i j)) ∧
   (∀ (s : State) (q : QuadId) (n : Nat) (o : OpSlot), lookupN (s.quad q).slots n = some o →
     o.ended = true → wgAlive s o.launch o.wg = false → (∀ p ∈ (s.quad q).slots, p.1 = n → p.2 = o) →
     let uses (t : Nat × TileSlot) : Prop := ∃ x i, t.2.tile = some x ∧ x.inFlight = true ∧ x.opSlot = some i ∧
       i ∈ (s.quad q).endedSlots o.launch o.wg
     ((∀ t ∈ (s.quad q).tiles, ¬ uses t) →
       ∃ u, exec (.slotRelease q n) s = .next u ∧ (u.quad q).slots = (s.quad q).slots.filter (fun p => p.1 != n)) ∧
     ((∃ t ∈ (s.quad q).tiles, uses t) →
       ∃ u, exec (.slotRelease q n) s = .next u ∧ (u.quad q).slots = (s.quad q).slots)) ∧
   (∀ (s : State) (q : QuadId) (n : Nat), (∀ p ∈ (s.quad q).slots, p.1 = n → p.2.ended = false) →
     ∃ u, exec (.slotRelease q n) s = .next u ∧ (u.quad q).slots = (s.quad q).slots))

/-! ### Code segments, placement, bins, issue (13, 15) -/

/-- SEGMENT_LANDED (R191, R197): a slot being fetched holds the 4,096 bytes of its frame as home has them, and is
LANDED. -/
def Obligations.SegmentsLand : Prop :=
  ∀ (s : State) (c : CoreId) (n : Nat) (p : Place) (o : OverlaySlot),
    let f := p.home
    lookupN (s.core c).overlay n = some o → o.state = .fetching → o.frame = some p → p.pa % 4096 = 0 → isHost f = false →
    (∀ i < 128, let w := f / 32 + i
      w ∉ s.lines.bad ∧ isProtected s (32 * w) = false ∧ lookupN s.lines.held (wordLine w) = none ∧
      (wordDie w = c.die ∨ (liveCopy s.now (s.die c.die).copies w = none ∧ wordCells (s.die c.die).dirty w = []))) →
    ∃ u x, exec (.segmentLanded c n) s = .next u ∧ u.mem = s.mem ∧ lookupN (u.core c).overlay n = some x ∧
      x.state = .landed ∧ x.world = o.world ∧ (∀ a < 4096, readCell x.bytes a = readCell s.mem (f + a)) ∧
      (∀ m, m ≠ n → lookupN (u.core c).overlay m = lookupN (s.core c).overlay m)

/-- WORKGROUP_PLACEMENT and NEIGHBOURHOOD_PLACEMENT of a launch without bindings (R210, R211): the next workgroup goes
to a core that it fits (by the model's choice, log entry 20, the lowest); a neighbourhood goes, member by member and
row by row, to the cores of a rectangle of one die, and does so where every core takes a workgroup. That a launch without nested
levels places one workgroup or neighbourhood at a time, and that the last neighbourhood, or one of a launch with NBHD and no level
of that binding, holds the workgroups that are left, is the model's reading (log entry 60, DEDUCED). A workgroup as it is placed (R76, R199, R207, R208, R210, R224):
its groups in the lowest free slots of the core, each with one path at ENTRY, the live lanes of its threads, the
argument pair in s0 and s1 and every other register VOID; its barriers expect the groups placed, and its scratchpad
reads as zero. -/
def Obligations.Placement : Prop :=
  (∀ (s : State) (l : Launch) (w : World), s.launch l.id = some l → l.dead = false → l.next < l.wgCount →
     s.world l.world = some w → w.failed = false → l.nest = [] → s.gated = [] → s.waking = [] →
     (∀ (d c : Nat), d < 32 → c < 192 → l.nbhd = 0 → fitsCore s l { die := d, core := c } = true →
       (∀ d' c', c' < 192 → (d' < d ∨ (d' = d ∧ c' < c)) → fitsCore s l { die := d', core := c' } = false) →
       exec (.workgroupPlacement l.id) s = .next
         ((placeWg s l l.next { die := d, core := c } none).setLaunch { l with next := l.next + 1 })) ∧
     (0 < l.nbhd → l.nbhd ≤ 192 → (∀ d c, d < 32 → c < 192 → fitsCore s l { die := d, core := c } = true) →
       ∃ t, exec (.neighbourhoodPlacement l.id) s = .next t ∧ t.mem = s.mem ∧
         t.wgs.length = s.wgs.length + min l.nbhd (l.wgCount - l.next)) ∧
     (∀ (t : State) (plan : List (Nat × CoreId)), 0 < l.nbhd →
       let n := min l.nbhd (l.wgCount - l.next)
       placeNbhds l n l.next n (s, []) = some (t, plan) → planAwake s l plan = true →
       exec (.neighbourhoodPlacement l.id) s = .next (t.setLaunch { l with next := l.next + n }) ∧
       ∃ d row col wd ht, n ≤ wd * ht ∧ row + ht ≤ 12 ∧ col + wd ≤ 16 ∧
         plan = (List.range n).map (fun j => (l.next + j, ({ die := d, core := coreAt (row + j / wd) (col + j % wd) } : CoreId))))) ∧
  (∀ (s : State) (l : Launch) (w : Nat) (c : CoreId) (nb : Option (Nat × Nat)),
     l.placedIn w ≤ (s.freeSlots c).length →
     let u := placeWg s l w c nb
     ∃ gs x, u.groups = s.groups ++ gs ∧ gs.length = l.placedIn w ∧ u.wgs = s.wgs ++ [x] ∧ u.mem = s.mem ∧
       x.launch = l.id ∧ x.wg = w ∧ x.world = l.world ∧ x.core = c ∧ x.banks = l.scr ∧ x.scr = [] ∧
       (∀ i : Fin 16, x.bars[i] = { phase := 0, expect := l.placedIn w, count := 0 }) ∧
       ∀ j g, gs[j]? = some g →
         some g.key.slot = (s.freeSlots c)[j]? ∧ keyCore g.key = c ∧ g.world = l.world ∧ g.launch = l.id ∧ g.wg = w ∧
         g.quota = l.quota ∧ g.p = Vector.replicate 7 0 ∧ g.em = 0xFFFFFFFF ∧ g.flags = 0 ∧ g.q = 0 ∧ g.wct = 0 ∧
         g.slot0 = some (Path.make (BitVec.ofNat 32 l.entry) (lowLanes (l.liveIn w - 32 * j)) l.pri none 0) ∧
         g.slot1 = none ∧ (∀ n, (g.vreg n).tag = .void) ∧
         (g.ureg 0).bits = l.args.setWidth 32 ∧ (g.ureg 1).bits = l.args.extractLsb' 32 32 ∧
         (g.ureg 0).tag = .n64 ∧ (g.ureg 1).tag = .n64 ∧ (∀ n, 2 ≤ n → (g.ureg n).tag = .void))

/-- BIN_TIMER_EXPIRY, BIN_LAUNCH and REGQ_GROW_GRANT (R95, R212): a bin whose time has come, or that is full, launches
one group with a lane and its argument in v0 for each thread once the core has a slot and the registers and no
pre-emption stops it, and waits until then; the first pending grow is granted once its registers are free, and its word is
complete. The marks of issue (R190, R215, R216) and
the passing of time (R162): a slot that has waited 256 cycles ranks at the highest priority, one withheld for 4,096 is
exempt, one that has yielded for 64 is selected again; a quad changes its pool only while no group is on it; a wait
until package time passes T ends with the clock past T. That the exemption counts the ticks since the slot's last word, and that
the wait sets the clock to T + 1, are the model's choice (log entries 34 and 8, DESIGN CHOICE). -/
def Obligations.BinsGrowsAndMarks : Prop :=
  ((∀ (s : State) (c : CoreId) (n : Nat) (b : Bin) (l : Launch), lookupN (s.core c).bins n = some b →
     s.launch b.launch = some l →
     let full := b.expired = true ∨ b.threads.length = 32
     (s.now < b.due → exec (.binTimerExpiry c n) s = .next s) ∧ (¬ full → exec (.binLaunch c n) s = .next s) ∧
     (∀ i r, s.freeSlots c = i :: r → l.quota ≤ s.freeRegs c →
       s.stopping { die := c.die, core := c.core, slot := i } = none →
       ∃ u g, (b.due ≤ s.now → exec (.binTimerExpiry c n) s = .next u) ∧ (full → exec (.binLaunch c n) s = .next u) ∧
         u.groups = s.groups ++ [g] ∧ u.mem = s.mem ∧ (∀ m, lookupN (u.core c).bins m =
           if m = n then none else lookupN (s.core c).bins m) ∧
         g.key = { die := c.die, core := c.core, slot := i } ∧ g.launch = b.launch ∧ g.wg = b.wg ∧
         g.slot0 = some (Path.make b.entry (lowLanes b.threads.length) l.pri none 0) ∧
         (g.vreg 0).tag = b.tag ∧ (∀ j x, b.threads[j]? = some x → j < 32 → (g.vreg 0).lane j = x.1)) ∧
     (s.freeSlots c = [] ∨ s.freeRegs c < l.quota ∨
       (∀ i, s.stopping { die := c.die, core := c.core, slot := i } ≠ none) → ∃ u, (b.due ≤ s.now → exec (.binTimerExpiry c n) s = .next u) ∧
       (full → exec (.binLaunch c n) s = .next u) ∧ u.groups = s.groups ∧
       lookupN (u.core c).bins n = some { b with expired := true })) ∧
   (∀ (s : State) (c : CoreId) (k : Key) (q : Nat) (r : List (Key × Nat)) (g : Group),
     (s.core c).grows = (k, q) :: r → s.group k = some g → g.key = k →
     (s.freeRegs c < q - g.quota → exec (.regqGrowGrant c) s = .next s) ∧
     (q - g.quota ≤ s.freeRegs c →
       let h := (g.requota q).grown s.tick
       exec (.regqGrowGrant c) s = .next (afterWord ((s.setCore { s.core c with grows := r }).setGroup h) k) ∧
       h.quota = q ∧ h.u = g.u ∧ h.p = g.p ∧ (∀ n, n < g.quota → n < q → n < 96 → h.vreg n = g.vreg n) ∧
       ∀ sl p, g.slot sl = some p → p.grows = true → h.slot sl = some (p.next s.tick)))) ∧
  ((∀ (s : State) (k : Key) (sl : Bool) (g : Group) (p : Path), s.group k = some g → g.slot sl = some p →
     let put (f : Path → Path) : State := s.setGroup (g.setSlot sl (some (f p)))
     (256 ≤ p.aged → exec (.issueAgeBoost k sl) s = .next (put (fun p => { p with boost := true }))) ∧
     (p.issued + 4096 ≤ s.tick → exec (.withholdExemption k sl) s = .next (put (fun p => { p with exempt := true }))) ∧
     (p.issued + 64 ≤ s.tick → exec (.yieldExpiry k sl) s = .next (put (fun p => { p with yielded := [] }))) ∧
     (∀ a b : Ready, a.path.boost = true → b.path.boost = false → b.path.pri ≠ 15 → a.before b = true)) ∧
   (∀ (s : State) (q : QuadId) (cl : OpClass) (n : Nat),
     ((∃ g ∈ s.groups, keyQuad g.key = q) → exec (.quadPoolReassign q cl n) s = .next s) ∧
     ((∀ g ∈ s.groups, keyQuad g.key ≠ q) → ∃ u, exec (.quadPoolReassign q cl n) s = .next u ∧ (u.quad q).cls = cl ∧
       (u.quad q).refill = n ∧ (u.quad q).tiles = (s.quad q).tiles ∧ u.mem = s.mem)) ∧
   (∀ (s : State) (T : Nat), exec (.waitUntilPackageTimePasses T) s = .next { s with now := max s.now (T + 1) }))

/-! ### Queues, packets, answers (16_command_queues.md) -/

/-- Queues begin, are woken and end (R219, R220, R223, R225, R264): a sound record makes an ACTIVE queue with RIDX,
VERSION, DROPPED and its reserved bits zero; a doorbell wakes the owner of a queue of an open world, and is dropped
otherwise; a destroyed queue is DESTROYED, and its packets that have started stay; and, as log entry 95
(DEDUCED) reads R220, no packet starts until every other die has acknowledged the last change: that clause is the model's. No packet starts either
while something is owed or still has to abort, or a BARRIER's reading is under way (R356). QUEUE_POLL (R218, R223, R227, R228): the next packet is started by its type, and a
header not ready or no packet starts nothing; a packet of TYPE 6 to 15 is checked at once; a write index or a ring that may not be
accessed is reported; a queue that may not start anything only looks for answers. -/
def Obligations.Queues : Prop :=
  ((∀ (s : State) (q : QueueId) (r : BitVec 512),
     let x := r.toNat
     let ok := 4 ≤ bitsOf x 176 5 ∧ bitsOf x 176 5 ≤ 16 ∧ 3 ≤ bitsOf x 172 4 ∧ bitsOf x 172 4 ≤ 12 ∧
       bitsOf x 448 64 % 64 = 0 ∧ bitsOf x 384 64 % 64 = 0 ∧ bitsOf x 320 64 % 8 = 0
     (¬ ok → exec (.queueCreate q r) s = .next s) ∧
     (ok → q < 65536 → s.trust.running ≠ none → s.queue q = none → ∃ u y, exec (.queueCreate q r) s = .next u ∧
       u.queue q = some y ∧ y.ring.toNat = bitsOf x 448 64 ∧ y.exq.toNat = bitsOf x 384 64 ∧ y.wptr.toNat = bitsOf x 320 64 ∧
       y.ridx = 0 ∧ y.version = 0 ∧ y.dropped = 0 ∧ y.state = 0 ∧ y.owner = bitsOf x 187 5 ∧ y.world = bitsOf x 181 6 ∧
       y.rlog = bitsOf x 176 5 ∧ y.elog = bitsOf x 172 4 ∧ u.mem = s.mem)) ∧
   (∀ (s : State) (q : QueueId) (y : Queue) (w : World), s.queue q = some y → s.world y.world = some w → q < 65536 →
     let up : State := s.setQueue { y with wake := true }
     let at_ := 0x10000000 + 8 * q
     (y.state ≠ 2 → w.accepts = true → exec (.doorbell q) s = .next up ∧ exec (.registerWrite at_ 0) s = .next up) ∧
     (y.state = 2 ∨ w.accepts = false → exec (.doorbell q) s = .next s ∧ exec (.registerWrite at_ 0) s = .next s)) ∧
   (∀ (s : State) (q : QueueId) (y : Queue), s.queue q = some y → y.state ≠ 2 →
     let dead := changeQueue s { y with state := 2 }
     exec (.queueDestroy q) s = .next (abortUnstarted dead q (-3)) ∧
     (∃ z, dead.queue q = some z ∧ z.state = 2 ∧ z.version = y.version + 1 ∧ z.started = y.started ∧ z.ridx = y.ridx ∧
       let doomed := setDoom dead q (some { code := -3, next := y.ridx, stop := none, retire := false, bad := false })
       ∀ t, readWidx z doomed = .ok y.ridx t → exec (.queueDestroy q) s = .next (setDoom t q none))) ∧
   (∀ (s : State) (q : QueueId) (y : Queue) (d : Nat), s.queue q = some y →
     (d ∈ y.acks → exec (.replicaInvalidationAck q d) s = .next
       (s.setQueue { y with acks := y.acks.filter (fun x => x != d), wake := true })) ∧
     (d ∉ y.acks → exec (.replicaInvalidationAck q d) s = .next s) ∧
     (y.acks ≠ [] ∨ y.state ≠ 0 ∨ y.blocked = true ∨ y.halted ≠ [] ∨ y.owed ≠ [] ∨ y.doom ≠ none ∨
         (∃ p ∈ y.started, p.reading = true) → ∀ i ∈ [Instr.kernel q, .copy q, .barrier q, .signal q, .marker q],
       exec i s = .next s))) ∧
  (∀ (s : State) (q : QueueId) (y : Queue), s.queue q = some y → y.owed = [] → y.doom = none → y.held = [] → y.halted = [] →
     s.xlat.demand = [] →
     let polled := s.setQueue { y with wake := false, polled := s.now }
     (mayStart polled y = false → exec (.queuePoll q) s = .next polled) ∧
     (mayStart polled y = true →
       (∀ t, nextPacket y polled = .ok none t → exec (.queuePoll q) s = .next t) ∧
       (∀ t w, nextPacket y polled = .ok (some w) t →
         (pType w = 1 → exec (.queuePoll q) s = .next (t.due [.kernel q])) ∧
         (pType w = 2 → exec (.queuePoll q) s = .next (t.due [.copy q])) ∧
         (pType w = 3 → exec (.queuePoll q) s = .next (t.due [.barrier q])) ∧
         (pType w = 4 → exec (.queuePoll q) s = .next (t.due [.signal q])) ∧
         (pType w = 5 → exec (.queuePoll q) s = .next (t.due [.marker q])) ∧
         (5 < pType w → exec (.queuePoll q) s = .next (startPacket t q (pType w)))) ∧
       (∀ f t, nextPacket y polled = .error (.fault f) t →
         exec (.queuePoll q) s = .next (badAccess polled q y.world y.ridx (peekTag polled y y.ridx) f))))

/-- A packet that passes its checks starts (R223, R224, R170, R171): the slot's TYPE is
cleared and RIDX advances with a new VERSION; KERNEL adds its launch, COPY and BARRIER stand among the started packets,
SIGNAL changes its target's VALUE and MARKER writes the time, and both complete at once.
The regions of a KERNEL are invalidated at its start by log entry 51 (DEDUCED): that clause is the model's. The ends of packets (R171,
R222, R224, R225): a KERNEL whose workgroups have all ended and a COPY whose bytes have moved wait until every
completion time has passed, and then leave the started packets; a BARRIER completes when it reads zero in every
signal, aborts at the first one below zero whatever the others give (R225), is reported where a signal may not be accessed
(R356), and else reads again. Where the firmware holds the host pages of the ring, the write index and what the packet names, and
their lines are in M, every packet without CSIG that is well-formed starts. -/
def Obligations.PacketsStartAndComplete : Prop :=
  (∀ (s s₁ s₂ s₃ s₄ s₅ : State) (q : QueueId) (y z : Queue) (w : List DWord) (c : Checked),
     s.queue q = some y → mayStart s y = true → y.barred = none →
     nextPacket y s = .ok (some w) s₁ → fwReady y.ringCap (y.ring.toNat + 64 * (y.ridx % 2 ^ y.rlog)) s₁ = .ok () s₂ →
     checkPacket y w s₂ = .ok (.ok c) s₃ →
     (if pType w = 1 then voidRegions y.world c.regions else pure ()) s₃ = .ok () s₄ →
     retireSlot y w s₄ = .ok () s₅ → s₅.queue q = some z →
     let p : Packet :=
       { pidx := y.ridx, words := w, regions := c.regions.filter (fun e => regionLen e != 0)
         waits := c.waits.filter (fun e => regionLen e != 0), launch := c.launch.map (fun l => l.id), since := s₅.now
         wctDue := if pType w = 3 then some s₅.now else none, moved := none, reading := false }
     let on := s₅.setQueue { z with started := z.started ++ [p], blocked := pBar w, barred := none }
     (∀ x, s₄.queue q = some x → z.ridx = x.ridx + 1 ∧ z.version = x.version + 1 ∧ z.acks.length = (if x.owner < 32 then 31 else 32)) ∧
     (pType w = 1 → ∀ l, c.launch = some l →
       exec (.kernel q) s = .next { on with launches := on.launches ++ [l], nextId := on.nextId + 1 }) ∧
     (pType w = 2 → exec (.copy q) s = .next on) ∧ (pType w = 3 → exec (.barrier q) s = .next on) ∧
     (pType w = 4 → ∀ v t u, readSignal y.world (word w 2) on = .ok v t →
       let x := intOf true 64 (word w 3)
       writeSignal y.world (word w 2) (match word w 4 with | 0 => x | 1 => v + x | _ => v - x) t = .ok () u →
       exec (.signal q) s = .next (completePacket (wakeBarriers u) q p)) ∧
     (pType w = 5 →
       (word w 2 = 0 → exec (.marker q) s = .next (completePacket on q p)) ∧
       (word w 2 ≠ 0 → ∀ u, fwWrite (derive_ y.world (word w 2) 8 8 true) (word w 2) on.now 8 on = .ok () u →
         exec (.marker q) s = .next (completePacket u q p)))) ∧
  ((∀ (s : State) (q : QueueId) (y : Queue) (p : Packet) (d : Nat), s.queue q = some y → p.wctDue = some d →
     pCsig p.words = 0 →
     (∀ l : Launch, s.launch l.id = some l → l.wgCount ≤ l.ended → l.dead = false → launchedBy s l.id = some (q, p) →
       (s.now ≤ d → exec (.kernelCompletion l.id) s = .next s) ∧
       (d < s.now → (∀ x ∈ s.queues, x.id ≠ q → ∀ r ∈ x.started, r.launch ≠ some l.id) →
         (∀ r ∈ y.started, r.launch = some l.id → r.pidx = p.pidx) →
         ∃ u z, exec (.kernelCompletion l.id) s = .next u ∧ u.launch l.id = none ∧ u.queue q = some z ∧
           z.started = y.started.filter (fun r => r.pidx != p.pidx) ∧ z.wake = true ∧ u.mem = s.mem)) ∧
     (startedPacket y p.pidx = some p → pType p.words = 2 → p.moved ≠ none →
       (s.now ≤ d → exec (.copyCompletion q p.pidx) s = .next s) ∧
       (d < s.now → ∃ u z, exec (.copyCompletion q p.pidx) s = .next u ∧ u.queue q = some z ∧
         z.started = y.started.filter (fun r => r.pidx != p.pidx) ∧ u.mem = s.mem))) ∧
   (∀ (s t : State) (q : QueueId) (y : Queue) (p : Packet) (n : Nat), s.queue q = some y → startedPacket y p.pidx = some p →
     pType p.words = 2 → p.wctDue = none → p.moved = none → p.regions = [] → copyRun y p s = .ok n t →
     ∃ u z, exec (.copyCompletion q p.pidx) s = .next u ∧ u.mem = t.mem ∧ u.queue q = some z ∧
       startedPacket z p.pidx = some { p with moved := some n, wctDue := some n }) ∧
   (∀ (s t : State) (q : QueueId) (y : Queue) (p : Packet) (seen : List Seen), s.queue q = some y →
     startedPacket y p.pidx = some p → pType p.words = 3 → y.haltedAt p.pidx = false →
     readSignals y.world (waitSignals p.words) s = (seen, t) →
     let later := setPacket t q { p with wctDue := some (t.now + 10000), reading := seen.any (fun x => x == .wait) }
     (∀ a, firstAbort seen = some a → exec (.barrierSignalReread q p.pidx) s = .next (abortPacket t q p a)) ∧
     (firstAbort seen = none →
       (∀ f, firstFault seen = some f →
         exec (.barrierSignalReread q p.pidx) s = .next (badAccess later q y.world p.pidx (pTag p.words) f)) ∧
       (firstFault seen = none →
         ((∀ x ∈ seen, x = .value 0) → p.waits = [] →
           exec (.barrierSignalReread q p.pidx) s = .next (completePacket (edgeDone t y.world) q p)) ∧
         ((∃ x ∈ seen, x ≠ .value 0) → exec (.barrierSignalReread q p.pidx) s = .next later))))) ∧
  (∀ (s : State) (q : QueueId) (y : Queue) (hx h hp : Nat),
     s.queue q = some y → mayStart s y = true → y.barred = none → s.xlat.reqs = [] →
     y.ring.toNat % 64 = 0 → y.ring.toNat + 64 * 2 ^ y.rlog ≤ 2 ^ 57 → y.wptr.toNat % 8 = 0 →
     FwHolds s y.world y.wptr.toNat hx → y.ridx < readLE s.mem hx 8 → readLE s.mem hx 8 ≤ y.ridx + 2 ^ y.rlog →
     let at_ := y.ring.toNat + 64 * (y.ridx % 2 ^ y.rlog)
     (∀ i < 8, FwHolds s y.world (at_ + 8 * i) (h + 8 * i)) →
     let w := (List.range 8).map (fun i => BitVec.ofNat 64 (readLE s.mem (h + 8 * i) 8))
     packetBad w = false → pCsig w = 0 → (packetPointers w).any pointerBad = false →
     let starts (i : Instr) : Prop := ∃ t z, exec i s = .next t ∧ t.queue q = some z ∧ z.ridx = y.ridx + 1
     (pType w = 1 → (∀ i < 8, FwHolds s y.world (word w 2 + 8 * i) (hp + 8 * i)) →
       let l : Launch :=
         { id := s.nextId, world := y.world, queue := q, pidx := y.ridx
           record := BitVec.ofNat 512 (readLE s.mem hp 64), args := BitVec.ofNat 64 (word w 3), table := none
           next := 0, ended := 0, dead := false }
       l.rtab = 0 → launchBad l = false → (launchPointers l).any pointerBad = false →
       (∀ i < l.nseg, ∃ x, ∀ j < 128, FwHolds s y.world (l.segs + 4096 * i + 32 * j) (x + 32 * j)) → starts (.kernel q)) ∧
     (pType w = 2 → starts (.copy q)) ∧
     (pType w = 3 → waitSignals w = [] → starts (.barrier q)) ∧
     (pType w = 4 → (∀ i < 24, FwHolds s y.world (word w 2 + 8 * i) (hp + 8 * i)) → starts (.signal q)) ∧
     (pType w = 5 → word w 2 = 0 → starts (.marker q)))

/-- Exception records (R226, R227): the fields of a record as they are written; a held record written frees its place,
and one that waits for an answer halts the queue; with the ring full, a record that needs an answer stays held and a
notice is dropped, with DROPPED counted up to its largest value. The answers (R228, R55): RESUME makes the queue
ACTIVE and the packet is tried again; SKIP and ABORT retire it without effect, ABORT with an ABORTED record due, and complete or
abort one that has started; for
an XLATE_DEMAND record RESUME lets the stalled accesses go on, and ABORT makes their fault fatal. -/
def Obligations.RecordsAndAnswers : Prop :=
  ((∀ (y : Queue) (r : ExRecord),
     let w (i : Nat) : Nat := ((recordWords y r)[i]?.getD 0).toNat
     (recordWords y r).length = 8 ∧ bitsOf (w 0) 0 8 = 0 ∧ bitsOf (w 0) 8 8 = r.code.toNat ∧ bitsOf (w 0) 16 16 = r.qtag.toNat ∧
     bitsOf (w 0) 32 16 = y.id % 65536 ∧ bitsOf (w 0) 48 6 = y.world % 64 ∧ bitsOf (w 0) 54 10 = 0 ∧
     w 1 = r.pidx % 2 ^ 64 ∧ w 2 = r.addr.toNat ∧ w 3 = r.pc.toNat ∧ w 4 = r.lmask.toNat ∧ w 5 = 0 ∧ w 6 = 0 ∧ w 7 = 0) ∧
   (∀ (s t : State) (q : QueueId) (y : Queue) (r : ExRecord), s.queue q = some y → y.held = [r] →
     let empty := s.setQueue { y with held := [] }
     (writeRecord { y with held := [] } r empty = .ok true t →
       ∃ u, exec (.heldRecordWrite q) s = .next u ∧ u.mem = t.mem ∧ u.queue q = some { y with
         held := [], exNext := y.exNext + 1
         halted := if needsAnswer r.kind = true ∧ r.kind ≠ 3 then y.halted ++ [(y.exNext, r.pidx)] else y.halted }) ∧
     (writeRecord { y with held := [] } r empty = .ok false t → ∃ u z, exec (.heldRecordWrite q) s = .next u ∧ u.mem = t.mem ∧
       u.queue q = some z ∧ z.exNext = y.exNext ∧
       (needsAnswer r.kind = true → z.held = [r] ∧ z.dropped = y.dropped) ∧
       (needsAnswer r.kind = false → z.held = [] ∧ z.dropped.toNat = min (2 ^ 32 - 1) (y.dropped.toNat + 1))))) ∧
  ((∀ (s t : State) (q : QueueId) (y : Queue) (n pidx : Nat) (a : Nat) (c : Int), s.queue q = some y → y.state = 1 →
     lookupN y.halted n = some pidx → (∀ x ∈ y.halted, x.1 = n) → (∀ r ∈ y.held, needsAnswer r.kind = false) →
     y.doom = none → readAnswer s y n = (some (a, c), t) → t.queue q = some y → t.xlat.demand = [] →
     let ev : Instr := match a with | 1 => .answerResume q n | 2 => .answerSkip q n | _ => .answerAbort q n
     (a = 1 → ∃ u z, exec ev s = .next u ∧ u.queue q = some z ∧ u.mem = t.mem ∧ z.state = 0 ∧ z.halted = [] ∧
       z.ridx = y.ridx ∧ z.version = y.version + 1 ∧ z.wake = true) ∧
     (∀ w s₁ s₂, a = 2 ∨ a = 3 → pidx = y.ridx → startedPacket y pidx = none → y.owed = [] →
       readPacket y y.ridx t = .ok w s₁ → pCsig w = 0 → retireSlot y w s₁ = .ok () s₂ →
       ∃ u z, exec ev s = .next u ∧ u.queue q = some z ∧ u.mem = s₂.mem ∧ z.state = 0 ∧ z.halted = [] ∧
         z.ridx = y.ridx + 1 ∧ (a = 2 → z.held = y.held) ∧
         (a = 3 → ∃ r, z.held = y.held ++ [r] ∧ r.kind = 5 ∧ r.pidx = y.ridx)) ∧
     (∀ p, startedPacket y pidx = some p → y.owed = [] →
       (a = 2 → exec ev s = .next (reactivate (forgetHalt (completePacket t q p) q n) q)) ∧
       (a = 3 → exec ev s = .next (reactivate (forgetHalt (abortPacket t q p c) q n) q)))) ∧
   (∀ (s t : State) (q : QueueId) (y : Queue) (n a : Nat) (c : Int) (d : Demand), s.queue q = some y → lookupN y.halted n = none →
     readAnswer s y n = (some (a, c), t) →
     t.xlat.demand.find? (fun d => d.queue == q && d.n == some n && !d.aborted) = some d →
     let open_ (u : State) : Prop := ∀ x ∈ u.quads, ∀ o ∈ x.ops, o.by_.world = d.world → o.stalled = false
     (a = 1 → ∃ u, exec (.answerResume q n) s = .next u ∧ d ∉ u.xlat.demand ∧ open_ u ∧ u.mem = t.mem) ∧
     (a = 2 → ∃ u, exec (.answerSkip q n) s = .next u ∧ { d with aborted := true } ∈ u.xlat.demand ∧ open_ u ∧ u.mem = t.mem) ∧
     (a = 3 → ∃ u, exec (.answerAbort q n) s = .next u ∧ { d with aborted := true } ∈ u.xlat.demand ∧ open_ u ∧ u.mem = t.mem)))

/-! ### Teardown and hangs (17_faults_and_services.md) -/

/-- TEARDOWN, TEARDOWN_CORE_HALT and HANG (R238, R239): the world's address space is withdrawn, its launches place no
more, its transfers and its operations that were not granted are discarded, its collective operations abort, and the
translations and groups of other worlds stay, and so do the host pages that the firmware holds, which the aborts of step 4 need; cores that have not retired its groups after 1 ms are halted; a packet
started longer ago than the watchdog time is fatal to its world. TEARDOWN_SCRUB (R238, R284): once no group and no
running operation of the world is left, what it held is freed, the registers of its groups that have retired are scrubbed (R357), its banks wait to be zeroed, its queues are DESTROYED
and the world may be rebuilt. -/
def Obligations.Teardown : Prop :=
  ((∀ (s : State) (w : World) (t : Nat), s.world w.id = some w → w.failed = false → w.dying = some t →
     ∃ u, exec (.teardown w.id) s = .next u ∧ u.mem = s.mem ∧ u.world w.id = some { w with failed := true } ∧
       (∀ e, e ∈ u.xlat.tlb ↔ e ∈ s.xlat.tlb ∧ e.world ≠ w.id) ∧ u.xlat.host = s.xlat.host ∧ (∀ d ∈ u.xlat.demand, d.world ≠ w.id) ∧
       (∀ l ∈ u.launches, l.world = w.id → l.dead = true) ∧
       (∀ q, ∀ o ∈ (u.quad q).ops, o.by_.world ≠ w.id) ∧ (∀ q, ∀ e ∈ (u.quad q).entries, e.world = w.id → e.granted = true) ∧
       (∀ d, ∀ x ∈ (u.die d).coll, x.2.world = w.id → x.2.open_ = false) ∧
       (∀ g ∈ s.groups, (∀ h ∈ s.groups, h.key = g.key → h.world ≠ w.id) → g ∈ u.groups)) ∧
   (∀ (s : State) (w : World) (t : Nat), s.world w.id = some w → w.dying = some t →
     (w.failed = true → t + 1000000 ≤ s.now → ∃ u, exec (.teardownCoreHalt w.id) s = .next u ∧ u.mem = s.mem ∧
       (∀ g ∈ u.groups, g.world ≠ w.id) ∧ (∀ q, ∀ e ∈ (u.quad q).entries, e.world ≠ w.id)) ∧
     (s.now < t + 1000000 → exec (.teardownCoreHalt w.id) s = .next s)) ∧
   (∀ (s : State) (q : QueueId) (y : Queue) (p : Packet), s.queue q = some y → startedPacket y p.pidx = some p →
     let n := s.trust.config.watchdog
     (n ≠ 0 → p.since + n < s.now →
       exec (.hang q p.pidx) s = .next (fatalOn s y.world (some q) p.pidx cHang 0 0 0 0)) ∧
     (n = 0 ∨ s.now ≤ p.since + n → exec (.hang q p.pidx) s = .next s))) ∧
  (∀ (s : State) (w : World) (t : Nat), s.world w.id = some w → w.failed = true → w.dying = some t →
     (worldGone s w.id = false → exec (.teardownScrub w.id) s = .next s) ∧
     (worldGone s w.id = true → ∃ u, exec (.teardownScrub w.id) s = .next u ∧
       u.world w.id = some { w with dying := none, notices := [] } ∧ u.groups.length = s.groups.length ∧
       (∀ x, x ∈ u.wgs ↔ x ∈ s.wgs ∧ x.world ≠ w.id) ∧ (∀ l ∈ u.launches, l.world ≠ w.id) ∧
       (∀ q y, u.queue q = some y → y.world = w.id → y.state = 2) ∧
       (∀ q, (∀ x ∈ (u.quad q).tiles, ∀ t, x.2.tile = some t → t.world ≠ w.id) ∧ (∀ x ∈ (u.quad q).slots, x.2.world ≠ w.id) ∧
         (∀ a ∈ (u.quad q).accs, a.world ≠ w.id) ∧ ∀ x ∈ (u.quad q).spools, x.2.world ≠ w.id) ∧
       (∀ c, (∀ x ∈ (u.core c).overlay, x.2.world ≠ some w.id) ∧ ∀ x ∈ (u.core c).kept, x.2.world ≠ w.id) ∧
       (∀ x ∈ s.wgs, x.world = w.id → x.banks ≠ 0 → ∃ y ∈ u.scrubs, y.core = x.core ∧ y.banks = x.banks)))

/-! ### Pre-emption (18_preemption_context.md) -/

/-- The requests (R22, R245, R246, R150): PREEMPT_IMMEDIATE stops every group of the partition that stands between issue
units (the others once their unit is complete), writes its pending results, leaves its registers as they are and withdraws
the operations not granted, with a bound that is the longer of 2 us and 2,304 cycles of the slowest clock of the partition's
quads; an operation of a group that has exited stays, which is the model's choice (log entry 104). PREEMPT_BOUNDARY keeps the
packets of the worlds whose launches have groups there, or none placed yet, from starting: which packets those are is the model's
reading (log entry 18, DEDUCED). Exit routines (R247, R248, R250): a group that has a region with a
routine starts it, with one path of priority 15 at EXIT_PC and the lanes of all its paths, what it was kept for its
end; one without is saved as it stands; past its 2 us the routine is abandoned, what it was is back, and the group is
brute-saved. -/
def Obligations.PreemptionStops : Prop :=
  (∀ (s : State) (n : Nat),
     let p := s.part n
     (p.stage ≠ 0 ∨ s.inPart p = [] → exec (.preemptImmediate n) s = .next s) ∧
     (p.stage = 0 → s.inPart p ≠ [] → ∃ u, exec (.preemptImmediate n) s = .next u ∧ u.mem = s.mem ∧
       (u.part n).stage = 1 ∧
       (let b := (u.part n).deadline - s.now
        s.now + 2000 ≤ (u.part n).deadline ∧ ((∀ q ∈ p.ids, 0 < s.clock q) →
          (∀ q ∈ p.ids, 2304000 ≤ b * s.clock q) ∧ (b = 2000 ∨ ∃ q ∈ p.ids, (b - 1) * s.clock q < 2304000))) ∧
       (∀ g ∈ s.inPart p, g.world ∈ (u.part n).worlds) ∧
       (∀ g ∈ u.groups, p.holds (keyCore g.key) = true → g.stage = .running → g.inUnit = true) ∧
       (∀ q ∈ p.ids, ∀ e ∈ (u.quad q).entries, e.granted = true ∨ ∀ g, u.group e.key = some g → g.serial ≠ e.serial) ∧
       (∀ g ∈ s.groups, (∀ h ∈ s.groups, h.key = g.key → h = g) → ∃ h, u.group g.key = some h ∧
         (p.holds (keyCore g.key) = true → g.stage = .running → g.inUnit = false → h.stage = .stopped false ∧ h.pending = []) ∧
         (p.holds (keyCore g.key) = false ∨ g.stage ≠ .running ∨ g.inUnit = true → h.stage = g.stage ∧ h.pending = g.pending ∧
           h.slot0 = g.slot0 ∧ h.slot1 = g.slot1) ∧
         h.v = g.v ∧ h.u = g.u ∧ h.p = g.p ∧ h.em = g.em ∧ h.flags = g.flags ∧ h.q = g.q ∧ h.wct = g.wct ∧ h.svc = g.svc ∧ h.single = g.single)) ∧
     (∃ u, exec (.preemptBoundary n) s = .next u ∧ u.groups = s.groups ∧ u.mem = s.mem ∧
       ∀ l ∈ s.launches, ((∃ g ∈ s.inPart p, g.launch = l.id) ∨ ∀ g ∈ s.groups, g.launch ≠ l.id) →
         ∀ y : Queue, y.world = l.world → mayStart u y = false)) ∧
  ((∀ (s : State) (p : Partition) (g : Group) (b : Bool), s.group g.key = some g → s.stopping g.key = some p →
     p.stage = 1 → stopped s p = true → g.stage = .stopped b → g.routine = .normal →
     (bruteSaved s g = true → exec (.exitRoutineEntry g.key) s = .next (s.setGroup { g with stage := .saved true })) ∧
     (∀ e, bruteSaved s g = false → regionEntry s g = some e → ∃ h,
       exec (.exitRoutineEntry g.key) s = .next (s.setGroup h) ∧ h.key = g.key ∧
       h.slot0 = some (Path.make (BitVec.ofNat 32 (bitsOf e.toNat 160 32)) g.unionLanes 15 none g.nextStamp) ∧ h.slot1 = none ∧
       h.em = g.unionLanes ∧ h.routine = .exit g.snapshot (s.now + 2000) ∧ h.v = g.v ∧ h.u = g.u ∧ h.p = g.p)) ∧
   (∀ (s : State) (g : Group) (x : Snapshot) (d : Nat), s.group g.key = some g → g.routine = .exit x d →
     (s.now < d → exec (.exitRoutineOverrun g.key) s = .next s) ∧
     (d ≤ s.now → ∃ u h, exec (.exitRoutineOverrun g.key) s = .next u ∧ u.mem = s.mem ∧ u.group g.key = some h ∧
       h.stage = .saved true ∧ h.routine = .normal ∧ h.p = x.p ∧ h.em = x.em ∧ h.flags = x.flags ∧ h.score = x.score ∧
       h.slot0 = x.slot0 ∧ h.slot1 = x.slot1 ∧ h.spill = x.spill ∧ h.v = g.v ∧ h.u = g.u)))

/-- HALT_AND_DRAIN, SWAP and IMAGE_MOVE (R246, R251-R253, R74, R183): once every group is saved and no promotion runs,
the drain leaves nothing of the contexts' worlds in the logs; the swap moves groups and workgroups of the partition
into an image, a routine-saved group without registers, that takes a free bay of each quad's slice, written with a new version
under the keys of its worlds (R38, R285), and leaves the quads
free, with their generations; without free bays it waits, and a move of an image frees the bays it held. RESUMPTION
(R254, R257, R259): a map that does not keep seam pairs or rectangles is refused, and on targets that are not free only
sleeping banks are sent to wake (R72); a bay that has another version, or a key that has changed, is an
integrity failure, and the image does not resume (R287); else the bays are free again, the die relies on no clean copy (R74; that
it drops them all is the model's reading, log entry 12, DEDUCED), and the image's groups stand on their targets, brute-saved ones with all that they held, the others with every register
VOID in their entry routines, at ENTRY_PC of their regions. -/
def Obligations.ImagesAreSavedAndResume : Prop :=
  (∀ (s : State) (n : Nat),
     let p := s.part n
     (p.stage = 1 → (∀ g ∈ s.inPart p, ∃ b, g.stage = .saved b) → stopped s p = true →
       (∀ c ∈ s.partCores p, (s.core c).promo = none) →
       (∀ t, ((s.partCores p).forM drainCore : M Unit) s = .ok () t → ∃ u, exec (.haltAndDrain n) s = .next u ∧ u.mem = t.mem ∧
         (u.part n).stage = 3 ∧ (∀ k ∈ u.cores, p.holds k.id = true → ∀ e ∈ k.log, e.world ∉ p.worlds))) ∧
     (p.stage ≠ 1 → exec (.haltAndDrain n) s = .next s) ∧ (p.stage ≠ 3 → exec (.swap n) s = .next s) ∧
     let bays := p.quads.filterMap (freeBay (s.die p.die))
     (bays.length ≠ p.quads.length → exec (.swap n) s = .next s) ∧
     (p.stage = 3 → bays.length = p.quads.length → ∃ u img, exec (.swap n) s = .next u ∧ u.mem = s.mem ∧
       u.images = s.images ++ [img] ∧ (u.part n).stage = 0 ∧ img.groups = (s.inPart p).map Group.image ∧ img.moved = false ∧
       img.bays.map (fun b => b.1) = bays ∧ img.keys = keysOf s p.worlds ∧ img.fault = none ∧
       (∀ b ∈ img.bays, lookupN (s.die p.die).bays b.1 = none ∧ lookupN (u.die p.die).bays b.1 = some img.id ∧
         b.2 = (lookupN (s.die p.die).written b.1).getD 0 + 1 ∧ lookupN (u.die p.die).written b.1 = some b.2) ∧
       (∀ g, g ∈ u.groups ↔ g ∈ s.groups ∧ p.holds (keyCore g.key) = false) ∧
       (∀ w, w ∈ u.wgs ↔ w ∈ s.wgs ∧ p.holds w.core = false) ∧
       (∀ q ∈ p.ids, (u.quad q).ops = [] ∧ (u.quad q).slots = [] ∧ (u.quad q).accs = [] ∧ (u.quad q).entries = [] ∧
         (u.quad q).spools = [] ∧ (u.quad q).accGen = (s.quad q).accGen ∧
         (u.quad q).tiles.map (fun x => (x.1, x.2.gen)) = (s.quad q).tiles.map (fun x => (x.1, x.2.gen)))) ∧
     (∀ g : Group, (g.stage = .saved true → g.image = g) ∧
       (g.stage = .saved false → ∀ r, (g.image.vreg r).tag = .void ∧ (g.image.ureg r).tag = .void)) ∧
     (∀ i, ∃ u, exec (.imageMove i) s = .next u ∧ u.groups = s.groups ∧ u.mem = s.mem ∧
       (∀ x ∈ u.images, x.id = i → x.moved = true ∧ x.bays = []) ∧
       (∀ img, s.images.find? (fun x => x.id == i) = some img → ∀ b ∈ img.bays, lookupN (u.die img.die).bays b.1 = none))) ∧
  (∀ (d : Die) (q b : Nat), freeBay d q = some b → lookupN d.bays b = none ∧ q * sliceBytes ≤ bayOffset b ∧
    bayOffset b + imageBytes ≤ (q + 1) * sliceBytes) ∧
  (∀ (s : State) (img : Image), img.fault = none →
    (imageFault s img = none ↔ (∀ b ∈ img.bays, lookupN (s.die img.die).bays b.1 = some img.id ∧
      lookupN (s.die img.die).written b.1 = some b.2) ∧ ∀ k ∈ img.keys, keyNumber s k.1 = k.2) ∧
    (imageFault s img = none ∨ imageFault s img = some cIntegrity)) ∧
  ((∀ (s : State) (img : Image) (m : List (Nat × Nat)), s.images.find? (fun i => i.id == img.id) = some img →
     (mapOk img m = false → exec (.resumption img.id m) s = .next s) ∧
     (mapOk img m = true →
       img.quads.all (fun q => quadFree q (s.quad { q.id with quad := mapQuad m q.id.quad })) = true →
       img.coreIds.all (coreFree s img m) = false →
       exec (.resumption img.id m) s = .next (wakeBanks s (img.coreIds.map (mapCore m)))) ∧
     (mapOk img m = true →
       img.quads.all (fun q => quadFree q (s.quad { q.id with quad := mapQuad m q.id.quad })) = true →
       img.coreIds.all (coreFree s img m) = true →
       (∀ code, imageFault s img = some code → exec (.resumption img.id m) s =
         .next ((img.groups.map (fun g => g.world)).eraseDups.foldl (fun (s : State) w => fatalOn s w none 0 code 0 0 0 0) s)) ∧
       (imageFault s img = none → (img.groups.map (fun g => mapKey m g.key)).Nodup → (∀ g ∈ img.groups, g.withdrawn = []) →
         ∃ u, exec (.resumption img.id m) s = .next u ∧ u.mem = s.mem ∧ (∀ i ∈ u.images, i.id ≠ img.id) ∧
         (∀ b ∈ img.bays, lookupN (u.die img.die).bays b.1 = none) ∧ (u.die img.die).copies = [] ∧
         u.groups = s.groups ++ img.groups.map (restoreGroup s m)))) ∧
   (∀ (s : State) (m : List (Nat × Nat)) (g : Group),
     let h := restoreGroup s m g
     h.key = mapKey m g.key ∧ h.stage = .running ∧ h.quota = g.quota ∧ h.svc = g.svc ∧ h.q = g.q ∧ h.wct = g.wct ∧
     (g.stage = .saved true → h.v = g.v ∧ h.u = g.u ∧ h.p = g.p ∧ h.em = g.em ∧ h.flags = g.flags ∧
       h.spill.map (fun x => x.entry) = g.spill.map (fun x => x.entry) ∧
       (h.slot0.map (fun p => (p.pc, p.live, p.pri)) = g.slot0.map (fun p => (p.pc, p.live, p.pri)))) ∧
     (g.stage = .saved false → ∀ e, regionEntry s g = some e → (∀ r, (h.vreg r).tag = .void ∧ (h.ureg r).tag = .void) ∧
       h.slot0 = some (Path.make (BitVec.ofNat 32 (bitsOf e.toNat 128 32)) g.unionLanes 15 none g.nextStamp) ∧
       h.slot1 = none ∧ h.em = g.unionLanes ∧ h.rebuiltV = 0 ∧ h.rebuiltU = 0 ∧ h.rebuiltS = 0)))

/-! ### Promotion (11_ordering.md) -/

/-- The promotion at a core (R178, R180, R181, R183): a request of a world without log entries is answered at once; one
that finds entries is taken up with them, pushes them home and frees them, and T is the core's CW then; one of the world of
the promotion in progress joins it. Once package time has passed T every requester is answered with T, and notes it; the
stall of the core's own words ends 4 us after the request. Freeing entries takes their words, and no others, out of the log. -/
def Obligations.PromotionsAreAnswered : Prop :=
  (∀ (s : State) (c : CoreId),
    let k := s.core c
    let answers (r : List (Key × Int)) (t : Nat) := r.map (fun x => (x.1, x.2, t))
    (∀ r rs, k.promo = none → k.waiting = r :: rs → (∀ e ∈ k.log, e.world ≠ r.world) →
      ∃ u, exec (.promotionRequest c) s = .next u ∧ u.mem = s.mem ∧
        u.core c = { k with waiting := rs, acks := k.acks ++ answers r.who.toList k.cw } ∧
        ∀ x ∈ r.who.toList, .promotionAckReceipt x.1 c ∈ u.agenda) ∧
    (∀ r rs t, k.promo = none → k.waiting = r :: rs →
      let es := k.log.filter (fun e => e.world == r.world)
      let p : Promo := { world := r.world, scope := r.scope, entries := es, since := s.now, joined := r.who.toList,
                         timedOut := false, time := none }
      es ≠ [] → pushEntries c es (s.setCore { k with waiting := rs, promo := some p }) = .ok () t →
      ∃ u, exec (.promotionRequest c) s = .next u ∧ u.mem = t.mem ∧ u.core c = { t.core c with
        log := freeEntries (t.core c).log es, promo := some { p with time := some (t.core c).cw } }) ∧
    (∀ p r, k.promo = some p → k.waiting.find? (fun x => x.world == p.world) = some r → ∃ u, exec (.promotionRequest c) s = .next u ∧
      u.core c = { k with promo := some { p with joined := p.joined ++ r.who.toList }, waiting := k.waiting.erase r } ∧
      u.mem = s.mem) ∧
    (∀ p w, k.promo = some p → s.world p.world = some w → w.failed = false →
      (∀ t, p.time = some t → t < s.now → ∃ u, exec (.promotionAcknowledge c) s = .next u ∧ u.mem = s.mem ∧
        u.core c = { k with promo := none, acks := k.acks ++ answers p.joined t } ∧
        ∀ x ∈ p.joined, .promotionAckReceipt x.1 c ∈ u.agenda) ∧
      (∀ t, p.time = some t → s.now ≤ t → exec (.promotionAcknowledge c) s = .next s) ∧
      (∀ v, p.time = none → pushEntries c p.entries s = .ok () v → v.now ≤ (v.core c).cw →
        exec (.promotionAcknowledge c) s = .next (v.setCore { v.core c with
          log := freeEntries (v.core c).log p.entries, promo := some { p with time := some (v.core c).cw } }))) ∧
    (∀ p, k.promo = some p →
      (p.since + 4000 ≤ s.now → exec (.promotionStallTimeout c) s = .next
        (s.setCore { k with promo := some { p with timedOut := true } })) ∧
      (s.now < p.since + 4000 → exec (.promotionStallTimeout c) s = .next s))) ∧
  (∀ (s : State) (c : CoreId) (g : Group) (sl : Bool) (p : Path) (x : Promoting) (t : Nat), s.group g.key = some g →
    g.slot sl = some p → p.promo = some x → c ∈ x.waiting →
    (s.core c).acks.find? (fun a => a.1 == g.key) = some (g.key, p.id, t) →
    ∃ u h, exec (.promotionAckReceipt g.key c) s = .next u ∧
      u.group g.key = some h ∧ u.mem = s.mem ∧ h.v = g.v ∧ h.u = g.u ∧ (u.core c).acks = (s.core c).acks.erase (g.key, p.id, t) ∧
      h.slot sl = some { p with promo := some { x with waiting := x.waiting.erase c, latest := max x.latest t } }) ∧
  (∀ (log es : List LogEntry) (world w : Nat),
    logged (freeEntries log es) world w = (logged log world w && !logged es world w))

/-! ### Collectives (19) -/

/-- COLL.POST, COLL.STAT and COLL.WAIT (R268, R270-R272): POST takes the lowest free slot, after a release at PACKAGE
scope, and returns its handle, at once where a slot is free and nothing of the core waits to be pushed or to pass; STAT reads the status word of a valid handle, else 0; WAIT returns it once the
operation is DONE or ABORTED, and frees the slot with a new generation. What a post is checked for (R271): a group or
rank that the world does not have, a reserved or impossible field, or an m64 operation without a modulus is ABORTED
with CAUSE 1; one that includes a member that has gone with CAUSE 3; else it waits, with the number of its member's earlier
operations. That a post which fails counts among those too is the model's reading (log entry 48, DEDUCED). -/
def Obligations.CollectivePosts : Prop :=
  (∀ (s s₁ s₂ : State) (c : Cx) (g : Guard) (d a : Code) (t : Tag), Tries s c g → Bare c → c.takes = true →
     Alive s c → c.g.single = none → isVec d = false → isVec a = false → c.tag a = t → isInt32 t →
     let die := c.key.die
     let status (w : Word) : Out := { regs := [out32 d 1 (fun _ => w) .n32] }
     (collOf s die c.g.world (c.val a 0) = none →
       Does (.collStat g d a) s c (status 0) ∧ Does (.collWait g d a) s c (status 0)) ∧
     (∀ i o, collOf s die c.g.world (c.val a 0) = some (i, o) →
       Does (.collStat g d a) s c (status (BitVec.ofNat 32 (o.state * 2 ^ 29 + o.cause * 2 ^ 16 + o.fcode.toNat))) ∧
       (3 ≤ o.state →
         let x := s.die die
         DoesAfter (.collWait g d a) s (s.setDie { x with
           coll := dropN x.coll i, collGen := putN x.collGen i ((lookupN x.collGen i).getD 0 + 1) }) c
           (status (BitVec.ofNat 32 (o.state * 2 ^ 29 + o.cause * 2 ^ 16 + o.fcode.toNat))))) ∧
     (∀ (W : Workgroup) (o i n : Nat), (c.val a 0).toNat % 64 = 0 →
       windowFor s c.g.launch c.g.wg (c.val a 0).toNat 64 = some (W, o) →
       releaseActions c .pkg s = .ok () s₁ → i < 64 → lookupN (s₁.die die).coll i = none →
       (∀ j < i, lookupN (s₁.die die).coll j ≠ none) → readWindow c.g (c.val a 0).toNat 64 s₁ = .ok n s₂ →
       let (x, k) := makeColl s₂ c n
       let counted : State := match k with
         | some k => { s₂ with colls := s₂.colls.map (fun y => if y.world == k.world && y.id == k.id then k else y) }
         | none => s₂
       DoesAfter (.collPost g d a) s (setColl counted die i x) c
         (status (BitVec.ofNat 32 (((lookupN (s₁.die die).collGen i).getD 0).toNat * 256 + i)))) ∧
     (∀ (W : Workgroup) (o i : Nat), Calm s c → (c.val a 0).toNat % 64 = 0 →
       windowFor s c.g.launch c.g.wg (c.val a 0).toNat 64 = some (W, o) → i < 64 → lookupN (s.die die).coll i = none →
       ∃ s' w, DoesAfter (.collPost g d a) s s' c (status w))) ∧
  (∀ (s : State) (c : Cx) (n : Nat),
     let (x, k') := makeColl s c n
     x.world = c.g.world ∧ x.group = bitsOf n 192 16 ∧ x.q = c.g.q.toNat ∧ x.by_ = c.g.issuer s ∧ x.since = s.now ∧
     (s.coll c.g.world (bitsOf n 192 16) = none → x.state = 4 ∧ x.cause = 1 ∧ k' = none) ∧
     (∀ k, s.coll c.g.world (bitsOf n 192 16) = some k →
       (k.rankOf s.pkg.toNat c.key.die = none → x.state = 4 ∧ x.cause = 1) ∧
       (∀ r, k.rankOf s.pkg.toNat c.key.die = some r → x.rank = r ∧ x.seq = (lookupN k.posted r).getD 0 ∧
         (∃ y, k' = some y ∧ lookupN y.posted r = some (x.seq + 1)) ∧
         let op := bitsOf n 256 4
         let peer := bitsOf n 208 16
         let bad : Prop := bitsOf n 272 240 ≠ 0 ∨ bitsOf n 263 1 ≠ 0 ∨ bitsOf n 224 32 ≠ 0 ∨ bitsOf n 168 24 ≠ 0 ∨
           6 < op ∨ bitsOf n 260 2 = 3 ∨ k.members.length ≤ peer ∨ (bitsOf n 264 8 = 6 ∧ c.g.q = 0) ∨
           (op ≠ 6 ∧ bitsOf n 128 40 = 0) ∨ (op = 6 ∧ bitsOf n 128 40 ≠ 0) ∨
           (op ≠ 6 ∧ elemBytes (bitsOf n 264 8) = none) ∨
           ((op = 2 ∨ op = 3) ∧ bitsOf n 264 8 ∉ [0x08, 0x0A, 0x02, 0x03, 0x04, 0x05, 0x06])
         let includes (y : Nat) : Prop := 2 ≤ op ∨ y = r ∨ y = peer
         (bad → x.state = 4 ∧ x.cause = 1) ∧
         (¬ bad → (∃ y ∈ k.gone, includes y) → x.state = 4 ∧ x.cause = 3) ∧
         (¬ bad → (∀ y ∈ k.gone, ¬ includes y) → x.state = 1 ∧ x.cause = 0))))

/-- Collective operations end (R269, R272, R273): matched ones move their data and are DONE once every completion time
has passed; ones that do not agree abort with CAUSE 2, whether their members lie in this package or, as the fabric says (log entry
19), in another; 1 ms without the matching operation of a member, or since the last of them posted without data moved, aborts those
that wait with CAUSE 4, and the fault of a peer those that include it with CAUSE 5. What they move (R269, R271), where each member's
SRC can be read: PUT each member's elements to its peer, GET and BROADCAST the peer's to each, REDUCE each element's reduction in
ascending rank order to each, REDUCE_SCATTER its part of that to each, ALLGATHER each member's elements to each in rank order,
BARRIER nothing. An element is read at its place behind SRC and its bytes are put at its place behind DST and merged at home. -/
def Obligations.CollectivesEnd : Prop :=
  (∀ (s : State) (d i : Nat) (o : CollOp), lookupN (s.die d).coll i = some o →
    (∀ posts, o.state = 2 → (o.due < s.now → ∃ u, exec (.collOperationComplete d ⟨i, posts⟩) s = .next u ∧ u.mem = s.mem ∧
        lookupN (u.die d).coll i = some { o with state := 3 }) ∧
      (s.now ≤ o.due → exec (.collOperationComplete d ⟨i, posts⟩) s = .next s)) ∧
    (∀ posts, o.state = 3 ∨ o.state = 4 → exec (.collOperationComplete d ⟨i, posts⟩) s = .next s) ∧
    (∀ posts k, o.state = 1 → (notePosts s o posts).coll o.world o.group = some k →
      let v := notePosts s o posts
      let ps := parties v k o
      let ready : Prop := ∀ p ∈ ps, p.here ≠ none ∨ p.away ≠ none
      (¬ ready → exec (.collOperationComplete d ⟨i, posts⟩) s = .next v) ∧
      (ready → ps.all (Party.agrees o) = false →
        exec (.collOperationComplete d ⟨i, posts⟩) s = .next (setParties v ps (fun x => if x.open_ then x.abort 2 else x))) ∧
      (∀ t n, ready → ps.all (Party.agrees o) = true → (∀ p ∈ ps, ∀ x, p.here = some x → x.2.2.state = 1) →
        collRun ps o v = .ok (some n) t →
        exec (.collOperationComplete d ⟨i, posts⟩) s = .next (setParties t ps (fun x => { x with state := 2, due := n }))) ∧
      (∀ t, ready → ps.all (Party.agrees o) = true → (∀ p ∈ ps, ∀ x, p.here = some x → x.2.2.state = 1) →
        collRun ps o v = .ok none t →
        exec (.collOperationComplete d ⟨i, posts⟩) s = .next (setParties v ps (fun x => x.abort 1))))) ∧
  (∀ (s : State) (n r : Nat) (k : CollGroup), s.colls[n]? = some k →
    let mine (o : CollOp) : Prop := o.world = k.world ∧ o.group = k.id ∧ o.includes r = true
    let here (o : CollOp) : Prop := o.world = k.world ∧ o.group = k.id
    let ready (p : Party) : Prop := p.here ≠ none ∨ p.away ≠ none
    let late (o : CollOp) : Prop := (∃ p ∈ parties s k o, p.rank = r ∧ ¬ ready p) ∨
      ((∀ p ∈ parties s k o, ready p) ∧ ∀ p ∈ parties s k o, ∀ x, p.here = some x → x.2.2.since + 1000000 ≤ s.now)
    (∃ u, exec (.collNoProgress n r) s = .next u ∧ u.mem = s.mem ∧ ∀ d i o, lookupN (s.die d).coll i = some o →
      (here o ∧ o.state = 1 ∧ o.since + 1000000 ≤ s.now ∧ late o →
        lookupN (u.die d).coll i = some { o with state := 4, cause := 4, fcode := 0 }) ∧
      (¬ here o ∨ o.state ≠ 1 ∨ s.now < o.since + 1000000 ∨ ¬ late o → lookupN (u.die d).coll i = some o)) ∧
    (∃ u, exec (.peerFault n r) s = .next u ∧ u.mem = s.mem ∧ ∀ d i o, lookupN (s.die d).coll i = some o →
      (mine o ∧ o.state ≤ 2 → lookupN (u.die d).coll i = some { o with state := 4, cause := 5, fcode := 0 }) ∧
      (¬ mine o ∨ 3 ≤ o.state → lookupN (u.die d).coll i = some o))) ∧
  (∀ (s : State) (ps : List Party) (o : CollOp) (val : Nat → Nat → Nat),
    let d := o.desc.toNat
    let n := bitsOf d 128 40
    let tag := bitsOf d 264 8
    let op := bitsOf d 256 4
    ps.map (fun p => p.rank) = List.range ps.length → bitsOf d 208 16 < ps.length →
    (∀ p ∈ ps, ∀ i < (if op = 3 then ps.length * n else n), p.read ((elemBytes tag).getD 4) i s = .ok (val p.rank i) s) →
    let moves (l : List Put) : Prop := collPlan ps o s = .ok (some l) s
    let whole (r : Nat) : List Nat := (List.range n).map (val r)
    let peer := bitsOf d 208 16
    let red (i : Nat) : Nat := ((List.range ps.length).map (fun r => val r i)).tail.foldl
      (reduceStep tag (bitsOf d 260 2) o.q) (val 0 i)
    let reduces : Prop := ∀ r i, r < ps.length → tag = 6 → val r i < o.q
    (op = 0 → ∀ y, ps[peer]? = some y → moves (ps.map (fun p => { dst := y, off := 0, xs := whole p.rank }))) ∧
    (op = 1 ∨ op = 5 → moves (ps.map (fun p => { dst := p, off := 0, xs := whole peer }))) ∧
    (op = 2 → reduces → moves (ps.map (fun p => { dst := p, off := 0, xs := (List.range n).map red }))) ∧
    (op = 3 → reduces → moves (ps.map (fun p => { dst := p, off := 0
                                                  xs := (List.range n).map (fun i => red (p.rank * n + i)) }))) ∧
    (op = 4 → moves (ps.flatMap (fun p => (List.range ps.length).map (fun r =>
      { dst := p, off := r * n, xs := whole r })))) ∧
    (op = 6 → moves [])) ∧
  (∀ (x y q : Nat), (x < 2 ^ 32 → y < 2 ^ 32 → reduceStep 0x03 0 q x y = (x + y) % 2 ^ 32 ∧
      reduceStep 0x02 0 q x y = (x + y) % 2 ^ 32 ∧ reduceStep 0x03 1 q x y = min x y ∧ reduceStep 0x03 2 q x y = max x y ∧
      ((fmtF32.decode x).isNan = true ∨ (fmtF32.decode y).isNan = true → ∀ red, reduceStep 0x08 red q x y = fmtF32.nan)) ∧
    reduceStep 0x06 0 q x y = (x + y) % q) ∧
  (∀ (p : Party) (die slot : Nat) (o : CollOp) (e i : Nat) (s t u : State) (pl : Place) (v : Nat), p.here = some (die, slot, o) →
    let va := bitsOf o.desc.toNat 0 64 + i * e
    va % 32 + e ≤ 32 → translate o.asker va wantRead s = .ok pl t → atPlace pl (engineRead die pl.home e) t = .ok v u →
    p.read e i s = .ok v u) ∧
  (∀ (p : Put) (die slot : Nat) (o : CollOp) (e x : Nat) (r : List Nat) (s : State), p.dst.here = some (die, slot, o) →
    let va := bitsOf o.desc.toNat 64 64 + p.off * e
    ({ p with xs := x :: r } : Put).places e s = (do
      let a ← collPlace o va e x
      let b ← ({ p with off := p.off + 1, xs := r } : Put).places e
      pure (a ++ b) : M (List (Place × Nat × Nat))) s ∧
    ({ p with xs := [] } : Put).places e s = .ok [] s ∧
    (va % 32 + e ≤ 32 → ∀ ps t, collPlace o va e x s = .ok ps t → ∃ pl u, translate o.asker va wantWrite s = .ok pl u ∧
      ps = [(pl, e, x)]) ∧
    (∀ (ps : List (Place × Nat × Nat)) world n t, memoryWf s.mem = true →
      (∀ y ∈ ps, isProtected s (32 * (y.1.home / 32)) = false ∧ y.1.home % 32 + y.2.1 ≤ 32) →
      p.write world e ps s = .ok n t → ∀ a, readCell t.mem a =
        ((ps.reverse.find? (fun y => decide (y.1.home ≤ a ∧ a < y.1.home + y.2.1))).map (fun y =>
          BitVec.ofNat 8 (y.2.2 / 256 ^ (a - y.1.home)))).getD (readCell s.mem a))) ∧
  (∀ (p : Put) (world e : Nat) (ps : List (Place × Nat × Nat)) (s : State), p.dst.here = none →
    p.write world e ps s = .ok ((p.dst.away.map (fun x => x.done)).getD 0)
      (s.send (.fabric p.dst.pkg p.dst.die world (p.off * e) (p.xs.flatMap (fun x => bytesLE x e)))))

/-! ### Power and the meridian (20_power_and_meridian.md) -/

/-- DROOP, ENERGY_LO_READ and the monitors (R275-R277): the switch closes for at most 50 ns in any 1 us and
the clock is stretched for the rest, a stretched cycle at most twice as long as the others; closings and stretched cycles are kept
to be counted; a read of the low half latches the high half, whatever has been counted; CTL
keeps EN, UNIT and SRC, and CLR clears; BASE and WIDTH are written, and every register is read back; a sample of an enabled monitor
moves MIN, MAX, COUNT and one bin, by counters that saturate; a measurement of a source is counted by the monitors of its die that
sample it. In recovery these registers read as zero and ignore writes (R295). -/
def Obligations.PowerUnits : Prop :=
  (∀ (s : State) (q : QuadId) (n : Nat),
    let sum (l : List (Nat × Nat)) : Nat := (l.map (fun x => x.2)).foldl (· + ·) 0
    let recent (x : Quad) : List (Nat × Nat) := x.closings.filter (fun x => decide (s.now < x.1 + 1000))
    let k := min n (50 - sum (recent (s.quad q)))
    ∃ u, exec (.droop q n) s = .next u ∧ u.mem = s.mem ∧ u.groups = s.groups ∧
      (sum (recent (s.quad q)) ≤ 50 → sum (recent (u.quad q)) ≤ 50) ∧ (k ≠ 0 → (s.now, k) ∈ (u.quad q).closings) ∧
      (k < n → ∃ c, (s.now, c) ∈ (u.quad q).stretched ∧ (n - k) * s.clock q ≤ 2000 * c ∧
        1000 * c < (n - k) * s.clock q + 1000)) ∧
  (∀ (s : State), s.trust.recovery = true → (∀ a, exec (.energyLoRead a) s = .next { s with outbox := s.outbox ++ [.read 0] }) ∧
    (∀ a v, exec (.registerWrite a v) s = .next s) ∧ ∀ d m v, exec (.monitorCtlWrite d m v) s = .next s) ∧
  (∀ (s : State), s.trust.recovery = false → ∃ e : DWord, exec (.energyLoRead 0x02000000) s = .next { s with
    power := { s.power with energy := e, latch := e.extractLsb' 32 32 }
    outbox := s.outbox ++ [.read (e.extractLsb' 0 32)] }) ∧
  (∀ (s : State) (d : Nat), s.trust.recovery = false → d < 32 → ∃ u, exec (.energyLoRead (0x02000100 + 8 * d)) s = .next u ∧
    (u.die d).latch = (u.die d).energy.extractLsb' 32 32 ∧
    u.outbox = s.outbox ++ [.read ((u.die d).energy.extractLsb' 0 32)] ∧ u.power = s.power) ∧
  (∀ (s : State) (d m : Nat) (v : Word), s.trust.recovery = false → d < 32 → m < 8 →
    let x := monitorOf s d m
    let reads (n : Nat) (w : Word) : Prop := exec (.energyLoRead (0x02010000 + 0x400 * d + 0x80 * m + n)) s =
      .next { s with outbox := s.outbox ++ [.read w] }
    reads 0 (x.ctl &&& 0x40003F0F) ∧ reads 4 x.base ∧ reads 8 x.width ∧ reads 0x0C x.min ∧ reads 0x10 x.max ∧ reads 0x14 x.count ∧
    (∀ i : Fin 16, reads (0x40 + 4 * i.val) x.bins[i]) ∧
    (∃ u, exec (.monitorCtlWrite d m v) s = .next u ∧ exec (.registerWrite (0x02010000 + 0x400 * d + 0x80 * m) v) s = .next u ∧
      let y := monitorOf u d m
      y.ctl = v &&& 0x40003F0F ∧ y.base = x.base ∧ y.width = x.width ∧
      (hasBit v 31 = true → y.min = 0xFFFFFFFF ∧ y.max = 0 ∧ y.count = 0 ∧ ∀ i : Fin 16, y.bins[i] = 0) ∧
      (hasBit v 31 = false → y.min = x.min ∧ y.max = x.max ∧ y.count = x.count ∧ y.bins = x.bins)) ∧
    (∃ u, exec (.registerWrite (0x02010000 + 0x400 * d + 0x80 * m + 4) v) s = .next u ∧ monitorOf u d m = { x with base := v }) ∧
    (∃ u, exec (.registerWrite (0x02010000 + 0x400 * d + 0x80 * m + 8) v) s = .next u ∧ monitorOf u d m = { x with width := v }) ∧
    (hasBit x.ctl 30 = true → 1 ≤ bitsOf x.ctl.toNat 0 4 → bitsOf x.ctl.toNat 0 4 ≤ 8 →
      ∃ u, exec (.monitorSample d m v) s = .next u ∧ u.mem = s.mem ∧
        let y := monitorOf u d m
        let b := if v.toNat < x.base.toNat then 0 else min 15 ((v.toNat - x.base.toNat) / max 1 x.width.toNat + 1)
        y.min.toNat = min x.min.toNat v.toNat ∧ y.max.toNat = max x.max.toNat v.toNat ∧
        y.count.toNat = min (2 ^ 32 - 1) (x.count.toNat + 1) ∧
        ∀ i : Fin 16, (y.bins[i]).toNat = if i.val = b then min (2 ^ 32 - 1) ((x.bins[i]).toNat + 1) else (x.bins[i]).toNat) ∧
    (hasBit x.ctl 30 = false → exec (.monitorSample d m v) s = .next s)) ∧
  (∀ (s : State) (d m src n : Nat) (x : Monitor), lookupN (s.die d).monitors m = some x → n < 2 ^ 32 →
    let y := monitorOf (s.measure d src n) d m
    (hasBit x.ctl 30 = true ∧ bitsOf x.ctl.toNat 0 4 = src → y = x.sample (BitVec.ofNat 32 n)) ∧
    (hasBit x.ctl 30 = false ∨ bitsOf x.ctl.toNat 0 4 ≠ src → y = x))

/-- The meridian (R278-R281), the dies' group and the fabric's alike: limits are multiples of 25 MHz from 600 to 2,100; a
heartbeat marks its member as heard, brings a SILENT one back, and an announcement at least 200 us ahead is noted beside those that
are pending; a clamp lowers the group's ceiling at once and is broadcast; at its time a survey closes
and the ceilings apply, and a package in a fabric group sends its heartbeat, with its limit, the announcements pending in it and
its clamp; a rise enters when every active member was heard and applies at the survey after, unless a member is SILENT; no ceiling
that applies lies above a limit that counts; a member joins at the first survey
time at least 200 us later, and is again one of its collective groups' members; one that is leaving is out of the group at the next
survey, and where it is this package, the group is left. -/
def Obligations.MeridianRules : Prop :=
  (∀ x, roundLimit x % 25 = 0 ∧ 600 ≤ roundLimit x ∧ roundLimit x ≤ 2100 ∧
    (600 ≤ x → x ≤ 2100 → roundLimit x ≤ x ∧ x < roundLimit x + 25)) ∧
  (∀ (s : State) (fab : Bool) (n : Nat) (b : Beat) (m : Member), (s.power.group fab).members.find? (fun m => m.id == n) = some m →
    (m.state = .evicted → exec (.meridianHeartbeat fab n b) s = .next s) ∧
    (m.state ≠ .evicted → ∃ u m', exec (.meridianHeartbeat fab n b) s = .next u ∧
      (u.power.group fab).members.find? (fun m => m.id == n) = some m' ∧ m'.beat = true ∧ m'.missed = 0 ∧
      m'.state = (if m.state = .silent then .active else m.state) ∧
      (fab = false → m'.limit = min m.limit (roundLimit b.limit)) ∧ (∀ a ∈ m.announce, a ∈ m'.announce) ∧
      (∀ l x, b.announce = some (l, x) →
        let good : Prop := x % 100000 = 0 ∧ (s.power.survey + 1) * 100000 + 200000 ≤ x ∧ roundLimit l < m.limit
        (good → (roundLimit l, x) ∈ m'.announce) ∧ (¬ good → m'.announce = m.announce)) ∧
      u.mem = s.mem ∧ u.groups = s.groups)) ∧
  (∀ (s : State) (d l : Nat) (m : Member), m.counts = true →
    (s.power.dies.members.find? (fun m => m.id == d) = some m →
      (∃ u, exec (.clamp d l) s = .next u ∧ u.power.dies.ceiling ≤ roundLimit l ∧ u.power.dies.ceiling ≤ s.power.dies.ceiling ∧
        u.power.ceiling ≤ u.power.dies.ceiling ∧ u.power.clamped = some (roundLimit l, s.now) ∧
        u.outbox = s.outbox ++ [.clamp (roundLimit l) s.now]) ∧
      (∃ u, exec (.clampReceipt false d l) s = .next u ∧ u.power.dies.ceiling ≤ roundLimit l ∧
        u.power.ceiling ≤ u.power.dies.ceiling ∧ u.outbox = s.outbox)) ∧
    (s.power.fabric.members.find? (fun m => m.id == d) = some m →
      ∃ u, exec (.clampReceipt true d l) s = .next u ∧ u.power.fabric.ceiling ≤ roundLimit l ∧ u.power.dies = s.power.dies ∧
        (∀ y, u.power.mine = some y → u.power.ceiling ≤ u.power.fabric.ceiling) ∧ u.outbox = s.outbox)) ∧
  (∀ (s : State), (s.power.fabric.members.map (fun m => m.id)).Nodup →
    let t := (s.power.survey + 1) * 100000
    let leaves : Prop := ∃ m, s.power.mine = some m ∧ m.state = .leaving
    let fabric (g : Meridian) (u : State) : Prop := ∀ m ∈ g.members,
      (if m.id = s.power.self ∧ m.state ≠ .evicted then { m with limit := u.power.dies.ceiling } else m) ∈ u.power.fabric.members
    (s.now < t → exec .survey s = .next s) ∧
    (t ≤ s.now → ∃ u, exec .survey s = .next u ∧ u.power.survey = s.power.survey + 1 ∧
      u.power.dies = s.power.dies.surveyed false t ∧ .ceilingApply ∈ u.agenda ∧ u.mem = s.mem ∧ u.power.clamped = none ∧
      (leaves → u.power.fabric.members = []) ∧
      (¬ leaves → fabric (s.power.fabric.surveyed true t) u ∧
        u.power.fabric.members.length = (s.power.fabric.surveyed true t).members.length ∧
        u.power.fabric.ceiling ≤ (s.power.fabric.surveyed true t).ceiling) ∧
      (∀ m, u.power.mine = some m →
        .heartbeat t m.limit (u.power.dies.members.flatMap (fun x => x.announce)) s.power.clamped ∈ u.outbox) ∧
      (u.power.mine = none → ∀ a b c d, .heartbeat a b c d ∈ u.outbox → .heartbeat a b c d ∈ s.outbox)) ∧
    (∃ u, exec .ceilingApply s = .next u ∧ u.power.dies = s.power.dies.apply s.now ∧ u.mem = s.mem ∧
      fabric (s.power.fabric.apply s.now) u ∧ u.power.fabric.ceiling ≤ (s.power.fabric.apply s.now).ceiling)) ∧
  (∀ (m : Member) (fab : Bool) (t : Nat),
    (m.surveyed fab t).beat = false ∧
    (m.state = .active → m.beat = false → 2 ≤ m.missed → (m.surveyed fab t).state = .silent) ∧
    (m.state = .active → m.beat = true ∨ m.missed < 2 → (m.surveyed fab t).state = .active) ∧
    (m.state = .silent → m.beat = false → 31 ≤ m.missed → (m.surveyed true t).state = .evicted) ∧
    (m.state = .silent → (m.surveyed false t).state = .silent) ∧
    (m.state = .joining → ((m.surveyed fab t).state = .active ↔ m.joinAt ≤ t))) ∧
  (∀ (g : Meridian) (fab : Bool) (t : Nat),
    let h := g.surveyed fab t
    let heard : Prop := ∀ m ∈ g.members, m.state ≠ .silent ∧ (m.state = .active → m.beat = true)
    h.members.map (fun m => m.id) = (g.members.filter (fun m => m.state != .leaving)).map (fun m => m.id) ∧
    (∀ m ∈ h.members, m.state ≠ .leaving) ∧ h.ceiling ≤ g.ceiling ∧ h.ceiling ≤ h.least ∧ (∀ r ∈ g.rise, r ∈ h.rise) ∧
    (heard → (∀ m ∈ h.members, m.raise = none) ∧ (g.ceiling < h.least → (t + 100000, h.least) ∈ h.rise)) ∧
    (¬ heard → h.rise = g.rise)) ∧
  (∀ (g : Meridian) (n : Nat),
    let h := g.apply n
    h.ceiling ≤ h.least ∧
    (∀ m ∈ g.members, ∃ x ∈ h.members, x.id = m.id ∧ x.state = m.state ∧ x.limit ≤ m.limit ∧
      (∀ a ∈ m.announce, if a.2 ≤ n then x.limit ≤ a.1 else a ∈ x.announce) ∧
      (x.limit = m.limit ∨ ∃ a ∈ m.announce, a.2 ≤ n ∧ x.limit = a.1)) ∧
    ((∀ m ∈ g.members, m.state ≠ .silent) → ∀ r ∈ g.rise, r.1 ≤ n → min r.2 h.least ≤ h.ceiling) ∧
    ((∃ m ∈ g.members, m.state = .silent) ∨ (∀ r ∈ g.rise, n < r.1) → h.ceiling = min g.ceiling h.least) ∧
    h.rise = g.rise.filter (fun r => decide (n < r.1))) ∧
  (∀ (s : State) (n l : Nat),
    ((∃ m ∈ s.power.fabric.members, m.id = n ∧ m.state ≠ .evicted) → exec (.join n l) s = .next s) ∧
    ((∀ m ∈ s.power.fabric.members, m.id = n → m.state = .evicted) → ∃ u m, exec (.join n l) s = .next u ∧
      m ∈ u.power.fabric.members ∧ m.id = n ∧ m.state = .joining ∧ m.joinAt % 100000 = 0 ∧ s.now + 200000 ≤ m.joinAt ∧
      m.joinAt < s.now + 300000 ∧ u.mem = s.mem ∧
      ∀ k ∈ u.colls, ∀ r ∈ k.gone, (k.members[r]?).map (fun x => x.1) ≠ some n) ∧
    (∀ m, s.power.fabric.members.find? (fun m => m.id == n) = some m →
      (m.state = .active → ∃ u m', exec (.leave n) s = .next u ∧
        u.power.fabric.members.find? (fun m => m.id == n) = some m' ∧ m'.state = .leaving ∧ u.mem = s.mem) ∧
      (m.state ≠ .active → exec (.leave n) s = .next s)))

/-! ### Trust (21_trust.md) -/

/-- The SPDM responder (R288-R290): without firmware nothing is answered; a request out of its order is answered with
ERROR and changes nothing else; in order, the negotiation and the sessions go on, a signature takes the next leaf and
is refused when none is left, and other requests are ERROR. NEGOTIATE_ALGORITHMS answers with the one algorithm of each kind of R288,
whatever is offered; what belongs to a session is answered within it alone. The numbers of messages, errors and algorithms are the
model's (log entry 27, PRESUMED), and so is the layout of the answers (log entry 28, DESIGN CHOICE). -/
def Obligations.SpdmResponder : Prop :=
  ∀ (s : State) (b : List Byte) (n i : Nat) (sg : Bool) (code : Byte),
    let tr := s.trust
    let said (ss : Option Nat) (tr' : Trust) (c : Byte) (body : List Byte) : State :=
      { s with trust := { tr' with responses := tr.responses + 1 }, outbox := s.outbox ++ [.spdm ss c body] }
    let answer := said none
    let within := said (some n)
    let error (e : Byte) : State := answer tr 0x7F [e]
    let later : List Instr := [.getDigests, .getCertificate n, .challenge b, .getMeasurements i sg, .keyExchange b, .finish n,
      .heartbeat n, .keyUpdate n, .endSession n]
    (tr.running = none → ∀ x ∈ [.getVersion, .getCapabilities, .negotiateAlgorithms b, .unsupportedRequest code] ++ later,
      exec x s = .next s) ∧
    (tr.running ≠ none →
      exec .getVersion s = .next (answer { tr with versioned := true, negotiated := false } 0x04 [0x13]) ∧
      exec (.unsupportedRequest code) s = .next (error 7) ∧
      (tr.versioned = false → ∀ x ∈ [Instr.getCapabilities, .negotiateAlgorithms b], exec x s = .next (error 4)) ∧
      (tr.versioned = true →
        (∃ y, y.length = 4 ∧ exec .getCapabilities s = .next (answer tr 0x61 y)) ∧
        exec (.negotiateAlgorithms b) s = .next (answer { tr with negotiated := true } 0x63 [8, 2, 4, 0x10, 2])) ∧
      (tr.negotiated = false → ∀ x ∈ later, exec x s = .next (error 4)) ∧
      (tr.negotiated = true →
        (∃ y, y.length = 48 ∧ exec .getDigests s = .next (answer tr 0x01 y)) ∧
        (∃ y, exec (.getCertificate n) s = .next (answer tr 0x02 y)) ∧
        (tr.leaf < 1048576 →
          (∃ y, exec (.challenge b) s = .next (answer { tr with leaf := tr.leaf + 1 } 0x03 (b ++ y))) ∧
          (tr.sessions.length < 16 → ∃ y, exec (.keyExchange b) s = .next (said (some tr.nextId) { tr with
            leaf := tr.leaf + 1, nextId := tr.nextId + 1
            sessions := tr.sessions ++ [{ id := tr.nextId, secured := false, keyNo := 0 }] } 0x64 y)) ∧
          (∀ m, measurement s i = some m → i ≠ 0 → i ≠ 255 → ∃ y,
            exec (.getMeasurements i true) s = .next (answer { tr with leaf := tr.leaf + 1 } 0x60 (m ++ y)))) ∧
        (1048576 ≤ tr.leaf → exec (.challenge b) s = .next (error 5)) ∧
        (16 ≤ tr.sessions.length → exec (.keyExchange b) s = .next (error 10)) ∧
        exec (.getMeasurements 0 false) s = .next (answer tr 0x60 [68]) ∧
        (∀ m, measurement s i = some m → i ≠ 0 → i ≠ 255 → exec (.getMeasurements i false) s = .next (answer tr 0x60 m)) ∧
        (sessionOf s n = none → ∀ x ∈ [Instr.finish n, .heartbeat n, .keyUpdate n, .endSession n], exec x s = .next (error 1)) ∧
        (∀ x, sessionOf s n = some x →
          let sess (f : Session → Session) : Trust :=
            { tr with sessions := tr.sessions.map (fun x => if x.id == n then f x else x) }
          (x.secured = false →
            exec (.finish n) s = .next (within (sess (fun x => { x with secured := true })) 0x65 []) ∧
            ∀ x ∈ [Instr.heartbeat n, .keyUpdate n, .endSession n], exec x s = .next (within tr 0x7F [4])) ∧
          (x.secured = true →
            exec (.finish n) s = .next (within tr 0x7F [4]) ∧
            exec (.heartbeat n) s = .next (within tr 0x68 []) ∧
            exec (.keyUpdate n) s = .next (within (sess (fun x => { x with keyNo := x.keyNo + 1 })) 0x69 []) ∧
            exec (.endSession n) s = .next
              (within { tr with sessions := tr.sessions.filter (fun x => x.id != n) } 0x6C [])))))

/-- Interfaces and secrets (R291-R294): LOCK closes the debug gate, START lets the queues accept packets, a write of
locked configuration or an integrity failure is ERROR and a teardown; STOP and a function-level reset end the
world's work at once, and once its packets' aborts are over, or after 100 ms, leave it without key, secrets and memory; a secret is
delivered in a secured session while the interface is CONFIG_LOCKED or RUN, into a slot written once, in a protected page that the
world owns, and its bytes stand there; else the answer is ERROR with InvalidRequest. The numbers of ERROR and of that code are the model's
(log entry 27, PRESUMED). -/
def Obligations.Interfaces : Prop :=
  ∀ (s : State) (w : World), s.world w.id = some w → w.id ≠ 0 →
    let to_ (s : State) (t : Tdi) : State := (s.setWorld { w with tdi := t }).send (.tdisp w.id true)
    let no : State := s.send (.tdisp w.id false)
    (w.tdi = .unlocked → exec (.lockInterfaceRequest w.id) s = .next
      (to_ { s with trust := { s.trust with debugOn := false, debugOpen := false } } .locked)) ∧
    (w.tdi ≠ .unlocked → exec (.lockInterfaceRequest w.id) s = .next no) ∧
    (w.tdi = .locked → exec (.startInterfaceRequest w.id) s = .next (to_ s .run)) ∧
    (w.tdi ≠ .locked → exec (.startInterfaceRequest w.id) s = .next no) ∧
    (w.tdi = .unlocked → exec (.stopInterfaceRequest w.id) s = .next no ∧ exec (.functionLevelReset w.id) s = .next s) ∧
    (w.tdi ≠ .unlocked →
      let resets (u : State) : Prop := exec (.stopInterfaceRequest w.id) s = .next u ∧ exec (.functionLevelReset w.id) s = .next u
      let over_ (u : State) : Prop := ∃ x, u.world w.id = some x ∧ x.tdi = .unlocked ∧ x.keyed = false ∧ x.secrets = [] ∧
        x.xlat = 0 ∧ x.resetting = none ∧ .tdisp w.id true ∈ u.outbox ∧ (∀ y ∈ u.wgs, y.world ≠ w.id) ∧
        (∀ e ∈ u.xlat.tlb, e.world ≠ w.id) ∧
        (∀ a, lookupN (s.die (homeDie a)).owners (a / 0x10000) = some w.id → readCell u.mem a = 0)
      (w.resetting = none → ∃ u, resets u ∧ (∀ g ∈ u.groups, g.world ≠ w.id) ∧ (∀ l ∈ u.launches, l.world ≠ w.id) ∧
        (∀ x, u.world w.id = some x → x.failed = true) ∧ ((∀ y ∈ s.queues, y.world ≠ w.id) → over_ u)) ∧
      (∀ t, w.resetting = some t →
        (abortsOver s w.id = true ∨ t + 100000000 ≤ s.now → ∃ u, resets u ∧ over_ u) ∧
        (abortsOver s w.id = false → s.now < t + 100000000 → resets s))) ∧
    (w.tdi = .locked ∨ w.tdi = .run → ∀ i ∈ [Instr.lockedConfigWrite w.id, .ideIntegrityFailure w.id],
      exec i s = .next ((s.setWorld { w with tdi := .error }).due [.teardown w.id])) ∧
    (w.tdi = .unlocked ∨ w.tdi = .error → ∀ i ∈ [Instr.lockedConfigWrite w.id, .ideIntegrityFailure w.id], exec i s = .next s) ∧
    (s.trust.debugOpen = true → s.scrubs = [] → exec .debugSessionConnect s = .next
      { s with trust := { s.trust with debugOn := true }, cores := s.cores.map (fun k => { k with kept := [] }) }) ∧
    (s.trust.debugOpen = false ∨ s.scrubs ≠ [] → exec .debugSessionConnect s = .next s) ∧
    (∀ (n slot : Nat) (b : List Byte), memoryWf s.mem = true → s.trust.running ≠ none →
      let at_ := w.page + 4096 * slot
      let ok : Prop := (∃ x, sessionOf s n = some x ∧ x.secured = true) ∧ slot < 16 ∧ b.length ≤ 4096 ∧
        (w.tdi = .locked ∨ w.tdi = .run) ∧ slot ∉ w.secrets ∧ at_ % 4096 = 0 ∧ isProtected s at_ = true ∧
        isProtected s (at_ + 4095) = true ∧ granuleOwner s at_ = w.id
      (¬ ok → ∃ u, exec (.deliverSecret n w.id slot b) s = .next u ∧ u.mem = s.mem ∧ u.worlds = s.worlds ∧
        u.outbox = s.outbox ++ [.spdm (some n) 0x7F [1]]) ∧
      (ok → ∃ u y, exec (.deliverSecret n w.id slot b) s = .next u ∧ u.world w.id = some y ∧
        y.secrets = w.secrets ++ [slot] ∧ (∀ i x, b[i]? = some x → readCell u.mem (at_ + i) = x) ∧
        ((∀ k ∈ s.lines.plain, k / 128 ≠ at_ / 4096) →
          ∀ a, a < at_ ∨ at_ + b.length ≤ a → readCell u.mem a = readCell s.mem a)))

/-- Boot and worlds (R283, R285, R286, R295): POWER_ON runs the image in flash, which is the one that flash was made with until
another is committed (log entry 90), if it passes its checks beside a signed
configuration record, else the part waits in recovery, and the rollback counter and the leaf index stay; a recovery
image passes the same checks, needs such a record too, and reaches flash when the host asks; that memory lists nothing after POWER_ON
is the model's choice (log entries 2 and 59), and so is that a record whose carve-outs are too small counts as one that fails its
check (log entry 91); a world is created with a fresh key and its collective
groups once the firmware runs, and of a world that stands the translation record changes (R42), without its reserved bits,
while no group of it is resident (that the cached translations go with it is the model's choice, log entry 90); a granule changes its owner only while no group that it concerns is
resident, and then a page of it that no cache has dirty goes out as it stands with its MACs, and comes back as the host has it under
the versions that the tree kept (R56). -/
def Obligations.BootAndWorlds : Prop :=
  (∀ (s : State) (made f : BootImage) (c : BootConfig), f = s.trust.flash.getD made →
    let good : Prop := c.signed = true ∧ carveOk c = true
    ∃ u, exec (.powerOn made c) s = .next u ∧ u.mem = [] ∧ u.groups = [] ∧
    u.worlds = [] ∧ u.queues = [] ∧ u.trust.rollback = s.trust.rollback ∧ u.trust.leaf = s.trust.leaf ∧
    u.trust.flash = some f ∧ u.trust.pkgKey ≠ s.trust.pkgKey ∧ (good → u.trust.config = c) ∧
    (f.signed = true → s.trust.rollback ≤ f.version → good → u.trust.running = some f ∧ u.trust.recovery = false) ∧
    (f.signed = false ∨ f.version < s.trust.rollback ∨ ¬ good → u.trust.running = none ∧ u.trust.recovery = true)) ∧
  (∀ (s : State) (f : BootImage),
    let good : Prop := s.trust.config.signed = true ∧ carveOk s.trust.config = true
    (s.trust.recovery = true → f.signed = true → s.trust.rollback ≤ f.version → good → exec (.recoveryImage f) s = .next
      { s with trust := { s.trust with recovery := false, running := some f } }) ∧
    (s.trust.recovery = false ∨ f.signed = false ∨ f.version < s.trust.rollback ∨ ¬ good →
      exec (.recoveryImage f) s = .next s) ∧
    (∀ i, s.trust.running = some i → exec .recoveryCommit s = .next { s with trust := { s.trust with flash := some i } })) ∧
  (∀ (s : State) (n : Nat) (c : WorldConfig),
    let kept : BitVec 128 := c.xlat &&& 0x800FFFFF000FFFFFFFFFF003#128
    (s.trust.running = none ∨ 64 ≤ n → exec (.worldCreate n c) s = .next s) ∧
    (s.trust.running ≠ none → n < 64 → s.world n = none → ∃ u w, exec (.worldCreate n c) s = .next u ∧ u.world n = some w ∧
      w.xlat = kept ∧ w.tvec = c.tvec ∧ w.svec = c.svec ∧ w.keyed = true ∧ w.tdi = .unlocked ∧ w.failed = false ∧
      ∀ x ∈ c.colls, x.1 < 65536 → x.2.length ≤ 65536 → ∃ k ∈ u.colls, k.world = n ∧ k.id = x.1 ∧ k.members = x.2) ∧
    (∀ w, s.trust.running ≠ none → n < 64 → s.world n = some w →
      (w.failed = false → w.dying = none → (∀ g ∈ s.groups, g.world ≠ n) → ∃ u, exec (.worldCreate n c) s = .next u ∧
        u.world n = some { w with xlat := kept } ∧ (∀ e ∈ u.xlat.tlb, e.world ≠ n) ∧ u.mem = s.mem) ∧
      (w.failed = false → (w.dying ≠ none ∨ ∃ g ∈ s.groups, g.world = n) → exec (.worldCreate n c) s = .next s) ∧
      (w.failed = true → w.dying ≠ none ∨ w.resetting ≠ none → exec (.worldCreate n c) s = .next s) ∧
      (w.failed = true → w.dying = none → w.resetting = none → ∃ u x, exec (.worldCreate n c) s = .next u ∧ u.world n = some x ∧ x.failed = false ∧
        x.xlat = kept ∧ x.keyed = true ∧ (w.keyed = false → x.keyGen ≠ w.keyGen)))) ∧
  (∀ (s : State) (g n i : Nat) (sectors : List (BitVec 512 × Option Seal)), memoryWf s.mem = true →
    let h := g * 0x10000
    let page := 16 * g + i % 16
    let writes (x : GranuleWrite) (u : State) : Prop := exec (.ownershipTableWrite g x) s = .next u
    (isProtected s h = true → (∀ x ∈ s.groups, x.world ≠ granuleOwner s h) →
      ((∀ x ∈ s.groups, x.world ≠ n) → ∃ u, writes (.give n) u ∧ granuleOwner u h = n ∧ u.mem = s.mem) ∧
      ((∀ k ∈ s.cores, ∀ y ∈ k.dirty, y.1 / 0x1000 ≠ page) → (∀ d ∈ s.dies, ∀ y ∈ d.dirty, y.1 / 0x1000 ≠ page) →
        writes (.out i) { s with outbox := s.outbox ++ [.page (0x1000 * page) ((List.range 64).map (fun j =>
          (BitVec.ofNat 512 (readLE s.mem (64 * (64 * page + j)) 64), lookupN s.lines.mac (64 * page + j))))] }) ∧
      (∃ u, writes (.back i sectors) u ∧ u.lines.version = s.lines.version ∧ u.dies.map (fun d => d.root) = s.dies.map (fun d => d.root) ∧
        (∀ a, a / 0x1000 ≠ page → readCell u.mem a = readCell s.mem a) ∧
        ∀ j x, j < 64 → sectors[j]? = some x → readLE u.mem (64 * (64 * page + j)) 64 = x.1.toNat ∧
          lookupN u.lines.mac (64 * page + j) = x.2)) ∧
    (isProtected s h = false ∨ (∃ x ∈ s.groups, x.world = granuleOwner s h) → ∀ x, writes x s) ∧
    ((∃ x ∈ s.groups, x.world = n) → writes (.give n) s))

/-! ### What a core sees (03, 10, 11) -/

/-- Every step keeps the form of the caches' dirty bytes: addresses strictly rising, and a remote-data cache holds
bytes of other dies only (R60). -/
def Obligations.StepsKeepCachesForm : Prop :=
  ∀ s s' : State, CachesWf s → step s = .next s' → CachesWf s'

/-- The frame of memory (R46, R57, R58, R60, R162). Fences, BARA, SPAWN and COLL.POST store nothing, so their core
sees every byte as before, whatever they push. Loads store nothing but the A and D bits of page tables. STL (one that has
translated nothing yet, R172), the atomics and WAITR leave every byte outside those that their lanes store to as their core saw it, these bits apart,
also where they fault or wait. What follows a word, ranks and arrivals brought to rest in the spill area (R185, R186),
is left out. -/
def Obligations.AccessesKeepOtherBytes : Prop :=
  ∀ (s t : State) (c : Cx) (g : Guard) (d a : Code) (k o : BitVec 4) (sc : BitVec 2) (w u : BitVec 1),
    memoryWf s.mem = true → CachesWf s → Issues s c g → c.p.placed = none →
    let core := keyCore c.key
    let from_ (i : Instr) (keeps : State → Prop) : Prop :=
      exec i s = .next t → ∃ u, (t = u ∨ t = afterWord u c.key) ∧ keeps u
    (∀ i ∈ [Instr.fenceCore g, .fenceDie g, .fencePkg g, .fenceSys g, .fenceOrf g, .fenceTfence g, .bara g d a k,
        .spawn g d a, .collPost g d a], from_ i (fun u => ∀ x, seen u core x = seen s core x)) ∧
    (∀ i ∈ [Instr.ld g d a k o, .lds g d a k o, .ldu g d a k o, .lda g d a sc w, .ldaP g d a u w],
      from_ i (fun u => ∀ x, Kept s u core x)) ∧
    (∀ i ∈ [Instr.stl g d a sc w, .atomAdd g d a w sc, .atomMin g d a w sc, .atomMax g d a w sc, .atomAnd g d a w sc,
        .atomOr g d a w sc, .atomXor g d a w sc, .atomExch g d a w sc, .atomCas g d a w sc, .atomIncw g d a w sc,
        .redAddScope g d a w sc, .redMinScope g d a w sc, .redMaxScope g d a w sc, .redAndScope g d a w sc,
        .redOrScope g d a w sc, .redXorScope g d a w sc, .redExchScope g d a w sc, .redCasScope g d a w sc,
        .redIncwScope g d a w sc],
      from_ i (fun u => ∀ x,
        (∀ ps s₁, placeLanes c (laneAddrs c.lanes (c.val64 a)) wantWrite s = .ok ps s₁ →
          ∀ p ∈ ps, x < p.2.home ∨ p.2.home + wordSize w ≤ x) → Kept s u core x)) ∧
    from_ (.waitr g d) (fun u => ∀ x,
      (∀ ps s₁, placeLanes c (laneAddrs c.en (fun i => c.g.context.toNat + 16 * i)) wantWrite s = .ok ps s₁ →
        ∀ p ∈ ps, x < p.2.home + 8 ∨ p.2.home + 12 ≤ x) → Kept s u core x)

/-- The bytes that STL (R173), and ST beside the opcode table (R326), store: once the word has completed its core sees
them at the addresses of its lanes, those of the last lane where lanes meet, and every other byte as before, the A and
D bits of page tables apart (R46). -/
def Obligations.StoresAreSeen : Prop :=
  ∀ (s s₁ : State) (c : Cx) (g : Guard) (d a : Code) (t : Tag),
    memoryWf s.mem = true → CachesWf s → Tries s c g → Addressed c → Alive s c → c.lanes ≠ 0 → isAddr t → Holds c a t →
    let core := keyCore c.key
    let stored (u : State) (ps : List (Nat × Nat)) (n : Nat) (data : Nat → Nat) : Prop := ∀ x, match lastStored ps n data x with
      | some b => seen u core x = b
      | none => Kept s u core x
    (∀ (m o : BitVec 4), m.toNat ≤ 4 →
      let n := storeSize m
      let r := storeRegs m
      spanOk c.g.quota r d = true → (∀ x ∈ spanOf d r, c.tag x ≠ .void) → c.dataTag d r = true →
      (∀ i, hasBit c.lanes i → c.address a o n i % n = 0) →
      (∀ (s₂ : State) (ps : List (Nat × Place)), placeLanes c (laneAddrs c.lanes (c.address a o n)) wantWrite s = .ok ps s₁ →
        (∀ w ∈ wordsOf ps, promoHolds s₁ core w = false) → roomL1 core (wordsOf ps) s₁ = .ok () s₂ →
        ∃ u, execBeside (.st g d a m o) s = .next (afterWord u c.key) ∧
          stored u (ps.map (fun x => (x.1, x.2.home))) n (fun i => c.data d r i % 2 ^ (8 * n))) ∧
      (Calm s c → (∀ i, hasBit c.lanes i → AtHand s c wantWrite (c.address a o n i)) →
        ∃ u, execBeside (.st g d a m o) s = .next (afterWord u c.key))) ∧
    (∀ (s₂ s₃ s₄ s₅ : State) (sc : BitVec 2) (w : BitVec 1) (ps : List (Nat × Place)), c.p.himm = none →
      let n := wordSize w
      let scope := scopeOf sc.toNat
      let done (p : Path) : Path := { p with placed := some [] }
      spanOk c.g.quota (n / 4) d = true → (∀ r ∈ spanOf d (n / 4), c.tag r ≠ .void) → c.dataTag d (n / 4) = true →
      (∀ i, hasBit c.lanes i → c.val64 a i % n = 0) →
      stlPlaces c (c.val64 a) s = .ok ps s₁ → (∀ x ∈ wordsOf ps, promoHolds s₁ core x = false) →
      releaseActions c scope s₁ = .ok () s₂ →
      readyAt core (ps.map (fun x => ((c.policy x.2.cp).reaches scope, x.2.home / 32))) s₂ = .ok () s₃ →
      stlWrite c d scope n (n / 4) ps s₃ = .ok () s₄ → (changePath c done >>= fun _ => releaseLog c scope) s₄ = .ok () s₅ →
      ∃ u, exec (.stl g d a sc w) s = .next (afterWord u c.key) ∧
        stored u (ps.map (fun x => (x.1, x.2.home))) n (c.data d (n / 4)))
end

