-- ==== Sys2Proof/Laws/Bytes.lean ====
section
/-! SUPPORT. Byte lists in their forms: what a read after a write gives, and that every operation on memory and on the
dirty bytes of a cache keeps its form. -/

namespace Sys2Proof.Machine

/-! ### Rising lists -/

/-- Every address of a list lies above `a`. -/
def allAbove (a : Nat) (m : List Host.Cell) : Prop := ∀ x ∈ m, a < x.1

theorem rising_cons {a : Nat} {b : Byte} {m : List Host.Cell} :
    rising ((a, b) :: m) = true ↔ allAbove a m ∧ rising m = true := by
  induction m generalizing a b with
  | nil => simp [rising, allAbove]
  | cons c r ih =>
    obtain ⟨k, v⟩ := c
    have := @ih k v
    simp only [rising, Bool.and_eq_true, decide_eq_true_eq] at *
    constructor
    · rintro ⟨h, hr⟩
      refine ⟨?_, hr⟩
      intro x hx
      rcases List.mem_cons.1 hx with rfl | hx
      · exact h
      · exact Nat.lt_trans h ((this.1 hr).1 x hx)
    · rintro ⟨h, hr⟩
      exact ⟨h (k, v) (by simp), hr⟩

theorem findCell_allAbove {a : Nat} {m : List Host.Cell} (h : allAbove a m) : findCell m a = none := by
  cases m with
  | nil => rfl
  | cons c r =>
    obtain ⟨k, v⟩ := c
    have := h (k, v) (by simp)
    simp only at this
    have hk : ¬ k = a := by omega
    simp [findCell, hk, this]

theorem readCell_eq (m : List Host.Cell) (a : Nat) : readCell m a = (findCell m a).getD 0 := by
  induction m with
  | nil => rfl
  | cons c r ih =>
    obtain ⟨k, v⟩ := c
    simp only [readCell, findCell]
    split
    · rfl
    · split
      · rfl
      · exact ih

theorem allAbove_putCell {a k : Nat} {b : Byte} {m : List Host.Cell} (h : allAbove a m) (hk : a < k) : allAbove a (putCell m k b) := by
  induction m with
  | nil => intro x hx; simp [putCell] at hx; subst hx; exact hk
  | cons c r ih =>
    obtain ⟨j, v⟩ := c
    have hj := h (j, v) (by simp)
    have hr : allAbove a r := fun x hx => h x (List.mem_cons_of_mem _ hx)
    simp only [putCell]
    split
    · intro x hx
      rcases List.mem_cons.1 hx with rfl | hx
      · exact hk
      · exact h x hx
    · split
      · intro x hx
        rcases List.mem_cons.1 hx with rfl | hx
        · exact hk
        · exact hr x hx
      · intro x hx
        rcases List.mem_cons.1 hx with rfl | hx
        · exact hj
        · exact ih hr x hx

theorem rising_putCell {m : List Host.Cell} (a : Nat) (b : Byte) (h : rising m = true) : rising (putCell m a b) = true := by
  induction m with
  | nil => rfl
  | cons c r ih =>
    obtain ⟨k, v⟩ := c
    have ⟨h1, h2⟩ := rising_cons.1 h
    simp only [putCell]
    split
    · rename_i hlt
      refine rising_cons.2 ⟨?_, h⟩
      intro x hx
      rcases List.mem_cons.1 hx with rfl | hx
      · exact hlt
      · exact Nat.lt_trans hlt (h1 x hx)
    · split
      · rename_i he
        have : k = a := by simpa using he
        subst this
        exact rising_cons.2 ⟨h1, h2⟩
      · rename_i h3 h4
        have : k < a := by
          have : ¬ k = a := by simpa using h4
          omega
        exact rising_cons.2 ⟨allAbove_putCell h1 this, ih h2⟩

theorem findCell_putCell {m : List Host.Cell} (a : Nat) (b : Byte) (h : rising m = true) (x : Nat) :
    findCell (putCell m a b) x = if x = a then some b else findCell m x := by
  induction m with
  | nil =>
    by_cases hx : x = a
    · subst hx; simp [putCell, findCell]
    · have : ¬ a = x := fun e => hx e.symm
      simp [putCell, findCell, hx, this]
  | cons c r ih =>
    obtain ⟨k, v⟩ := c
    have ⟨h1, h2⟩ := rising_cons.1 h
    simp only [putCell]
    split
    · rename_i hlt
      by_cases hx : x = a
      · subst hx; simp [findCell]
      · have hne : ¬ a = x := fun e => hx e.symm
        by_cases hxa : x < a
        · have hk : ¬ k = x := by omega
          have hkx : x < k := by omega
          simp [findCell, hx, hne, hxa, hk, hkx]
        · simp [findCell, hx, hne, hxa]
    · split
      · rename_i he
        have : k = a := by simpa using he
        subst this
        by_cases hx : x = k
        · subst hx; simp [findCell]
        · have hne : ¬ k = x := fun e => hx e.symm
          simp [findCell, hx, hne]
      · rename_i h3 h4
        have hka : k < a := by
          have : ¬ k = a := by simpa using h4
          omega
        by_cases hkx : k = x
        · subst hkx
          have : ¬ k = a := by omega
          simp [findCell, this]
        · by_cases hlt : x < k
          · have : ¬ x = a := by omega
            simp [findCell, hkx, hlt, this]
          · simp only [findCell, beq_iff_eq, hkx, if_false, hlt]
            exact ih h2

theorem allAbove_dropCell {a k : Nat} {m : List Host.Cell} (h : allAbove a m) : allAbove a (dropCell m k) := by
  induction m with
  | nil => exact h
  | cons c r ih =>
    obtain ⟨j, v⟩ := c
    have hr : allAbove a r := fun x hx => h x (List.mem_cons_of_mem _ hx)
    simp only [dropCell]
    split
    · exact h
    · split
      · exact hr
      · intro x hx
        rcases List.mem_cons.1 hx with rfl | hx
        · exact h (j, v) (by simp)
        · exact ih hr x hx

theorem rising_dropCell {m : List Host.Cell} (a : Nat) (h : rising m = true) : rising (dropCell m a) = true := by
  induction m with
  | nil => rfl
  | cons c r ih =>
    obtain ⟨k, v⟩ := c
    have ⟨h1, h2⟩ := rising_cons.1 h
    simp only [dropCell]
    split
    · exact h
    · split
      · exact h2
      · exact rising_cons.2 ⟨allAbove_dropCell h1, ih h2⟩

theorem findCell_dropCell {m : List Host.Cell} (a : Nat) (h : rising m = true) (x : Nat) :
    findCell (dropCell m a) x = if x = a then none else findCell m x := by
  induction m with
  | nil => by_cases hx : x = a <;> simp [dropCell, findCell, hx]
  | cons c r ih =>
    obtain ⟨k, v⟩ := c
    have ⟨h1, h2⟩ := rising_cons.1 h
    simp only [dropCell]
    split
    · rename_i hlt
      by_cases hx : x = a
      · subst hx
        have : ¬ k = x := by omega
        simp [findCell, this, hlt]
      · simp [hx]
    · split
      · rename_i he
        have : k = a := by simpa using he
        subst this
        by_cases hx : x = k
        · subst hx; simp [findCell_allAbove h1]
        · have hne : ¬ k = x := fun e => hx e.symm
          by_cases hlt : x < k
          · have : allAbove x r := fun y hy => Nat.lt_trans hlt (h1 y hy)
            simp [findCell, hx, hne, hlt, findCell_allAbove this]
          · simp [findCell, hx, hne, hlt]
      · rename_i h3 h4
        have hka : k < a := by
          have : ¬ k = a := by simpa using h4
          omega
        by_cases hkx : k = x
        · subst hkx
          have : ¬ k = a := by omega
          simp [findCell, this]
        · by_cases hlt : x < k
          · have : ¬ x = a := by omega
            simp [findCell, hkx, hlt, this]
          · simp only [findCell, beq_iff_eq, hkx, if_false, hlt]
            exact ih h2

theorem allAbove_filter {a : Nat} {m : List Host.Cell} (p : Host.Cell → Bool) (h : allAbove a m) : allAbove a (m.filter p) :=
  fun x hx => h x (List.mem_filter.1 hx).1

theorem rising_filter {m : List Host.Cell} (p : Host.Cell → Bool) (h : rising m = true) : rising (m.filter p) = true := by
  induction m with
  | nil => rfl
  | cons c r ih =>
    obtain ⟨k, v⟩ := c
    have ⟨h1, h2⟩ := rising_cons.1 h
    by_cases hp : p (k, v) = true
    · simp only [List.filter_cons, hp, if_true]
      exact rising_cons.2 ⟨allAbove_filter p h1, ih h2⟩
    · simp only [List.filter_cons, hp]
      exact ih h2

/-- A lookup in the bytes kept by a test on addresses. -/
theorem findCell_filter {m : List Host.Cell} (p : Nat → Bool) (h : rising m = true) (x : Nat) :
    findCell (m.filter (fun c => p c.1)) x = if p x then findCell m x else none := by
  induction m with
  | nil => simp [findCell]
  | cons c r ih =>
    obtain ⟨k, v⟩ := c
    have ⟨h1, h2⟩ := rising_cons.1 h
    have ih := ih h2
    by_cases hkx : k = x
    · subst hkx
      by_cases hp : p k = true
      · simp [hp, findCell]
      · simp only [List.filter_cons, hp]
        have : allAbove k (r.filter (fun c => p c.1)) := allAbove_filter (fun c => p c.1) h1
        simp only [findCell_allAbove this, if_false, Bool.false_eq_true]
    · by_cases hlt : x < k
      · have ha : allAbove x r := fun y hy => Nat.lt_trans hlt (h1 y hy)
        have hf : allAbove x (((k, v) :: r).filter (fun c => p c.1)) :=
          allAbove_filter (fun c => p c.1) (fun y hy => by
            rcases List.mem_cons.1 hy with rfl | hy
            · exact hlt
            · exact ha y hy)
        rw [findCell_allAbove hf]
        simp [findCell, hkx, hlt]
      · by_cases hp : p k = true
        · simp only [List.filter_cons, hp, if_true]
          simp only [findCell, beq_iff_eq, hkx, if_false, hlt]
          exact ih
        · simp only [List.filter_cons, hp]
          simp only [findCell, beq_iff_eq, hkx, if_false, hlt]
          exact ih

/-! ### Bytes put one after another -/

theorem rising_putCells (cells : List Host.Cell) {m : List Host.Cell} (h : rising m = true) :
    rising (cells.foldl (fun m b => putCell m b.1 b.2) m) = true := by
  induction cells generalizing m with
  | nil => exact h
  | cons c r ih => exact ih (rising_putCell _ _ h)

theorem findCell_putCells_other (cells : List Host.Cell) {m : List Host.Cell} (h : rising m = true) (x : Nat)
    (hx : ∀ c ∈ cells, c.1 ≠ x) : findCell (cells.foldl (fun m b => putCell m b.1 b.2) m) x = findCell m x := by
  induction cells generalizing m with
  | nil => rfl
  | cons c r ih =>
    simp only [List.foldl_cons]
    rw [ih (rising_putCell _ _ h) (fun y hy => hx y (List.mem_cons_of_mem _ hy)), findCell_putCell _ _ h]
    have : ¬ x = c.1 := fun e => hx c (by simp) e.symm
    simp [this]

/-! ### Memory -/

theorem memoryWf_rising {m : List Host.Cell} (h : memoryWf m = true) : rising m = true := by
  simp only [memoryWf, Bool.and_eq_true] at h; exact h.1

theorem memoryWf_iff {m : List Host.Cell} : memoryWf m = true ↔ rising m = true ∧ ∀ c ∈ m, c.2 ≠ 0 := by
  simp [memoryWf]

theorem mem_putCell {m : List Host.Cell} {a : Nat} {b : Byte} {c : Host.Cell} (h : c ∈ putCell m a b) : c = (a, b) ∨ c ∈ m := by
  induction m with
  | nil => simpa [putCell] using h
  | cons d r ih =>
    obtain ⟨k, v⟩ := d
    simp only [putCell] at h
    split at h
    · exact List.mem_cons.1 h
    · split at h
      · rcases List.mem_cons.1 h with h | h
        · exact .inl h
        · exact .inr (List.mem_cons_of_mem _ h)
      · rcases List.mem_cons.1 h with h | h
        · exact .inr (by rw [h]; simp)
        · rcases ih h with h | h
          · exact .inl h
          · exact .inr (List.mem_cons_of_mem _ h)

theorem mem_dropCell {m : List Host.Cell} {a : Nat} {c : Host.Cell} (h : c ∈ dropCell m a) : c ∈ m := by
  induction m with
  | nil => exact h
  | cons d r ih =>
    obtain ⟨k, v⟩ := d
    simp only [dropCell] at h
    split at h
    · exact h
    · split at h
      · exact List.mem_cons_of_mem _ h
      · rcases List.mem_cons.1 h with h | h
        · rw [h]; simp
        · exact List.mem_cons_of_mem _ (ih h)

theorem writeCell_wf {m : List Host.Cell} (a : Nat) (b : Byte) (h : memoryWf m = true) : memoryWf (writeCell m a b) = true := by
  have ⟨h1, h2⟩ := memoryWf_iff.1 h
  unfold writeCell
  split
  · exact memoryWf_iff.2 ⟨rising_dropCell _ h1, fun c hc => h2 c (mem_dropCell hc)⟩
  · rename_i hb
    refine memoryWf_iff.2 ⟨rising_putCell _ _ h1, fun c hc => ?_⟩
    rcases mem_putCell hc with rfl | hc
    · exact hb
    · exact h2 c hc

/-- A read after a write: the byte written at its address, every other byte as before. -/
theorem readCell_writeCell {m : List Host.Cell} (a : Nat) (b : Byte) (h : memoryWf m = true) (x : Nat) :
    readCell (writeCell m a b) x = if x = a then b else readCell m x := by
  have h1 := memoryWf_rising h
  unfold writeCell
  split
  · rename_i hb
    subst hb
    rw [readCell_eq, findCell_dropCell _ h1, readCell_eq]
    by_cases hx : x = a <;> simp [hx]
  · rw [readCell_eq, findCell_putCell _ _ h1, readCell_eq]
    by_cases hx : x = a <;> simp [hx]

theorem writeCells_wf (cells : List Host.Cell) {m : List Host.Cell} (h : memoryWf m = true) :
    memoryWf (cells.foldl (fun m c => writeCell m c.1 c.2) m) = true := by
  induction cells generalizing m with
  | nil => exact h
  | cons c r ih => exact ih (writeCell_wf _ _ h)

theorem readCell_writeCells_other (cells : List Host.Cell) {m : List Host.Cell} (h : memoryWf m = true) (x : Nat)
    (hx : ∀ c ∈ cells, c.1 ≠ x) : readCell (cells.foldl (fun m c => writeCell m c.1 c.2) m) x = readCell m x := by
  induction cells generalizing m with
  | nil => rfl
  | cons c r ih =>
    simp only [List.foldl_cons]
    rw [ih (writeCell_wf _ _ h) (fun y hy => hx y (List.mem_cons_of_mem _ hy)), readCell_writeCell _ _ h]
    have : ¬ x = c.1 := fun e => hx c (by simp) e.symm
    simp [this]

/-- Bytes of a rising list written: each is read back, every other byte is as before. -/
theorem readCell_writeCells {cells : List Host.Cell} (hc : rising cells = true) {m : List Host.Cell}
    (h : memoryWf m = true) (x : Nat) :
    readCell (cells.foldl (fun m c => writeCell m c.1 c.2) m) x = (findCell cells x).getD (readCell m x) := by
  induction cells generalizing m with
  | nil => rfl
  | cons c r ih =>
    obtain ⟨k, v⟩ := c
    have ⟨h1, h2⟩ := rising_cons.1 hc
    simp only [List.foldl_cons]
    rw [ih h2 (writeCell_wf _ _ h), readCell_writeCell _ _ h]
    by_cases hx : x = k
    · subst hx; simp [findCell_allAbove h1, findCell]
    · have hk : ¬ k = x := fun e => hx e.symm
      by_cases hlt : x < k
      · have : allAbove x r := fun y hy => Nat.lt_trans hlt (h1 y hy)
        simp [findCell_allAbove this, findCell, hx, hk, hlt]
      · simp [findCell, hx, hk, hlt]

theorem writeLE_wf {m : List Host.Cell} (a v n : Nat) (h : memoryWf m = true) : memoryWf (writeLE m a v n) = true := by
  induction n generalizing m a v with
  | zero => exact h
  | succ n ih => exact ih _ _ (writeCell_wf _ _ h)

theorem readCell_writeLE_other {m : List Host.Cell} (a v n : Nat) (h : memoryWf m = true) (x : Nat) (hx : x < a ∨ a + n ≤ x) :
    readCell (writeLE m a v n) x = readCell m x := by
  induction n generalizing m a v with
  | zero => rfl
  | succ n ih =>
    simp only [writeLE]
    rw [ih _ _ (writeCell_wf _ _ h) (by omega), readCell_writeCell _ _ h]
    have : ¬ x = a := by omega
    simp [this]

/-- A little-endian number is read back byte by byte. -/
theorem readCell_writeLE {m : List Host.Cell} (a v n i : Nat) (h : memoryWf m = true) (hi : i < n) :
    readCell (writeLE m a v n) (a + i) = BitVec.ofNat 8 (v / 256 ^ i) := by
  induction n generalizing m a v i with
  | zero => omega
  | succ n ih =>
    simp only [writeLE]
    cases i with
    | zero =>
      rw [readCell_writeLE_other _ _ _ (writeCell_wf _ _ h) _ (by omega), readCell_writeCell _ _ h]
      simp
    | succ i =>
      have := ih (a + 1) (v / 256) i (writeCell_wf a (BitVec.ofNat 8 v) h) (by omega)
      rw [show a + (i + 1) = a + 1 + i by omega, this, Nat.div_div_eq_div_mul, Nat.pow_succ, Nat.mul_comm]

theorem writeBytes_wf {m : List Host.Cell} (a : Nat) (bs : List Byte) (h : memoryWf m = true) :
    memoryWf (writeBytes m a bs) = true := by
  induction bs generalizing m a with
  | nil => exact h
  | cons b r ih => exact ih _ (writeCell_wf _ _ h)

theorem memoryWf_filter {m : List Host.Cell} (p : Host.Cell → Bool) (h : memoryWf m = true) :
    memoryWf (m.filter p) = true := by
  have ⟨h1, h2⟩ := memoryWf_iff.1 h
  exact memoryWf_iff.2 ⟨rising_filter p h1, fun c hc => h2 c (List.mem_filter.1 hc).1⟩

/-! ### Numbers in memory -/

theorem readLE_congr {m m' : List Host.Cell} (a n : Nat) (h : ∀ i < n, readCell m (a + i) = readCell m' (a + i)) :
    readLE m a n = readLE m' a n := by
  induction n generalizing a with
  | zero => rfl
  | succ n ih =>
    simp only [readLE]
    have h0 := h 0 (by omega)
    simp only [Nat.add_zero] at h0
    rw [h0, ih (a + 1) (fun i hi => by have := h (i + 1) (by omega); rwa [show a + (i + 1) = a + 1 + i by omega] at this)]

theorem readLE_writeLE {m : List Host.Cell} (a v n : Nat) (h : memoryWf m = true) :
    readLE (writeLE m a v n) a n = v % 256 ^ n := by
  induction n generalizing m a v with
  | zero => simp [readLE, Nat.mod_one]
  | succ n ih =>
    have hb := readCell_writeLE a v (n + 1) 0 h (by omega)
    simp only [Nat.add_zero, Nat.pow_zero, Nat.div_one] at hb
    simp only [readLE]
    rw [hb]
    simp only [writeLE]
    rw [ih _ _ (writeCell_wf _ _ h)]
    rw [BitVec.toNat_ofNat, Nat.pow_succ 256 n, Nat.mul_comm (256 ^ n) 256, Nat.mod_mul]

end Sys2Proof.Machine
end

