-- ==== Sys2Proof/Laws/State.lean ====
section
/-! SUPPORT. What reading the state gives after each of its updates: groups, cores, dies, quads, worlds, launches and
queues by name. -/

namespace Sys2Proof.Machine

/-! ### Lists kept by key -/

/-- A lookup by key after every entry has been changed by a function that keeps keys. -/
theorem find_map_key {α β : Type} [BEq β] (key : α → β) (f : α → α) (hf : ∀ x, key (f x) = key x) (k : β) (l : List α) :
    (l.map f).find? (fun x => key x == k) = (l.find? (fun x => key x == k)).map f := by
  induction l with
  | nil => rfl
  | cons x l ih => by_cases h : (key x == k) = true <;> simp [hf, h, ih]

theorem find_filter_ne {α β : Type} [BEq β] [LawfulBEq β] (key : α → β) (k k' : β) (h : k ≠ k') (l : List α) :
    (l.filter (fun x => key x != k')).find? (fun x => key x == k) = l.find? (fun x => key x == k) := by
  induction l with
  | nil => rfl
  | cons x l ih =>
    by_cases hx : key x = k'
    · have : ¬ k' = k := fun e => h e.symm
      simp [hx, ih, this]
    · by_cases hk : key x = k
      · simp [hk, h]
      · simp [hx, hk, ih]

theorem find_key {α β : Type} [BEq β] [LawfulBEq β] (key : α → β) (k : β) (l : List α) (x : α)
    (h : l.find? (fun y => key y == k) = some x) : key x = k := by
  simpa using List.find?_some h

/-! ### Groups -/

theorem group_key {s : State} {k : Key} {g : Group} (h : s.group k = some g) : g.key = k := find_key _ k _ g h

theorem setGroup_groups (s : State) (g : Group) :
    (s.setGroup g).groups = s.groups.map (fun x => if x.key == g.key then g else x) := rfl

theorem group_setGroup_same {s : State} {g a : Group} (h : s.group g.key = some a) :
    (s.setGroup g).group g.key = some g := by
  unfold State.group State.setGroup at *
  simp only at *
  rw [find_map_key Group.key (fun x => if x.key == g.key then g else x) _ g.key s.groups, h]
  · have := find_key Group.key _ _ _ h
    simp [this]
  · intro x; by_cases hx : x.key = g.key <;> simp [hx]

theorem group_setGroup_other {s : State} {g : Group} {k : Key} (h : k ≠ g.key) :
    (s.setGroup g).group k = s.group k := by
  unfold State.group State.setGroup
  simp only
  rw [find_map_key Group.key (fun x => if x.key == g.key then g else x) _ k s.groups]
  · cases hx : s.groups.find? (fun x => x.key == k) with
    | none => rfl
    | some x =>
      have := find_key Group.key _ _ _ hx
      have hne : ¬ x.key = g.key := by rw [this]; exact h
      simp [hne]
  · intro x; by_cases hx : x.key = g.key <;> simp [hx]

/-! ### Cores, dies and quads -/

@[simp] theorem core_setCore_same (s : State) (c : Core) : (s.setCore c).core c.id = c := by
  simp [State.core, State.setCore]

theorem core_setCore_other (s : State) (c : Core) (i : CoreId) (h : i ≠ c.id) : (s.setCore c).core i = s.core i := by
  have : ¬ c.id = i := fun e => h e.symm
  simp [State.core, State.setCore, this, find_filter_ne Core.id i c.id h]

@[simp] theorem die_setDie_same (s : State) (d : Die) : (s.setDie d).die d.id = d := by
  simp [State.die, State.setDie]

theorem die_setDie_other (s : State) (d : Die) (i : Nat) (h : i ≠ d.id) : (s.setDie d).die i = s.die i := by
  have : ¬ d.id = i := fun e => h e.symm
  simp [State.die, State.setDie, this, find_filter_ne Die.id i d.id h]

@[simp] theorem quad_setQuad_same (s : State) (q : Quad) : (s.setQuad q).quad q.id = q := by
  simp [State.quad, State.setQuad]

theorem quad_setQuad_at (s : State) (q : Quad) (i : QuadId) (h : i = q.id) : (s.setQuad q).quad i = q := by
  subst h; exact quad_setQuad_same s q

theorem quad_setQuad_other (s : State) (q : Quad) (i : QuadId) (h : i ≠ q.id) : (s.setQuad q).quad i = s.quad i := by
  have : ¬ q.id = i := fun e => h e.symm
  simp [State.quad, State.setQuad, this, find_filter_ne Quad.id i q.id h]

@[simp] theorem quad_id (s : State) (i : QuadId) : (s.quad i).id = i := by
  unfold State.quad
  cases h : s.quads.find? (fun x => x.id == i) with
  | none => rfl
  | some q => simpa using find_key Quad.id _ _ _ h

@[simp] theorem core_id (s : State) (i : CoreId) : (s.core i).id = i := by
  unfold State.core
  cases h : s.cores.find? (fun x => x.id == i) with
  | none => rfl
  | some q => simpa using find_key Core.id _ _ _ h

@[simp] theorem die_id (s : State) (i : Nat) : (s.die i).id = i := by
  unfold State.die
  cases h : s.dies.find? (fun x => x.id == i) with
  | none => rfl
  | some q => simpa using find_key Die.id _ _ _ h

/-! ### What an update leaves alone -/

@[simp] theorem setGroup_mem (s : State) (g : Group) : (s.setGroup g).mem = s.mem := rfl
@[simp] theorem setGroup_cores (s : State) (g : Group) : (s.setGroup g).cores = s.cores := rfl
@[simp] theorem setGroup_dies (s : State) (g : Group) : (s.setGroup g).dies = s.dies := rfl
@[simp] theorem setGroup_quads (s : State) (g : Group) : (s.setGroup g).quads = s.quads := rfl
@[simp] theorem setGroup_worlds (s : State) (g : Group) : (s.setGroup g).worlds = s.worlds := rfl
@[simp] theorem setGroup_queues (s : State) (g : Group) : (s.setGroup g).queues = s.queues := rfl
@[simp] theorem setGroup_now (s : State) (g : Group) : (s.setGroup g).now = s.now := rfl
@[simp] theorem setGroup_tick (s : State) (g : Group) : (s.setGroup g).tick = s.tick := rfl
@[simp] theorem setGroup_cur (s : State) (g : Group) : (s.setGroup g).cur = s.cur := rfl
@[simp] theorem setGroup_core (s : State) (g : Group) (c : CoreId) : (s.setGroup g).core c = s.core c := rfl
@[simp] theorem setGroup_die (s : State) (g : Group) (d : Nat) : (s.setGroup g).die d = s.die d := rfl
@[simp] theorem setGroup_quad (s : State) (g : Group) (q : QuadId) : (s.setGroup g).quad q = s.quad q := rfl
@[simp] theorem setGroup_world (s : State) (g : Group) (w : Nat) : (s.setGroup g).world w = s.world w := rfl

@[simp] theorem setCore_mem (s : State) (c : Core) : (s.setCore c).mem = s.mem := rfl
@[simp] theorem setCore_groups (s : State) (c : Core) : (s.setCore c).groups = s.groups := rfl
@[simp] theorem setCore_dies (s : State) (c : Core) : (s.setCore c).dies = s.dies := rfl
@[simp] theorem setCore_quads (s : State) (c : Core) : (s.setCore c).quads = s.quads := rfl
@[simp] theorem setCore_now (s : State) (c : Core) : (s.setCore c).now = s.now := rfl
@[simp] theorem setCore_group (s : State) (c : Core) (k : Key) : (s.setCore c).group k = s.group k := rfl
@[simp] theorem setCore_die (s : State) (c : Core) (d : Nat) : (s.setCore c).die d = s.die d := rfl
@[simp] theorem setCore_quad (s : State) (c : Core) (q : QuadId) : (s.setCore c).quad q = s.quad q := rfl

@[simp] theorem setDie_mem (s : State) (d : Die) : (s.setDie d).mem = s.mem := rfl
@[simp] theorem setDie_groups (s : State) (d : Die) : (s.setDie d).groups = s.groups := rfl
@[simp] theorem setDie_cores (s : State) (d : Die) : (s.setDie d).cores = s.cores := rfl
@[simp] theorem setDie_quads (s : State) (d : Die) : (s.setDie d).quads = s.quads := rfl
@[simp] theorem setDie_now (s : State) (d : Die) : (s.setDie d).now = s.now := rfl
@[simp] theorem setDie_group (s : State) (d : Die) (k : Key) : (s.setDie d).group k = s.group k := rfl
@[simp] theorem setDie_core (s : State) (d : Die) (c : CoreId) : (s.setDie d).core c = s.core c := rfl

@[simp] theorem setQuad_mem (s : State) (q : Quad) : (s.setQuad q).mem = s.mem := rfl
@[simp] theorem setQuad_groups (s : State) (q : Quad) : (s.setQuad q).groups = s.groups := rfl
@[simp] theorem setQuad_cores (s : State) (q : Quad) : (s.setQuad q).cores = s.cores := rfl
@[simp] theorem setQuad_dies (s : State) (q : Quad) : (s.setQuad q).dies = s.dies := rfl
@[simp] theorem setQuad_group (s : State) (q : Quad) (k : Key) : (s.setQuad q).group k = s.group k := rfl
@[simp] theorem setQuad_core (s : State) (q : Quad) (c : CoreId) : (s.setQuad q).core c = s.core c := rfl
@[simp] theorem setQuad_die (s : State) (q : Quad) (d : Nat) : (s.setQuad q).die d = s.die d := rfl

@[simp] theorem setWorld_mem (s : State) (w : World) : (s.setWorld w).mem = s.mem := rfl
@[simp] theorem setWorld_groups (s : State) (w : World) : (s.setWorld w).groups = s.groups := rfl
@[simp] theorem setWorld_cores (s : State) (w : World) : (s.setWorld w).cores = s.cores := rfl
@[simp] theorem setWorld_quads (s : State) (w : World) : (s.setWorld w).quads = s.quads := rfl

end Sys2Proof.Machine
end

