-- ==== Sys2Proof/Laws/Issue.lean ====
section
/-! SUPPORT. What issuing a word does, once for every word: the front end's checks passed and the word's own effect
known, the machine goes on with the results written and nothing else changed. -/

namespace Sys2Proof.Machine

/-! ### Registers written -/

theorem vreg_setIfInBounds (g : Group) (n m : Nat) (x : VReg) (h : n < 96) :
    ({ g with v := g.v.setIfInBounds n x } : Group).vreg m = if n = m then x else g.vreg m := by
  simp only [Group.vreg]
  by_cases e : n = m
  · subst e; simp [h]
  · simp [e]

theorem ureg_setIfInBounds (g : Group) (n m : Nat) (x : UReg) (h : n < 32) :
    ({ g with u := g.u.setIfInBounds n x } : Group).ureg m = if n = m then x else g.ureg m := by
  simp only [Group.ureg]
  by_cases e : n = m
  · subst e; simp [h]
  · simp [e]

theorem lane_write (r : VReg) (o : RegOut) (i : Nat) (h : i < 32) :
    (r.write o).lane i = if o.only then r.lane i else if hasBit o.mask i then o.val i else r.lane i := by
  cases e : o.only <;> simp [VReg.write, VReg.lane, h, e]

/-- The value of a register after one result has been put. -/
theorem put_bitsAt_same (g : Group) (due : Option Nat) (sl : Bool) (x : RegOut) (l : Nat) (hl : lowest x.mask = some l)
    (i : Nat) (hi : i < 32) :
    (g.put due sl x).bitsAt x.code i =
      if x.only then g.bitsAt x.code i
      else if isVec x.code then (if hasBit x.mask i then x.val i else g.bitsAt x.code i) else x.val l := by
  have hc : x.code.toNat < 128 := x.code.isLt
  unfold Group.put Group.bitsAt
  rw [hl]
  by_cases hv : isVec x.code = true
  · have h96 : x.code.toNat < 96 := by simpa [isVec] using hv
    simp [hv, Group.vreg, h96, lane_write, hi]
  · have h96 : ¬ x.code.toNat < 96 := by simpa [isVec] using hv
    have : x.code.toNat - 96 < 32 := by omega
    cases e : x.only <;> simp [hv, Group.ureg, this, UReg.write, e]

theorem put_tagAt_same (g : Group) (due : Option Nat) (sl : Bool) (x : RegOut) (l : Nat) (hl : lowest x.mask = some l) :
    (g.put due sl x).tagAt x.code = if x.only then g.tagAt x.code else x.tag := by
  have hc : x.code.toNat < 128 := x.code.isLt
  unfold Group.put Group.tagAt
  rw [hl]
  by_cases hv : isVec x.code = true
  · have h96 : x.code.toNat < 96 := by simpa [isVec] using hv
    cases e : x.only <;> simp [hv, Group.vreg, h96, VReg.write, e]
  · have h96 : ¬ x.code.toNat < 96 := by simpa [isVec] using hv
    have : x.code.toNat - 96 < 32 := by omega
    cases e : x.only <;> simp [hv, Group.ureg, this, UReg.write, e]

theorem put_sideAt_same (g : Group) (due : Option Nat) (sl : Bool) (x : RegOut) (l : Nat) (hl : lowest x.mask = some l) :
    (g.put due sl x).sideAt x.code = x.side.getD (g.sideAt x.code) := by
  have hc : x.code.toNat < 128 := x.code.isLt
  unfold Group.put Group.sideAt
  rw [hl]
  by_cases hv : isVec x.code = true
  · have h96 : x.code.toNat < 96 := by simpa [isVec] using hv
    cases e : x.only <;> simp [hv, Group.vreg, h96, VReg.write, e]
  · have h96 : ¬ x.code.toNat < 96 := by simpa [isVec] using hv
    have : x.code.toNat - 96 < 32 := by omega
    cases e : x.only <;> simp [hv, Group.ureg, this, UReg.write, e]

/-- The register of any other code is left alone. -/
theorem put_vreg (g : Group) (due : Option Nat) (sl : Bool) (x : RegOut) (n : Nat) (h : x.code.toNat ≠ n) :
    (g.put due sl x).vreg n = g.vreg n := by
  unfold Group.put
  cases hl : lowest x.mask with
  | none => rfl
  | some l =>
    by_cases hv : isVec x.code = true
    · simp [hv, Group.vreg, h]
    · simp [hv, Group.vreg]

theorem put_ureg (g : Group) (due : Option Nat) (sl : Bool) (x : RegOut) (n : Nat) (h : x.code.toNat ≠ n + 96) :
    (g.put due sl x).ureg n = g.ureg n := by
  unfold Group.put
  cases hl : lowest x.mask with
  | none => rfl
  | some l =>
    by_cases hv : isVec x.code = true
    · simp [hv, Group.ureg]
    · have h96 : ¬ x.code.toNat < 96 := by simpa [isVec] using hv
      have : x.code.toNat - 96 ≠ n := by omega
      simp [hv, Group.ureg, this]

theorem put_other (g : Group) (due : Option Nat) (sl : Bool) (x : RegOut) (r : Code) (h : x.code ≠ r) (i : Nat) :
    (g.put due sl x).bitsAt r i = g.bitsAt r i ∧ (g.put due sl x).tagAt r = g.tagAt r ∧
    (g.put due sl x).sideAt r = g.sideAt r := by
  have hne : x.code.toNat ≠ r.toNat := fun e => h (BitVec.eq_of_toNat_eq e)
  by_cases hv : isVec r = true
  · have h96 : r.toNat < 96 := by simpa [isVec] using hv
    simp [Group.bitsAt, Group.tagAt, Group.sideAt, hv, put_vreg g due sl x r.toNat hne]
  · have h96 : ¬ r.toNat < 96 := by simpa [isVec] using hv
    have : x.code.toNat ≠ (r.toNat - 96) + 96 := by omega
    simp [Group.bitsAt, Group.tagAt, Group.sideAt, hv, put_ureg g due sl x (r.toNat - 96) this]

/-- What putting registers leaves of the rest of the group. -/
theorem put_kept (g : Group) (due : Option Nat) (sl : Bool) (x : RegOut) :
    ∃ v u p rv ru, g.put due sl x = { g with v := v, u := u, pending := p, rebuiltV := rv, rebuiltU := ru } := by
  unfold Group.put
  cases lowest x.mask with
  | none => exact ⟨g.v, g.u, g.pending, g.rebuiltV, g.rebuiltU, rfl⟩
  | some l =>
    by_cases hv : isVec x.code = true
    · simp only [hv, if_true]; exact ⟨_, g.u, _, _, g.rebuiltU, rfl⟩
    · simp only [hv, Bool.false_eq_true, if_false]; exact ⟨g.v, _, _, g.rebuiltV, _, rfl⟩

/-- A list of results with different codes, put one after the other. -/
theorem puts_kept (due : Option Nat) (sl : Bool) (xs : List RegOut) (g : Group) :
    ∃ v u p rv ru, xs.foldl (fun (g : Group) x => g.put due sl x) g =
      { g with v := v, u := u, pending := p, rebuiltV := rv, rebuiltU := ru } := by
  induction xs generalizing g with
  | nil => exact ⟨g.v, g.u, g.pending, g.rebuiltV, g.rebuiltU, rfl⟩
  | cons x xs ih =>
    obtain ⟨v, u, p, rv, ru, h⟩ := put_kept g due sl x
    obtain ⟨v', u', p', rv', ru', h'⟩ := ih (g.put due sl x)
    refine ⟨v', u', p', rv', ru', ?_⟩
    rw [List.foldl_cons, h', h]

theorem puts_other (due : Option Nat) (sl : Bool) (xs : List RegOut) (g : Group) (r : Code)
    (h : ∀ x ∈ xs, x.code ≠ r) (i : Nat) :
    (xs.foldl (fun (g : Group) x => g.put due sl x) g).bitsAt r i = g.bitsAt r i ∧
    (xs.foldl (fun (g : Group) x => g.put due sl x) g).tagAt r = g.tagAt r ∧
    (xs.foldl (fun (g : Group) x => g.put due sl x) g).sideAt r = g.sideAt r := by
  induction xs generalizing g with
  | nil => exact ⟨rfl, rfl, rfl⟩
  | cons x xs ih =>
    have h1 := put_other g due sl x r (h x (by simp)) i
    have h2 := ih (g.put due sl x) (fun y hy => h y (by simp [hy]))
    simp only [List.foldl_cons]
    exact ⟨h2.1.trans h1.1, h2.2.1.trans h1.2.1, h2.2.2.trans h1.2.2⟩

theorem puts_same (due : Option Nat) (sl : Bool) (xs : List RegOut) (hd : (xs.map (fun x => x.code)).Nodup) (g : Group)
    (x : RegOut) (hx : x ∈ xs) (l : Nat) (hl : lowest x.mask = some l) :
    let b := xs.foldl (fun (g : Group) x => g.put due sl x) g
    b.tagAt x.code = (if x.only then g.tagAt x.code else x.tag) ∧ b.sideAt x.code = x.side.getD (g.sideAt x.code) ∧
    ∀ i < 32, b.bitsAt x.code i =
      if x.only then g.bitsAt x.code i else if isVec x.code then (if hasBit x.mask i then x.val i else g.bitsAt x.code i) else x.val l := by
  induction xs generalizing g with
  | nil => simp at hx
  | cons y ys ih =>
    simp only [List.map_cons, List.nodup_cons, List.mem_map, not_exists, not_and] at hd
    simp only [List.foldl_cons]
    rcases List.mem_cons.mp hx with rfl | hx
    · have ho := fun i => puts_other due sl ys (g.put due sl x) x.code (fun z hz e => hd.1 z hz e) i
      refine ⟨?_, ?_, ?_⟩
      · rw [(ho 0).2.1, put_tagAt_same g due sl x l hl]
      · rw [(ho 0).2.2, put_sideAt_same g due sl x l hl]
      · intro i hi; rw [(ho i).1, put_bitsAt_same g due sl x l hl i hi]
    · have hne : y.code ≠ x.code := fun e => hd.1 x hx e.symm
      have h := ih hd.2 (g.put due sl y) hx
      have ho := fun i => put_other g due sl y x.code hne i
      refine ⟨by rw [h.1, (ho 0).2.1], ?_, ?_⟩
      · rw [h.2.1, (ho 0).2.2]
      · intro i hi; rw [h.2.2 i hi, (ho i).1]

/-! ### Predicates written -/

theorem putPred_kept (g : Group) (due : Option Nat) (sl : Bool) (n : Nat) (m v : Word) :
    ∃ p q, g.putPred due sl n m v = { g with p := p, pending := q } := by
  unfold Group.putPred
  by_cases h : 7 ≤ n
  · simp only [h, if_true]; exact ⟨g.p, g.pending, rfl⟩
  · simp only [h, if_false]; exact ⟨_, _, rfl⟩

theorem putPred_same (g : Group) (due : Option Nat) (sl : Bool) (n : Nat) (m v : Word) (h : n < 7) :
    (g.putPred due sl n m v).pred n = (g.pred n &&& ~~~m) ||| (v &&& m) := by
  have : ¬ 7 ≤ n := by omega
  have h7 : ¬ n = 7 := by omega
  simp [Group.putPred, this, Group.pred, h7, h]

theorem putPred_other (g : Group) (due : Option Nat) (sl : Bool) (n k : Nat) (m v : Word) (h : n ≠ k) :
    (g.putPred due sl n m v).pred k = g.pred k := by
  unfold Group.putPred
  by_cases h7 : 7 ≤ n
  · simp [h7]
  · simp [h7, Group.pred, h]

theorem putPreds_kept (due : Option Nat) (sl : Bool) (xs : List (Nat × Word × Word)) (g : Group) :
    ∃ p q, xs.foldl (fun (g : Group) (x : Nat × Word × Word) => g.putPred due sl x.1 x.2.1 x.2.2) g =
      { g with p := p, pending := q } := by
  induction xs generalizing g with
  | nil => exact ⟨g.p, g.pending, rfl⟩
  | cons x xs ih =>
    obtain ⟨p, q, h⟩ := putPred_kept g due sl x.1 x.2.1 x.2.2
    obtain ⟨p', q', h'⟩ := ih (g.putPred due sl x.1 x.2.1 x.2.2)
    refine ⟨p', q', ?_⟩
    rw [List.foldl_cons, h', h]

theorem putPreds_other (due : Option Nat) (sl : Bool) (xs : List (Nat × Word × Word)) (g : Group) (k : Nat)
    (h : ∀ x ∈ xs, x.1 ≠ k) :
    (xs.foldl (fun (g : Group) (x : Nat × Word × Word) => g.putPred due sl x.1 x.2.1 x.2.2) g).pred k = g.pred k := by
  induction xs generalizing g with
  | nil => rfl
  | cons x xs ih =>
    rw [List.foldl_cons, ih _ (fun y hy => h y (by simp [hy])), putPred_other _ _ _ _ _ _ _ (h x (by simp))]

theorem putPreds_same (due : Option Nat) (sl : Bool) (xs : List (Nat × Word × Word)) (hd : (xs.map (fun x => x.1)).Nodup)
    (g : Group) (x : Nat × Word × Word) (hx : x ∈ xs) (h7 : x.1 < 7) :
    (xs.foldl (fun (g : Group) (x : Nat × Word × Word) => g.putPred due sl x.1 x.2.1 x.2.2) g).pred x.1 =
      (g.pred x.1 &&& ~~~x.2.1) ||| (x.2.2 &&& x.2.1) := by
  induction xs generalizing g with
  | nil => simp at hx
  | cons y ys ih =>
    simp only [List.map_cons, List.nodup_cons, List.mem_map, not_exists, not_and] at hd
    rw [List.foldl_cons]
    rcases List.mem_cons.mp hx with rfl | hx
    · rw [putPreds_other _ _ _ _ _ (fun z hz e => hd.1 z hz e), putPred_same _ _ _ _ _ _ h7]
    · have hne : y.1 ≠ x.1 := fun e => hd.1 x hx e.symm
      rw [ih hd.2 _ hx, putPred_other _ _ _ _ _ _ _ hne]

/-! ### The whole of a word's results -/

theorem slot_setSlot (g : Group) (sl : Bool) (p : Option Path) : (g.setSlot sl p).slot sl = p := by
  cases sl <;> rfl

theorem setSlot_kept (g : Group) (sl : Bool) (p : Option Path) :
    ∃ a b, g.setSlot sl p = { g with slot0 := a, slot1 := b } := by
  cases sl
  · exact ⟨p, g.slot1, rfl⟩
  · exact ⟨g.slot0, p, rfl⟩

theorem prune_kept (g : Group) : ∃ q, g.prune = { g with pending := q } := by
  unfold Group.prune
  simp only []
  split
  · exact ⟨[], rfl⟩
  · exact ⟨g.pending, rfl⟩

theorem goOn_kept (g : Group) (sl : Bool) (tick : Nat) (go : Go) :
    ∃ a b q, goOn g sl tick go = { g with slot0 := a, slot1 := b, pending := q } := by
  cases go with
  | seq =>
    obtain ⟨a, b, h⟩ := setSlot_kept g sl ((g.slot sl).map (fun p => p.next tick))
    exact ⟨a, b, g.pending, h⟩
  | jump pc =>
    obtain ⟨a, b, h⟩ := setSlot_kept (g.settleSlot sl) sl ((g.slot sl).map (fun p => p.jump pc tick))
    exact ⟨a, b, _, h⟩
  | moved => exact ⟨g.slot0, g.slot1, g.pending, rfl⟩

/-- Every field of a path that the notes of late results leave alone. -/
theorem noteLate_kept (p : Path) (b : Bool) (ns : List Nat) : ∃ l, p.noteLate b ns = { p with late := l } := ⟨_, rfl⟩

theorem goOn_slot (g : Group) (sl : Bool) (tick : Nat) (go : Go) (a : Group)
    (ha : ∃ l : Path → List (Nat × Nat), g.slot sl = (a.slot sl).map (fun q => { q with late := l q })) :
    WentOn (a.slot sl) ((goOn g sl tick go).slot sl) go := by
  obtain ⟨l, ha⟩ := ha
  cases go with
  | seq =>
    intro q hq
    rw [hq] at ha
    refine ⟨Path.next { q with late := l q } tick, ?_, ⟨rfl, ⟨rfl, rfl, rfl, rfl⟩, rfl, rfl, rfl, rfl⟩, rfl⟩
    simp [goOn, slot_setSlot, ha]
  | jump pc =>
    intro q hq
    rw [hq] at ha
    refine ⟨Path.jump { q with late := l q } pc tick, ?_, ⟨rfl, ⟨rfl, rfl, rfl, rfl⟩, rfl, rfl, rfl, rfl⟩, rfl, rfl⟩
    simp [goOn, slot_setSlot, ha]
  | moved =>
    show (g.slot sl).map Path.unmarked = (a.slot sl).map Path.unmarked
    rw [ha]
    cases a.slot sl <;> rfl

theorem setSlot_other (g : Group) (sl : Bool) (p : Option Path) : (g.setSlot sl p).slot (!sl) = g.slot (!sl) := by
  cases sl <;> rfl

theorem goOn_other (g : Group) (sl : Bool) (tick : Nat) (go : Go) : (goOn g sl tick go).slot (!sl) = g.slot (!sl) := by
  cases go <;> cases sl <;> rfl

theorem finish_results (g : Group) (sl : Bool) (due : Option Nat) (tick : Nat) (o : Out)
    (hr : (o.regs.map (fun x => x.code)).Nodup) (hp : (o.preds.map (fun x => x.1)).Nodup) :
    Results sl o g (finish g sl due tick o) := by
  -- the group at each stage
  obtain ⟨n0, n1, hN⟩ := setSlot_kept g sl ((g.slot sl).map (fun p => p.noteLate due.isNone o.names))
  generalize hA : g.setSlot sl ((g.slot sl).map (fun p => p.noteLate due.isNone o.names)) = A at hN
  have hs : A.slot sl = (g.slot sl).map (fun p => p.noteLate due.isNone o.names) := by rw [← hA, slot_setSlot]
  have hu : A.u = g.u := by rw [hN]
  have hv : A.v = g.v := by rw [hN]
  have hpd : A.p = g.p := by rw [hN]
  have hbits : ∀ r i, A.bitsAt r i = g.bitsAt r i := fun r i => by simp [Group.bitsAt, Group.vreg, Group.ureg, hu, hv]
  have htag : ∀ r, A.tagAt r = g.tagAt r := fun r => by simp [Group.tagAt, Group.vreg, Group.ureg, hu, hv]
  have hside : ∀ r, A.sideAt r = g.sideAt r := fun r => by simp [Group.sideAt, Group.vreg, Group.ureg, hu, hv]
  have hpr : ∀ n, A.pred n = g.pred n := fun n => by simp [Group.pred, hpd]
  obtain ⟨v, u, q1, rv, ru, hB⟩ := puts_kept due sl o.regs A
  have hsame := puts_same due sl o.regs hr A
  have hother := puts_other due sl o.regs A
  generalize hBd : o.regs.foldl (fun (g : Group) x => g.put due sl x) A = B at hB hsame hother
  obtain ⟨p, q2, hC⟩ := putPreds_kept due sl o.preds B
  have hpsame := putPreds_same due sl o.preds hp B
  have hpother := putPreds_other due sl o.preds B
  generalize hCd : o.preds.foldl (fun (g : Group) (x : Nat × Word × Word) => g.putPred due sl x.1 x.2.1 x.2.2) B = C
    at hC hpsame hpother
  obtain ⟨s0, s1, q3, hD'⟩ := goOn_kept (C.orFlags o.flags) sl tick o.go
  have hslot := goOn_slot (C.orFlags o.flags) sl tick o.go g
  have hoth := goOn_other (C.orFlags o.flags) sl tick o.go
  generalize hDd' : goOn (C.orFlags o.flags) sl tick o.go = D' at hD' hslot hoth
  obtain ⟨D, hDd⟩ : ∃ D : Group, { D' with spillHeld := none } = D := ⟨_, rfl⟩
  have hDs : ∀ b, D.slot b = D'.slot b := by intro b; rw [← hDd]; cases b <;> rfl
  have hD : D = { C.orFlags o.flags with slot0 := s0, slot1 := s1, pending := q3, spillHeld := none } := by rw [← hDd, hD']
  obtain ⟨q4, hE⟩ := prune_kept D
  have hfin : finish g sl due tick o = D.prune := by
    simp only [finish, hA, hBd, hCd, hDd', hDd]
  have hBp : ∀ n, B.pred n = g.pred n := fun n => by rw [← hpr n, hB]; rfl
  rw [hfin, hE]
  have hCv : C.v = B.v := by rw [hC]
  have hCu : C.u = B.u := by rw [hC]
  have key : ∀ r i, ({ D with pending := q4 } : Group).bitsAt r i = B.bitsAt r i ∧
      ({ D with pending := q4 } : Group).tagAt r = B.tagAt r ∧ ({ D with pending := q4 } : Group).sideAt r = B.sideAt r := by
    intro r i
    rw [hD]
    simp [Group.bitsAt, Group.tagAt, Group.sideAt, Group.vreg, Group.ureg, Group.orFlags, hCv, hCu]
  have keyp : ∀ n, ({ D with pending := q4 } : Group).pred n = C.pred n := by
    intro n; rw [hD]; rfl
  refine ⟨?_, ?_, ?_, ?_, ?_, ?_, ?_, ?_⟩
  · intro x hx l hl
    have h := hsame x hx l hl
    refine ⟨?_, ?_, ?_⟩
    · rw [(key x.code 0).2.1, h.1, htag]
    · rw [(key x.code 0).2.2, h.2.1, hside]
    · intro i hi; rw [(key x.code i).1, h.2.2 i hi, hbits]
  · intro r hne i
    have h := hother r hne i
    rw [(key r i).1, (key r i).2.1, (key r i).2.2, h.1, h.2.1, h.2.2, hbits, htag, hside]
    exact ⟨rfl, rfl, rfl⟩
  · intro x hx h7
    rw [keyp, hpsame x hx h7, hBp]
  · intro n hn; rw [keyp, hpother n hn, hBp]
  · show D.flags = _
    rw [hD]; simp only [Group.orFlags]
    rw [show C.flags = B.flags by rw [hC], show B.flags = A.flags by rw [hB], show A.flags = g.flags by rw [hN]]
  · have : ({ D with pending := q4 } : Group).slot sl = D.slot sl := by cases sl <;> rfl
    rw [this, hDs]
    apply hslot
    refine ⟨fun q => (q.noteLate due.isNone o.names).late, ?_⟩
    have e : (C.orFlags o.flags).slot sl = A.slot sl := by
      cases sl <;> simp [Group.slot, Group.orFlags, hC, hB]
    rw [e, hs]; rfl
  · have e1 : ({ D with pending := q4 } : Group).slot (!sl) = D.slot (!sl) := by cases sl <;> rfl
    have e2 : D.slot (!sl) = (C.orFlags o.flags).slot (!sl) := by rw [hDs, hoth]
    have e3 : (C.orFlags o.flags).slot (!sl) = A.slot (!sl) := by
      cases sl <;> simp [Group.slot, Group.orFlags, hC, hB]
    have e4 : A.slot (!sl) = g.slot (!sl) := by rw [← hA, setSlot_other]
    rw [e1, e2, e3, e4]
  · simp only [hD, Group.orFlags, hC, hB, hN, and_self]

/-! ### Marks of waiting paths -/

@[simp] theorem unmarked_bitsAt (g : Group) (r : Code) (i : Nat) : g.unmarked.bitsAt r i = g.bitsAt r i := rfl
@[simp] theorem unmarked_tagAt (g : Group) (r : Code) : g.unmarked.tagAt r = g.tagAt r := rfl
@[simp] theorem unmarked_sideAt (g : Group) (r : Code) : g.unmarked.sideAt r = g.sideAt r := rfl
@[simp] theorem unmarked_pred (g : Group) (n : Nat) : g.unmarked.pred n = g.pred n := rfl
theorem unmarked_slot (g : Group) (sl : Bool) : g.unmarked.slot sl = (g.slot sl).map Path.unmarked := by cases sl <;> rfl
theorem unmarked_path_twice (p : Option Path) : (p.map Path.unmarked).map Path.unmarked = p.map Path.unmarked := by
  cases p <;> rfl

/-- The marks of a path do not count in how it goes on. -/
theorem wentOn_unmarked {p p' : Option Path} {go : Go} (h : WentOn p p' go) : WentOn p (p'.map Path.unmarked) go := by
  cases go with
  | seq =>
    intro q hq
    obtain ⟨q', rfl, w, hs⟩ := h q hq
    exact ⟨q'.unmarked, rfl, ⟨w.pc, w.kept, w.himm, w.hrcv, w.hmod, w.parked⟩, hs⟩
  | jump pc =>
    intro q hq
    obtain ⟨q', rfl, w, hs⟩ := h q hq
    exact ⟨q'.unmarked, rfl, ⟨w.pc, w.kept, w.himm, w.hrcv, w.hmod, w.parked⟩, hs⟩
  | moved =>
    show _ = _
    rw [unmarked_path_twice]; exact h

theorem results_unmarked {sl : Bool} {o : Out} {a b : Group} (h : Results sl o a b) : Results sl o a b.unmarked := by
  refine ⟨?_, ?_, ?_, ?_, h.flags, ?_, ?_, ?_⟩
  · simpa using h.regs
  · simpa using h.others
  · simpa using h.preds
  · simpa using h.preds'
  · rw [unmarked_slot]; exact wentOn_unmarked h.path
  · rw [unmarked_slot, unmarked_path_twice]; exact h.other
  · exact h.kept

/-- A group after a slot of its port has issued at a tick (R190, R215). -/
def Group.noted (g : Group) (k : Key) (sl : Bool) (tick : Nat) : Group :=
  if g.key.die == k.die && g.key.core == k.core && g.key.slot % 4 == k.slot % 4 then
    let g : Group := { g with
      slot0 := g.slot0.map (fun p => { p with yielded := p.yielded.filter (fun y => y != (k.slot, sl)) })
      slot1 := g.slot1.map (fun p => { p with yielded := p.yielded.filter (fun y => y != (k.slot, sl)) }) }
    if g.key == k then g.issuedAt sl tick else g
  else g

/-- A group without its marks, with the ticks of its slots' latest issue taken off too. -/
theorem noted_kept (g : Group) (k : Key) (sl : Bool) (tick : Nat) :
    ∃ a b, (g.noted k sl tick).unmarked = { g.unmarked with last0 := a, last1 := b } := by
  unfold Group.noted Group.issuedAt
  dsimp only
  repeat' split
  all_goals
    unfold Group.unmarked
    cases g.slot0 <;> cases g.slot1 <;> exact ⟨_, _, rfl⟩

theorem noted_other (g : Group) (k : Key) (sl : Bool) (tick : Nat) (h : g.key ≠ k) :
    (g.noted k sl tick).unmarked = g.unmarked := by
  unfold Group.noted
  dsimp only
  split
  · rw [if_neg (by simpa using h)]
    unfold Group.unmarked
    cases g.slot0 <;> cases g.slot1 <;> rfl
  · rfl

theorem noted_key (g : Group) (k : Key) (sl : Bool) (tick : Nat) : (g.noted k sl tick).key = g.key := by
  unfold Group.noted Group.issuedAt
  dsimp only
  repeat' split
  all_goals rfl

theorem noteIssue_group (s : State) (k k' : Key) (sl : Bool) :
    (noteIssue s k sl).group k' = (s.group k').map (fun g => g.noted k sl s.tick) := by
  unfold State.group
  rw [← find_map_key Group.key (fun g => g.noted k sl s.tick) (fun g => noted_key g k sl s.tick) k' s.groups]
  rfl

/-- The ticks of the slots' latest issue do not count among what a word leaves. -/
theorem results_ticks {sl : Bool} {o : Out} {a b : Group} (h : Results sl o a b) (x y : Nat) :
    Results sl o a { b with last0 := x, last1 := y } :=
  ⟨h.regs, h.others, h.preds, h.preds', h.flags, by cases sl <;> exact h.path, by cases sl <;> exact h.other, h.kept⟩

/-- The rest of the machine after it. -/
theorem noteIssue_rest (s : State) (k : Key) (sl : Bool) : ∃ gs, noteIssue s k sl = { s with groups := gs } := ⟨_, rfl⟩

/-! ### Records of posted operations -/

theorem setQuad_entries (s : State) (i q : QuadId) (es : List EngEntry) :
    { (s.setQuad { s.quad i with entries := es }).quad q with entries := [] } = { s.quad q with entries := [] } := by
  by_cases h : q = i
  · subst h
    exact congrArg (fun (x : Quad) => { x with entries := [] }) (quad_setQuad_at s { s.quad q with entries := es } q (quad_id s q).symm)
  · exact congrArg (fun (x : Quad) => { x with entries := [] })
      (quad_setQuad_other s { s.quad i with entries := es } q (by simpa using h))

theorem spoilRecords_quad (s : State) (k : Key) (rs : List Code) (q : QuadId) :
    { (spoilRecords s k rs).quad q with entries := [] } = { s.quad q with entries := [] } := by
  unfold spoilRecords
  simp only []
  split
  · rfl
  · split
    · rfl
    · exact setQuad_entries s _ q _

theorem spoilRecords_rest (s : State) (k : Key) (rs : List Code) :
    ∃ qs, spoilRecords s k rs = { s with quads := qs } := by
  unfold spoilRecords
  simp only []
  split
  · exact ⟨s.quads, rfl⟩
  · split
    · exact ⟨s.quads, rfl⟩
    · exact ⟨_, rfl⟩

/-! ### Reuse latches -/

theorem latchWord_rest (s : State) (c : Cx) (rs ds ws : List Code) : ∃ ps, latchWord s c rs ds ws = { s with ports := ps } := by
  unfold latchWord
  split <;> exact ⟨_, rfl⟩

theorem endLatch_rest (s : State) (k : Key) (sl : Bool) : ∃ ps, endLatch s k sl = { s with ports := ps } := by
  unfold endLatch
  split
  · split
    · exact ⟨s.ports, rfl⟩
    · exact ⟨_, rfl⟩
  · exact ⟨_, rfl⟩

/-! ### One word -/

theorem issues_not_short {s : State} {c : Cx} {gd : Guard} (h : AtIssue s c gd) (rs : List Code) : c.shortOf rs = false := by
  simp [Cx.shortOf, shortRead, h.written, exposed]

theorem issues_not_shortPreds {s : State} {c : Cx} {gd : Guard} (h : AtIssue s c gd) (ns : List Nat) :
    c.shortPreds ns = false := by simp [Cx.shortPreds, shortPred, h.written, exposed]

theorem issues_not_shortGuard {s : State} {c : Cx} {gd : Guard} (h : AtIssue s c gd) : c.shortGuard gd = false := by
  simp [Cx.shortGuard, shortPred, h.written, exposed]

theorem issues_not_stalled {s : State} {c : Cx} {gd : Guard} (h : AtIssue s c gd) (rs : List Code) (ns : List Nat) :
    c.stalled rs ns = false := by simp [Cx.stalled, h.late]

theorem issues_not_awaited {s : State} {c : Cx} {gd : Guard} (h : AtIssue s c gd) : s.awaited c.key = [] := by
  have : s.flight.filter (fun (f : Inflight) => f.key == c.key) = [] := by
    rw [List.filter_eq_nil_iff]
    intro f hf; simpa using h.flight f hf
  simp [State.awaited, this]

theorem issues_key {s : State} {c : Cx} {gd : Guard} (h : AtIssue s c gd) : c.g.key = c.key := by
  rw [h.reads]; rfl

/-- The conditions under which a word runs its own effect (R19). -/
structure Wd.Runs (w : Wd) (s : State) (c : Cx) : Prop where
  lanes     : w.cls = .v → w.lanes c ≠ 0
  ok        : w.ok s c = true
  legalT    : w.legalT c = true
  split     : w.split c = false
  effective : w.effective c = true
  read      : ∀ r ∈ w.reads c, c.tag r ≠ .void
  accept    : w.accept c = true
  alive     : w.touches = true → Alive s c

/-- Such a word comes to its effect. -/
theorem issueWord_runs {w : Wd} {s : State} {c : Cx} (hi : AtIssue s c w.guard) (h : w.Runs s c) (arg : Nat) :
    issueWord w s arg =
      .next (conclude s c ((w.latency c).map (c.p.cycle + ·)) arg (w.judge ++ w.reads c ++ w.takes) w.wides (w.run c s)) := by
  have hc : Cx.of s.now c.g c.sl c.p w.guard = c := hi.reads.symm
  have h0 : issueWord w s arg = .next (issueIn s w c arg) := by
    simp only [issueWord, hi.cur, hi.group, hi.slot, hc]
  have hl : (w.cls == .v && w.lanes c == 0) = false := by
    cases e : (w.cls == Cls.v) with
    | false => rfl
    | true =>
      have : w.cls = .v := by simpa using e
      simpa using h.lanes this
  have hw : w.waits s c = false := by simp [Wd.waits, issues_not_awaited hi]
  have hr : (w.reads c).any (fun r => c.tag r == .void) = false := by
    rw [List.any_eq_false]; intro r hr; simpa using h.read r hr
  rw [h0]
  have hp : perform s w c arg = conclude s c ((w.latency c).map (c.p.cycle + ·)) arg (w.judge ++ w.reads c ++ w.takes) w.wides (w.run c s) := by
    unfold perform
    cases e : w.touches with
    | false => simp
    | true =>
      obtain ⟨x, hx, hf⟩ := h.alive e
      simp [hx, hf]
  simp only [issueIn, hp, ite_self, issues_not_stalled hi, issues_not_shortGuard hi, issues_not_short hi, issues_not_shortPreds hi, hl,
    h.ok, hw, h.legalT, h.split, h.effective, hr, h.accept, Bool.and_false, Bool.not_true, Bool.false_eq_true,
    if_false, Bool.or_self]

/-- What is left by a word whose effect has given `o` and the state `s'`. -/
theorem conclude_ok {s s' : State} {c : Cx} {due : Option Nat} {arg : Nat} {reads wides : List Code} {o : Out}
    (a : Group) (ha : s'.group c.g.key = some a) (hr : (o.regs.map (fun x => x.code)).Nodup)
    (hp : (o.preds.map (fun x => x.1)).Nodup) :
    ∃ u, conclude s c due arg reads wides (.ok o s') = afterWord u c.g.key ∧ Leaves s' u c.g.key c.sl o := by
  generalize hg : c.g = g at ha
  generalize hsl : c.sl = sl
  obtain ⟨qs, hq⟩ := spoilRecords_rest s' g.key (o.regs.map (fun r => r.code))
  have hqq := spoilRecords_quad s' g.key (o.regs.map (fun r => r.code))
  obtain ⟨ps, hl⟩ := latchWord_rest (spoilRecords s' g.key (o.regs.map (fun r => r.code))) c reads wides
    (o.regs.map (fun r => r.code))
  obtain ⟨t, ht⟩ : ∃ t, latchWord (spoilRecords s' g.key (o.regs.map (fun r => r.code))) c reads wides
    (o.regs.map (fun r => r.code)) = t := ⟨_, rfl⟩
  obtain ⟨ps', he⟩ := endLatch_rest (noteIssue (t.setGroup (finish a sl due s.tick o)) g.key sl) g.key sl
  refine ⟨endLatch (noteIssue (t.setGroup (finish a sl due s.tick o)) g.key sl) g.key sl,
    by simp only [conclude, hg, hsl, ha, ht], ?_⟩
  have hfin := finish_results a sl due s.tick o hr hp
  have hak : a.key = g.key := group_key ha
  have hkey : (finish a sl due s.tick o).key = g.key := hfin.kept.1.trans hak
  have hq : t = { s' with quads := qs, ports := ps } := by rw [← ht, hl, hq]
  have hqq : ∀ q, { t.quad q with entries := [] } = { s'.quad q with entries := [] } := by
    intro q; rw [← hqq q, ← ht, hl]; rfl
  have hgq : ∀ k, t.group k = s'.group k := by intro k; rw [hq]; rfl
  have heg : ∀ k, (endLatch (noteIssue (t.setGroup (finish a sl due s.tick o)) g.key sl) g.key sl).group k =
    (noteIssue (t.setGroup (finish a sl due s.tick o)) g.key sl).group k := by intro k; rw [he]; rfl
  have hset : (t.setGroup (finish a sl due s.tick o)).group g.key = some (finish a sl due s.tick o) := by
    rw [← hkey]
    exact group_setGroup_same (a := a) (by rw [hkey, hgq, ha])
  refine ⟨⟨a, (finish a sl due s.tick o).noted g.key sl t.tick, ha, ?_, ?_⟩, ?_, ?_, ?_⟩
  · rw [heg, noteIssue_group, hset]; rfl
  · obtain ⟨x, y, h⟩ := noted_kept (finish a sl due s.tick o) g.key sl t.tick
    rw [h]; exact results_ticks (results_unmarked hfin) x y
  · intro k' hk
    rw [heg, noteIssue_group, group_setGroup_other (by rw [hkey]; exact hk), hgq]
    cases e : s'.group k' with
    | none => rfl
    | some x => exact congrArg some (noted_other x g.key sl _ (by rw [group_key e]; exact hk))
  · intro q; rw [← hqq q, he]; rfl
  · obtain ⟨gs, hgs⟩ := noteIssue_rest (t.setGroup (finish a sl due s.tick o)) g.key sl
    exact ⟨gs, qs, ps', by rw [he, hgs, hq]; rfl⟩

/-- A word that runs its effect, without an effect beside its results. -/
theorem issueWord_does {w : Wd} {s s' : State} {c : Cx} {o : Out} (hi : AtIssue s c w.guard) (h : w.Runs s c)
    (hrun : w.run c s = .ok o s') (a : Group) (ha : s'.group c.key = some a) (hr : (o.regs.map (fun x => x.code)).Nodup)
    (hp : (o.preds.map (fun x => x.1)).Nodup) (arg : Nat) :
    ∃ u, issueWord w s arg = .next (afterWord u c.key) ∧ Leaves s' u c.key c.sl o := by
  have hk := issues_key hi
  rw [issueWord_runs hi h, hrun, ← hk]
  obtain ⟨u, h1, h2⟩ := conclude_ok (s := s) (c := c)
    (due := (w.latency c).map (c.p.cycle + ·)) (arg := arg) (reads := w.judge ++ w.reads c ++ w.takes) (wides := w.wides) a (by rw [hk]; exact ha) hr hp
  exact ⟨u, by rw [h1], h2⟩

end Sys2Proof.Machine
end

