-- ==== Sys2Proof/Laws/Keeps.lean ====
section
/-! SUPPORT. Properties of the state that rest on memory and on the dirty bytes of the caches alone (`Form`), and that
every operation below a word keeps them, whether it ends, waits or faults. -/

namespace Sys2Proof.Machine

/-! ### Properties of memory and dirty bytes -/

/-- A property that the changes made to memory and to the caches' dirty bytes keep, and that rests on nothing else. -/
structure Form (P : State → Prop) : Prop where
  rest   : ∀ {s t : State}, t.mem = s.mem → t.cores = s.cores → t.dies = s.dies → P s → P t
  write  : ∀ {s : State} (cells : List Host.Cell), P s → P { s with mem := cells.foldl (fun m c => writeCell m c.1 c.2) s.mem }
  core   : ∀ {s : State} {k : Core} {c : CoreId}, k.dirty = (s.core c).dirty → P s → P (s.setCore k)
  drop   : ∀ {s : State} {k : Core} {c : CoreId} (p : Host.Cell → Bool), k.dirty = (s.core c).dirty.filter p → P s →
    P (s.setCore k)
  put    : ∀ {s : State} {k : Core} {c : CoreId} (cells : List Host.Cell),
    k.dirty = cells.foldl (fun m b => putCell m b.1 b.2) (s.core c).dirty → P s → P (s.setCore k)
  die    : ∀ {s : State} {k : Die} {d : Nat}, k.id = (s.die d).id → k.dirty = (s.die d).dirty → P s → P (s.setDie k)
  drop'  : ∀ {s : State} {k : Die} {d : Nat} (p : Host.Cell → Bool), k.id = (s.die d).id →
    k.dirty = (s.die d).dirty.filter p → P s → P (s.setDie k)
  put'   : ∀ {s : State} {k : Die} {d : Nat} (cells : List Host.Cell), k.id = (s.die d).id →
    (∀ x ∈ cells, wordDie (x.1 / 32) ≠ d) → k.dirty = cells.foldl (fun m b => putCell m b.1 b.2) (s.die d).dirty → P s →
    P (s.setDie k)
  cores  : ∀ {s : State} (f : Core → Core), (∀ k, (f k).dirty = k.dirty) → P s → P { s with cores := s.cores.map f }
  dies   : ∀ {s : State} (f : Die → Die), (∀ k, (f k).id = k.id ∧ (f k).dirty = k.dirty) → P s →
    P { s with dies := s.dies.map f }

/-- Memory in its form is such a property. -/
theorem form_memory : Form (fun s => memoryWf s.mem = true) where
  rest h _ _ hs := by rw [h]; exact hs
  write cells hs := writeCells_wf cells hs
  core _ hs := hs
  drop _ _ hs := hs
  put _ _ hs := hs
  die _ _ hs := hs
  drop' _ _ _ hs := hs
  put' _ _ _ _ hs := hs
  cores _ _ hs := hs
  dies _ _ hs := hs

theorem core_rising {s : State} (h : CachesWf s) (c : CoreId) : rising (s.core c).dirty = true := by
  unfold State.core
  cases e : s.cores.find? (fun x => x.id == c) with
  | none => rfl
  | some k => exact h.cores k (List.mem_of_find?_eq_some e)

theorem die_wf {s : State} (h : CachesWf s) (d : Nat) :
    rising (s.die d).dirty = true ∧ ∀ x ∈ (s.die d).dirty, wordDie (x.1 / 32) ≠ d := by
  have hid := die_id s d
  unfold State.die at *
  cases e : s.dies.find? (fun x => x.id == d) with
  | none => exact ⟨rfl, by simp [Die.fresh]⟩
  | some k =>
    rw [e] at hid
    have := h.dies k (List.mem_of_find?_eq_some e)
    simp only [Option.getD_some] at *
    rw [hid] at this
    exact this

theorem mem_putCells (cells : List Host.Cell) {m : List Host.Cell} {x : Host.Cell}
    (h : x ∈ cells.foldl (fun m b => putCell m b.1 b.2) m) : x ∈ cells ∨ x ∈ m := by
  induction cells generalizing m with
  | nil => exact .inr h
  | cons c r ih =>
    rcases ih h with h | h
    · exact .inl (List.mem_cons_of_mem _ h)
    · rcases mem_putCell h with h | h
      · exact .inl (by rw [h]; simp)
      · exact .inr h

theorem setCore_caches {s : State} {k : Core} (h : rising k.dirty = true) (hs : CachesWf s) : CachesWf (s.setCore k) :=
  ⟨fun x hx => by
      rcases List.mem_cons.1 hx with rfl | hx
      · exact h
      · exact hs.cores x (List.mem_filter.1 hx).1, hs.dies⟩

theorem setDie_caches {s : State} {k : Die} (h : rising k.dirty = true ∧ ∀ x ∈ k.dirty, wordDie (x.1 / 32) ≠ k.id)
    (hs : CachesWf s) : CachesWf (s.setDie k) :=
  ⟨hs.cores, fun x hx => by
      rcases List.mem_cons.1 hx with rfl | hx
      · exact h
      · exact hs.dies x (List.mem_filter.1 hx).1⟩

/-- The form of the caches' dirty bytes is such a property. -/
theorem form_caches : Form CachesWf where
  rest _ h1 h2 hs := ⟨by rw [h1]; exact hs.cores, by rw [h2]; exact hs.dies⟩
  write _ hs := ⟨hs.cores, hs.dies⟩
  core {s k c} e hs := setCore_caches (by rw [e]; exact core_rising hs c) hs
  drop {s k c} w e hs := setCore_caches (by rw [e]; exact rising_filter _ (core_rising hs c)) hs
  put {s k c} cells e hs := setCore_caches (by rw [e]; exact rising_putCells cells (core_rising hs c)) hs
  die {s k d} i e hs := setDie_caches (by rw [e, i, die_id]; exact die_wf hs d) hs
  drop' {s k d} w i e hs := setDie_caches (by
    rw [e, i, die_id]
    exact ⟨rising_filter _ (die_wf hs d).1, fun x hx => (die_wf hs d).2 x (List.mem_filter.1 hx).1⟩) hs
  put' {s k d} cells i hc e hs := setDie_caches (by
    rw [e, i, die_id]
    refine ⟨rising_putCells cells (die_wf hs d).1, fun x hx => ?_⟩
    rcases mem_putCells cells hx with hx | hx
    · exact hc x hx
    · exact (die_wf hs d).2 x hx) hs
  cores {s} f hf hs := ⟨fun k hk => by
      obtain ⟨k', hk', rfl⟩ := List.mem_map.1 hk
      rw [hf]; exact hs.cores k' hk', hs.dies⟩
  dies {s} f hf hs := ⟨hs.cores, fun k hk => by
      obtain ⟨k', hk', rfl⟩ := List.mem_map.1 hk
      rw [(hf k').1, (hf k').2]; exact hs.dies k' hk'⟩

/-- At reset memory and the caches are in their forms. -/
theorem reset_memory : memoryWf State.reset.mem = true := rfl
theorem reset_caches : CachesWf State.reset :=
  ⟨fun _ h => absurd h List.not_mem_nil, fun _ h => absurd h List.not_mem_nil⟩

/-- A number written little-endian is its cells written in turn. -/
theorem writeLE_cells (m : List Host.Cell) (a v n : Nat) :
    writeLE m a v n = (cellsOf a v n).foldl (fun m c => writeCell m c.1 c.2) m := by
  induction n generalizing m a v with
  | zero => rfl
  | succ n ih =>
    have : cellsOf a v (n + 1) = (a, BitVec.ofNat 8 v) :: cellsOf (a + 1) (v / 256) n := by
      unfold cellsOf
      rw [List.range_succ_eq_map]
      simp only [List.map_cons, List.map_map, Nat.add_zero, Nat.pow_zero, Nat.div_one, List.cons.injEq, true_and]
      refine List.map_congr_left fun i _ => ?_
      simp only [Function.comp, Nat.div_div_eq_div_mul, Nat.pow_succ, Nat.mul_comm (256 ^ i) 256]
      rw [show a + i.succ = a + 1 + i by omega]
    rw [this]
    exact ih _ _ _

theorem keeps_putLine {P : State → Prop} (F : Form P) {s : State} (line : Nat) (d : BitVec 512) (h : P s) :
    P (putLine s line d) := by
  unfold putLine
  rw [writeLE_cells]
  exact F.write _ h

/-! ### Operations that keep a property -/

/-- The state in which an operation ends, waits or faults. -/
def endOf {α : Type} : EStateM.Result Stop State α → State
  | .ok _ s => s
  | .error _ s => s

/-- An operation keeps a property whatever comes of it. -/
def Keeps (P : State → Prop) {α : Type} (m : M α) : Prop := ∀ s, P s → P (endOf (m s))

variable {P : State → Prop} {α β : Type}

theorem keeps_pure (a : α) : Keeps P (pure a : M α) := fun _ h => h
theorem keeps_throw (e : Stop) : Keeps P (throw e : M α) := fun _ h => h
theorem keeps_set {t : State} (h : P t) : Keeps P (set t : M PUnit) := fun _ _ => h
theorem keeps_modify {f : State → State} (h : ∀ s, P s → P (f s)) : Keeps P (modify f : M PUnit) := fun s hs => h s hs

theorem keeps_bind {m : M α} {f : α → M β} (hm : Keeps P m) (hf : ∀ a, Keeps P (f a)) : Keeps P (m >>= f) := by
  intro s hs
  have h := hm s hs
  show P (endOf (EStateM.bind m f s))
  unfold EStateM.bind
  cases e : m s with
  | ok a s' => rw [e] at h; exact hf a s' h
  | error x s' => rw [e] at h; exact h

theorem keeps_ite {c : Prop} [Decidable c] {x y : M α} (hx : Keeps P x) (hy : Keeps P y) : Keeps P (if c then x else y) := by
  split
  · exact hx
  · exact hy

theorem keeps_get {f : State → M β} (h : ∀ s, P s → Keeps P (f s)) : Keeps P (get >>= f) := fun s hs => h s hs s hs

theorem keeps_fail (code addr : Nat) : Keeps P (failCode code addr : M α) := keeps_throw _
theorem keeps_failLanes (code : Nat) (m : Word) (addr : Nat) : Keeps P (failLanes code m addr : M α) := keeps_throw _
theorem keeps_recover (code addr : Nat) : Keeps P (recover code addr : M α) := keeps_throw _
theorem keeps_waitStep : Keeps P (waitStep : M α) := keeps_throw _
theorem keeps_waitUntil (t : Nat) : Keeps P (waitUntil t) := by
  refine keeps_get fun s _ => ?_
  split
  · exact keeps_pure _
  · exact keeps_throw _

theorem keeps_byPa (pa : Nat) {m : M α} (h : Keeps P m) : Keeps P (byPa pa m) := by
  intro s hs
  have h1 := h s hs
  show P (endOf (byPa pa m s))
  unfold byPa
  split
  · rename_i e; rw [e] at h1; exact h1
  · exact h1

theorem keeps_forM {m : α → M PUnit} (h : ∀ a, Keeps P (m a)) (l : List α) : Keeps P (l.forM m) := by
  induction l with
  | nil => exact keeps_pure _
  | cons a l ih => exact keeps_bind (h a) fun _ => ih

theorem keeps_foldlM {m : β → α → M β} (h : ∀ b a, Keeps P (m b a)) (l : List α) (b : β) : Keeps P (l.foldlM m b) := by
  induction l generalizing b with
  | nil => exact keeps_pure _
  | cons a l ih => exact keeps_bind (h b a) fun b => ih b

theorem keeps_mapM {m : α → M β} (h : ∀ a, Keeps P (m a)) (l : List α) : Keeps P (l.mapM m) := by
  induction l with
  | nil => simpa using keeps_pure _
  | cons a l ih =>
    rw [List.mapM_cons]
    exact keeps_bind (h a) fun _ => keeps_bind ih fun _ => keeps_pure _

theorem tally_add (t : Tally α) (i : Nat) (r : EStateM.Result Stop State α) : (t.add i r).2 = endOf r := by
  unfold Tally.add
  split <;> rfl

theorem keeps_tryLanes {f : β → M α} (h : ∀ b, Keeps P (f b)) (l : List (Nat × β)) : Keeps P (tryLanes l f) := by
  intro s hs
  have key : ∀ (l : List (Nat × β)) (acc : Tally α × State), P acc.2 →
      P (l.foldl (fun (acc : Tally α × State) (x : Nat × β) => acc.1.add x.1 (f x.2 acc.2)) acc).2 := by
    intro l
    induction l with
    | nil => exact fun _ h => h
    | cons x l ih =>
      intro acc ha
      refine ih _ ?_
      rw [tally_add]
      exact h x.2 acc.2 ha
  have h2 := key l ({ done := [], bad := none, mask := 0, stop := none }, s) hs
  unfold tryLanes
  dsimp only
  split <;> exact h2

theorem keeps_pushAll {f : Nat → M Unit} (h : ∀ w, Keeps P (f w)) (ws : List Nat) : Keeps P (pushAll ws f) := by
  unfold pushAll
  refine keeps_bind (keeps_foldlM (fun b w s hs => ?_) ws false) fun b => ?_
  · have := h w s hs
    change P (endOf (match f w s with
      | .ok _ s' => (.ok b s' : EStateM.Result Stop State Bool)
      | .error (.fault g) s' => .error (.fault g) s'
      | .error _ s' => .ok true s'))
    split <;> (rename_i e; rw [e] at this; exact this)
  · split
    · exact keeps_waitStep
    · exact keeps_pure _

/-! ### The plain changes -/

section
variable (F : Form P)
include F

theorem keeps_send {s : State} (m : Msg) (h : P s) : P (s.send m) := F.rest (s := s) rfl rfl rfl h
theorem keeps_due {s : State} (is : List Instr) (h : P s) : P (s.due is) := F.rest (s := s) rfl rfl rfl h

/-- A change of the record of lines alone. -/
theorem keeps_lines {s : State} (l : Lines) (h : P s) : P { s with lines := l } := F.rest (s := s) rfl rfl rfl h

theorem keeps_atPlace (p : Place) {m : M α} (h : Keeps P m) : Keeps P (atPlace p m) := by
  intro s hs
  have h1 := keeps_byPa p.pa h { s with unsealed := !p.prot } (F.rest (s := s) rfl rfl rfl hs)
  show P (endOf (atPlace p m s))
  unfold atPlace
  split <;> (rename_i t e; rw [e] at h1; exact F.rest (s := t) rfl rfl rfl h1)

theorem keeps_foldWct (s : State) (p : Group → Bool) (t : Nat) (h : P s) : P (foldWct s p t) := F.rest (s := s) rfl rfl rfl h

theorem keeps_noteMerge (s : State) (c : CoreId) (t : Nat) (h : P s) : P (noteMerge s c t) :=
  keeps_foldWct F _ _ _ (F.core (c := c) rfl h)

theorem keeps_noteDct (s : State) (c : CoreId) (t : Nat) (h : P s) : P (noteDct s c t) := F.core (c := c) rfl h

theorem keeps_noteMerges (s : State) (d : Nat) (cs : List Nat) (t : Nat) (h : P s) : P (noteMerges s d cs t) := by
  unfold noteMerges
  induction cs generalizing s with
  | nil => exact h
  | cons c cs ih => exact ih _ (keeps_noteMerge F s _ t h)

theorem keeps_markWords (s : State) (ws : List Nat) (h : P s) : P (markWords s ws) := by
  unfold markWords
  dsimp only
  split
  · exact h
  · exact keeps_lines F _ h

theorem keeps_raisePath (s : State) (d i : Nat) (h : P s) : P (raisePath s d i) := F.die (d := d) rfl rfl h

theorem keeps_trimRdc (s : State) (d : Nat) (h : P s) : P (trimRdc s d) := F.die (d := d) rfl rfl h

theorem keeps_protectWrite (s : State) (w : Nat) (failed : Bool) (h : P s) : P (protectWrite s w failed) := by
  unfold protectWrite
  dsimp only
  split
  · exact h
  · split
    · exact keeps_lines F _ h
    · split
      · exact keeps_lines F _ h
      · exact F.rest rfl rfl rfl (keeps_raisePath F _ (homeDie (64 * (w / 2))) (leafIndex (w / 2)) (keeps_lines F _ h))

theorem keeps_mergeNow (s : State) (w : Nat) (cells : List Host.Cell) (h : P s) : P (mergeNow s w cells).1 := by
  have key : ∀ s : State, P s → ∀ c : Prop, ∀ [Decidable c], ∀ is, P (if c then s.due is else s) := by
    intro s hs c _ is
    split
    · exact keeps_due F _ hs
    · exact hs
  refine key _ (keeps_protectWrite F _ _ _ ?_) _ _
  have h1 := fun cells => F.write (s := s) cells h
  split
  · exact keeps_lines F _ (h1 _)
  · split
    · exact keeps_send F _ (F.die (d := wordDie w) rfl rfl (h1 _))
    · exact h1 _

/-! ### Operations on memory and caches -/

theorem keeps_mayMerge (w : Nat) : Keeps P (mayMerge w) := by
  refine keeps_get fun s h => ?_
  dsimp only
  split
  · split
    · exact keeps_pure _
    · split
      · exact keeps_waitStep
      · exact keeps_bind (keeps_set (F.rest (s := s) rfl rfl rfl h)) fun _ => keeps_waitStep
  · split
    · split
      · exact keeps_waitStep
      · exact keeps_bind (keeps_set (F.rest (s := s) rfl rfl rfl h)) fun _ => keeps_waitStep
    · exact keeps_pure _

theorem keeps_pushRdc (d w : Nat) : Keeps P (pushRdc d w) := by
  refine keeps_get fun s0 _ => ?_
  dsimp only
  split
  · exact keeps_pure _
  · refine keeps_bind (keeps_mayMerge F w) fun _ => keeps_get fun s h => keeps_set ?_
    have h1 := keeps_mergeNow F s w (wordCells (s0.die d).dirty w) h
    exact keeps_noteMerges F _ _ _ _ (F.drop' (d := d) (fun x => x.1 / 32 != w) rfl rfl h1)

theorem keeps_pushL1Home (c : CoreId) (w : Nat) : Keeps P (pushL1Home c w) := by
  refine keeps_get fun s0 _ => ?_
  dsimp only
  split
  · exact keeps_pure _
  · refine keeps_bind (keeps_mayMerge F w) fun _ => keeps_get fun s h => keeps_set ?_
    refine keeps_noteMerge F _ _ _ (keeps_noteMerges F _ _ _ _ (F.drop' (d := c.die) _ rfl rfl ?_))
    exact F.drop (c := c) _ rfl (keeps_mergeNow F s w _ h)

theorem keeps_roomRdc (d : Nat) (ws : List Nat) : Keeps P (roomRdc d ws) :=
  keeps_get fun _ _ => keeps_pushAll (keeps_pushRdc F d) _

omit F in
theorem wordCells_word {m : List Host.Cell} {w : Nat} {x : Host.Cell} (h : x ∈ wordCells m w) : x.1 / 32 = w := by
  simpa using (List.mem_filter.1 h).2

theorem keeps_pushL1Die (c : CoreId) (w : Nat) : Keeps P (pushL1Die c w) := by
  refine keeps_get fun s h => ?_
  dsimp only
  split
  · exact keeps_pure _
  · split
    · exact keeps_pushL1Home F c w
    · rename_i hw
      refine keeps_bind (keeps_roomRdc F _ _) fun _ => keeps_get fun s1 h => ?_
      refine keeps_set (keeps_noteDct F _ _ _ (F.drop (c := c) _ rfl (keeps_trimRdc F _ _ ?_)))
      refine F.put' (d := c.die) (wordCells (s.core c).dirty w) rfl (fun x hx => ?_) rfl h
      rw [wordCells_word hx]
      intro e
      simp [rdcHolds, e] at hw

theorem keeps_pushCoreDie (c : CoreId) : Keeps P (pushCoreDie c) :=
  keeps_get fun _ _ => keeps_pushAll (keeps_pushL1Die F c) _

theorem keeps_pushCoreHome (c : CoreId) : Keeps P (pushCoreHome c) :=
  keeps_get fun _ _ => keeps_bind (keeps_pushAll (keeps_pushRdc F c.die) _) fun _ =>
    keeps_get fun _ _ => keeps_pushAll (keeps_pushL1Home F c) _

theorem keeps_pushForRead (c : CoreId) (w : Nat) : Keeps P (pushForRead c w) := by
  refine keeps_get fun s _ => ?_
  dsimp only
  split
  · exact keeps_bind (keeps_pushRdc F c.die w) fun _ => keeps_pushL1Home F c w
  · exact keeps_pushL1Home F c w

theorem keeps_readHome (w : Nat) : Keeps P (readHome w) := by
  refine keeps_get fun s h => ?_
  dsimp only
  split
  · exact keeps_throw _
  · split
    · exact keeps_pure _
    · split
      · exact keeps_fail _ _
      · split
        · split
          · exact keeps_waitStep
          · exact keeps_bind (keeps_set (keeps_send F _ (keeps_lines F _ h))) fun _ => keeps_waitStep
        · split
          · exact keeps_bind (keeps_set (keeps_trimRdc F _ _ (keeps_send F _ (keeps_lines F _ h)))) fun _ =>
              keeps_get fun _ _ => keeps_pure _
          · exact keeps_get fun _ _ => keeps_pure _

theorem keeps_grantLease (w e : Nat) : Keeps P (grantLease w e) :=
  keeps_modify fun s h => F.rest (s := s) rfl rfl rfl h

theorem keeps_readDie (d : Nat) (p : Policy) (w : Nat) (b : Bool) : Keeps P (readDie d p w b) := by
  refine keeps_get fun s _ => ?_
  dsimp only
  split
  · refine keeps_bind (keeps_readHome F w) fun _ => ?_
    split
    · exact keeps_bind (keeps_grantLease F _ _) fun _ => keeps_pure _
    · exact keeps_bind (keeps_pure _) fun _ => keeps_pure _
  · split
    · exact keeps_pure _
    · refine keeps_bind (keeps_readHome F w) fun _ => keeps_bind (keeps_grantLease F _ _) fun _ => keeps_get fun s h =>
        keeps_bind (keeps_set ?_) fun _ => keeps_pure _
      exact F.die (d := d) rfl rfl h

theorem keeps_readAtHome (c : CoreId) (b : Bool) (w : Nat) : Keeps P (readAtHome c b w) := by
  refine keeps_bind (keeps_pushForRead F c w) fun _ => keeps_bind (keeps_readHome F w) fun _ =>
    keeps_bind (keeps_modify fun s h => ?_) fun _ => keeps_pure _
  exact F.die (d := c.die) rfl rfl (F.core (c := c) rfl h)

theorem keeps_readPlain (c : CoreId) (p : Policy) (w : Nat) (b : Bool) : Keeps P (readPlain c p w b) := by
  refine keeps_get fun s _ => ?_
  dsimp only
  split
  · exact keeps_readAtHome F _ _ _
  · split
    · exact keeps_pure _
    · split
      · exact keeps_pure _
      · refine keeps_bind (keeps_readDie F c.die p w _) fun x => keeps_bind (keeps_modify fun s h => ?_) fun _ => keeps_pure _
        split
        · exact F.die (d := c.die) rfl rfl (F.core (c := c) rfl h)
        · exact F.core (c := c) rfl h

theorem keeps_readBare (c : CoreId) (w : Nat) : Keeps P (readBare c w) :=
  keeps_bind (keeps_pushForRead F c w) fun _ => keeps_readHome F w

theorem keeps_loadPlain (c : CoreId) (p : Policy) (h n : Nat) : Keeps P (loadPlain c p h n) := by
  refine keeps_get fun s _ => ?_
  dsimp only
  split
  · exact keeps_bind (keeps_readBare F c _) fun _ => keeps_pure _
  · exact keeps_bind (keeps_readPlain F c p _ _) fun _ => keeps_pure _

theorem keeps_readAt (c : CoreId) (sc : Scope) (p : Policy) (h n : Nat) : Keeps P (readAt c sc p h n) := by
  refine keeps_get fun s _ => ?_
  split
  · exact keeps_loadPlain F _ _ _ _
  · exact keeps_get fun _ _ => keeps_bind (keeps_readDie F c.die _ _ _) fun _ =>
      keeps_bind (keeps_modify fun s hs => F.core (c := c) rfl hs) fun _ => keeps_pure _
  · exact keeps_bind (keeps_readAtHome F _ _ _) fun _ => keeps_pure _

theorem keeps_roomL1 (c : CoreId) (ws : List Nat) : Keeps P (roomL1 c ws) :=
  keeps_get fun _ _ => keeps_pushAll (keeps_pushL1Home F c) _

theorem keeps_storeNoted (c : CoreId) (w : Nat) (p : Policy) (n : Bool) (cells : List Host.Cell) :
    Keeps P (storeNoted c w p n cells) := by
  refine keeps_bind (keeps_modify fun s h => F.put (c := c) cells rfl (keeps_markWords F s _ h)) fun _ => ?_
  refine keeps_ite ?_ (keeps_pure _)
  intro s h
  have := keeps_pushAll (keeps_pushL1Home F c) (dirtyWords cells) s h
  change P (endOf (match pushAll (dirtyWords cells) (pushL1Home c) s with
    | .ok _ s' => (.ok () s' : EStateM.Result Stop State Unit)
    | .error _ s' => .ok () s'))
  split <;> (rename_i e; rw [e] at this; exact this)

theorem keeps_storePlain (c : CoreId) (w : Nat) (p : Policy) (cells : List Host.Cell) : Keeps P (storePlain c w p cells) :=
  keeps_storeNoted F c w p true cells

theorem keeps_writeAt (c : CoreId) (w : Nat) (sc : Scope) (p : Policy) (own : Bool) (cells : List Host.Cell) :
    Keeps P (writeAt c w sc p own cells) := by
  refine keeps_bind (keeps_storeNoted F c w _ _ cells) fun _ => ?_
  dsimp only
  split
  · exact keeps_pure _
  · exact keeps_pushAll (keeps_pushL1Die F c) _
  · exact keeps_pushAll (keeps_pushL1Home F c) _

theorem keeps_dropAt (c : CoreId) (sc : Scope) (w : Nat) : Keeps P (dropAt c sc w) := by
  refine keeps_modify fun s h => ?_
  cases sc with
  | core => exact h
  | die => exact F.core (c := c) rfl h
  | pkg => exact F.core (c := c) rfl h
  | sys => exact F.core (c := c) rfl h

theorem keeps_pushForAtomic (c : CoreId) (sc : Scope) (w : Nat) : Keeps P (pushForAtomic c sc w) := by
  have wide : Keeps P (do
      if rdcHolds c.die w then pushRdc c.die w else pure ()
      pushL1Home c w
      mayMerge w) := by
    have last : Keeps P (do
        pushL1Home c w
        mayMerge w) := keeps_bind (keeps_pushL1Home F c w) fun _ => keeps_mayMerge F w
    dsimp only
    split
    · exact keeps_bind (keeps_pushRdc F _ _) fun _ => last
    · exact last
  cases sc with
  | core => exact keeps_pure _
  | die => exact keeps_pushL1Die F c w
  | pkg => exact wide
  | sys => exact wide

theorem keeps_readBelow (h n : Nat) : Keeps P (readBelow h n) :=
  keeps_bind (keeps_readHome F _) fun _ => keeps_pure _

theorem keeps_engineRead (d h n : Nat) : Keeps P (engineRead d h n) := by
  refine keeps_get fun s _ => ?_
  dsimp only
  split
  · split
    · exact keeps_pure _
    · exact keeps_bind (keeps_readHome F _) fun _ => keeps_pure _
  · exact keeps_readBelow F h n

theorem keeps_writeBelow (c : Option CoreId) (cells : List Host.Cell) : Keeps P (writeBelow c cells) := by
  refine keeps_get fun s _ => ?_
  split
  · exact keeps_throw _
  · refine keeps_foldlM (fun t w => keeps_bind (keeps_mayMerge F w) fun _ => keeps_get fun s h =>
      keeps_bind (keeps_set ?_) fun _ => keeps_pure _) _ _
    have h1 := keeps_mergeNow F (markWords s [w]) w (wordCells cells w) (keeps_markWords F s _ h)
    cases c with
    | none => exact h1
    | some c => exact F.die (d := c.die) rfl rfl (F.core (c := c) rfl (keeps_noteMerge F _ _ _ h1))

/-! ### Translation -/

theorem keeps_walkFrom (world va : Nat) : ∀ level table, Keeps P (walkFrom world va level table) := by
  intro level
  induction level with
  | zero =>
    intro table
    unfold walkFrom
    refine keeps_bind (keeps_byPa _ (keeps_readBelow F _ _)) fun _ => keeps_get fun _ _ => ?_
    split
    · exact keeps_fail _ _
    · exact keeps_pure _
    · exact keeps_fail _ _
  | succ l ih =>
    intro table
    unfold walkFrom
    refine keeps_bind (keeps_byPa _ (keeps_readBelow F _ _)) fun _ => keeps_get fun _ _ => ?_
    split
    · exact keeps_fail _ _
    · exact keeps_pure _
    · exact ih _

theorem keeps_markLeaf (l : Leaf) (w : Bool) : Keeps P (markLeaf l w) := by
  unfold markLeaf
  dsimp only
  have key (e : Nat) : Keeps P (if e = l.bits then pure e else do
      let _ ← writeBelow none (cellsOf l.entry e 8)
      pure e) := by
    split
    · exact keeps_pure _
    · exact keeps_bind (keeps_writeBelow F _ _) fun _ => keeps_pure _
  exact key _

omit F in
theorem keeps_checkOwner (w : Nat) (p : Place) : Keeps P (checkOwner w p) := by
  refine keeps_get fun s _ => ?_
  split
  · exact keeps_fail _ _
  · exact keeps_pure _

/-- A change of the translation record alone. -/
theorem keeps_xlat {s : State} (x : Xlat) (h : P s) : P { s with xlat := x } := F.rest (s := s) rfl rfl rfl h

theorem keeps_walkIn (a : Asker) (va : Nat) (w : Want) : Keeps P (walkIn a va w) := by
  refine keeps_get fun s _ => keeps_bind (keeps_walkFrom F _ _ _ _) fun l => ?_
  split
  · exact keeps_fail _ _
  · refine keeps_bind (keeps_markLeaf F _ _) fun _ => ?_
    dsimp only
    split
    · exact keeps_bind (keeps_modify fun s h => F.rest (s := s) rfl rfl rfl h) fun _ => keeps_checkOwner _ _
    · exact keeps_checkOwner _ _

theorem keeps_joinWalk (c : CoreId) (w p : Nat) : Keeps P (joinWalk c w p) := by
  refine keeps_get fun s h => ?_
  dsimp only
  split
  · exact keeps_bind (keeps_set (F.die (d := c.die) rfl rfl h)) fun _ => keeps_waitStep
  · split
    · exact keeps_bind (keeps_set (F.die (d := c.die) rfl rfl h)) fun _ => keeps_waitStep
    · exact keeps_pure _

theorem keeps_translateDevice (a : Asker) (va : Nat) (w : Want) : Keeps P (translateDevice a va w) := by
  refine keeps_get fun s h => ?_
  dsimp only
  split
  · exact keeps_fail _ _
  · split
    · split
      · exact keeps_fail _ _
      · split
        · refine keeps_bind (keeps_readBelow F _ _) fun _ => ?_
          split
          · exact keeps_bind (keeps_markLeaf F _ _) fun _ =>
              keeps_bind (keeps_modify fun s h => keeps_xlat F _ h) fun _ => keeps_checkOwner _ _
          · exact keeps_walkIn F _ _ _
        · exact keeps_checkOwner _ _
    · split
      · exact keeps_bind (keeps_joinWalk F _ _ _) fun _ => keeps_walkIn F _ _ _
      · exact keeps_walkIn F _ _ _

theorem keeps_askAts (a : Asker) (x p : Nat) (e : Bool) : Keeps P (askAts a x p e) := by
  refine keeps_get fun s h => ?_
  dsimp only
  split
  · exact keeps_bind (keeps_set (keeps_xlat F _ h)) fun _ => keeps_waitStep
  · exact keeps_bind (keeps_set (keeps_send F _ (keeps_xlat F _ h))) fun _ => keeps_waitStep

theorem keeps_putRequest {s : State} (r : PageReq) (h : P s) : P (putRequest s r) := by
  unfold putRequest
  dsimp only
  split
  · exact keeps_send F _ (keeps_xlat F _ h)
  · exact keeps_xlat F _ h

theorem keeps_askPage (a : Asker) (va : Nat) (w : Want) : Keeps P (askPage a va w) := by
  refine keeps_get fun s h => ?_
  dsimp only
  split
  · exact keeps_bind (keeps_set (keeps_putRequest F _ (F.rest (s := s) rfl rfl rfl h))) fun _ => keeps_recover _ _
  · split
    · exact keeps_fail _ _
    · split
      · exact keeps_recover _ _
      · exact keeps_bind (keeps_set (keeps_putRequest F _ h)) fun _ => keeps_recover _ _

theorem keeps_translateHost (a : Asker) (va : Nat) (w : Want) : Keeps P (translateHost a va w) := by
  refine keeps_get fun s h => ?_
  dsimp only
  split
  · exact keeps_fail _ _
  · split
    · split
      · exact keeps_askPage F _ _ _
      · exact keeps_bind (keeps_askAts F _ _ _ _) fun _ => keeps_waitStep
    · refine keeps_ite ?_ (keeps_askPage F _ _ _)
      exact keeps_bind (keeps_modify fun s h => keeps_xlat F _ h) fun _ => keeps_pure _

omit F in
theorem postRecord_stores (s : State) (q : QueueId) (r : ExRecord) :
    (postRecord s q r).mem = s.mem ∧ (postRecord s q r).cores = s.cores ∧ (postRecord s q r).dies = s.dies := by
  unfold postRecord
  split
  · exact ⟨rfl, rfl, rfl⟩
  · dsimp only
    split <;> exact ⟨rfl, rfl, rfl⟩

theorem keeps_demandStall (a : Asker) (q : QueueId) (va : Nat) : Keeps P (demandStall a q va) := by
  refine keeps_get fun s h => ?_
  dsimp only
  split
  · split
    · exact keeps_fail _ _
    · exact keeps_recover _ _
  · split
    · exact keeps_fail _ _
    · refine keeps_bind (keeps_set ?_) fun _ => keeps_recover _ _
      refine F.rest (s := s) ?_ ?_ ?_ h
      · exact (postRecord_stores _ _ _).1
      · exact (postRecord_stores _ _ _).2.1
      · exact (postRecord_stores _ _ _).2.2

theorem keeps_translate (a : Asker) (va : Nat) (w : Want) : Keeps P (translate a va w) := by
  unfold translate
  split
  · exact keeps_fail _ _
  · refine keeps_ite ?_ ?_
    · exact keeps_translateHost F a va w
    · intro s h
      have h1 := keeps_translateDevice F a va w s h
      change P (endOf (match translateDevice a va w s with
        | .error (.fault f) s' =>
          if (decide (f.code = cAbsent) && xEn (xlatOf s a.world) && xDemand (xlatOf s a.world)) = true then
            (match a.queue with
              | some q => (demandStall a q va >>= fun _ => waitStep : M Place) s
              | none => .error (.fault f) s')
          else .error (.fault f) s'
        | r => r))
      split
      · rename_i e
        rw [e] at h1
        split
        · split
          · exact keeps_bind (keeps_demandStall F _ _ _) (fun _ => keeps_waitStep) s h
          · exact h1
        · exact h1
      · exact h1

theorem keeps_placeLanes (c : Cx) (ls : List (Nat × Nat)) (w : Want) : Keeps P (placeLanes c ls w) :=
  keeps_get fun _ _ => keeps_tryLanes (fun va => keeps_translate F _ va w) ls

end

end Sys2Proof.Machine
end

