-- ==== Sys2Proof/Laws/Outcome.lean ====
section
/-! SUPPORT. What the machine does with the outcome of a word keeps every property that rests on memory and on the caches'
dirty bytes, if the word's own effect does. -/

namespace Sys2Proof.Machine

/-! ### States that agree in memory and caches -/

/-- Memory, cores and dies are the same. -/
def SameStores (s t : State) : Prop := t.mem = s.mem ∧ t.cores = s.cores ∧ t.dies = s.dies

theorem SameStores.trans {s t u : State} (h : SameStores s t) (k : SameStores t u) : SameStores s u :=
  ⟨k.1.trans h.1, k.2.1.trans h.2.1, k.2.2.trans h.2.2⟩

theorem Form.same {P : State → Prop} (F : Form P) {s t : State} (h : SameStores s t) (hs : P s) : P t :=
  F.rest h.1 h.2.1 h.2.2 hs

theorem same_postRecord (s : State) (q : QueueId) (r : ExRecord) : SameStores s (postRecord s q r) := postRecord_stores s q r

theorem same_postNotice (s : State) (q : QueueId) (k c p a : Nat) (pc : Word) (l : Nat) (m : Word) :
    SameStores s (postNotice s q k c p a pc l m) := same_postRecord _ _ _

theorem same_foldl {α : Type} (f : State → α → State) (h : ∀ s a, SameStores s (f s a)) (l : List α) (s : State) :
    SameStores s (l.foldl f s) := by
  induction l generalizing s with
  | nil => exact ⟨rfl, rfl, rfl⟩
  | cons a l ih => exact (h s a).trans (ih _)

theorem same_due (s : State) (is : List Instr) : SameStores s (s.due is) := ⟨rfl, rfl, rfl⟩

theorem same_fatalOn (s : State) (w : Nat) (q : Option QueueId) (p c a : Nat) (pc : Word) (l : Nat) (m : Word)
    (t : Option (BitVec 16)) : SameStores s (fatalOn s w q p c a pc l m t) := by
  unfold fatalOn
  split
  · exact ⟨rfl, rfl, rfl⟩
  · split
    · exact ⟨rfl, rfl, rfl⟩
    · dsimp only
      split <;> exact ⟨rfl, rfl, rfl⟩

theorem same_haltGroup (s : State) (k : Key) : SameStores s (haltGroup s k) := by
  unfold haltGroup
  split <;> exact ⟨rfl, rfl, rfl⟩

theorem same_fatalGroup (s : State) (g : Group) (c a : Nat) (pc : Word) (l : Nat) (m : Word) :
    SameStores s (fatalGroup s g c a pc l m) := by
  unfold fatalGroup
  split <;> exact (same_fatalOn _ _ _ _ _ _ _ _ _ _).trans (same_haltGroup _ _)

theorem same_abandon (s : State) (g : Group) (x : Snapshot) (c a : Nat) (pc : Word) : SameStores s (abandon s g x c a pc) := by
  unfold abandon
  dsimp only
  split
  · exact (same_postNotice _ _ _ _ _ _ _ _ _).trans ⟨rfl, rfl, rfl⟩
  · exact ⟨rfl, rfl, rfl⟩

theorem same_landFlight (s : State) (f : Inflight) (x : Nat → Nat) : SameStores s (landFlight s f x) := by
  unfold landFlight
  split
  · exact ⟨rfl, rfl, rfl⟩
  · rename_i g _
    have h (t : State) (k : Key) (rs : List Code) : SameStores t (spoilRecords t k rs) := by
      unfold spoilRecords
      dsimp only
      repeat' split
      all_goals exact ⟨rfl, rfl, rfl⟩
    exact (show SameStores s (s.setGroup ((f.outs x).foldl (fun (g : Group) r => g.put none false r) g)) from
      ⟨rfl, rfl, rfl⟩).trans ((h _ _ _).trans ⟨rfl, rfl, rfl⟩)

theorem same_landAtoms (s : State) (k : Key) : SameStores s (landAtoms s k) :=
  (show SameStores s { s with flight := s.flight.filter (fun f => !(f.key == k && f.vals.isSome)) } from
    ⟨rfl, rfl, rfl⟩).trans (same_foldl _ (fun s f => same_landFlight s f _) _ _)

theorem same_park (s : State) (k : Key) (sl : Bool) (t : Nat) : SameStores s (park s k sl t) := by
  unfold park
  split <;> exact ⟨rfl, rfl, rfl⟩

theorem same_keepRead (s : State) (k : Key) (sl : Bool) (x : Sources) : SameStores s (keepRead s k sl x) := by
  unfold keepRead
  split <;> exact ⟨rfl, rfl, rfl⟩

theorem same_parkGroup (s : State) (k : Key) (sl : Bool) (t : Nat) : SameStores s (parkGroup s k sl t) := by
  unfold parkGroup
  dsimp only
  split
  · exact same_park _ _ _ _
  · exact (same_park _ _ _ _).trans ⟨rfl, rfl, rfl⟩

theorem same_spoilRecords (s : State) (k : Key) (rs : List Code) : SameStores s (spoilRecords s k rs) := by
  unfold spoilRecords
  dsimp only
  repeat' split
  all_goals exact ⟨rfl, rfl, rfl⟩

theorem same_latchWord (s : State) (c : Cx) (rs ds ws : List Code) : SameStores s (latchWord s c rs ds ws) := by
  unfold latchWord
  split <;> exact ⟨rfl, rfl, rfl⟩

theorem same_latchWait (s : State) (c : Cx) (rs ds : List Code) : SameStores s (latchWait s c rs ds) := by
  unfold latchWait
  split
  · exact ⟨rfl, rfl, rfl⟩
  · exact same_latchWord _ _ _ _ _

theorem same_endLatch (s : State) (k : Key) (sl : Bool) : SameStores s (endLatch s k sl) := by
  unfold endLatch
  repeat' split
  all_goals exact ⟨rfl, rfl, rfl⟩

theorem same_noteIssue (s : State) (k : Key) (sl : Bool) : SameStores s (noteIssue s k sl) := ⟨rfl, rfl, rfl⟩

/-! ### Groups that end -/

section
variable {P : State → Prop} (F : Form P)
include F

theorem keeps_groups {s : State} (gs : List Group) (h : P s) : P { s with groups := gs } := F.rest (s := s) rfl rfl rfl h

theorem keeps_noteError {s : State} (f : FaultInfo) (h : P s) : P (noteError s f) := by
  unfold noteError
  split
  · exact F.die (d := homeDie _) rfl rfl h
  · exact h

theorem keeps_raise {s : State} (g : Group) (sl : Bool) (p : Path) (f : FaultInfo) (arg : Nat) (h : P s) :
    P (raise s g sl p f arg) := by
  unfold raise
  dsimp only
  have h1 := keeps_noteError F f h
  generalize noteError s f = s at h1
  split
  · split
    · exact F.same (same_abandon _ _ _ _ _ _) h1
    · exact F.same ((same_abandon _ _ _ _ _ _).trans (same_fatalGroup _ _ _ _ _ _ _)) h1
  · exact F.same (same_fatalGroup _ _ _ _ _ _ _) h1
  · repeat' split
    all_goals first
      | exact F.same (same_fatalGroup _ _ _ _ _ _ _) h1
      | exact F.same ((same_landAtoms s g.key).trans ⟨rfl, rfl, rfl⟩) h1

theorem keeps_grantSlot {s : State} (k : Key) (h : P s) : P (grantSlot s k) := F.core (c := keyCore k) rfl h

theorem keeps_keepRegisters {s : State} (g : Group) (h : P s) : P (keepRegisters s g) := F.core (c := keyCore g.key) rfl h

theorem keeps_launchBin {s : State} (c : CoreId) (n : Nat) (h : P s) : P (launchBin s c n) := by
  unfold launchBin
  dsimp only
  split
  · exact h
  · split
    · split
      · have h1 : P (State.setCore s { s.core c with bins := dropN (s.core c).bins n }) := F.core (c := c) rfl h
        rename_i i _ _ _ _
        refine F.rest ?_ ?_ ?_ (keeps_grantSlot F { die := c.die, core := c.core, slot := i } h1) <;> rfl
      · exact F.core (c := c) rfl h
    · exact F.core (c := c) rfl h

omit F in
theorem keeps_foldl {α : Type} (f : State → α → State) (hf : ∀ s a, P s → P (f s a)) (l : List α) (s : State) (h : P s) :
    P (l.foldl f s) := by
  induction l generalizing s with
  | nil => exact h
  | cons a l ih => exact ih _ (hf s a h)

omit F in
theorem same_closeWorkgroup (s : State) (l w : Nat) : SameStores s (closeWorkgroup s l w) := by
  unfold closeWorkgroup
  dsimp only
  repeat' split
  all_goals exact ⟨rfl, rfl, rfl⟩

omit F in
theorem same_endWorkgroup (s : State) (l w : Nat) : SameStores s (endWorkgroup s l w) := by
  unfold endWorkgroup
  split
  · exact ⟨rfl, rfl, rfl⟩
  · rename_i x _
    split
    · exact ⟨rfl, rfl, rfl⟩
    · dsimp only
      have h := (show SameStores s ((s.setWg { x with closed := true, nbhd := none }).setQuad
        (endInQuad (s.setWg { x with closed := true, nbhd := none })
          ((s.setWg { x with closed := true, nbhd := none }).quad (coreQuad x.core)) l w)) from
        ⟨rfl, rfl, rfl⟩).trans (same_closeWorkgroup _ l w)
      split
      · exact h
      · split
        · exact h.trans ⟨rfl, rfl, rfl⟩
        · exact h.trans ⟨rfl, rfl, rfl⟩

theorem keeps_forget {s : State} (g : Group) (h : P s) : P (forget s g) := by
  have h1 := F.cores (s := s) (fun (c : Core) =>
      { c with
        grows := c.grows.filter (fun x => x.1 != g.key)
        waiting := c.waiting.map (fun (r : PromoReq) => { r with who := r.who.filter (fun (x : Key × Int) => !(x.1 == g.key)) })
        acks := c.acks.filter (fun a => a.1 != g.key)
        promo := c.promo.map (fun (p : Promo) => { p with joined := p.joined.filter (fun (x : Key × Int) => !(x.1 == g.key)) }) })
    (fun _ => rfl) h
  refine F.rest ?_ ?_ ?_ h1 <;> rfl

theorem keeps_freeOverlay {s : State} (c : CoreId) (w : Nat) (h : P s) : P (freeOverlay s c w) := by
  unfold freeOverlay
  split
  · exact h
  · exact F.core (c := c) rfl h

theorem keeps_retireGroup {s : State} (k : Key) (h : P s) : P (retireGroup s k) := by
  unfold retireGroup
  split
  · exact h
  · rename_i g _
    refine F.same (same_endWorkgroup _ _ _) (keeps_freeOverlay F _ _ (keeps_forget F _ (keeps_keepRegisters F _ ?_)))
    have h1 : P (if (s.groups.any (fun x => x.launch == g.launch && x.wg == g.wg && x.key != k)) = true then s else
        (binsOf (s.core (keyCore k)) g.launch g.wg).foldl
          (fun (s : State) (b : Nat × Bin) => launchBin s (keyCore k) b.1) s) := by
      split
      · exact h
      · exact keeps_foldl _ (fun s b hs => keeps_launchBin F _ _ hs) _ _ h
    refine F.rest ?_ ?_ ?_ h1 <;> rfl

/-! ### The spill area, ranks and arrivals -/

omit F in
theorem keeps_wholeGroup {α : Type} {m : M α} (h : Keeps P m) : Keeps P (wholeGroup m) := by
  intro s hs
  have h1 := h s hs
  show P (endOf (wholeGroup m s))
  unfold wholeGroup
  split
  · rename_i e; rw [e] at h1; exact h1
  · exact h1

omit F in
/-- A check before an operation. -/
theorem keeps_unless {α : Type} {c : Bool} {x : Nat} {m : M α} (h : Keeps P m) :
    Keeps P (if c then (failCode x : M Unit) >>= fun _ => m else m) :=
  keeps_ite (keeps_bind (keeps_fail _ _) fun _ => h) h

theorem keeps_spillRaw (g : Group) (i : Nat) : Keeps P (spillRaw g i) :=
  keeps_wholeGroup (keeps_get fun _ _ => keeps_unless (keeps_bind (keeps_translate F _ _ _) fun p =>
    keeps_atPlace F p (keeps_loadPlain F _ _ _ _)))

theorem keeps_spillPut (g : Group) (i v : Nat) : Keeps P (spillPut g i v) :=
  keeps_wholeGroup (keeps_get fun _ _ => keeps_unless (keeps_bind (keeps_translate F _ _ _) fun p =>
    keeps_bind (keeps_roomL1 F _ _) fun _ => keeps_atPlace F p (keeps_storePlain F _ _ _ _)))

theorem keeps_spillReach (g : Group) (n : Nat) : Keeps P (spillReach g n) := by
  refine keeps_wholeGroup ?_
  split
  · exact keeps_pure _
  · exact keeps_get fun _ _ => keeps_bind (keeps_translate F _ _ _) fun _ =>
      keeps_get fun _ _ => keeps_bind (keeps_translate F _ _ _) fun _ => keeps_pure _

theorem keeps_spillGet (g : Group) (i : Nat) : Keeps P (spillGet g i) := by
  refine keeps_bind (keeps_spillRaw F g i) fun n => ?_
  split
  · exact keeps_pure _
  · exact keeps_fail _ _

theorem keeps_shiftDown (g : Group) : ∀ k i, Keeps P (shiftDown g i k) := by
  intro k
  induction k with
  | zero => exact fun _ => keeps_pure _
  | succ k ih =>
    intro i
    unfold shiftDown
    exact keeps_bind (keeps_spillRaw F g _) fun _ => keeps_bind (keeps_spillPut F g _ _) fun _ => ih _

theorem keeps_shiftUp (g : Group) : ∀ k i, Keeps P (shiftUp g i k) := by
  intro k
  induction k with
  | zero => exact fun _ => keeps_pure _
  | succ k ih =>
    intro i
    unfold shiftUp
    exact keeps_bind (keeps_spillRaw F g _) fun _ => keeps_bind (keeps_spillPut F g _ _) fun _ => ih _

theorem keeps_spillDrop (g : Group) (i : Nat) : Keeps P (spillDrop g i) :=
  keeps_bind (keeps_shiftDown F g _ _) fun _ => keeps_pure _

theorem keeps_spillAdd (g : Group) (x : Spilled) : Keeps P (spillAdd g x) :=
  keeps_bind (keeps_shiftUp F g _ _) fun _ => keeps_bind (keeps_spillPut F g _ _) fun _ => keeps_pure _

theorem keeps_spillSet (g : Group) (i : Nat) (x : Spilled) : Keeps P (spillSet g i x) :=
  keeps_bind (keeps_spillPut F g _ _) fun _ => keeps_pure _

theorem keeps_displace (sl : Bool) (l : List (BitVec 4 × Int)) (g : Group) : Keeps P (displace sl l g) := by
  unfold displace
  split
  · split
    · exact keeps_bind (keeps_spillAdd F g _) fun _ => keeps_pure _
    · exact keeps_pure _
  · exact keeps_pure _

theorem keeps_fillSlots : ∀ n g, Keeps P (fillSlots n g) := by
  intro n
  induction n with
  | zero => exact fun _ => keeps_pure _
  | succ n ih =>
    intro g
    unfold fillSlots
    split
    · exact keeps_pure _
    · split
      · exact keeps_pure _
      · refine keeps_bind (keeps_spillGet F g _) fun e => ?_
        split
        · exact ih _
        · exact keeps_bind (keeps_spillDrop F g _) fun g => ih _

theorem keeps_rerank (g : Group) (ps : List Path) : Keeps P (rerank g ps) :=
  keeps_bind (keeps_spillReach F _ _) fun _ => keeps_bind (keeps_displace F _ _ _) fun _ =>
    keeps_bind (keeps_displace F _ _ _) fun _ =>
    keeps_bind (keeps_foldlM (fun g _ => keeps_spillAdd F g _) _ _) fun _ => keeps_fillSlots F _ _

theorem keeps_findJoin (pc : Word) : ∀ n g, Keeps P (findJoin pc n g) := by
  intro n
  induction n with
  | zero => exact fun _ => keeps_pure _
  | succ n ih =>
    intro g
    unfold findJoin
    split
    · exact ih _
    · refine keeps_bind (keeps_spillGet F g _) fun e => ?_
      dsimp only
      split
      · exact keeps_pure _
      · exact ih _

theorem keeps_resolveJoin (g : Group) (i : Nat) (e : Entry) : Keeps P (resolveJoin g i e) := by
  refine keeps_bind (keeps_spillDrop F g i) fun g => ?_
  split <;> exact keeps_pure _

theorem keeps_arrive (g : Group) (sl : Bool) (p : Path) : Keeps P (arrive g sl p) := by
  refine keeps_bind (keeps_spillReach F _ _) fun _ => keeps_bind (keeps_findJoin F _ _ _) fun r => ?_
  dsimp only
  split
  · exact keeps_pure _
  · split
    · exact keeps_resolveJoin F _ _ _
    · exact keeps_bind (keeps_spillDrop F _ _) fun _ => keeps_bind (keeps_spillAdd F _ _) fun _ => keeps_pure _

theorem keeps_settleGo : ∀ n g, Keeps P (settleGo n g) := by
  intro n
  induction n with
  | zero => exact fun g => keeps_rerank F g []
  | succ n ih =>
    intro g
    have go (sl : Bool) (p : Path) : Keeps P (do
        let (g, fresh) ← arrive g sl p
        let g ← rerank g fresh
        settleGo n g) :=
      keeps_bind (keeps_arrive F g sl p) fun _ => keeps_bind (keeps_rerank F _ _) fun _ => ih _
    unfold settleGo
    split
    · split
      · exact go false _
      · split
        · split
          · exact go true _
          · exact keeps_rerank F g []
        · exact keeps_rerank F g []
    · split
      · exact go true _
      · exact keeps_rerank F g []
    · exact keeps_rerank F g []

theorem keeps_settle {s : State} (k : Key) (h : P s) : P (settle s k) := by
  unfold settle
  split
  · exact h
  · split
    · exact h
    · rename_i g _ _
      have h1 : P (endOf ((do
          let g' ← settleGo 70 g
          modify (fun (s : State) => s.setGroup (keepWct s g')) : M PUnit) s)) :=
        keeps_bind (keeps_settleGo F 70 g) (fun g' => keeps_modify (f := fun s => s.setGroup (keepWct s g')) fun s hs => keeps_groups F _ hs) s h
      split
      · rename_i e; rw [e] at h1; exact h1
      · exact F.same (same_fatalGroup _ _ _ _ _ _ _) h
      · rename_i e; rw [e] at h1; exact h1

/-! ### Words -/

theorem keeps_afterWord {s : State} (k : Key) (h : P s) : P (afterWord s k) := by
  have h1 := keeps_settle F k h
  unfold afterWord
  dsimp only
  split
  · split
    · exact keeps_retireGroup F k h1
    · exact h1
  · exact h1

theorem keeps_skip {s : State} (c : Cx) (h : P s) : P (skip s c) :=
  keeps_afterWord F _ (F.same (same_endLatch _ _ _) (F.same (same_noteIssue _ _ _)
    (keeps_groups F _ (F.same (same_latchWord _ _ _ _ _) h))))

theorem keeps_trap {s : State} (g : Group) (sl : Bool) (p : Path) (code : Nat) (h : P s) : P (trap s g sl p code) :=
  keeps_raise F _ _ _ _ _ h

theorem keeps_conclude {s : State} (c : Cx) (due : Option Nat) (arg : Nat) (reads wides : List Code)
    (r : EStateM.Result Stop State Out) (h : P s) (hr : P (endOf r)) : P (conclude s c due arg reads wides r) := by
  unfold conclude
  dsimp only
  split
  · split
    · exact hr
    · refine keeps_afterWord F _ (F.same (same_endLatch _ _ _) (F.same (same_noteIssue _ _ _) ?_))
      exact keeps_groups F _ (F.same (same_latchWord _ _ _ _ _) (F.same (same_spoilRecords _ _ _) hr))
  · exact keeps_raise F _ _ _ _ _ h
  · exact F.same (same_park _ _ _ _) (F.same (same_keepRead _ _ _ _) (F.same (same_latchWait _ _ _ _) hr))
  · split
    · exact F.same (same_abandon _ _ _ _ _ _) h
    · have h2 := F.same (same_keepRead _ c.g.key c.sl (c.sources (c.fetched s) reads)) (F.same (same_latchWait _ c reads wides) hr)
      split
      · exact F.same (same_parkGroup _ _ _ _) h2
      · exact F.same (same_park _ _ _ _) h2
  · split
    · exact F.same (same_abandon _ _ _ _ _ _) h
    · exact keeps_raise F _ _ _ _ _ h

omit F in
theorem ite_keeps {c : Prop} [Decidable c] {a b : State} (ha : P a) (hb : P b) : P (if c then a else b) := by
  split
  · exact ha
  · exact hb

theorem keeps_perform {s : State} {w : Wd} (c : Cx) (arg : Nat) (hw : Keeps P (w.run c)) (h : P s) :
    P (perform s w c arg) := by
  unfold perform
  refine ite_keeps (keeps_retireGroup F _ h) ?_
  exact keeps_conclude F _ _ _ _ _ _ h (hw s h)

theorem keeps_issueIn {s : State} {w : Wd} (c : Cx) (arg : Nat) (hw : Keeps P (w.run c)) (h : P s) :
    P (issueIn s w c arg) := by
  unfold issueIn
  dsimp only
  have pk := F.same (same_park s c.key c.sl (s.now + 8)) h
  have tr (code : Nat) := keeps_trap F c.g c.sl c.p code h
  have sk := keeps_skip F c h
  have pf := keeps_perform F c arg hw h
  repeat' first | exact pf | exact pk | exact tr _ | exact sk | refine ite_keeps ?_ ?_

/-- A word keeps a property of memory and caches if its own effect does. -/
theorem keeps_issueWord {s t : State} {w : Wd} (arg : Nat) (hw : ∀ c, Keeps P (w.run c)) (h : P s)
    (e : issueWord w s arg = .next t) : P t := by
  unfold issueWord at e
  split at e
  · cases e
  · split at e
    · cases e
    · split at e
      · cases e
      · cases e
        exact keeps_issueIn F _ _ (hw _) h

/-- A hint word keeps every property of memory and caches. -/
theorem keeps_issueHint {s t : State} {l i : Bool} {a : Path → Bool} {r : Group → Bool} {f : Group → Path → Group × Path}
    {b : Bool} (h : P s) (e : issueHint l i a r f s b = .next t) : P t := by
  unfold issueHint at e
  split at e
  · cases e
  · split at e
    · cases e
    · split at e
      · cases e
      · rename_i g _ _ p _
        by_cases hl : (!l || (if i then a p else p.unitPc.isSome) || r g) = true
        · rw [if_pos hl] at e
          cases e
          exact keeps_trap F _ _ _ _ h
        · rw [if_neg hl] at e
          cases e
          refine keeps_afterWord F _ (F.same (same_noteIssue _ _ _) (keeps_groups F _ ?_))
          repeat' split
          all_goals first | exact h | exact F.rest (s := s) rfl rfl rfl h

end

end Sys2Proof.Machine
end

