-- ==== Sys2Proof/Laws/Words.lean ====
section
/-! SUPPORT. What the checks of a word ask, once for every form: prefixes, modes, operands, and how results are packed. -/

namespace Sys2Proof.Machine

/-! ### Prefixes and modes -/

theorem fits_of_bare {w : Wd} {c : Cx} (h : Bare c) : w.fits c.p = true := by
  simp [Wd.fits, h.himm, h.hrcv, h.hmod]

theorem fits_of_rounds {w : Wd} {c : Cx} (h : Rounds c) (hw : w.rnd = true) : w.fits c.p = true := by
  cases e : c.p.hmod with
  | none => simp [Wd.fits, h.himm, h.hrcv, e]
  | some m => simp [Wd.fits, h.himm, h.hrcv, e, hw, h.hmod m e]

theorem admitted_of_plain {w : Wd} {s : State} {c : Cx} {gd : Guard} (h : Issues s c gd) (hw : w.handler = true) :
    w.admitted s c = true := by simp [Wd.admitted, hw, h.plain]

theorem admitted_of_ordinary {w : Wd} {s : State} {c : Cx} {gd : Guard} (h : Issues s c gd) (hs : c.g.single = none) :
    w.admitted s c = true := by simp [Wd.admitted, hs, h.plain]

/-! ### Results -/

theorem up_ne (d : Code) (k : Nat) (h0 : 0 < k) (h1 : k < 128) : up d k ≠ d := by
  intro e
  have := congrArg BitVec.toNat e
  have hd := d.isLt
  simp only [up, BitVec.toNat_ofNat] at this
  omega

/-- The codes of one result differ. -/
theorem outOf_nodup (d : Code) (m : Word) (f : Nat → Nat) (t : Tag) (e : Option DWord) :
    ((outOf d m f t e).map (fun x => x.code)).Nodup := by
  unfold outOf
  split
  · have := up_ne d 1 (by omega) (by omega)
    simp [out64, out32, Ne.symm this]
  · simp

/-- The operand is read without VOID, is legal and its tags agree. -/
theorem Holds.flexOk {c : Cx} {r : Code} {t : Tag} (h : Holds c r t) : c.flexOk r = true := by
  unfold Cx.flexOk
  rw [h.tag]
  cases e : wide t with
  | false => simp
  | true => simp [(h.pair e).1]

theorem Holds.flexTag {c : Cx} {r : Code} {t : Tag} (h : Holds c r t) : c.flexTag r = true := by
  unfold Cx.flexTag
  rw [h.tag]
  cases e : wide t with
  | false => simp
  | true => simp [(h.pair e).2]

theorem Holds.read {c : Cx} {r : Code} {t : Tag} (h : Holds c r t) (hv : t ≠ .void) : ∀ x ∈ c.flex r, c.tag x ≠ .void := by
  intro x hx
  unfold Cx.flex at hx
  rw [h.tag] at hx
  cases e : wide t with
  | false => simp [e] at hx; rw [hx, h.tag]; exact hv
  | true =>
    simp [e] at hx
    rcases hx with rfl | rfl
    · rw [h.tag]; exact hv
    · rw [(h.pair e).2]; exact hv

theorem Accepts.destOk {c : Cx} {r : Code} {t : Tag} (h : Accepts c r t) : c.destOk t r = true := by
  unfold Cx.destOk
  cases e : wide t with
  | false => simp
  | true => simp [h.pair e]

theorem Holds.accepts {c : Cx} {r : Code} {t : Tag} (h : Holds c r t) : Accepts c r t := ⟨h.quota, fun e => (h.pair e).1⟩

/-! ### Packing -/

theorem foldl_elems (w : Nat) (f : Nat → Nat × Word) (l : List Nat) (a : Nat) (fl : Word) :
    (l.map (fun k => (k, f k))).foldl
      (fun (r : Nat × Word) (x : Nat × Nat × Word) => (r.1 + x.2.1 % 2 ^ w * 2 ^ (w * x.1), r.2 ||| x.2.2)) (a, fl) =
    (a + (l.map (fun k => (f k).1 % 2 ^ w * 2 ^ (w * k))).sum, (l.map (fun k => (f k).2)).foldl (· ||| ·) fl) := by
  induction l generalizing a fl with
  | nil => simp
  | cons k l ih => simp [ih, Nat.add_assoc]

/-- Elements computed one by one: their bits packed, their flags ORed (R110). -/
theorem mapElems_eq (w n : Nat) (f : Nat → Nat × Word) :
    mapElems w n f = (packed w n (fun k => (f k).1), joinFlags ((List.range n).map (fun k => (f k).2))) := by
  simp [mapElems, foldl_elems, packed, joinFlags]

theorem joinFlags_zero (l : List Nat) (f : Nat → Word) (h : ∀ i ∈ l, f i = 0) : joinFlags (l.map f) = 0 := by
  unfold joinFlags
  induction l with
  | nil => rfl
  | cons i l ih =>
    simp only [List.map_cons, List.foldl_cons, h i (by simp)]
    simpa using ih (fun j hj => h j (by simp [hj]))

/-- An arithmetic tag is not VOID. -/
theorem elemOf_not_void {t : Tag} {x : Nat × Nat × Elem} (h : elemOf t = some x) : t ≠ .void := by
  intro e; subst e; simp [elemOf] at h

/-! ### Completion -/

/-- A word whose effect gives its results and nothing else. -/
theorem does_of_word {i : Instr} {w : Wd} {s : State} {c : Cx} {o : Out} (he : exec i s = issueWord w s)
    (hi : AtIssue s c w.guard) (h : w.Runs s c) (hrun : w.run c s = .ok o s)
    (hr : (o.regs.map (fun x => x.code)).Nodup) (hp : (o.preds.map (fun x => x.1)).Nodup) : Does i s c o := by
  unfold Does
  rw [he]
  exact issueWord_does hi h hrun c.g hi.group hr hp 0

end Sys2Proof.Machine
end

