-- ==== Sys2Proof/Tests/Slice0.lean ====
section
/-! SUPPORT. Tests: ill-formed terms refused, words of the spec decoded, single steps against the spec's examples, and for
the obligations states and operands that meet their hypotheses. -/

namespace Sys2Proof.Tests

set_option Elab.async false

open Sys2Proof Sys2Proof.Machine

/-! ### A small machine: one group of the host's world on core 0 of die 0 -/

def key0 : Key := { die := 0, core := 0, slot := 0 }
def core0 : CoreId := { die := 0, core := 0 }
def quad0 : QuadId := { die := 0, quad := 0 }
def launch0 : Launch := plantLaunch 0
/-- World 0: device and host translations on, no vectors. -/
def world0 : World := { plantWorld with xlat := BitVec.ofNat 128 (2 ^ 95 + 1) }
def wg0 : Workgroup :=
  { launch := 0, wg := 0, world := 0, core := core0, banks := 1, scr := [(0, 7)], nbhd := none
    bars := Vector.replicate 16 { phase := 0, expect := 1, count := 0 }, btime := 1024, closed := false }
/-- A path at word 0 with these live lanes. -/
def path (live : Word) : Path := Path.make 0 live 0 none 0
/-- Registers of a file by number: the same bits in every lane. -/
def vregs (l : List (Nat × Tag × Word)) : Vector VReg 96 :=
  l.foldl (fun v x => v.setIfInBounds x.1 { lanes := Vector.replicate 32 x.2.2, tag := x.2.1, side := 0 })
    (Vector.replicate 96 VReg.void)
def uregs (l : List (Nat × Tag × Word)) : Vector UReg 32 :=
  l.foldl (fun v x => v.setIfInBounds x.1 { bits := x.2.2, tag := x.2.1, side := 0 }) (Vector.replicate 32 UReg.void)
/-- A group with these registers. -/
def grp (p : Path) (v u : List (Nat × Tag × Word)) : Group :=
  { key := key0, serial := 0, world := 0, launch := 0, wg := 0, quota := 96, v := vregs v, u := uregs u, p := Vector.replicate 7 0
    em := 0xFFFFFFFF, flags := 0, q := 17, wct := 0, region := none, score := false, slot0 := some p, slot1 := none
    spill := [], spillPtr := 0x100000000000100, context := 0x100000000000800, nextStamp := 1, svc := Service.fresh, single := none
    routine := .normal, stage := .running, rebuiltV := 0, rebuiltU := 0, rebuiltS := 0, saved := 0, pending := []
    lvl := Vector.replicate 8 (Vector.replicate 32 0), cls := .floor, spawnPri := 0, withdrawn := []
    last0 := 0, last1 := 0, spillHeld := none }
/-- A landed code segment: LAND at 0 and at 8, else zeros. -/
def seg0 : OverlaySlot :=
  { state := .landed, world := some 0, bytes := [(2, 0x80), (3, 0xFD), (10, 0x80), (11, 0xFD)], src := 0, by_ := none, frame := none
    again := false, initial := false }
/-- What core 0 of die 0 holds in its TLB: 64 KiB of the device half on bonded memory of die 0, and of the host half. -/
def dev0 : TlbEntry :=
  { core := some core0, quad := quad0, world := 0, host := false, base := 2 ^ 56, size := 0x10000, frame := 0x8000000000
    r := true, w := true, x := true, cp := 0, prot := false, d := true, leaf := 0, bits := 0 }
def host0 : TlbEntry := { dev0 with host := true, base := 0, frame := 0 }
/-- The machine with that group about to issue. -/
def box (g : Group) : State :=
  { State.reset with
    given := { State.reset.given with lease := some 64 }
    groups := [g], wgs := [wg0], launches := [launch0], worlds := [world0], cur := some (key0, false)
    cores := [{ Core.fresh core0 with overlay := [(0, seg0), (2, { seg0 with state := .absent, bytes := [] })] }]
    xlat := { State.reset.xlat with tlb := [dev0, host0], host := [(0, { base := 0, size := 0x10000, frame := 0, r := true, w := true, x := true })] } }
/-- The word at issue there. -/
def cxOf (g : Group) (p : Path) (gd : Guard) : Cx := Cx.of 1 g false p gd

theorem issues (g : Group) (p : Path) (gd : Guard) (hk : g.key = key0 ∧ g.slot0 = some p ∧ g.pending = [] ∧ p.late = [] ∧
    g.routine = .normal ∧ p.read = none) : Issues (box g) (cxOf g p gd) gd where
  cur := by show some (key0, false) = some (g.key, false); rw [hk.1]
  group := by show ((box g).groups.find? _) = some g; simp [box, cxOf, Cx.of]
  slot := hk.2.1
  reads := by show cxOf g p gd = Cx.of 1 g false p gd; rfl
  written := hk.2.2.1
  late := hk.2.2.2.1
  flight _ hf := absurd hf List.not_mem_nil
  plain := hk.2.2.2.2.1
  fresh := hk.2.2.2.2.2

theorem bare (c : Cx) (h : c.p.himm = none ∧ c.p.hrcv = none ∧ c.p.hmod = none) : Bare c := ⟨h.1, h.2.1, h.2.2⟩
theorem rounds (c : Cx) (h : c.p.himm = none ∧ c.p.hrcv = none ∧ c.p.hmod = none) : Rounds c :=
  ⟨h.1, h.2.1, fun _ e => by rw [h.2.2] at e; cases e⟩
theorem addressed (c : Cx) (h : c.p.hrcv = none ∧ c.p.hmod = none) : Addressed c :=
  ⟨h.1, fun _ e => by rw [h.2] at e; cases e⟩
theorem holds {c : Cx} {r : Code} {t : Tag} (h : c.tag r = t ∧ oneOk c.g.quota r = true ∧
    (wide t = true → pairOk c.g.quota r = true ∧ c.tag (up r 1) = t)) : Holds c r t := ⟨h.1, h.2.1, h.2.2⟩
theorem accepts {c : Cx} {r : Code} {t : Tag} (h : oneOk c.g.quota r = true ∧ (wide t = true → pairOk c.g.quota r = true)) :
    Accepts c r t := ⟨h.1, h.2⟩
theorem alive (g : Group) (p : Path) (gd : Guard) (h : g.world = 0) : Alive (box g) (cxOf g p gd) :=
  ⟨world0, by show (box g).world g.world = some world0; rw [h]; rfl, rfl⟩
theorem lanes_all {m : Word} {P : Nat → Prop} (h : ∀ i < 32, hasBit m i = true → P i) : ∀ i, hasBit m i = true → P i := by
  intro i hi
  by_cases hlt : i < 32
  · exact h i hlt hi
  · have : hasBit m i = false := BitVec.getLsbD_of_ge m i (by omega)
    rw [this] at hi; cases hi

theorem lanes_bool {m : Word} {f : Nat → Bool} (h : (List.range 32).all (fun i => !hasBit m i || f i) = true) :
    ∀ i, hasBit m i = true → f i = true :=
  lanes_all fun i hi hm => by
    have := List.all_eq_true.1 h i (List.mem_range.2 hi)
    simpa [hm] using this

/-- An address of the first 64 KiB of the device half is at hand. -/
theorem at_hand (g : Group) (c : Cx) (w : Want) (va : Nat) (hk : c.key = key0 ∧ c.g.world = 0)
    (h : 2 ^ 56 ≤ va ∧ va < 2 ^ 56 + 0x10000) :
    Mapped (box g) (keyCore c.key) c.g.world w va (va - 2 ^ 56) ∧ OpenAt (box g) (va - 2 ^ 56) := by
  have hit : findTlb (box g) core0 0 false va = some dev0 := by
    have : (box g).xlat.tlb.find? (fun e => e.core == some core0 &&
        (e.world == 0 && e.host == false && decide (e.base ≤ va ∧ va < e.base + e.size))) = some dev0 := by
      show [dev0, host0].find? _ = _
      rw [List.find?_cons_of_pos]
      have : dev0.base ≤ va ∧ va < dev0.base + dev0.size := h
      simp only [this, and_self, decide_true, Bool.and_true]; decide
    unfold findTlb
    simp only [this]
  have home : homeOf (0x8000000000 + (va - 2 ^ 56)) = va - 2 ^ 56 := by
    have ha : va - 2 ^ 56 < 0x10000 := by omega
    generalize va - 2 ^ 56 = x at ha
    unfold homeOf
    dsimp only
    split <;> omega
  refine ⟨⟨⟨h.1, by omega⟩, ?_, ⟨dev0, ?_, rfl, fun _ => ⟨rfl, rfl⟩, fun _ => rfl, home.symm⟩, by omega⟩,
    ⟨?_, List.not_mem_nil, ?_, rfl⟩⟩
  · rw [hk.2]
    have : xlatOf (box g) 0 = 2 ^ 95 + 1 := rfl
    rw [this]; decide
  · rw [hk.1, hk.2]; exact hit
  · have : ¬ hostBase ≤ 32 * ((va - 2 ^ 56) / 32) := by unfold hostBase; omega
    simp only [isHost, this, decide_false]
  · unfold isProtected
    have : isDram (32 * ((va - 2 ^ 56) / 32)) = true := by simp only [isDram, decide_eq_true_eq]; omega
    rw [if_pos this]
    rfl
theorem lanes_at_hand (g : Group) (c : Cx) (w : Want) {m : Word} {addr : Nat → Nat} {n : Nat} (hk : c.key = key0 ∧ c.g.world = 0)
    (h : (List.range 32).all (fun i => !hasBit m i || decide (2 ^ 56 ≤ addr i ∧ addr i < 2 ^ 56 + 0x10000 ∧ addr i % n = 0)) = true) :
    ∀ i, hasBit m i = true → addr i % n = 0 ∧ AtHand (box g) c w (addr i) := fun i hi => by
  have := of_decide_eq_true (lanes_bool h i hi)
  exact ⟨this.2.2, _, at_hand g c w (addr i) hk ⟨this.1, this.2.1⟩⟩
theorem calm (g : Group) (c : Cx) (h : c.key = key0 ∧ c.g.wct = 0 ∧ c.p.awaits = none ∧ c.p.placed = none) : Calm (box g) c where
  l1 := by rw [h.1]; rfl
  rdc := by rw [h.1]; rfl
  promo := by rw [h.1]; rfl
  times := by rw [h.1, h.2.1]; exact ⟨Nat.zero_lt_one, Nat.zero_lt_one, Nat.zero_lt_one⟩
  first := ⟨h.2.2.1, h.2.2.2⟩

/-- An operation that ends well with what a test asks. -/
def okAnd {α : Type} (r : EStateM.Result Stop State α) (p : α → State → Bool) : Bool :=
  match r with
  | .ok a s => p a s
  | .error _ _ => false
theorem ok_and {α : Type} {r : EStateM.Result Stop State α} {p : α → State → Bool} (h : okAnd r p = true) :
    ∃ a s, r = .ok a s ∧ p a s = true := by
  cases r with
  | ok a s => exact ⟨a, s, rfl, h⟩
  | error _ _ => cases h

/-! ### Hypotheses of the statements about vector arithmetic -/

/-- Integers, floats, pairs, a BFP register and an address pair. -/
def rf : List (Nat × Tag × Word) :=
  [(1, .s32, 5), (2, .s32, 7), (3, .s32, 0xFFFFFFFF), (4, .s64, 1), (5, .s64, 0), (6, .n64, 0x40), (7, .n64, 0x1000000),
   (8, .f32, 0x3F800000), (9, .f32, 0x40000000), (10, .b32, 3), (11, .n32, 4), (12, .bfp8, 0x7F), (14, .m64, 3), (15, .m64, 0),
   (16, .s8x4, 0x7F80FF01), (18, .f64, 0), (19, .f64, 0x3FF00000), (20, .s16x2, 0x80007FFF)]
/-- Uniform integers, an address pair, a window address, a count. -/
def uf : List (Nat × Tag × Word) :=
  [(0, .n32, 4), (1, .n32, 128), (2, .n64, 0x40), (3, .n64, 0x1000000), (4, .n32, 0), (5, .n32, 2), (6, .n64, 0x1000), (7, .n64, 0x1000000),
   (8, .n32, 1), (9, .n32, 0xFFFF), (10, .n32, 0xFFFE), (11, .n32, 0x8001), (12, .n64, 17), (13, .n64, 0), (14, .n32, 0xFFFFF)]
def p0 : Path := path 0xFFFFFFFF
def g0 : Group := grp p0 rf uf
def c0 : Cx := cxOf g0 p0 7
theorem issues0 (gd : Guard) : Issues (box g0) (cxOf g0 p0 gd) gd := issues g0 p0 gd ⟨rfl, rfl, rfl, rfl, rfl, rfl⟩

theorem test_integer_arithmetic_met : elemOf .s32 = some (32, 1, .int true) ∧ Issues (box g0) c0 7 ∧ Rounds c0 ∧
    c0.lanes ≠ 0 ∧ Holds c0 1 .s32 ∧ Holds c0 2 .s32 ∧ Accepts c0 3 .s32 ∧ Holds c0 3 .s32 :=
  ⟨by decide, issues0 7, rounds _ ⟨rfl, rfl, rfl⟩, by decide +kernel, holds (by decide +kernel), holds (by decide +kernel),
    accepts (by decide +kernel), holds (by decide +kernel)⟩
theorem test_integer_arithmetic_met_wide : elemOf .s64 = some (64, 1, .int true) ∧ Holds c0 4 .s64 ∧ Accepts c0 94 .s64 ∧
    elemOf .s8x4 = some (8, 4, .int true) ∧ Holds c0 16 .s8x4 :=
  ⟨by decide, holds (by decide +kernel), accepts (by decide +kernel), by decide, holds (by decide +kernel)⟩
theorem test_float_arithmetic_met : elemOf .f32 = some (32, 1, .flt fmtF32) ∧ Issues (box g0) c0 7 ∧ Rounds c0 ∧
    c0.lanes ≠ 0 ∧ Holds c0 8 .f32 ∧ Holds c0 9 .f32 ∧ Accepts c0 95 .f32 ∧ Holds c0 18 .f64 :=
  ⟨by decide, issues0 7, rounds _ ⟨rfl, rfl, rfl⟩, by decide +kernel, holds (by decide +kernel), holds (by decide +kernel),
    accepts (by decide +kernel), holds (by decide +kernel)⟩
theorem test_bitwise_logic_met : Issues (box g0) c0 7 ∧ Bare c0 ∧ c0.lanes ≠ 0 ∧ Holds c0 12 .bfp8 ∧ Holds c0 10 .b32 ∧
    Accepts c0 13 .bfp8 ∧ wide .bfp8 = false :=
  ⟨issues0 7, bare _ ⟨rfl, rfl, rfl⟩, by decide +kernel, holds (by decide +kernel), holds (by decide +kernel),
    accepts (by decide +kernel), rfl⟩
theorem test_shifts_met : Issues (box g0) c0 7 ∧ Bare c0 ∧ c0.lanes ≠ 0 ∧ isInt32 .s32 = true ∧ Holds c0 3 .s32 ∧
    Accepts c0 95 .s32 ∧ Holds c0 11 .n32 ∧ (31#6).toNat < 32 ∧ Holds c0 4 .s64 ∧ (63#6).toNat < 64 :=
  ⟨issues0 7, bare _ ⟨rfl, rfl, rfl⟩, by decide +kernel, rfl, holds (by decide +kernel), accepts (by decide +kernel),
    holds (by decide +kernel), by decide, holds (by decide +kernel), by decide⟩

/-- The path with an HIMM pending. -/
def pI : Path := { p0 with himm := some 0x3FFFFF, unitPc := some 0 }
def gI : Group := grp pI rf uf
theorem test_immediates_met : Issues (box g0) c0 7 ∧ c0.p.himm = none ∧ c0.p.hrcv = none ∧ c0.p.hmod = none ∧
    c0.lanes ≠ 0 ∧ Holds c0 1 .s32 ∧ Accepts c0 2 .s32 :=
  ⟨issues0 7, rfl, rfl, rfl, by decide +kernel, holds (by decide +kernel), accepts (by decide +kernel)⟩
theorem test_immediates_met_himm : Issues (box gI) (cxOf gI pI 7) 7 ∧ (cxOf gI pI 7).p.himm = some 0x3FFFFF ∧
    (cxOf gI pI 7).p.hrcv = none ∧ (cxOf gI pI 7).p.hmod = none ∧ Holds (cxOf gI pI 7) 4 .s64 :=
  ⟨issues gI pI 7 ⟨rfl, rfl, rfl, rfl, rfl, rfl⟩, rfl, rfl, rfl, holds (by decide +kernel)⟩

theorem test_comparison_met : Issues (box g0) c0 7 ∧ Bare c0 ∧ c0.lanes ≠ 0 ∧ Holds c0 14 .m64 ∧
    (∀ i, hasBit c0.lanes i = true → c0.val64 14 i < c0.g.q.toNat) ∧ Holds c0 1 .s32 ∧ Holds c0 10 .b32 ∧ Holds c0 8 .f32 ∧
    Holds c0 18 .f64 :=
  ⟨issues0 7, bare _ ⟨rfl, rfl, rfl⟩, by decide +kernel, holds (by decide +kernel), lanes_all (by decide +kernel),
    holds (by decide +kernel), holds (by decide +kernel), holds (by decide +kernel), holds (by decide +kernel)⟩
theorem test_selection_met : Issues (box g0) (cxOf g0 p0 2) 2 ∧ Bare (cxOf g0 p0 2) ∧ (cxOf g0 p0 2).en ≠ 0 ∧
    Holds (cxOf g0 p0 2) 1 .s32 ∧ Holds (cxOf g0 p0 2) 2 .s32 ∧ Accepts (cxOf g0 p0 2) 3 .s32 :=
  ⟨issues0 2, bare _ ⟨rfl, rfl, rfl⟩, by decide +kernel, holds (by decide +kernel), holds (by decide +kernel),
    accepts (by decide +kernel)⟩
theorem test_unary_met : Issues (box g0) c0 7 ∧ Bare c0 ∧ c0.lanes ≠ 0 ∧ Holds c0 20 .s16x2 ∧
    elemOf .s16x2 = some (16, 2, .int true) ∧ Accepts c0 21 .s16x2 ∧ Holds c0 4 .s64 ∧ oneOk c0.g.quota 5 = true ∧
    Holds c0 12 .bfp8 ∧ Accepts c0 13 .bfp8 ∧ Holds c0 8 .f32 ∧ elemOf .f32 = some (32, 1, .flt fmtF32) ∧ Accepts c0 9 .f32 :=
  ⟨issues0 7, bare _ ⟨rfl, rfl, rfl⟩, by decide +kernel, holds (by decide +kernel), by decide, accepts (by decide +kernel),
    holds (by decide +kernel), by decide +kernel, holds (by decide +kernel), accepts (by decide +kernel),
    holds (by decide +kernel), by decide, accepts (by decide +kernel)⟩
theorem test_special_operands_met : fmtF32.decode 0xBF800000 = .fin true 8388608 (-23) ∧ fmtF16.decode 0xFC01 = .nan true ∧
    fmtBF16.decode 0x7FC0 = .nan false := by decide +kernel
theorem test_rounding_modes_met : ∃ top, (fmtE4M3.decode fmtE4M3.maxBits).value = some top ∧ ((3 : Rat)) ≤ top ∧ -top ≤ 3 :=
  ⟨448, by decide +kernel, by decide +kernel, by decide +kernel⟩
theorem test_moves_met : Issues (box g0) c0 7 ∧ Bare c0 ∧ c0.lanes ≠ 0 ∧ Holds c0 12 .bfp8 ∧ Accepts c0 13 .bfp8 ∧
    oneOk c0.g.quota 95 = true ∧ oneOk c0.g.quota 0 = true ∧ c0.tag 0 = .void ∧ Holds c0 1 .s32 ∧ Holds c0 97 .n32 ∧
    isVec 97 = false ∧ codeTag 3 = some .n32 :=
  ⟨issues0 7, bare _ ⟨rfl, rfl, rfl⟩, by decide +kernel, holds (by decide +kernel), accepts (by decide +kernel),
    by decide +kernel, by decide +kernel, by decide +kernel, holds (by decide +kernel), holds (by decide +kernel),
    by decide, by decide⟩
theorem test_movi_met : (cxOf gI pI 7).p.himm = some 0x3FFFFF ∧ c0.p.himm = none ∧ oneOk c0.g.quota 124 = true := by
  decide +kernel
theorem test_movi_met_himm : ∃ (p : Path) (h : BitVec 17), p.himm = some (h.setWidth 22) ∧
    Issues (box (grp p rf uf)) (cxOf (grp p rf uf) p 7) 7 :=
  ⟨{ p0 with himm := some 0x1FFFF, unitPc := some 0 }, 0x1FFFF, by decide, issues _ _ 7 ⟨rfl, rfl, rfl, rfl, rfl, rfl⟩⟩
theorem test_exchanges_met : Issues (box g0) c0 7 ∧ Bare c0 ∧ c0.lanes ≠ 0 ∧ (4#4).toNat ≤ 4 ∧ Holds c0 1 .s32 ∧
    Holds c0 2 .s32 ∧ Accepts c0 3 .s32 ∧ bfpWidth (c0.tag 12) = some 8 ∧ (1#3).toNat < 32 / (2 * 8) ∧
    oneOk c0.g.quota 12 = true ∧ pairOk c0.g.quota 94 = true :=
  ⟨issues0 7, bare _ ⟨rfl, rfl, rfl⟩, by decide +kernel, by decide, holds (by decide +kernel), holds (by decide +kernel),
    accepts (by decide +kernel), by decide +kernel, by decide, by decide +kernel, by decide +kernel⟩
/-- Partners that take part and that do not; a uniform register, whose lowest lane exchanges. -/
theorem test_exchanges_met_partners : let both (m : Word) (i : Nat) : Bool := hasBit m i && hasBit m (i ^^^ 2 ^ (1#4).toNat)
    both c0.lanes 0 = true ∧ both 0b011 0 = false ∧ both 0b111 0 = true ∧ both 0b111 1 = false ∧ isVec 97 = false ∧
    lowest c0.lanes = some 0 := by decide +kernel
/-- The clauses of the checks: no lane, a code at the quota, a VOID operand, tags that differ, a tag not accepted. -/
theorem test_arithmetic_checks_met : Issues (box g0) c0 7 ∧ Bare c0 ∧ (cxOf g0 p0 0).lanes = 0 ∧ c0.lanes ≠ 0 ∧
    oneOk 64 64 = false ∧ oneOk 64 63 = true ∧ c0.tag 0 = .void ∧ wide (c0.tag 1) = false ∧ c0.tag 1 ≠ c0.tag 8 ∧
    elemOf (c0.tag 10) = none :=
  ⟨issues0 7, bare _ ⟨rfl, rfl, rfl⟩, by decide +kernel, by decide +kernel, by decide, by decide, by decide +kernel,
    by decide +kernel, by decide +kernel, by decide +kernel⟩
/-- The tags that the clauses on traps are about: unequal, b32 beside a 64-bit tag, VOID, not shifted, BFP; a count of 32. -/
theorem test_tag_traps_met : Holds c0 1 .s32 ∧ Holds c0 8 .f32 ∧ Holds c0 10 .b32 ∧ Holds c0 4 .s64 ∧ Holds c0 90 .void ∧
    Holds c0 12 .bfp8 ∧ Holds c0 14 .m64 ∧ Accepts c0 94 .s32 ∧ Accepts c0 94 .s64 ∧ Accepts c0 94 .void ∧ oneOk c0.g.quota 5 = true ∧
    isInt32 (c0.tag 5) = false ∧ 32 ≤ (32#6).toNat ∧ (31#6).toNat < 32 :=
  ⟨holds (by decide +kernel), holds (by decide +kernel), holds (by decide +kernel), holds (by decide +kernel), holds (by decide +kernel),
    holds (by decide +kernel), holds (by decide +kernel), accepts (by decide +kernel), accepts (by decide +kernel),
    accepts (by decide +kernel), by decide +kernel, by decide +kernel, by decide, by decide⟩

/-! ### Memory -/

theorem test_memory_loads_met : Issues (box g0) c0 7 ∧ Addressed c0 ∧ Alive (box g0) c0 ∧ isAddr .n64 = true ∧ Holds c0 6 .n64 ∧
    (∀ i, hasBit c0.lanes i = true → c0.address 6 (-1) 8 i % 8 = 0) ∧ spanOk c0.g.quota (loadRegs 14) 94 = true ∧
    ∃ ps s₁ xs s₂, placeLanes c0 (laneAddrs c0.lanes (c0.address 6 (-1) 8)) wantRead (box g0) = .ok ps s₁ ∧
      tryLanes ps (fun p => atPlace p (loadPlain core0 (c0.policy p.cp) p.home 8)) s₁ = .ok xs s₂ ∧ s₁.given.deferAccess = false ∧
      ∀ i, hasBit c0.lanes i = true → atLane xs 0 i < c0.g.q.toNat := by
  refine ⟨issues0 7, addressed _ ⟨rfl, rfl⟩, alive _ _ _ rfl, rfl, holds (by decide +kernel), lanes_all (by decide +kernel),
    by decide +kernel, ?_⟩
  obtain ⟨ps, s₁, h1, h⟩ := ok_and (r := placeLanes c0 (laneAddrs c0.lanes (c0.address 6 (-1) 8)) wantRead (box g0))
    (p := fun ps s₁ => !s₁.given.deferAccess && okAnd (tryLanes ps (fun p => atPlace p (loadPlain core0 (c0.policy p.cp) p.home 8)) s₁)
      (fun xs _ =>
        (List.range 32).all (fun i => !hasBit c0.lanes i || decide (atLane xs 0 i < c0.g.q.toNat)))) (by decide +kernel)
  rw [Bool.and_eq_true] at h
  obtain ⟨xs, s₂, h2, h3⟩ := ok_and h.2
  exact ⟨ps, s₁, xs, s₂, h1, h2, by simpa using h.1, fun i hi => by simpa using lanes_bool h3 i hi⟩
theorem test_memory_loads_met_at_hand : (6#4) ≠ 14 ∧ spanOk c0.g.quota (loadRegs 6) 95 = true ∧ (box g0).given.deferAccess = false ∧
    (∀ i, hasBit c0.lanes i = true → c0.address 6 0 (loadSize 6) i % loadSize 6 = 0 ∧ AtHand (box g0) c0 wantRead (c0.address 6 0 (loadSize 6) i)) ∧
    ∀ i, hasBit c0.lanes i = true → c0.val64 6 i % 8 = 0 ∧ AtHand (box g0) c0 wantRead (c0.val64 6 i) :=
  ⟨by decide, by decide +kernel, rfl, lanes_at_hand g0 c0 wantRead ⟨rfl, rfl⟩ (by decide +kernel),
    lanes_at_hand g0 c0 wantRead ⟨rfl, rfl⟩ (by decide +kernel)⟩
theorem test_ldu_met : c0.takes = true ∧ isVec 120 = false ∧ isVec 98 = false ∧ Holds c0 98 .n64 ∧
    lowest c0.live = lowest 1 ∧ (1 : Word) = laneBit ((lowest 1).getD 0) := by
  exact ⟨by decide +kernel, rfl, rfl, holds (by decide +kernel), by decide +kernel, by decide⟩
theorem test_lda_met : c0.p.himm = none ∧ c0.lanes ≠ 0 ∧ (∀ i, hasBit c0.lanes i = true → c0.val64 6 i % 8 = 0) ∧
    spanOk c0.g.quota 2 94 = true ∧
    ∃ ps s₁ xs s₂, placeLanes c0 (laneAddrs c0.lanes (c0.val64 6)) wantRead (box g0) = .ok ps s₁ ∧
      tryLanes ps (fun p => readPlace core0 .sys (c0.policy p.cp) p 8) s₁ = .ok xs s₂ := by
  refine ⟨rfl, by decide +kernel, lanes_all (by decide +kernel), by decide +kernel, ?_⟩
  obtain ⟨ps, s₁, h1, h⟩ := ok_and (r := placeLanes c0 (laneAddrs c0.lanes (c0.val64 6)) wantRead (box g0))
    (p := fun ps s₁ => okAnd (tryLanes ps (fun p => readPlace core0 .sys (c0.policy p.cp) p 8) s₁) (fun _ _ => true)) (by decide +kernel)
  obtain ⟨xs, s₂, h2, _⟩ := ok_and h
  exact ⟨ps, s₁, xs, s₂, h1, h2⟩
/-- The last word of the window's allocation, through a uniform and a vector register. -/
theorem test_window_loads_met : Issues (box g0) c0 7 ∧ Addressed c0 ∧ Alive (box g0) c0 ∧ Holds c0 100 .n32 ∧
    spanOk c0.g.quota (loadRegs 6) 95 = true ∧ c0.lanes ≠ 0 ∧
    (∀ i, hasBit c0.lanes i = true → c0.windowAddress 11 (-1) 4 i % 4 = 0 ∧
      windowFor (box g0) 0 0 (c0.windowAddress 11 (-1) 4 i) 4 = some (wg0, 0)) ∧
    windowFor (box g0) 0 0 0xFFC 4 = some (wg0, 0xFFC) ∧ windowFor (box g0) 0 0 0x1000 4 = none :=
  ⟨issues0 7, addressed _ ⟨rfl, rfl⟩, alive _ _ _ rfl, holds (by decide +kernel), by decide +kernel, by decide +kernel,
    lanes_all (by decide +kernel), by decide +kernel, by decide +kernel⟩

/-- A path whose promoting load has been answered, with the domain of core 0 in s4. -/
def pP : Path := { path 1 with promo := some { since := 0, waiting := [], latest := 0 } }
def gP : Group := grp pP rf uf
def cP : Cx := cxOf gP pP 7
theorem test_promoting_load_met : Issues (box gP) cP 7 ∧ Addressed cP ∧ Alive (box gP) cP ∧ cP.lanes ≠ 0 ∧ Holds cP 98 .n64 ∧
    isInt32 (cP.tag 100) = true ∧ domainCores (cP.val 100 0).toNat = some [core0] ∧ spanOk cP.g.quota 2 94 = true ∧
    (∀ i, hasBit cP.lanes i = true → cP.val64 98 i % 8 = 0) ∧
    ∃ ps s₁ qs s₂ xs s₃, placeLanes cP (laneAddrs cP.lanes (cP.val64 98)) wantRead (box gP) = .ok ps s₁ ∧
      (pathNow s₁ cP).promo = some { since := 0, waiting := [], latest := 0 } ∧ 0 < s₁.now ∧
      placeLanes cP (laneAddrs cP.lanes (cP.val64 98)) wantRead s₁ = .ok qs s₂ ∧ s₂.given.deferAccess = false ∧
      tryLanes qs (fun p => readPlace core0 .pkg (cP.policy p.cp) p 8) s₂ = .ok xs s₃ := by
  refine ⟨issues gP pP 7 ⟨rfl, rfl, rfl, rfl, rfl, rfl⟩, addressed _ ⟨rfl, rfl⟩, alive _ _ _ rfl, by decide +kernel,
    holds (by decide +kernel), by decide +kernel, by decide +kernel, by decide +kernel, lanes_all (by decide +kernel), ?_⟩
  obtain ⟨ps, s₁, h1, h⟩ := ok_and (r := placeLanes cP (laneAddrs cP.lanes (cP.val64 98)) wantRead (box gP))
    (p := fun _ s₁ => decide ((pathNow s₁ cP).promo = some { since := 0, waiting := [], latest := 0 }) && decide (0 < s₁.now) &&
      okAnd (placeLanes cP (laneAddrs cP.lanes (cP.val64 98)) wantRead s₁) (fun qs s₂ => !s₂.given.deferAccess &&
        okAnd (tryLanes qs (fun p => readPlace core0 .pkg (cP.policy p.cp) p 8) s₂) (fun _ _ => true))) (by decide +kernel)
  simp only [Bool.and_eq_true, decide_eq_true_eq] at h
  obtain ⟨qs, s₂, h2, h'⟩ := ok_and h.2
  rw [Bool.and_eq_true] at h'
  obtain ⟨xs, s₃, h3, _⟩ := ok_and h'.2
  exact ⟨ps, s₁, qs, s₂, xs, s₃, h1, h.1.1, h.1.2, h2, by simpa using h'.1, h3⟩

/-- One lane, for the stores and atomics. -/
def p1 : Path := path 1
def g1 : Group := grp p1 rf uf
def c1 : Cx := cxOf g1 p1 7
theorem issues1 : Issues (box g1) c1 7 := issues g1 p1 7 ⟨rfl, rfl, rfl, rfl, rfl, rfl⟩
/-- The path of an STL that has stored. -/
def placedNone (p : Path) : Path := { p with placed := some [] }
/-- The chain of an STL: translation, release, points, stores, log. -/
theorem test_ordered_store_met : Issues (box g1) c1 7 ∧ Addressed c1 ∧ Alive (box g1) c1 ∧ c1.lanes ≠ 0 ∧ Holds c1 6 .n64 ∧
    spanOk c1.g.quota 2 4 = true ∧ (∀ r ∈ spanOf 4 2, c1.tag r ≠ .void) ∧ c1.dataTag 4 2 = true ∧
    memoryWf (box g1).mem = true ∧ CachesWf (box g1) ∧
    ∃ ps s₁ s₂ s₃ s₄ s₅, stlPlaces c1 (c1.val64 6) (box g1) = .ok ps s₁ ∧
      (∀ x ∈ wordsOf ps, promoHolds s₁ core0 x = false) ∧ releaseActions c1 .core s₁ = .ok () s₂ ∧
      readyAt core0 (ps.map (fun x => ((c1.policy x.2.cp).reaches .core, x.2.home / 32))) s₂ = .ok () s₃ ∧
      stlWrite c1 4 .core 8 2 ps s₃ = .ok () s₄ ∧ (changePath c1 placedNone >>= fun _ => releaseLog c1 .core) s₄ = .ok () s₅ := by
  refine ⟨issues1, addressed _ ⟨rfl, rfl⟩, alive _ _ _ rfl, by decide +kernel, holds (by decide +kernel), by decide +kernel,
    by decide +kernel, by decide +kernel, by decide +kernel,
    ⟨by decide +kernel, fun _ h => absurd h List.not_mem_nil⟩, ?_⟩
  obtain ⟨ps, s₁, h1, h⟩ := ok_and (r := stlPlaces c1 (c1.val64 6) (box g1))
    (p := fun ps s₁ => (wordsOf ps).all (fun w => !promoHolds s₁ core0 w) &&
      okAnd (releaseActions c1 .core s₁) (fun _ s₂ =>
        okAnd (readyAt core0 (ps.map (fun x => ((c1.policy x.2.cp).reaches .core, x.2.home / 32))) s₂)
        (fun _ s₃ => okAnd (stlWrite c1 4 .core 8 2 ps s₃)
        (fun _ s₄ => okAnd ((changePath c1 placedNone >>= fun _ => releaseLog c1 .core) s₄) (fun _ _ => true))))) (by decide +kernel)
  rw [Bool.and_eq_true, List.all_eq_true] at h
  obtain ⟨_, s₂, h2, h'⟩ := ok_and h.2
  obtain ⟨_, s₃, h3, h'⟩ := ok_and h'
  obtain ⟨_, s₄, h4, h'⟩ := ok_and h'
  obtain ⟨_, s₅, h5, _⟩ := ok_and h'
  exact ⟨ps, s₁, s₂, s₃, s₄, s₅, h1, fun w hw => by simpa using h.1 w hw, h2, h3, h4, h5⟩
theorem test_ordered_store_met_calm : Calm (box g1) c1 ∧
    ∀ i, hasBit c1.lanes i = true → c1.val64 6 i % 8 = 0 ∧ AtHand (box g1) c1 wantWrite (c1.val64 6 i) :=
  ⟨calm g1 c1 ⟨rfl, rfl, rfl, rfl⟩, lanes_at_hand g1 c1 wantWrite ⟨rfl, rfl⟩ (by decide +kernel)⟩
theorem test_stores_met : storeSize 4 = 16 ∧ storeRegs 3 = 2 ∧ (4#4).toNat ≤ 4 ∧
    (∀ i, hasBit c1.lanes i = true → c1.address 6 7 8 i % 8 = 0) ∧ (∀ x ∈ spanOf 4 2, c1.tag x ≠ .void) :=
  ⟨by decide, by decide, by decide, lanes_all (by decide +kernel), by decide +kernel⟩
theorem test_atomics_met : Issues (box g1) c1 7 ∧ Addressed c1 ∧ Alive (box g1) c1 ∧ c1.lanes ≠ 0 ∧
    (box g1).given.deferAccess = false ∧ Holds c1 6 .n64 ∧ AtomOp.incw.takes false .n32 = true ∧
    (∀ r ∈ spanOf 11 1, c1.tag r = .n32) ∧ AtomOp.cas.regs 1 = 4 ∧ spanOk c1.g.quota 4 92 = true ∧
    ∃ olds s', atomRun c1 .incw .core 11 6 0 (box g1) = .ok olds s' := by
  refine ⟨issues1, addressed _ ⟨rfl, rfl⟩, alive _ _ _ rfl, by decide +kernel, rfl, holds (by decide +kernel), by decide,
    by decide +kernel, by decide, by decide +kernel, ?_⟩
  obtain ⟨x, s', h, _⟩ := ok_and (r := atomRun c1 .incw .core 11 6 0 (box g1)) (p := fun _ _ => true) (by decide +kernel)
  exact ⟨x, s', h⟩
theorem test_atomic_operations_met : (0xFFFFFFFF : Nat) < 2 ^ tagBits .s32 ∧ isFloatTag .s32 = false ∧
    elemOf .s32 = some (tagBits .s32, 1, .int true) ∧ ¬ (AtomOp.add = .add ∧ isFloatTag .n64 = true) := by decide
/-- Where nothing of the core waits, atomics, fences and stores complete at once. -/
theorem test_calm_met : Calm (box g1) c1 ∧ Calm (box g0) c0 ∧ c1.p.placed = none ∧ (box g1).given.deferAccess = false ∧
    (∀ i, hasBit c1.lanes i = true → c1.address 6 7 8 i % 8 = 0 ∧ AtHand (box g1) c1 wantWrite (c1.address 6 7 8 i)) ∧
    okAnd (placeLanes c1 (laneAddrs c1.lanes (c1.address 6 7 8)) wantWrite (box g1)) (fun ps s₁ =>
      (wordsOf ps).all (fun w => !promoHolds s₁ core0 w) && okAnd (roomL1 core0 (wordsOf ps) s₁) (fun _ _ => true)) = true :=
  ⟨calm g1 c1 ⟨rfl, rfl, rfl, rfl⟩, calm g0 c0 ⟨rfl, rfl, rfl, rfl⟩, rfl, rfl,
    lanes_at_hand g1 c1 wantWrite ⟨rfl, rfl⟩ (by decide +kernel), by decide +kernel⟩
/-- A promoting load that has been answered, with its word at hand. -/
theorem test_promoting_load_met_at_hand : cP.p.promo = some { since := 0, waiting := [], latest := 0 } ∧ 0 < (box gP).now ∧
    ∀ i, hasBit cP.lanes i = true → cP.val64 98 i % 8 = 0 ∧ AtHand (box gP) cP wantRead (cP.val64 98 i) :=
  ⟨rfl, by decide, lanes_at_hand gP cP wantRead ⟨rfl, rfl⟩ (by decide +kernel)⟩
/-- A path that has made its pushes and waits for package time 0. -/
def pA : Path := { path 1 with awaits := some 0 }
theorem test_fences_met : Issues (box g1) c1 7 ∧ Bare c1 ∧ c1.takes = true ∧ Alive (box g1) c1 ∧
    narrowHeld (box g1) core0 = false ∧ c1.p.awaits = none ∧ ((box g1).core core0).dirty = [] ∧ rdcOwn (box g1) core0 = [] ∧
    ((box g1).core core0).cw < (box g1).now ∧ ((box g1).core core0).cd < (box g1).now ∧ c1.g.wct < (box g1).now ∧
    (∃ s', logStored core0 0 (box g1) = .ok () s') ∧ ∃ s', pushCoreHome core0 (box g1) = .ok () s' := by
  refine ⟨issues1, bare _ ⟨rfl, rfl, rfl⟩, by decide +kernel, alive _ _ _ rfl, by decide +kernel, rfl, by decide +kernel,
    by decide +kernel, by decide +kernel, by decide +kernel, by decide +kernel, ?_, ?_⟩
  · obtain ⟨_, s', h, _⟩ := ok_and (r := logStored core0 0 (box g1)) (p := fun _ _ => true) (by decide +kernel)
    exact ⟨s', h⟩
  · obtain ⟨_, s', h, _⟩ := ok_and (r := pushCoreHome core0 (box g1)) (p := fun _ _ => true) (by decide +kernel)
    exact ⟨s', h⟩
theorem test_fences_met_waiting : Issues (box (grp pA rf uf)) (cxOf (grp pA rf uf) pA 7) 7 ∧
    (cxOf (grp pA rf uf) pA 7).p.awaits = some 0 ∧ 0 < (box (grp pA rf uf)).now :=
  ⟨issues _ _ 7 ⟨rfl, rfl, rfl, rfl, rfl, rfl⟩, rfl, by decide⟩

/-! ### Control flow -/

/-- Half of the lanes hold p0. -/
def gH : Group := { g0 with p := #v[0xFFFF, 0, 0, 0, 0, 0, 0] }
def cH : Cx := cxOf gH p0 0
theorem issuesH : Issues (box gH) cH 0 := issues gH p0 0 ⟨rfl, rfl, rfl, rfl, rfl, rfl⟩
theorem test_uniform_transfers_met : Issues (box g0) c0 7 ∧ Bare c0 ∧ c0.live ≠ 0 ∧ c0.live &&& ~~~c0.grd = 0 ∧
    landed (box g0) core0 0 (c0.p.pc + 4 + (4 : Word) * (1 : BitVec 22).signExtend 32) = true ∧
    landed (box g0) core0 0 ((4 : Word) * (0x3FF : BitVec 15).setWidth 32) = true ∧
    landed (box g0) core0 0 (c0.p.pc + 4 + (4 : Word) * (-2 : BitVec 22).signExtend 32) = false ∧
    (cxOf g0 p0 0).live &&& (cxOf g0 p0 0).grd = 0 :=
  ⟨issues0 7, bare _ ⟨rfl, rfl, rfl⟩, by decide +kernel, by decide +kernel, by decide +kernel, by decide +kernel,
    by decide +kernel, by decide +kernel⟩
theorem test_uniform_transfers_met_split : Issues (box gH) cH 0 ∧ Bare cH ∧ cH.live &&& cH.grd ≠ 0 ∧
    cH.live &&& ~~~cH.grd ≠ 0 := ⟨issuesH, bare _ ⟨rfl, rfl, rfl⟩, by decide +kernel, by decide +kernel⟩
theorem test_divergent_branch_met : Issues (box gH) cH 0 ∧ cH.en &&& cH.grd = 0xFFFF ∧
    landed (box gH) core0 0 (cH.p.pc + 4 + (4 : Word) * (1 : BitVec 22).signExtend 32) = true ∧
    (∃ g' s₁, diverge cH.g false cH.p [(4, 0xFFFF0000), (8, 0xFFFF)] none (box gH) = .ok g' s₁) ∧
    c0.live &&& ~~~(c0.en &&& c0.grd) = 0 ∧ (cxOf g0 p0 0).en &&& (cxOf g0 p0 0).grd = 0 := by
  refine ⟨issuesH, by decide +kernel, by decide +kernel, ?_, by decide +kernel, by decide +kernel⟩
  obtain ⟨g', s₁, h, _⟩ := ok_and (r := diverge cH.g false cH.p [(4, 0xFFFF0000), (8, 0xFFFF)] none (box gH))
    (p := fun _ _ => true) (by decide +kernel)
  exact ⟨g', s₁, h⟩
theorem test_divergence_met : g0.routine = .normal ∧ g0.slot false = some p0 ∧ g0.slot true = none ∧ g0.spill = [] :=
  ⟨rfl, rfl, rfl, rfl⟩
/-- The spill area at hand, for the entry of a join. -/
theorem test_divergence_met_join : Alive (box g0) c0 ∧ ((box g0).core core0).dirty = [] ∧ memoryWf (box g0).mem = true ∧
    CachesWf (box g0) ∧ (∃ h, Mapped (box g0) core0 g0.world wantWrite g0.spillPtr.toNat h ∧ h % 32 = 0) :=
  ⟨alive _ _ _ rfl, by decide +kernel, by decide, ⟨by decide +kernel, by decide +kernel⟩,
    _, (at_hand g0 c0 wantWrite g0.spillPtr.toNat ⟨rfl, rfl⟩ (by decide)).1, by decide⟩
theorem test_register_jumps_met : Issues (box g0) c0 7 ∧ Bare c0 ∧ Holds c0 100 .n32 ∧ oneOk c0.g.quota 95 = true ∧
    (∀ i, hasBit c0.live i = true → c0.val 100 i = 0) ∧ landed (box g0) core0 0 0 = true ∧ isLandAt (box g0) core0 0 = true ∧
    c0.en &&& c0.grd = c0.live ∧ c0.takes = true ∧ (cxOf g0 p0 0).en &&& (cxOf g0 p0 0).grd = 0 :=
  ⟨issues0 7, bare _ ⟨rfl, rfl, rfl⟩, holds (by decide +kernel), by decide +kernel, lanes_all (by decide +kernel),
    by decide +kernel, by decide +kernel, by decide +kernel, by decide +kernel, by decide +kernel⟩
theorem test_path_words_met : Issues (box g0) c0 7 ∧ Bare c0 ∧ c0.takes = true ∧ c0.g.single = none ∧ isVec 101 = false ∧
    isInt32 (c0.tag 101) = true := ⟨issues0 7, bare _ ⟨rfl, rfl, rfl⟩, by decide +kernel, rfl, rfl, by decide +kernel⟩
theorem test_code_segments_met : Issues (box g0) c0 7 ∧ Bare c0 ∧ c0.takes = true ∧ Alive (box g0) c0 ∧
    isInt32 (c0.tag 100) = true ∧ lookupN ((box g0).core core0).overlay (c0.val 100 0).toNat = some seg0 ∧
    seg0.world = some c0.g.world ∧ seg0.state ≠ .fetching :=
  ⟨issues0 7, bare _ ⟨rfl, rfl, rfl⟩, by decide +kernel, alive _ _ _ rfl, by decide +kernel, by decide +kernel, rfl, by decide⟩
theorem test_code_segments_met_absent : ∃ o p s₁, lookupN ((box g0).core core0).overlay (c0.val 101 0).toNat = some o ∧
    o.world = some c0.g.world ∧ o.state = .absent ∧ Holds c0 102 .n64 ∧ c0.val64 102 0 % 4096 = 0 ∧
    translate (groupAsker (box g0) c0.g (c0.p.unitPc.getD c0.p.pc)) (c0.val64 102 0) wantExec (box g0) = .ok p s₁ := by
  obtain ⟨p, s₁, h, _⟩ := ok_and (r := translate (groupAsker (box g0) c0.g (c0.p.unitPc.getD c0.p.pc)) (c0.val64 102 0) wantExec (box g0))
    (p := fun _ _ => true) (by decide +kernel)
  exact ⟨{ seg0 with state := .absent, bytes := [] }, p, s₁, by decide +kernel, rfl, rfl, holds (by decide +kernel),
    by decide +kernel, h⟩

theorem test_code_segments_met_mapped : ∃ h, Mapped (box g0) core0 c0.g.world wantExec (c0.val64 102 0) h :=
  ⟨_, (at_hand g0 c0 wantExec (c0.val64 102 0) ⟨rfl, rfl⟩ (by decide +kernel)).1⟩

/-! ### Synchronisation, spawning, group words -/

/-- Values 0, 1 and 2 to arrive with; tokens one phase, two phases and 0x7FFF phases old. -/
theorem test_barriers_met : Issues (box g0) c0 7 ∧ Bare c0 ∧ c0.takes = true ∧ c0.g.single = none ∧ c0.p.phase = none ∧
    isInt32 (c0.tag 101) = true ∧ (c0.val 100 0).toNat = 0 ∧ (c0.val 104 0).toNat = 1 ∧ (c0.val 101 0).toNat = 2 ∧
    (barrierOf (box g0) 0 0 15).expect = 1 ∧ narrowHeld (box g0) core0 = false ∧
    (∃ s₁, logStored core0 0 (box g0) = .ok () s₁) ∧
    ((barrierOf (box g0) 0 0 15).phase - BitVec.ofNat 16 (c0.val 105 0).toNat).toNat = 1 ∧
    ((barrierOf (box g0) 0 0 15).phase - BitVec.ofNat 16 (c0.val 106 0).toNat).toNat = 2 ∧
    ((barrierOf (box g0) 0 0 15).phase - BitVec.ofNat 16 (c0.val 107 0).toNat).toNat = 0x7FFF := by
  refine ⟨issues0 7, bare _ ⟨rfl, rfl, rfl⟩, by decide +kernel, rfl, rfl, by decide +kernel, by decide +kernel,
    by decide +kernel, by decide +kernel, by decide +kernel, by decide +kernel, ?_, by decide +kernel, by decide +kernel,
    by decide +kernel⟩
  obtain ⟨_, s₁, h, _⟩ := ok_and (r := logStored core0 0 (box g0)) (p := fun _ _ => true) (by decide +kernel)
  exact ⟨s₁, h⟩
theorem test_spawning_met : Issues (box g0) c0 7 ∧ Bare c0 ∧ c0.takes = true ∧ c0.tag 1 = .s32 ∧ oneOk c0.g.quota 1 = true ∧
    (c0.val 100 0).toNat % 4 = 0 ∧ landed (box g0) core0 0 (c0.val 100 0) = true ∧ isLandAt (box g0) core0 (c0.val 100 0) = true ∧
    c0.en ≠ 0 ∧ c0.p.spawned = 0 ∧ (c0.val 97 0).toNat = 128 ∧ (box g0).wg 0 0 = some wg0 ∧
    ∃ s₁ s₂, logStored core0 0 (box g0) = .ok () s₁ ∧ spawnLanes c0 (c0.val 100 0) .s32 1 (lanesOf c0.en) s₁ = .ok () s₂ := by
  refine ⟨issues0 7, bare _ ⟨rfl, rfl, rfl⟩, by decide +kernel, by decide +kernel, by decide +kernel, by decide +kernel,
    by decide +kernel, by decide +kernel, by decide +kernel, rfl, by decide +kernel, by decide +kernel, ?_⟩
  obtain ⟨_, s₁, h1, h⟩ := ok_and (r := logStored core0 0 (box g0))
    (p := fun _ s₁ => okAnd (spawnLanes c0 (c0.val 100 0) .s32 1 (lanesOf c0.en) s₁) (fun _ _ => true)) (by decide +kernel)
  obtain ⟨_, s₂, h2, _⟩ := ok_and h
  exact ⟨s₁, s₂, h1, h2⟩
def gE : Group := { g0 with em := 0 }
theorem test_spawning_met_none : Issues (box gE) (cxOf gE p0 7) 7 ∧ (cxOf gE p0 7).en = 0 :=
  ⟨issues gE p0 7 ⟨rfl, rfl, rfl, rfl, rfl, rfl⟩, by decide +kernel⟩
/-- A bin with thirty threads of the word's key. -/
def bin0 : Bin :=
  { launch := 0, wg := 0, entry := 0, tag := .s32, threads := List.replicate 30 (1, []), due := 2000, expired := false }
def coreB : Core := { Core.fresh core0 with bins := [(3, bin0)] }
theorem test_thread_joins_met : ((box g0).setCore coreB).core (keyCore g0.key) = coreB ∧
    coreB.bins.find? (fun x => x.2.launch == g0.launch && x.2.wg == g0.wg && x.2.entry == 0 && x.2.tag == .s32) =
      some (3, bin0) ∧ bin0.threads.length < 31 ∧ ((box g0).setCore coreB).wg g0.launch g0.wg = some wg0 := by decide +kernel
/-- A bin of thirty-one threads, with a slot and registers free and with every slot taken; a key without a bin, bin 0 free. -/
def coreB31 : Core := { coreB with bins := [(3, { bin0 with threads := List.replicate 31 (1, []) })] }
theorem test_thread_joins_met_ends : let s := (box g0).setCore coreB31
    s.core core0 = coreB31 ∧ s.launch g0.launch = some launch0 ∧ s.freeSlots core0 ≠ [] ∧ (s.freeSlots core0).head? = some 1 ∧
    launch0.quota ≤ s.freeRegs core0 ∧ s.stopping { key0 with slot := 1 } = none ∧
    ({ s with groups := (List.range 32).map (fun i => { g0 with key := { key0 with slot := i } }) } : State).freeSlots core0 = [] ∧
    ((box g0).core core0).bins = [] ∧ (∀ m < 0, lookupN ((box g0).core core0).bins m ≠ none) ∧ (31 : Nat) < 32 := by decide +kernel
/-- No bin of the key and one to take; a bin with room for the lanes. -/
theorem test_spawning_met_calm : ((box g0).core core0).bins = [] ∧ lookupN ((box g0).core core0).bins 0 = none ∧
    ({ bin0 with threads := [] } : Bin).threads.length + (lanesOf (c0.en &&& ~~~c0.p.spawned)).length ≤ 32 := by decide +kernel
def gQ : Group := { g0 with quota := 16 }
theorem test_group_words_met : Issues (box g0) c0 7 ∧ Bare c0 ∧ c0.takes = true ∧ c0.en ≠ 0 ∧ pairOk c0.g.quota 94 = true ∧
    isInt32 (c0.tag 101) = true ∧ Holds c0 108 .n64 ∧ c0.val64 108 0 = 17 ∧ 8 * (12#4).toNat = c0.g.quota ∧
    8 * (2#4).toNat < c0.g.quota :=
  ⟨issues0 7, bare _ ⟨rfl, rfl, rfl⟩, by decide +kernel, by decide +kernel, by decide +kernel, by decide +kernel,
    holds (by decide +kernel), by decide +kernel, by decide +kernel, by decide +kernel⟩
theorem test_group_words_met_grow : Issues (box gQ) (cxOf gQ p0 7) 7 ∧ gQ.quota < 8 * (12#4).toNat ∧
    ((box gQ).core core0).grows = [] ∧ 8 * (12#4).toNat - gQ.quota ≤ (box gQ).freeRegs core0 :=
  ⟨issues gQ p0 7 ⟨rfl, rfl, rfl, rfl, rfl, rfl⟩, by decide, by decide +kernel, by decide +kernel⟩

/-! ### Hints, traps, services, contexts -/

theorem test_hints_met : Issues (box g0) c0 7 ∧ c0.p.unitPc = none ∧ Bare c0 ∧ (box g0).launch c0.g.launch = some launch0 ∧
    launch0.table = none ∧ (4#3).toNat ≤ 4 ∧ (3#3).toNat ≤ 3 ∧ (6#3).toNat ≤ 6 :=
  ⟨issues0 7, rfl, bare _ ⟨rfl, rfl, rfl⟩, rfl, rfl, by decide, by decide, by decide⟩
/-- MAJ 0x3F, a class C word, class V words with and without lanes. -/
theorem test_reserved_words_met : majOf 0xFDC00000 = 0x3F ∧ gOf 0xFDC00000 = 7 ∧ Issues (box g0) c0 7 ∧
    classOf (majOf 0xCDC00000).toNat ≠ .v ∧ majOf 0x05C00000 ≠ 0x10 ∧ classOf (majOf 0x05C00000).toNat = .v ∧ c0.lanes ≠ 0 ∧
    gOf 0x04000000 = 0 ∧ Issues (box g0) (cxOf g0 p0 0) 0 ∧ (cxOf g0 p0 0).lanes = 0 :=
  ⟨by decide, by decide, issues0 7, by decide, by decide, by decide, by decide +kernel, by decide, issues0 0, by decide +kernel⟩
/-- World 0 with a trap and a service vector at the LAND word at 8. -/
def worldT : World := { world0 with tvec := 8, svec := 8 }
def boxT (g : Group) : State := { box g with worlds := [worldT] }
def fault8 : FaultInfo := { code := cIllegal, addr := 0, lane := none, mask := 0 }
theorem test_trap_entry_met : g0.routine = .normal ∧ isPrecise cIllegal = true ∧ isPrecise cTrap = true ∧ g0.single = none ∧
    (boxT g0).world g0.world = some worldT ∧ worldT.tvec ≠ 0 ∧ goodVector (boxT g0) core0 0 worldT.tvec = true ∧
    (boxT g0).group g0.key = some g0 ∧ g0.slot false = some p0 ∧ fault8.addr < 2 ^ 64 :=
  ⟨rfl, by decide, by decide, rfl, rfl, by decide, by decide +kernel, rfl, rfl, by decide⟩
def single0 : Single := { h := 0, slot1 := false, svc := none, left := 0, ret := 4, held := p0 }
def gS : Group := { g0 with single := some single0, svc := { Service.fresh with tpc := 4 } }
theorem test_fatal_instead_met : gS.single ≠ none ∧ gS.routine = .normal ∧ world0.tvec = 0 ∧
    (box g0).world g0.world = some world0 ∧ goodVector (boxT g0) core0 0 4 = false := by
  exact ⟨by simp [gS], rfl, rfl, rfl, by decide +kernel⟩
/-- A queue of world 0: ring at 0x2000, exception ring at 0x3000, WPTR at 0x1000, sixteen packets, eight records. -/
def queue0 : Queue :=
  { id := 0, ring := 0x2000, exq := 0x3000, wptr := 0x1000, ridx := 0, version := 0, dropped := 0, owner := 0, world := 0
    rlog := 4, elog := 3, state := 0, acks := [], replicas := [], wake := false, polled := 0, started := [], held := [], exNext := 0
    halted := [], barred := none, blocked := false, owed := [], doom := none }
def boxQ (q : Queue) : State := { box g0 with queues := [q] }
theorem test_fatal_fault_met : (boxQ queue0).world world0.id = some world0 ∧ world0.failed = false ∧ world0.dying = none ∧
    (boxQ queue0).queue 0 = some queue0 := ⟨rfl, rfl, rfl, rfl⟩
theorem issuesT : Issues (boxT g0) c0 7 where
  cur := rfl
  group := rfl
  slot := rfl
  reads := rfl
  written := rfl
  late := rfl
  flight _ hf := absurd hf List.not_mem_nil
  plain := rfl
  fresh := rfl
theorem test_service_call_met : Issues (boxT g0) c0 7 ∧ Bare c0 ∧ c0.takes = true ∧ (boxT g0).world c0.g.world = some worldT ∧
    c0.en ≠ 0 ∧ lowest c0.en = some 0 ∧ worldT.svec ≠ 0 ∧ goodVector (boxT g0) core0 0 worldT.svec = true :=
  ⟨issuesT, bare _ ⟨rfl, rfl, rfl⟩, by decide +kernel, rfl, by decide +kernel, by decide +kernel, by decide, by decide +kernel⟩
theorem test_service_return_met : Issues (box gS) (cxOf gS p0 7) 7 ∧ gS.single = some single0 ∧ single0.svc = none ∧
    gS.svc.tpc.toNat % 4 = 0 ∧ landed (box gS) core0 0 gS.svc.tpc = true ∧ (cxOf gE p0 7).en = 0 :=
  ⟨issues gS p0 7 ⟨rfl, rfl, rfl, rfl, rfl, rfl⟩, rfl, rfl, by decide, by decide +kernel, by decide +kernel⟩
/-- A reply for lane 0: its mailbox slot at 0x800 of bonded memory. -/
def boxW : State := { box g1 with mem := [(0x800, 5), (0x808, 1)] }
theorem issuesW : Issues boxW c1 7 where
  cur := rfl
  group := rfl
  slot := rfl
  reads := rfl
  written := rfl
  late := rfl
  flight _ hf := absurd hf List.not_mem_nil
  plain := rfl
  fresh := rfl
theorem test_wait_reply_met : Issues boxW c1 7 ∧ Bare c1 ∧ c1.takes = true ∧ (∃ w, boxW.world c1.g.world = some w ∧ w.failed = false) ∧
    pairOk c1.g.quota 94 = true ∧ c1.en ≠ 0 ∧
    ∃ ps s₁ st s₂ xs s₃ s₄ s₅,
      placeLanes c1 (laneAddrs c1.en (fun i => c1.g.context.toNat + 16 * i)) wantWrite boxW = .ok ps s₁ ∧
      tryLanes ps (fun p => readPlace core0 .sys (c1.policy p.cp) { p with pa := p.pa + 8 } 4) s₁ = .ok st s₂ ∧ (∀ x ∈ st, x.2 ≠ 0) ∧
      tryLanes ps (fun p => readPlace core0 .sys (c1.policy p.cp) p 8) s₂ = .ok xs s₃ ∧
      (∀ x ∈ ps, promoHolds s₃ core0 (x.2.home / 32) = false) ∧
      readyAt core0 (ps.map (fun x => (.sys, x.2.home / 32))) s₃ = .ok () s₄ ∧
      ps.forM (fun x => atPlace x.2 (writeAt core0 c1.g.world .sys (c1.policy x.2.cp) true (cellsOf (x.2.home + 8) 0 4))) s₄ = .ok () s₅ := by
  refine ⟨issuesW, bare _ ⟨rfl, rfl, rfl⟩, by decide +kernel, ⟨world0, rfl, rfl⟩, by decide +kernel, by decide +kernel, ?_⟩
  obtain ⟨ps, s₁, h1, h⟩ := ok_and
    (r := placeLanes c1 (laneAddrs c1.en (fun i => c1.g.context.toNat + 16 * i)) wantWrite boxW)
    (p := fun ps s₁ => okAnd (tryLanes ps (fun p => readPlace core0 .sys (c1.policy p.cp) { p with pa := p.pa + 8 } 4) s₁) (fun st s₂ =>
      decide (∀ x ∈ st, x.2 ≠ 0) && okAnd (tryLanes ps (fun p => readPlace core0 .sys (c1.policy p.cp) p 8) s₂) (fun _ s₃ =>
      decide (∀ x ∈ ps, promoHolds s₃ core0 (x.2.home / 32) = false) &&
      okAnd (readyAt core0 (ps.map (fun x => (.sys, x.2.home / 32))) s₃) (fun _ s₄ =>
      okAnd ((ps.forM (fun x => atPlace x.2 (writeAt core0 c1.g.world .sys (c1.policy x.2.cp) true (cellsOf (x.2.home + 8) 0 4))) : M Unit) s₄)
        (fun _ _ => true))))) (by decide +kernel)
  obtain ⟨st, s₂, h2, h⟩ := ok_and h
  rw [Bool.and_eq_true, decide_eq_true_eq] at h
  obtain ⟨xs, s₃, h3, h'⟩ := ok_and h.2
  rw [Bool.and_eq_true, decide_eq_true_eq] at h'
  obtain ⟨_, s₄, h4, h''⟩ := ok_and h'.2
  obtain ⟨_, s₅, h5, _⟩ := ok_and h''
  exact ⟨ps, s₁, st, s₂, xs, s₃, s₄, s₅, h1, h2, h.1, h3, h'.1, h4, h5⟩
theorem test_wait_reply_met_calm : Calm boxW c1 ∧ c1.g.context.toNat % 16 = 0 ∧
    ∀ i, hasBit c1.en i = true → ∃ h, Mapped boxW core0 c1.g.world wantWrite (c1.g.context.toNat + 16 * i) h ∧ OpenAt boxW h ∧
      sliceWord (homeWord boxW (h / 32)) (h + 8) 4 ≠ 0 := by
  refine ⟨⟨rfl, rfl, rfl, calm g1 c1 ⟨rfl, rfl, rfl, rfl⟩ |>.times, ⟨rfl, rfl⟩⟩, by decide, fun i hi => ?_⟩
  have : i = 0 := of_decide_eq_true (lanes_bool (f := fun i => decide (i = 0)) (by decide +kernel) i hi)
  subst this
  obtain ⟨m, o⟩ := at_hand g1 c1 wantWrite (c1.g.context.toNat + 16 * 0) ⟨rfl, rfl⟩ (by decide)
  exact ⟨_, ⟨m.half, m.on, m.page, m.same⟩, ⟨o.device, o.sound, o.plain, o.free⟩, by decide +kernel⟩
def snap0 : Snapshot := { p := g0.p, em := 0xFFFFFFFF, flags := 0, score := false, slot0 := some p0, slot1 := none, spill := [] }
theorem atIssue (g : Group) (hk : g.key = key0 ∧ g.slot0 = some p0 ∧ g.pending = []) : AtIssue (box g) (cxOf g p0 7) 7 where
  cur := by show some (key0, false) = some (g.key, false); rw [hk.1]
  group := by show ((box g).groups.find? _) = some g; simp [box, cxOf, Cx.of]
  slot := hk.2.1
  reads := rfl
  written := hk.2.2
  late := rfl
  flight _ hf := absurd hf List.not_mem_nil
def gX : Group := { g0 with routine := .exit snap0 2000 }
def gN : Group := { g0 with routine := .entry snap0, region := some 0, rebuiltV := 1 }
/-- A region that declares v0 live. -/
def region0 : BitVec 512 := BitVec.ofNat 512 (2 ^ 416)
def boxN : State := { box gN with launches := [{ launch0 with table := some [region0] }] }
theorem test_context_words_met : AtIssue (box gX) (cxOf gX p0 7) 7 ∧ gX.routine = .exit snap0 2000 ∧
    isInt32 ((cxOf gX p0 7).tag 101) = true ∧ AtIssue (box g0) c0 7 ∧ g0.routine = .normal ∧ (4#4).toNat ≤ 4 ∧
    pairOk c0.g.quota 124 = true :=
  ⟨atIssue gX ⟨rfl, rfl, rfl⟩, rfl, by decide +kernel, atIssue g0 ⟨rfl, rfl, rfl⟩, rfl, by decide, by decide +kernel⟩
theorem test_context_words_met_entry : AtIssue boxN (cxOf gN p0 7) 7 ∧ gN.routine = .entry snap0 ∧
    regionEntry boxN gN = some region0 ∧ rebuilt gN region0 = true ∧ (boxN.quad quad0).ops = [] :=
  ⟨{ cur := rfl, group := rfl, slot := rfl, reads := rfl, written := rfl, late := rfl,
     flight := fun _ hf => absurd hf List.not_mem_nil }, rfl, by decide +kernel, by decide +kernel, by decide +kernel⟩

/-! ### Decoding, steps and the forms that steps keep -/

theorem test_round_trip_met : wellFormed (.add 10 3 1 2) = true ∧ encode (.add 10 3 1 2) = some 0x06818104 ∧
    decodeWord 0x06818104 = .row (.add 10 3 1 2) ∧ decodeWord 0xDDC00000 = .beside (.exit 7) := by decide +kernel
/-- No event due and the group at its LAND word; a word beside the table at the PC; a PC outside the landed slot. -/
theorem test_steps_met : (box g0).agenda = [] ∧ (box g0).turn = false ∧
    ((pickSlot (advance (box g0))).map (fun r => (r.key, r.sl, r.path.pc))) = some (key0, false, 0) ∧
    landed (advance (box g0)) core0 0 0 = true ∧ landed (advance (box g0)) core0 0 0xFFC = true ∧
    landed (advance (box g0)) core0 0 0x1000 = false ∧ landed (advance (box g0)) core0 1 0 = false ∧
    decodeWord (overlayWord (advance (box g0)) core0 0) = .row .land := by decide +kernel
/-- A word that has issued and waits: it runs as it was fetched. -/
def read0 : Sources := { word := 0xFD800000, since := 0, en := 0, grd := 0, regs := [] }
theorem test_steps_met_waiting : let s := box (grp { p0 with read := some read0 } rf uf)
    ((pickSlot (advance s)).map (fun r => (r.key, r.sl, r.path.read))) = some (key0, false, some read0) ∧
    decodeWord read0.word = .row .land ∧ decodeWord 0xDDC00000 = .beside (.exit 7) := by decide +kernel
theorem test_step_event_met : ({ State.reset with agenda := [.survey] } : State).agenda = [.survey] := rfl
theorem test_forms_met : memoryWf (box g0).mem = true ∧ CachesWf (box g0) :=
  ⟨by decide, ⟨by decide +kernel, by decide +kernel⟩⟩
theorem test_forms_met_next : (match step (box g0) with | .next _ => true | _ => false) = true := by decide +kernel

/-! ### Caches -/

/-- A core with the dirty byte 9 at 0x40 of die 0, and a clean copy of the word whose lease ends at 1,000. -/
def dirty0 : Core := { Core.fresh core0 with dirty := [(0x40, 9)], copies := [{ word := 2, data := 0, expiry := 1000 }] }
def boxD : State := { box g0 with cores := [dirty0] }
theorem test_merges_met : memoryWf boxD.mem = true ∧ rising (boxD.core core0).dirty = true ∧
    wordCells (boxD.core core0).dirty 2 = [(0x40, 9)] ∧ wordDie 2 = core0.die ∧ isHost (32 * 2) = false ∧
    lookupN boxD.lines.held (wordLine 2) = none ∧ boxD.group key0 = some g0 := by decide +kernel
/-- The expiry itself, 1,000, is absent already; 999 is in force. -/
theorem test_caches_met : ((copiesOf { boxD with now := 1000 } (.l1 0 0)).any (fun x => x.word == 2 && decide (x.expiry ≤ 1000))) = true ∧
    (∀ x ∈ copiesOf { boxD with now := 999 } (.l1 0 0), x.word = 2 → 999 < x.expiry) ∧
    wordCells (boxD.core core0).dirty 3 = [] ∧ wordCells (boxD.die 0).dirty 2 = [] ∧
    dirtyIn boxD (.l1 0 0) 3 = false ∧ PowerUnit.way (.l1 0 0) 0 ∉ boxD.gated ∧ PowerUnit.bank 0 0 63 ∉ boxD.gated ∧
    PowerUnit.bank 0 0 63 ∉ boxD.waking ∧
    (sleeping core0 boxD.gated).length + (sleeping core0 boxD.waking).length < boxD.freeBanks core0 := by decide +kernel
/-- A host line in M with no lease on it, and one with a lease that ends now. -/
def hostLine : Nat := hostBase / 64
def boxH : State := { box g0 with lines := { State.reset.lines with mesi := [(hostLine, .m)] } }
def boxHL : State :=
  { boxH with now := 50, lines := { boxH.lines with mesi := [(hostLine, .e)], eMax := [(2 * hostLine, 50)], rdOwn := [hostLine] } }
theorem test_host_lines_met : isHost (64 * hostLine) = true ∧ isHost (32 * (2 * hostLine)) = true ∧ wordLine (2 * hostLine) = hostLine ∧
    mesiOf boxH hostLine = .m ∧ lineMax boxH hostLine < boxH.now ∧ mesiOf boxHL hostLine = .e ∧
    boxHL.now ≤ lineMax boxHL hostLine ∧ mesiOf (box g0) hostLine = .i ∧ hostLine ∈ boxHL.lines.rdOwn ∧
    mesiOf { boxH with lines := { boxH.lines with mesi := [(hostLine, .s)] } } hostLine = .s ∧
    wordCells (boxH.die (wordDie (2 * hostLine))).dirty (2 * hostLine) = [] := by decide +kernel
/-- A line that the host holds modified and is asked back. -/
def boxB : State := { box g0 with lines := { State.reset.lines with held := [(1, true)], backInv := [1] } }
/-- Bonded memory at 0x2000 protected by its configuration record, and a bad word. -/
def boxP : State :=
  { box g0 with
    trust := { State.reset.trust with config := { State.reset.trust.config with protect := [(0x2000, 0x10000)] } }
    lines := { State.reset.lines with bad := [1], forged := [0x80] } }
theorem test_host_hdm_met : isProtected boxP (homeOf 0x8000000000) = false ∧ isProtected boxP (homeOf 0x8000002000) = true ∧
    isProtected boxP (homeOf 0x800000FFFF) = true ∧ isProtected boxP 0x12000 = false ∧ homeOf 0x8000000000 / 32 ∉ boxP.lines.bad ∧
    homeOf 0x8000000020 / 32 ∈ boxP.lines.bad ∧ 1 ∈ boxB.lines.backInv ∧ lookupN boxB.lines.held 1 = some true ∧
    memoryWf boxB.mem = true := by decide +kernel
/-- A way that is closed and holds neither dirty bytes nor a host line, one that holds a host line, a carve-out, a forged sector. -/
theorem test_ways_met : PowerUnit.way (.l1 0 0) 0 ∉ boxD.closing ∧ holdsHost boxD (.l1 0 0) 3 = false ∧
    PowerUnit.way (.l1 0 0) 0 ∈ ({ boxD with closing := [.way (.l1 0 0) 0] } : State).closing ∧
    holdsHost boxH (.rdc (wordDie (2 * hostLine))) (2 * hostLine) = true ∧ mesiOf boxH (wordLine (2 * hostLine)) ≠ .i ∧
    isCarve { boxP with trust := { boxP.trust with config := { boxP.trust.config with carve := [(0, 0x1000)] } } } (homeOf 0x8000000000) = true ∧
    isCarve boxP (homeOf 0x8000000000) = false ∧ sectorBad boxP (0x100 / 2) = true := by decide +kernel
theorem test_scrubs_met : isDram (32 * 1) = true ∧ 1 ∈ boxP.lines.bad ∧ 2 ∉ boxP.lines.bad ∧
    isProtected boxP (32 * 0x100) = true ∧ 0x100 / 2 ∈ boxP.lines.forged := by decide +kernel

/-! ### Translation -/

/-- World 1 with a table at 0x1000 that maps the first 2 MB onto bonded memory, and its walks and request in progress. -/
def world1 : World := { world0 with id := 1, xlat := BitVec.ofNat 128 (0x1001 + 2 ^ 95 + 7 * 2 ^ 64) }
def req0 : PageReq :=
  { id := 5, world := 1, page := 2, write := false, exec := false, successes := 0, waiting := true, sent := true, since := 0, failed := false }
def page0 : HostPage := { base := 0x2000, size := 0x1000, frame := 0, r := true, w := false, x := false }
def inv0 : Invalidation := { id := 3, worlds := [1], host := false, range := none, after := [], words := [], codes := [] }
def ats0 : AtsReq := { world := 1, page := 2, exec := false, joined := [core0], fw := true }
def walk0 (page : Nat) : Walk := { world := 1, page := page, joined := [core0] }
def walking (l : List Nat) : Die := { Die.fresh 0 with walks := l.map walk0 }
def boxX : State :=
  { box g0 with
    worlds := [world0, world1]
    mem := [(0x1000, 1), (0x1001, 0x20), (0x2000, 1), (0x2001, 0x30), (0x3000, 1), (0x3001, 0x40), (0x4000, 0x3F)]
    dies := [walking [0, 0x1000000000]]
    xlat := { State.reset.xlat with ats := [ats0], reqs := [req0], host := [(1, page0)], invs := [inv0] } }
def asker1 : Asker := { core := some core0, world := 1, queue := none, pidx := 0 }
/-- A walk that ends well and one that faults; a world whose device half is off. -/
theorem test_walks_met : ((boxX.die 0).walks.take 128).find? (fun x => x.world == 1 && x.page == (0x10 : DWord).toNat / 0x1000) = some (walk0 0) ∧
    ((boxX.die 0).walks.take 128).find? (fun x => x.world == 1 && x.page == (0x1000000000000 : DWord).toNat / 0x1000) = some (walk0 0x1000000000) ∧
    xEn (xlatOf boxX 1) = true ∧ xEn (xlatOf { boxX with worlds := [] } 1) = false ∧
    okAnd (walkIn asker1 0x10 wantRead (boxX.setDie (walking [0x1000000000]))) (fun p _ => p.home == 0x10) = true ∧
    (match walkIn asker1 0x1000000000000 wantRead (boxX.setDie (walking [0])) with
     | .error (.fault f) _ => f.code == cAbsent | _ => false) = true := by decide +kernel
def load0 : Inflight :=
  { id := 9, key := key0, kind := 6, dest := 95, lanes := 1, addrs := [(0, { pa := 0x8000000040, cp := 0, prot := false })], scope := .core, cpol := 0, lease := 0, vals := none
    tag := .n32, va := 0x40, pc := 0, since := none }
def boxF : State := { box g0 with flight := [load0] }
theorem test_access_met : boxF.flight.find? (fun x => x.id == 9) = some load0 ∧ boxF.group load0.key = some g0 ∧
    okAnd (load0.fetch { boxF with flight := [] }) (fun xs t => xs == [(0, 0)] && t.group key0 == some g0) = true ∧ isVec load0.dest = true ∧
    ({ load0 with vals := some [] } : Inflight).vals = some [] := by decide +kernel
/-- The host's answers: a translation asked for, and one not asked for; the last time before and the first at the timeout. -/
theorem test_host_answers_met : boxX.world 1 = some world1 ∧ world1.failed = false ∧
    boxX.xlat.ats.any (fun q => q.world == 1 && decide (page0.base ≤ 4096 * q.page ∧ 4096 * q.page < page0.base + page0.size)) = true ∧
    (box g0).xlat.ats = [] ∧ openReq boxX 5 = some req0 ∧ (page0.r || page0.w || page0.x) = true ∧
    (({ page0 with r := false } : HostPage).r || page0.w || page0.x) = false ∧
    req0.since + boxX.trust.config.pageTimeout ≤ ({ boxX with now := 1000000000 } : State).now ∧
    ({ boxX with now := 999999999 } : State).now < req0.since + boxX.trust.config.pageTimeout := by decide +kernel
theorem test_invalidations_met : (boxX.xlat.invs.filter (fun i => i.host)).length < 32 ∧
    xHosten world1.xlat.toNat = true ∧ xPasid world1.xlat.toNat = 7 ∧
    boxX.xlat.invs.find? (fun x => x.id == 3) = some inv0 ∧ settledFor boxX inv0 = true ∧ (∀ k ∈ boxX.cores, k.dirty = []) ∧
    (∀ d ∈ boxX.dies, d.dirty = []) ∧ settledFor boxF { inv0 with after := [9] } = false := by decide +kernel

/-! ### Tiles and the matrix engine -/

/-- A tile of one n32 element at byte 0 of the workgroup's scratchpad, filled from 0x40 of bonded memory. -/
def tile0 : Tile :=
  { state := .filling, desc := BitVec.ofNat 256 (0x40 + 2 ^ 128 + 2 ^ 136 + 2 ^ 144 + 2 ^ 152 + 3 * 2 ^ 160), err := 0, readers := 0
    world := 0, launch := 0, wg := 0, mapN := 0 }
def issuer0 : Issuer := { key := key0, serial := 0, world := 0, launch := 0, packet := none }
def fill0 : CopyOp :=
  { id := 4, kind := .load, tile := 2, base := 0x100000000000040, rows := [], by_ := issuer0, rebuilds := false, stalled := false
    absent := false }
def quadT (k : CopyKind) (b : DWord) : Quad :=
  { Quad.fresh quad0 with ops := [{ fill0 with kind := k, base := b }], tiles := [(2, { gen := 0, tile := some tile0 })] }
def boxK (k : CopyKind) (b : DWord) : State := { box g0 with quads := [quadT k b] }
theorem test_transfers_met : ((boxK .load 0x100000000000040).quad quad0).ops.find? (fun o => o.id == 4) = some fill0 ∧
    lookupN ((boxK .load 0x100000000000040).quad quad0).tiles fill0.tile = some { gen := 0, tile := some tile0 } ∧
    wgAlive (boxK .load 0x100000000000040) tile0.launch tile0.wg = true ∧
    okAnd (fillRun quad0 fill0 tile0 (boxK .load 0x100000000000040)) (fun _ _ => true) = true ∧
    okAnd (drainRun quad0 { fill0 with kind := .store } tile0 (boxK .store 0x100000000000040)) (fun _ _ => true) = true := by
  decide +kernel
/-- A page whose request has failed, one that the host has yet to answer for, and an address of no half. -/
theorem test_transfers_met_ends : (match fillRun quad0 { fill0 with base := 0x10000000 } tile0
      { boxK .load 0x10000000 with xlat := { (boxK .load 0).xlat with reqs := [{ req0 with world := 0, page := 0x10000, waiting := false, failed := true }] } } with
      | .error (.fault _) _ => true | _ => false) = true ∧
    (match fillRun quad0 { fill0 with base := 0x10000000 } tile0 (boxK .load 0x10000000) with
      | .error (.fault _) _ => false | .error _ _ => true | _ => false) = true ∧ (1 : Byte).toNat = 1 ∧ (7 : Byte).toNat = 7 ∧
    (elements tile0.desc.toNat).filter (fun x => !padded tile0.desc.toNat x.1 x.2) = [(0, 0)] ∧
    2 ^ 57 ≤ elemAddr ({ fill0 with base := 0x200000000000000 }.row tile0.desc.toNat 0) tile0.desc.toNat 0 (moveBytes (dTag tile0.desc.toNat)) := by
  decide +kernel
theorem test_transfers_met_mapped (k : CopyKind) (w : Want) : let d := tile0.desc.toNat
    ∀ x ∈ (elements d).filter (fun x => !padded d x.1 x.2), elemAddr (fill0.row d x.1) d x.2 (moveBytes (dTag d)) % moveBytes (dTag d) = 0 ∧
      ∃ h, OpenAt (boxK k fill0.base) h ∧ Mapped (boxK k fill0.base) (keyCore fill0.by_.key) fill0.by_.world w
        (elemAddr (fill0.row d x.1) d x.2 (moveBytes (dTag d))) h := by
  intro d x hx
  have hx : x ∈ [(0, 0)] := by rw [← test_transfers_met_ends.2.2.2.2.1]; exact hx
  rw [List.mem_singleton.1 hx]
  obtain ⟨m, o⟩ := at_hand g0 c0 w (elemAddr (fill0.row d 0) d 0 (moveBytes (dTag d))) ⟨rfl, rfl⟩ (by decide +kernel)
  exact ⟨by decide +kernel, _, ⟨o.device, o.sound, o.plain, o.free⟩, ⟨m.half, m.on, m.page, m.same⟩⟩
/-- What the fill and the drain of that tile move: the bytes at 0x40 of bonded memory, which no cache holds. -/
theorem test_transfers_met_values (k : CopyKind) (w : Want) : let s := boxK k fill0.base
    let d := tile0.desc.toNat
    descOk s (s.quad quad0) tile0.launch tile0.wg d = true ∧ memoryWf s.mem = true ∧ CachesWf s ∧
    (∀ x ∈ s.wgs, memoryWf x.scr = true) ∧ (∀ x ∈ (s.quad quad0).slots, memoryWf x.2.bytes = true) ∧
    ∀ x ∈ (elements d).filter (fun x => !padded d x.1 x.2), elemAddr (fill0.row d x.1) d x.2 (moveBytes (dTag d)) % moveBytes (dTag d) = 0 ∧
      OpenAt s 0x40 ∧ liveCopy s.now (s.die quad0.die).copies (0x40 / 32) = none ∧
      Mapped s (keyCore fill0.by_.key) fill0.by_.world w (elemAddr (fill0.row d x.1) d x.2 (moveBytes (dTag d))) 0x40 := by
  intro s d
  refine ⟨by cases k <;> decide +kernel, rfl, ⟨by cases k <;> decide +kernel, by cases k <;> decide +kernel⟩,
    by cases k <;> decide +kernel, by cases k <;> decide +kernel, ?_⟩
  intro x hx
  have hx : x ∈ [(0, 0)] := by rw [← test_transfers_met_ends.2.2.2.2.1]; exact hx
  rw [List.mem_singleton.1 hx]
  obtain ⟨m, o⟩ := at_hand g0 c0 w (elemAddr (fill0.row d 0) d 0 (moveBytes (dTag d))) ⟨rfl, rfl⟩ (by decide +kernel)
  rw [show elemAddr (fill0.row d 0) d 0 (moveBytes (dTag d)) - 2 ^ 56 = 0x40 by decide +kernel] at m o
  exact ⟨by decide +kernel, ⟨o.device, o.sound, o.plain, o.free⟩, by cases k <;> decide +kernel, ⟨m.half, m.on, m.page, m.same⟩⟩
/-- Posted ACZERO operations of groups of their own: passed over 15 times, and of a higher band. -/
def entry (id band passes : Nat) : EngEntry :=
  { id := id, minor := 13, i4 := 0, record := [0x8 * 0x100 + 7], vlen := 0, first := 104, key := key0, serial := id, path := 0, world := 0
    launch := 0, wg := 0, start := 0, band := band, arrived := 0, passes := passes, granted := false, q := 0, spoiled := false, spots := [] }
def acc0 : Acc :=
  { base := 8, count := 8, m64 := false, owner := key0, world := 0, launch := 0, data := [(0, 5)], rmax := Vector.replicate 64 0
    rsum := Vector.replicate 64 0, dlt := Vector.replicate 64 0 }
def gone0 : OpSlot := { world := 0, launch := 9, wg := 0, pair := false, ended := true, bytes := [] }
def quadM (es : List EngEntry) : Quad := { Quad.fresh quad0 with entries := es, accs := [acc0], slots := [(5, gone0), (6, { gone0 with ended := false })] }
def boxM (es : List EngEntry) : State := { box g0 with quads := [quadM es] }
theorem test_arbiter_met : ((boxM [entry 1 0 0, entry 2 3 14, entry 3 3 0]).quad quad0).tight = false ∧
    (choose (boxM [entry 1 0 0, entry 2 3 14, entry 3 3 0]) quad0).map (fun e => e.id) = some 2 ∧
    ((boxM [entry 1 3 0, entry 2 0 15]).quad quad0).tight = true ∧
    (choose (boxM [entry 1 3 0, entry 2 0 15]) quad0).map (fun e => e.id) = some 2 ∧
    choose (boxM []) quad0 = none ∧ ((boxM []).quad quad0).tight = false ∧ (entry 1 0 0).seam = false := by decide +kernel
/-- One entry that has to be granted next, and one that waits for another; a band due to rise, and one not yet. -/
theorem test_arbiter_met_bound : ((boxM [entry 1 3 0, entry 2 0 15]).quad quad0).bound = some 0 ∧
    ((boxM [entry 1 3 0, entry 2 0 15]).quad quad0).slacks.map (fun x => (x.1.id, x.2)) = [(1, 15), (2, 0)] ∧
    ((boxM [entry 1 3 0, entry 2 0 14]).quad quad0).bound = none ∧
    (entry 1 0 0).arrived + 4000 ≤ ({ boxM [entry 1 0 0] with now := 4000 } : State).now ∧ (entry 1 0 0).band < 3 := by decide +kernel
theorem test_matrix_ends_met : ((boxM [{ entry 1 0 0 with granted := true }]).quad quad0).entries.find? (fun x => x.granted) =
      some { entry 1 0 0 with granted := true } ∧ (entry 1 0 0).minor = 13 ∧ (entry 1 0 0).spoiled = false ∧
    accOf ((boxM []).quad quad0) 0 0 (recAt (entry 1 0 0).record 0) = some acc0 ∧
    lookupN ((boxM []).quad quad0).slots 5 = some gone0 ∧ wgAlive (boxM []) gone0.launch gone0.wg = false ∧
    (∀ t ∈ ((boxM []).quad quad0).tiles, ∀ x, t.2.tile = some x → x.launch = gone0.launch → x.wg = gone0.wg → x.opSlot ≠ none →
      x.inFlight = false) ∧
    (∀ p ∈ ((boxM []).quad quad0).slots, p.1 = 5 → p.2 = gone0) ∧
    (∀ p ∈ ((boxM []).quad quad0).slots, p.1 = 6 → p.2.ended = false) := by
  refine ⟨by decide +kernel, rfl, rfl, by decide +kernel, by decide +kernel, by decide +kernel, ?_, by decide +kernel, by decide +kernel⟩
  intro t ht; exact absurd ht List.not_mem_nil
/-- A tile that stands in a slot which is given back, in flight and at rest. -/
theorem test_matrix_ends_met_slots : ((boxM []).quad quad0).endedSlots gone0.launch gone0.wg = [5] ∧
    (let t : Tile := { tile0 with desc := BitVec.ofNat 256 (2 ^ 173 + 5 * 2 ^ 224) }
     t.opSlot = some 5 ∧ t.inFlight = true ∧ ({ t with state := .ready } : Tile).inFlight = false) := by decide +kernel
/-- Tiles in operand slots (m64 and f32), accumulators of both kinds, and one granted operation on them. -/
def tileM : Tile := { tile0 with state := .ready, desc := BitVec.ofNat 256 (2 ^ 128 + 2 ^ 136 + 2 ^ 144 + 2 ^ 152 + 6 * 2 ^ 160 + 2 ^ 173) }
def tileF : Tile := { tile0 with state := .ready, desc := BitVec.ofNat 256 (2 ^ 128 + 2 ^ 136 + 2 ^ 144 + 2 ^ 152 + 8 * 2 ^ 160 + 2 ^ 173 + 2 * 2 ^ 224) }
def slotM (pair : Bool) : OpSlot := { world := 0, launch := 0, wg := 0, pair := pair, ended := false, bytes := [] }
def accM : Acc := { acc0 with base := 0, count := 16, m64 := true }
def mtx (minor : BitVec 4) (i4 : BitVec 4) (r : List Word) : EngEntry :=
  { entry 1 0 0 with minor := minor, i4 := i4, record := r, granted := true, q := 17 }
def boxMM (e : EngEntry) : State := { box g0 with quads := [{ Quad.fresh quad0 with
  entries := [e], accs := [accM, { acc0 with base := 16 }], slots := [(0, slotM true), (1, slotM true), (2, slotM false)]
  tiles := [(2, { gen := 0, tile := some tileM }), (3, { gen := 0, tile := some tileF })] }] }
theorem engine_tile (e : EngEntry) (t : Tile) (h : descOk (boxMM e) ((boxMM e).quad quad0) t.launch t.wg t.desc.toNat = true)
    (k : t.inSlot = true) : EngineTile (boxMM e) quad0 t :=
  ⟨h, k, by
    have : ∀ x ∈ [(0, slotM true), (1, slotM true), (2, slotM false)], memoryWf x.2.bytes = true := by decide
    exact this⟩
theorem test_matrix_values_met (e : EngEntry) (h : e ∈ [mtx 0 0 [2, 2, 0x0F], mtx 0 0 [3, 3, 0x1007], mtx 7 0 [0x0F, 2], mtx 8 0 [2, 0x0F]]) :
    ((boxMM e).quad quad0).entries.find? (fun x => x.granted) = some e ∧ e.spoiled = false ∧ e.spots = [] ∧ 3 ≤ e.q ∧ e.q < 2 ^ 62 ∧
    EngineTile (boxMM e) quad0 tileM ∧ EngineTile (boxMM e) quad0 tileF ∧ tileOf ((boxMM e).quad quad0) 0 0 2 = some (2, tileM) ∧
    tileOf ((boxMM e).quad quad0) 0 0 3 = some (3, tileF) ∧ accOf ((boxMM e).quad quad0) 0 0 0x0F = some accM ∧
    accOf ((boxMM e).quad quad0) 0 0 0x1007 = some { acc0 with base := 16 } ∧ tileM.tag = 6 ∧ tileFmt tileF.tag = some fmtF32 ∧
    wgAlive (boxMM e) tileM.launch tileM.wg = true ∧ (boxMM e).group e.key = some g0 ∧ accM.m64 = true ∧ acc0.m64 = false := by
  simp only [List.mem_cons, List.not_mem_nil, or_false] at h
  obtain rfl | rfl | rfl | rfl := h <;>
  exact ⟨by decide +kernel, rfl, rfl, by decide, by decide, engine_tile _ _ (by decide +kernel) (by decide),
    engine_tile _ _ (by decide +kernel) (by decide), by decide +kernel, by decide +kernel, by decide +kernel, by decide +kernel,
    by decide, by decide, by decide +kernel, rfl, rfl, rfl⟩
/-- A seam pass of the leader granted while the follower still runs its own. -/
def seam0 : EngEntry := { entry 1 0 0 with minor := 1, granted := true }
def boxS : State := { box g0 with quads := [quadM [seam0], { Quad.fresh (followerOf quad0) with entries := [{ entry 2 0 0 with granted := true }] }] }
theorem test_seam_met : (boxS.quad quad0).entries.find? (fun x => x.granted) = some seam0 ∧ seam0.seam = true ∧
    (boxS.quad (followerOf quad0)).running = true := by decide +kernel

/-! ### Segments, placement, bins, issue -/

def frame0 : Place := { pa := 0x8000003000, cp := 0, prot := false }
def fetch0 : OverlaySlot :=
  { state := .fetching, world := some 0, bytes := [], src := 0x8000000000, by_ := some issuer0, frame := some frame0
    again := false, initial := false }
def boxO : State := { box g0 with cores := [{ Core.fresh core0 with overlay := [(4, fetch0)] }], mem := [(0x3FFF, 0xFD)] }
theorem test_segments_met : lookupN (boxO.core core0).overlay 4 = some fetch0 ∧ fetch0.state = .fetching ∧ fetch0.frame = some frame0 ∧
    frame0.pa % 4096 = 0 ∧ frame0.home = 0x3000 ∧ isHost frame0.home = false ∧ (∀ i < 128, let w := frame0.home / 32 + i
      w ∉ boxO.lines.bad ∧ isProtected boxO (32 * w) = false ∧ lookupN boxO.lines.held (wordLine w) = none ∧
      (wordDie w = core0.die ∨ (liveCopy boxO.now (boxO.die core0.die).copies w = none ∧ wordCells (boxO.die core0.die).dirty w = []))) :=
  ⟨by decide +kernel, rfl, rfl, by decide, by decide +kernel, by decide +kernel, by decide +kernel⟩

/-- Forty threads in workgroups of one group: 32 and 8 of them. -/
def launchP : Launch := { launch0 with id := 1, record := BitVec.ofNat 512 (12 * 2 ^ 30 + 40 * 2 ^ 80), next := 0 }
/-- The same in neighbourhoods of two. -/
def launchN : Launch := { launchP with record := BitVec.ofNat 512 (12 * 2 ^ 30 + 40 * 2 ^ 80 + 2 * 2 ^ 11) }
def boxL (l : Launch) : State := { box g0 with launches := [launch0, l] }
theorem test_placement_met : (boxL launchP).launch launchP.id = some launchP ∧ launchP.dead = false ∧ launchP.next < launchP.wgCount ∧
    (boxL launchP).world launchP.world = some world0 ∧ world0.failed = false ∧ launchP.nest = [] ∧ (boxL launchP).gated = [] ∧
    (boxL launchP).waking = [] ∧ launchP.nbhd = 0 ∧ fitsCore (boxL launchP) launchP { die := 0, core := 0 } = true := by
  decide +kernel
theorem test_placement_met_lowest : ∀ d' c', c' < 192 → (d' < 0 ∨ (d' = 0 ∧ c' < 0)) →
    fitsCore (boxL launchP) launchP { die := d', core := c' } = false := by intro d' c' _ h; omega
theorem test_neighbourhood_met : 0 < launchN.nbhd ∧ min launchN.nbhd (launchN.wgCount - launchN.next) = 2 ∧
    (placeNbhds launchN 2 launchN.next 2 (boxL launchN, [])).map (fun x => x.2) =
      some [(0, { die := 0, core := 0 }), (1, { die := 0, core := 1 })] ∧
    planAwake (boxL launchN) launchN [(0, { die := 0, core := 0 }), (1, { die := 0, core := 1 })] = true := by decide +kernel
/-- A core on which nothing runs takes a workgroup. -/
theorem fits_elsewhere {c : CoreId} (h : c ≠ core0) : fitsCore (boxL launchN) launchN c = true := by
  have h' : (core0 == c) = false := beq_false_of_ne (Ne.symm h)
  have on : (boxL launchN).onCore c = [] := List.filter_cons_of_neg (by show ¬ (core0 == c) = true; simp [h'])
  have wgs : (boxL launchN).wgs.filter (fun w => w.core == c) = [] :=
    List.filter_cons_of_neg (by show ¬ (core0 == c) = true; simp [h'])
  have core : (boxL launchN).core c = Core.fresh c := by
    have : (boxL launchN).cores.find? (fun x => x.id == c) = none := List.find?_cons_of_neg (by show ¬ (core0 == c) = true; simp [h'])
    unfold State.core; rw [this]; rfl
  have scrubs : (boxL launchN).scrubs.filter (fun x => x.core == c) = [] := rfl
  have cls : ((boxL launchN).quad (coreQuad c)).cls = ((boxL launchN).quad quad0).cls := rfl
  have free : (boxL launchN).stopping { die := c.die, core := c.core, slot := 0 } = none := rfl
  have empty : (Core.fresh c).overlay = [] := rfl
  unfold fitsCore State.freeSlots State.freeRegs State.freeBanks segsFit
  rw [on, wgs, scrubs, cls, free, core, empty]
  decide +kernel
theorem test_neighbourhood_met_all : launchN.nbhd ≤ 192 ∧ ∀ d c, d < 32 → c < 192 →
    fitsCore (boxL launchN) launchN { die := d, core := c } = true := by
  refine ⟨by decide +kernel, fun d c _ _ => ?_⟩
  by_cases h : ({ die := d, core := c } : CoreId) = core0
  · rw [h]; decide +kernel
  · exact fits_elsewhere h
theorem test_placed_met : launchP.placedIn 0 ≤ ((boxL launchP).freeSlots core0).length ∧ launchP.placedIn 1 = 1 := by decide +kernel
/-- A bin that has expired, at its due time and before; a core whose slots are all taken. -/
def boxC (now : Nat) (b : Bin) : State :=
  { box g0 with now := now, cores := [{ Core.fresh core0 with bins := [(3, b)], grows := [(key0, 16)] }] }
def boxFull : State := { boxC 2000 bin0 with groups := (List.range 32).map (fun i => { g0 with key := { key0 with slot := i } }) }
theorem test_bins_met : lookupN ((boxC 1999 bin0).core core0).bins 3 = some bin0 ∧ (boxC 1999 bin0).launch bin0.launch = some launch0 ∧
    (boxC 1999 bin0).now < bin0.due ∧ bin0.due ≤ (boxC 2000 bin0).now ∧ ¬ (bin0.expired = true ∨ bin0.threads.length = 32) ∧
    ({ bin0 with threads := List.replicate 32 (1, []) } : Bin).threads.length = 32 ∧
    ((boxC 2000 bin0).freeSlots core0).head? = some 1 ∧ launch0.quota ≤ (boxC 2000 bin0).freeRegs core0 ∧
    (boxC 2000 bin0).stopping { key0 with slot := 1 } = none ∧ boxFull.freeSlots core0 = [] := by decide +kernel
theorem test_grows_met : ((boxC 0 bin0).core core0).grows = [(key0, 16)] ∧ (boxC 0 bin0).group key0 = some g0 ∧ g0.key = key0 ∧
    16 - g0.quota ≤ (boxC 0 bin0).freeRegs core0 ∧ boxFull.freeRegs core0 < 2048 - g0.quota ∧
    ({ g0 with slot0 := some { p0 with grows := true } } : Group).slot false = some { p0 with grows := true } := by decide +kernel
theorem test_marks_met : (box g0).group key0 = some g0 ∧ g0.slot false = some p0 ∧ 256 ≤ ({ p0 with aged := 256 } : Path).aged ∧
    p0.issued + 4096 ≤ ({ box g0 with tick := 4096 } : State).tick ∧ p0.issued + 64 ≤ ({ box g0 with tick := 64 } : State).tick ∧
    ({ p0 with boost := true } : Path).boost = true ∧ p0.boost = false ∧ p0.pri ≠ 15 ∧
    (∃ g ∈ (box g0).groups, keyQuad g.key = quad0) ∧ (∀ g ∈ (box g0).groups, keyQuad g.key ≠ { die := 0, quad := 1 }) :=
  ⟨rfl, rfl, by decide, by decide, by decide, rfl, rfl, by decide, ⟨g0, List.mem_cons_self, rfl⟩, by
    intro g hg; rw [List.mem_singleton.1 hg]; decide⟩

/-! ### Queues -/

/-- Host lines that the part owns: those of the ring, the exception ring, WPTR, a segment, a signal, a launch record. -/
def owned : List (Nat × Mesi) :=
  ([0x1000, 0x2000, 0x3000, 0x5000, 0x5040, 0x5080, 0x50C0, 0x6000] ++ (List.range 64).map (fun i => 0x4000 + 64 * i)).map
    (fun a => ((hostBase + a) / 64, .m))
/-- One packet in the ring of queue 0: its header and the cells of its other words. -/
def boxR (q : Queue) (header : Byte) (rest : List (Nat × Byte)) : State :=
  { box g0 with
    queues := [q]
    worlds := [{ world0 with tdi := .run }]
    mem := [(hostBase + 0x1000, 1), (hostBase + 0x2000, header)] ++ rest.map (fun x => (hostBase + x.1, x.2))
    lines := { State.reset.lines with mesi := owned } }
/-- A queue record with RLOG 4, ELOG 3 and EXQ 0x3000, and one whose RLOG is 3. -/
def record0 : BitVec 512 := BitVec.ofNat 512 (0x2000 * 2 ^ 448 + 0x3000 * 2 ^ 384 + 0x1000 * 2 ^ 320 + 4 * 2 ^ 176 + 3 * 2 ^ 172)
def image0 : BootImage := { version := 0, signed := true, digest := 0 }
theorem test_queues_met : (4 ≤ bitsOf record0.toNat 176 5 ∧ bitsOf record0.toNat 176 5 ≤ 16 ∧ 3 ≤ bitsOf record0.toNat 172 4 ∧
      bitsOf record0.toNat 172 4 ≤ 12 ∧ bitsOf record0.toNat 448 64 % 64 = 0 ∧ bitsOf record0.toNat 384 64 % 64 = 0 ∧
      bitsOf record0.toNat 320 64 % 8 = 0) ∧ ¬ 4 ≤ bitsOf (record0 - BitVec.ofNat 512 (2 ^ 176)).toNat 176 5 ∧
    (box g0).queue 65535 = none ∧ ({ State.reset.trust with running := some image0 } : Trust).running ≠ none := by decide +kernel
theorem test_doorbells_met : (boxR queue0 5 []).queue 0 = some queue0 ∧ (boxR queue0 5 []).world queue0.world = some { world0 with tdi := .run } ∧
    queue0.state ≠ 2 ∧ ({ world0 with tdi := .run } : World).accepts = true ∧ ({ world0 with id := 1, tdi := .locked } : World).accepts = false ∧
    3 ∈ ({ queue0 with acks := [3] } : Queue).acks ∧ 4 ∉ ({ queue0 with acks := [3] } : Queue).acks := by decide +kernel
theorem test_destroys_met : (match (changeQueue (boxR { queue0 with ridx := 1 } 5 []) { queue0 with ridx := 1, state := 2 }).queue 0 with
    | some z => z.state == 2 && okAnd (readWidx z (setDoom (changeQueue (boxR { queue0 with ridx := 1 } 5 []) { queue0 with ridx := 1, state := 2 }) 0
        (some { code := -3, next := 1, stop := none, retire := false, bad := false }))) (fun n _ => n == 1)
    | none => false) = true := by decide +kernel
/-- A queue that may start nothing: a change not acknowledged, an abort owed, a barrier's reading under way. -/
theorem test_queues_met_held : ({ queue0 with acks := [3] } : Queue).acks ≠ [] ∧ ({ queue0 with state := 1 } : Queue).state ≠ 0 ∧
    ({ queue0 with owed := [{ pidx := 0, tag := 0, va := 0, code := none, bad := false }] } : Queue).owed ≠ [] ∧
    (∃ p ∈ ({ queue0 with started := [{ pidx := 0, words := [], regions := [], waits := [], launch := none, since := 0, wctDue := some 0
                                        moved := none, reading := true }] } : Queue).started, p.reading = true) := by decide
def polled (q : Queue) : State := (boxR q 5 []).setQueue { q with wake := false, polled := 1 }
theorem test_polls_met : queue0.owed = [] ∧ queue0.doom = none ∧ queue0.held = [] ∧ queue0.halted = [] ∧ (boxR queue0 5 []).xlat.demand = [] ∧
    mayStart (polled queue0) queue0 = true ∧ mayStart (polled queue0) { queue0 with state := 1 } = false ∧
    (∀ h ∈ [(1 : Byte), 2, 3, 4, 5, 6, 15],
      okAnd (nextPacket queue0 ((boxR queue0 h []).setQueue { queue0 with wake := false, polled := 1 }))
        (fun w _ => match w with | some w => pType w == h.toNat | none => false) = true) ∧
    okAnd (nextPacket queue0 ((boxR queue0 0 []).setQueue { queue0 with wake := false, polled := 1 })) (fun w _ => w == none) = true ∧
    (match nextPacket { queue0 with ridx := 2 } (polled queue0) with | .error (.fault _) _ => true | _ => false) = true := by
  decide +kernel
/-- The steps of a packet's start up to its own effect, which `p` looks at. -/
def starts (s : State) (y : Queue) (p : List DWord → Checked → State → Bool) : Bool :=
  mayStart s y && okAnd (nextPacket y s) (fun x s₁ => match x with
    | some w => okAnd (fwReady y.ringCap (y.ring.toNat + 64 * (y.ridx % 2 ^ y.rlog)) s₁) (fun _ s₂ =>
        okAnd (checkPacket y w s₂) (fun r s₃ => match r with
          | .ok c => okAnd ((if pType w = 1 then voidRegions y.world c.regions else pure ()) s₃) (fun _ s₄ =>
              okAnd (retireSlot y w s₄) (fun _ s₅ => (s₄.queue y.id).isSome && (s₅.queue y.id).isSome && p w c s₅))
          | .error _ => false))
    | none => false)
/-- The launch record at 0x6000 of host memory: quota 12, one level of 40 threads in the part, SEGS 0x4000, SPILL. -/
def kernelCells : List (Nat × Byte) :=
  [(0x2011, 0x60), (0x6004, 3), (0x6008, 0x72), (0x600A, 0x28), (0x6031, 0x40), (0x603F, 1)]
theorem test_packets_met_kernel : queue0.barred = none ∧ starts (boxR queue0 1 kernelCells) queue0 (fun w c s₄ =>
    pType w == 1 && c.launch.isSome && (s₄.queue 0).isSome) = true := by
  decide +kernel
theorem test_packets_met_copy : starts (boxR queue0 2 [(0x2011, 0x50), (0x2018, 0x40), (0x2019, 0x50), (0x2020, 1)]) queue0
    (fun w _ _ => pType w == 2) = true := by decide +kernel
theorem test_packets_met_barrier : starts (boxR queue0 3 [(0x2011, 0x50)]) queue0 (fun w _ _ => pType w == 3) = true := by decide +kernel
theorem test_packets_met_signal : starts (boxR queue0 4 [(0x2011, 0x50), (0x2018, 7)]) queue0 (fun w _ s₄ =>
    pType w == 4 && okAnd (readSignal 0 (word w 2) s₄) (fun _ t => okAnd (writeSignal 0 (word w 2) (intOf true 64 (word w 3)) t)
      (fun _ _ => true))) = true := by decide +kernel
theorem test_packets_met_marker : starts (boxR queue0 5 []) queue0 (fun w _ _ => pType w == 5 && word w 2 == 0) = true ∧
    starts (boxR queue0 5 [(0x2011, 0x50)]) queue0 (fun w _ s₄ =>
      pType w == 5 && word w 2 != 0 && okAnd (fwWrite (derive_ 0 (word w 2) 8 8 true) (word w 2) s₄.now 8 s₄) (fun _ _ => true)) = true := by decide +kernel
/-- Started packets: a KERNEL of launch 1 and a COPY, both waiting for time 100; a COPY not yet run; a BARRIER. -/
def pkt (h : DWord) (l : Option Nat) (d : Option Nat) : Packet :=
  { pidx := 0, words := [h, 0, 0x5000, 0x5040, 1, 0, 0, 0], regions := [], waits := [], launch := l, since := 0, wctDue := d
    moved := none, reading := false }
def queueK : Queue := { queue0 with ridx := 1, started := [pkt 1 (some 1) (some 100)] }
def launchE : Launch := { launchP with next := 2, ended := 2 }
def boxE (now : Nat) : State := { boxR queueK 0 [] with now := now, launches := [launchE] }
theorem test_kernel_ends_met : (boxE 100).queue 0 = some queueK ∧ (pkt 1 (some 1) (some 100)).wctDue = some 100 ∧
    pCsig (pkt 1 (some 1) (some 100)).words = 0 ∧ (boxE 100).launch launchE.id = some launchE ∧ launchE.wgCount ≤ launchE.ended ∧
    launchE.dead = false ∧ launchedBy (boxE 100) launchE.id = some (0, pkt 1 (some 1) (some 100)) ∧ (boxE 100).now ≤ 100 ∧
    100 < (boxE 101).now ∧ (∀ x ∈ (boxE 101).queues, x.id ≠ 0 → ∀ r ∈ x.started, r.launch ≠ some launchE.id) ∧
    (∀ r ∈ queueK.started, r.launch = some launchE.id → r.pidx = 0) := by decide +kernel
def queueC (d : Option Nat) : Queue := { queue0 with ridx := 1, started := [pkt 2 none d] }
/-- One whose bytes have moved. -/
def pktM : Packet := { pkt 2 none (some 100) with moved := some 100 }
def queueM : Queue := { queue0 with ridx := 1, started := [pktM] }
theorem test_copy_ends_met : (boxR queueM 0 []).queue 0 = some queueM ∧ startedPacket queueM 0 = some pktM ∧ pType pktM.words = 2 ∧
    pktM.moved ≠ none ∧ pktM.wctDue = some 100 ∧ pCsig pktM.words = 0 ∧
    startedPacket (queueC none) 0 = some (pkt 2 none none) ∧ (pkt 2 none none).wctDue = none ∧ (pkt 2 none none).moved = none ∧
    (pkt 2 none none).regions = [] ∧
    okAnd (copyRun (queueC none) (pkt 2 none none) (boxR (queueC none) 0 [(0x5000, 9)])) (fun _ _ => true) = true := by decide +kernel
/-- A BARRIER on a signal at 0x5000 with VALUE 0, −1 and 1 (its other wait signals read 0). -/
def pktB : Packet := { pkt 3 none (some 0) with words := [3, 0, 0x5000, 0, 0, 0, 0, 0] }
def queueB : Queue := { queue0 with ridx := 1, started := [pktB] }
def minus1 : List (Nat × Byte) := (List.range 8).map (fun i => (0x5000 + i, 0xFF))
theorem test_barrier_ends_met : startedPacket queueB 0 = some pktB ∧ pType pktB.words = 3 ∧ pCsig pktB.words = 0 ∧ pktB.waits = [] ∧
    queueB.haltedAt 0 = false ∧ (readSignals 0 (waitSignals pktB.words) (boxR queueB 0 [])).1 = [.value 0] ∧
    (readSignals 0 (waitSignals pktB.words) (boxR queueB 0 minus1)).1 = [.value (-1)] ∧ firstAbort [.value (-1)] = some (-1) ∧
    (readSignals 0 (waitSignals pktB.words) (boxR queueB 0 [(0x5000, 1)])).1 = [.value 1] ∧ firstAbort [.value 1] = none ∧
    firstFault [.value 1] = none ∧ firstAbort [.fault fault8] = none ∧ firstFault [.fault fault8] = some fault8 := by decide +kernel
/-- What the firmware holds of `box`'s host half: the pages below 0x10000. -/
theorem fw_holds (q : Queue) (h : Byte) (r : List (Nat × Byte)) (va : Nat) (hv : va < 0x10000) (w : Nat) (hw : w = 0)
    (line : lookupN owned (wordLine ((hostBase + va) / 32)) = some .m) : FwHolds (boxR q h r) w va (hostBase + va) := by
  subst hw
  have on : xlatOf (boxR q h r) 0 = 2 ^ 95 + 1 := rfl
  refine ⟨by omega, by rw [on]; decide, ⟨(0, { base := 0, size := 0x10000, frame := 0, r := true, w := true, x := true }), ?_, rfl, rfl, rfl⟩, ?_,
    line, List.not_mem_nil, rfl⟩
  · show [((0 : Nat), _)].find? _ = _
    rw [List.find?_cons_of_pos]
    simp [hv]
  · unfold hostBase; omega
/-- The hypotheses under which a packet with this header is there to start. -/
theorem test_packets_met_start (h : Byte) (r : List (Nat × Byte)) :
    (boxR queue0 h r).queue 0 = some queue0 ∧ mayStart (boxR queue0 h r) queue0 = true ∧ (boxR queue0 h r).xlat.reqs = [] ∧
    queue0.ring.toNat % 64 = 0 ∧ queue0.ring.toNat + 64 * 2 ^ queue0.rlog ≤ 2 ^ 57 ∧ queue0.wptr.toNat % 8 = 0 ∧
    FwHolds (boxR queue0 h r) queue0.world queue0.wptr.toNat (hostBase + 0x1000) ∧
    (∀ i < 8, FwHolds (boxR queue0 h r) queue0.world (queue0.ring.toNat + 64 * (queue0.ridx % 2 ^ queue0.rlog) + 8 * i) (hostBase + 0x2000 + 8 * i)) ∧
    (∀ i < 8, FwHolds (boxR queue0 h r) queue0.world (0x6000 + 8 * i) (hostBase + 0x6000 + 8 * i)) ∧
    (∀ i < 24, FwHolds (boxR queue0 h r) queue0.world (0x5000 + 8 * i) (hostBase + 0x5000 + 8 * i)) ∧
    ∀ i < 1, ∀ j < 128, FwHolds (boxR queue0 h r) queue0.world (0x4000 + 4096 * i + 32 * j) (hostBase + 0x4000 + 32 * j) := by
  have at_ (va : Nat) (hv : va < 0x10000) (line : lookupN owned (wordLine ((hostBase + va) / 32)) = some .m) :=
    fw_holds queue0 h r va hv 0 rfl line
  have many (base n step : Nat) (hs : 0 < step) (hb : base + step * n ≤ 0x10000)
      (line : (List.range n).all (fun i => lookupN owned (wordLine ((hostBase + (base + step * i)) / 32)) == some .m) = true) (i : Nat) (hi : i < n)
      : FwHolds (boxR queue0 h r) 0 (base + step * i) (hostBase + base + step * i) := by
    rw [Nat.add_assoc]
    have := Nat.mul_le_mul_left step (Nat.succ_le_of_lt hi)
    rw [Nat.mul_succ] at this
    exact at_ _ (by omega)
      (by simpa using List.all_eq_true.1 line i (List.mem_range.2 hi))
  refine ⟨rfl, rfl, rfl, by decide, by decide, by decide, at_ 0x1000 (by decide) (by decide), ?_, ?_, ?_, ?_⟩
  · exact many 0x2000 8 8 (by decide) (by decide) (by decide +kernel)
  · exact many 0x6000 8 8 (by decide) (by decide) (by decide +kernel)
  · exact many 0x5000 24 8 (by decide) (by decide) (by decide +kernel)
  · intro i hi
    have : i = 0 := by omega
    subst this
    exact many 0x4000 128 32 (by decide) (by decide) (by decide +kernel)
/-- The words of the packets there, and the launch record. -/
theorem test_packets_met_words : readLE (boxR queue0 1 kernelCells).mem (hostBase + 0x1000) 8 = 1 ∧
    packetBad [1, 0, 0x6000, 0, 0, 0, 0, 0] = false ∧ pCsig [1, 0, 0x6000, 0, 0, 0, 0, 0] = 0 ∧
    (List.range 8).map (fun i => BitVec.ofNat 64 (readLE (boxR queue0 1 kernelCells).mem (hostBase + 0x2000 + 8 * i) 8)) = [1, 0, 0x6000, 0, 0, 0, 0, 0] ∧
    (packetPointers [1, 0, 0x6000, 0, 0, 0, 0, 0]).any pointerBad = false ∧
    (let l : Launch := { launch0 with record := BitVec.ofNat 512 (readLE (boxR queue0 1 kernelCells).mem (hostBase + 0x6000) 64) }
     l.rtab = 0 ∧ launchBad l = false ∧ (launchPointers l).any pointerBad = false ∧ l.segs = 0x4000 ∧ l.nseg = 1 ∧ pointerBad (l.segs, 4096 * l.nseg, 4096) = false) ∧
    (∀ w ∈ ([[2, 0, 0x5000, 0x5040, 1, 0, 0, 0], [3, 0, 0, 0, 0, 0, 0, 0], [4, 0, 0x5000, 7, 0, 0, 0, 0], [5, 0, 0, 0, 0, 0, 0, 0]] : List (List DWord)),
      packetBad w = false ∧ pCsig w = 0 ∧ (packetPointers w).any pointerBad = false) ∧ waitSignals [3, 0, 0, 0, 0, 0, 0, 0] = [] := by
  decide +kernel
/-- A notice and a record that needs an answer, held; the ring's slot free and taken. -/
def rec0 (k : Byte) : ExRecord := { kind := k, code := 1, pidx := 0, qtag := 0, addr := 0, pc := 0, lmask := 1 }
def queueH (k : Byte) : Queue := { queue0 with held := [rec0 k] }
theorem test_records_met : (queueH 1).held = [rec0 1] ∧ (boxR (queueH 1) 0 []).queue 0 = some (queueH 1) ∧ needsAnswer (rec0 1).kind = true ∧
    needsAnswer (rec0 5).kind = false ∧
    (∀ k ∈ [(1 : Byte), 5], okAnd (writeRecord { queueH k with held := [] } (rec0 k)
      ((boxR (queueH k) 0 []).setQueue { queueH k with held := [] })) (fun b _ => b) = true) ∧
    (∀ k ∈ [(1 : Byte), 5], okAnd (writeRecord { queueH k with held := [] } (rec0 k)
      ((boxR (queueH k) 0 [(0x3000, 4)]).setQueue { queueH k with held := [] })) (fun b _ => !b) = true) := by decide +kernel
/-- A halted queue whose record 0 has been answered: RESUME, SKIP, ABORT with code −1; for packet 0 not started and started. -/
def queueA : Queue := { queue0 with state := 1, halted := [(0, 0)], exNext := 1 }
/-- What the reading of record 0's answer gives, and that it leaves the queue as it was. -/
def answers (s : State) (y : Queue) (x : Nat × Int) (p : State → Bool) : Bool :=
  let r := readAnswer s y 0
  r.1 == some x && r.2.queue 0 == some y && p r.2
theorem test_answers_met : (boxR queueA 5 []).queue 0 = some queueA ∧ queueA.state = 1 ∧ lookupN queueA.halted 0 = some 0 ∧
    (∀ x ∈ queueA.halted, x.1 = 0) ∧ (∀ r ∈ queueA.held, needsAnswer r.kind = false) ∧ (boxR queueA 5 []).xlat.demand = [] ∧
    answers (boxR queueA 5 [(0x303F, 1)]) queueA (1, -1) (fun t => t.xlat.demand.isEmpty) = true ∧ answers (boxR queueA 5 [(0x303F, 2)]) queueA (2, -1) (fun t => t.xlat.demand.isEmpty) = true ∧
    answers (boxR queueA 5 [(0x303F, 3)]) queueA (3, -1) (fun t => t.xlat.demand.isEmpty) = true ∧ startedPacket queueA 0 = none ∧ queueA.owed = [] ∧
    queueA.doom = none ∧
    okAnd (readPacket queueA 0 (readAnswer (boxR queueA 5 [(0x303F, 3)]) queueA 0).2) (fun w s₁ => pCsig w == 0 &&
      okAnd (retireSlot queueA w s₁) (fun _ _ => true)) = true ∧
    startedPacket { queueA with ridx := 1, started := [pktB] } 0 = some pktB := by decide +kernel
def demand0 : Demand := { world := 0, page := 7, queue := 0, n := some 0, aborted := false }
theorem test_demand_answers_met : lookupN queue0.halted 0 = none ∧ (∀ a ∈ [1, 2, 3], let s := boxR queue0 5 [(0x303F, BitVec.ofNat 8 a)]
    answers { s with xlat := { s.xlat with demand := [demand0] } } queue0 (a, -1) (fun t =>
      t.xlat.demand.find? (fun d => d.queue == 0 && d.n == some 0 && !d.aborted) == some demand0) = true) := by decide +kernel

/-! ### Teardown, pre-emption, promotion -/

def worldD : World := { world0 with dying := some 5 }
def boxDy (w : World) (now : Nat) : State := { box g0 with now := now, worlds := [w], queues := [queueK] }
theorem test_teardown_met : (boxDy worldD 6).world worldD.id = some worldD ∧ worldD.failed = false ∧ worldD.dying = some 5 ∧
    (boxDy worldD 1000004).now < 5 + 1000000 ∧ 5 + 1000000 ≤ (boxDy worldD 1000005).now ∧
    worldGone (boxDy { worldD with failed := true } 6) 0 = false ∧
    worldGone { boxDy { worldD with failed := true } 6 with groups := [] } 0 = true := by decide +kernel
/-- A fatal fault of the group of a launch, and its notice when the teardown is at its end. -/
def rec4 : ExRecord := { kind := 4, code := 2, pidx := 0, qtag := 0, addr := 0, pc := 0, lmask := 1 }
theorem test_notices_met : let w : World := { worldD with failed := true, notices := [(some 0, rec4)] }
    let s : State := { boxDy w 6 with groups := [] }
    s.world w.id = some w ∧ w.failed = true ∧ w.dying = some 5 ∧ worldGone s w.id = true ∧ (some 0, rec4) ∈ w.notices ∧
    s.queue 0 = some queueK ∧ (box g0).launch g0.launch = some launch0 ∧ (box g0).group g0.key = some g0 := by decide +kernel
/-- The watchdog time, 10 s: the last moment at which a packet is not hung, and the first at which it is. -/
theorem test_hang_met : startedPacket queueK (pkt 1 (some 1) (some 100)).pidx = some (pkt 1 (some 1) (some 100)) ∧
    (boxDy world0 10000000000).now ≤ (pkt 1 none none).since + (boxDy world0 0).trust.config.watchdog ∧
    (pkt 1 none none).since + (boxDy world0 0).trust.config.watchdog < (boxDy world0 10000000001).now ∧
    (boxDy world0 0).trust.config.watchdog ≠ 0 := by decide +kernel
/-- Quad 0 of die 0, not yet stopping, in stage 1 and in stage 3; its group stopped. -/
def part0 (stage : Nat) : Partition := { id := 0, die := 0, quads := [0], worlds := [0], boundary := false, started := [], stage := stage, deadline := 2000 }
def region1 (brute : Nat) : BitVec 512 := BitVec.ofNat 512 (brute + 8 * 2 ^ 160 + 8 * 2 ^ 128)
def gZ (st : SaveStage) : Group := { g0 with stage := st, region := some 0 }
def boxZ (n brute : Nat) (st : SaveStage) : State :=
  { box (gZ st) with parts := [part0 n], launches := [{ launch0 with table := some [region1 brute] }] }
theorem test_preemption_met : ((boxZ 0 0 .running).part 0).stage = 0 ∧ (boxZ 0 0 .running).inPart (part0 0) ≠ [] ∧
    (State.reset.inPart (State.reset.part 0)) = [] ∧
    (∀ g ∈ (boxZ 0 0 .running).groups, ∀ h ∈ (boxZ 0 0 .running).groups, h.key = g.key → h = g) :=
  ⟨by decide, by decide +kernel, by decide, by
    intro g hg h hh _; rw [List.mem_singleton.1 hg, List.mem_singleton.1 hh]⟩
/-- A clock, and the bound of 2,304 of its cycles: at 600 MHz 3,840 ns, and at 2,100 MHz less than 2 us. -/
theorem test_preemption_met_clock : (∀ q ∈ (part0 0).ids, 0 < (boxZ 0 0 .running).clock q) ∧ (boxZ 0 0 .running).clock quad0 = 2100 ∧
    ({ boxZ 0 0 .running with quads := [{ Quad.fresh quad0 with cls := .floor }] } : State).clock quad0 = 600 ∧
    2304000 ≤ 3840 * 600 ∧ (3840 - 1) * 600 < 2304000 ∧ 2304000 ≤ 2000 * 2100 := by decide +kernel
/-- A group between a prefix and its target. -/
theorem test_preemption_met_unit : gI.inUnit = true ∧ g0.inUnit = false := by decide +kernel
theorem test_exit_routines_met : (boxZ 1 0 (.stopped false)).group key0 = some (gZ (.stopped false)) ∧
    (boxZ 1 0 (.stopped false)).stopping key0 = some (part0 1) ∧ (part0 1).stage = 1 ∧
    stopped (boxZ 1 0 (.stopped false)) (part0 1) = true ∧ bruteSaved (boxZ 1 1 (.stopped false)) (gZ (.stopped false)) = true ∧
    bruteSaved (boxZ 1 0 (.stopped false)) (gZ (.stopped false)) = false ∧
    regionEntry (boxZ 1 0 (.stopped false)) (gZ (.stopped false)) = some (region1 0) := by decide +kernel
/-- An exit routine at its deadline, 2,000, and before. -/
theorem test_overrun_met : (box gX).group key0 = some gX ∧ gX.routine = .exit snap0 2000 ∧ ({ box gX with now := 1999 } : State).now < 2000 ∧
    2000 ≤ ({ box gX with now := 2000 } : State).now := ⟨rfl, rfl, by decide, by decide⟩
theorem test_drain_met : ((boxZ 1 0 (.saved true)).part 0).stage = 1 ∧
    (∀ g ∈ (boxZ 1 0 (.saved true)).inPart (part0 1), ∃ b, g.stage = .saved b) ∧
    (∀ c ∈ (boxZ 1 0 (.saved true)).partCores (part0 1), ((boxZ 1 0 (.saved true)).core c).promo = none) ∧
    okAnd (((boxZ 1 0 (.saved true)).partCores (part0 1)).forM drainCore (boxZ 1 0 (.saved true))) (fun _ _ => true) = true ∧
    stopped (boxZ 1 0 (.saved true)) (part0 1) = true ∧ ((boxZ 3 0 (.saved true)).part 0).stage = 3 ∧
    (part0 3).quads.filterMap (freeBay ((boxZ 3 0 (.saved true)).die 0)) = [0] ∧
    (part0 3).quads.filterMap (freeBay { Die.fresh 0 with bays := [(0, 1), (1, 2)] }) = [] ∧
    freeBay { Die.fresh 0 with bays := [(0, 1)] } 0 = some 1 := by
  refine ⟨by decide, ?_, by decide +kernel, by decide +kernel, by decide +kernel, by decide, by decide +kernel, by decide, by decide⟩
  intro g hg
  have : g = gZ (.saved true) := List.mem_singleton.1 (List.mem_filter.1 hg).1
  exact ⟨true, by rw [this]; rfl⟩
/-- An image of quad 0 resumed on quad 2, and a map that takes a leader to a follower. -/
def img0 : Image :=
  { id := 6, part := 0, die := 0, groups := [gZ (.saved false)], wgs := [wg0], quads := [Quad.fresh quad0], cores := [], bays := [(1, 1)], keys := []
    fault := none, moved := false }
def boxI : State := { boxZ 0 0 .running with groups := [], wgs := [], images := [img0], dies := [{ Die.fresh 0 with bays := [(1, 6)], written := [(1, 1)] }] }
theorem test_resumption_met : boxI.images.find? (fun i => i.id == img0.id) = some img0 ∧ mapOk img0 [(0, 1)] = false ∧
    mapOk img0 [(0, 2)] = true ∧
    img0.quads.all (fun q => quadFree q (boxI.quad { q.id with quad := mapQuad [(0, 2)] q.id.quad })) = true ∧
    img0.coreIds.all (coreFree boxI img0 [(0, 2)]) = true ∧ imageFault boxI img0 = none ∧ img0.fault = none ∧
    imageFault boxI { img0 with bays := [(1, 2)] } = some cIntegrity ∧ imageFault boxI { img0 with keys := [(1, 1)] } = some cIntegrity ∧
    imageFault boxI { img0 with fault := some cMemError } = some cMemError ∧
    img0.coreIds.all (coreFree { boxI with gated := (List.range 64).map (fun i => .bank 0 (mapCore [(0, 2)] core0).core i) } img0 [(0, 2)]) = false ∧ (img0.groups.map (fun g => mapKey [(0, 2)] g.key)).Nodup ∧
    (img0.groups.all (fun g => g.withdrawn.isEmpty)) = true ∧ regionEntry boxI (gZ (.saved false)) = some (region1 0) := by
  decide +kernel
/-- A request at a core, the promotion of its world in progress, and its log entry. -/
def log0 : LogEntry := { world := 0, sector := 0, wmask := 1 }
def req1 : PromoReq := { world := 0, scope := .pkg, who := some (key0, 0) }
def promo0 : Promo :=
  { world := 0, scope := .pkg, entries := [log0], since := 10, joined := [(key0, 0)], timedOut := false, time := none }
def coreV (p : Option Promo) (log : List LogEntry) : Core := { Core.fresh core0 with log := log, promo := p, waiting := [req1] }
def boxV (p : Option Promo) (now : Nat) : State := { box g0 with now := now, cores := [coreV p [log0]] }
theorem test_promotions_met : ((boxV none 1).core core0).promo = none ∧ ((boxV none 1).core core0).waiting = [req1] ∧
    ((coreV none []).log = [] ∧ [log0].filter (fun e => e.world == req1.world) ≠ []) ∧
    okAnd (pushEntries core0 [log0] ((boxV none 1).setCore { coreV none [log0] with waiting := [], promo := some promo0 })) (fun _ _ => true) = true ∧
    ((boxV (some promo0) 1).core core0).promo = some promo0 ∧ (boxV (some promo0) 1).world promo0.world = some world0 ∧
    (coreV (some promo0) []).waiting.find? (fun x => x.world == promo0.world) = some req1 ∧
    okAnd (pushEntries core0 promo0.entries (boxV (some promo0) 0)) (fun _ t => decide (t.now ≤ (t.core core0).cw)) = true ∧
    ({ promo0 with time := some 1 } : Promo).time = some 1 ∧ (boxV none 1).now ≤ 1 ∧ 1 < (boxV none 2).now ∧
    (boxV (some promo0) 4009).now < promo0.since + 4000 ∧ promo0.since + 4000 ≤ (boxV (some promo0) 4010).now := by decide +kernel
def promoting0 : Promoting := { since := 0, waiting := [core0], latest := 0 }
theorem test_receipt_met : (grp { p0 with promo := some promoting0 } [] []).slot false = some { p0 with promo := some promoting0 } ∧
    core0 ∈ promoting0.waiting ∧
    [(key0, p0.id, 7)].find? (fun (a : Key × Int × Nat) => a.1 == key0) = some (key0, p0.id, 7) := by decide

/-! ### Collectives -/

/-- A group of the two dies 0 and 1 in world 0; BARRIERs posted by both. -/
def collGroup0 : CollGroup := { id := 3, world := 0, members := [(0, 0), (0, 1)], posted := [(0, 1), (1, 1)], gone := [], there := [] }
def collOp (r st : Nat) : CollOp :=
  { world := 0, desc := BitVec.ofNat 512 (6 * 2 ^ 256 + 3 * 2 ^ 192), group := 3, rank := r, seq := 0, q := 0, state := st, cause := 0, fcode := 0
    by_ := issuer0, since := 0, due := 100 }
def boxG (ops : List (Nat × CollOp)) (now : Nat) : State :=
  { box g0 with now := now, colls := [collGroup0], dies := ops.map (fun x => { Die.fresh x.1 with coll := [(0, x.2)] }) }
theorem test_collective_words_met : isVec (95 + 29 : Code) = false ∧ isInt32 (c0.tag 100) = true ∧ c0.takes = true ∧ c0.g.single = none ∧
    collOf (box g0) 0 0 (c0.val 100 0) = none ∧ collOf (boxG [(0, collOp 0 3)] 0) 0 0 0 = some (0, collOp 0 3) ∧
    (c0.val 100 0).toNat % 64 = 0 ∧ windowFor (box g0) 0 0 (c0.val 100 0).toNat 64 = some (wg0, 0) ∧
    okAnd (releaseActions c0 .pkg (box g0)) (fun _ s₁ => (lookupN (s₁.die 0).coll 0).isNone &&
      okAnd (readWindow c0.g (c0.val 100 0).toNat 64 s₁) (fun _ _ => true)) = true :=
  by decide +kernel
theorem test_collective_words_met_calm : Calm (box g0) c0 ∧ lookupN ((box g0).die 0).coll 0 = none :=
  ⟨calm g0 c0 ⟨rfl, rfl, rfl, rfl⟩, by decide⟩
def barrierDesc : Nat := 6 * 2 ^ 256 + 3 * 2 ^ 192
theorem test_collective_checks_met : (box g0).coll 0 (bitsOf barrierDesc 192 16) = none ∧
    (boxG [] 0).coll 0 (bitsOf barrierDesc 192 16) = some collGroup0 ∧ collGroup0.rankOf 0 0 = some 0 ∧ collGroup0.rankOf 0 2 = none ∧
    6 < bitsOf (barrierDesc + 2 ^ 256) 256 4 ∧ bitsOf (barrierDesc + 3 * 2 ^ 260) 260 2 = 3 ∧
    collGroup0.members.length ≤ bitsOf (barrierDesc + 2 * 2 ^ 208) 208 16 ∧ kValid barrierDesc 2 0 = true ∧ collGroup0.gone = [] := by
  decide +kernel
theorem test_collective_ends_met : lookupN ((boxG [(0, collOp 0 2)] 100).die 0).coll 0 = some (collOp 0 2) ∧
    (boxG [] 100).now ≤ (collOp 0 2).due ∧ (collOp 0 2).due < (boxG [] 101).now ∧
    (parties (boxG [(0, collOp 0 1)] 0) collGroup0 (collOp 0 1)).all Party.ready = false ∧
    (parties (boxG [(0, collOp 0 1), (1, collOp 1 1)] 0) collGroup0 (collOp 0 1)).all Party.ready = true ∧
    (parties (boxG [(0, collOp 0 1), (1, collOp 1 1)] 0) collGroup0 (collOp 0 1)).all (Party.agrees (collOp 0 1)) = true ∧
    (parties (boxG [(0, collOp 0 1), (1, { collOp 1 1 with q := 5 })] 0) collGroup0 (collOp 0 1)).all (Party.agrees (collOp 0 1)) = false ∧
    okAnd (collRun (parties (boxG [(0, collOp 0 1), (1, collOp 1 1)] 0) collGroup0 (collOp 0 1)) (collOp 0 1)
      (boxG [(0, collOp 0 1), (1, collOp 1 1)] 0)) (fun n _ => n.isSome) = true := by decide +kernel
/-- A member of another package, before and after the fabric tells of its post, which agrees or does not. -/
def collGroup1 : CollGroup := { collGroup0 with members := [(0, 0), (9, 0)] }
def away (q : Nat) : RemotePost := { rank := 1, seq := 0, desc := (collOp 0 1).desc, q := q, done := 50 }
def boxF1 : State := { boxG [(0, collOp 0 1)] 0 with colls := [collGroup1] }
theorem test_collective_ends_met_away :
    (parties boxF1 collGroup1 (collOp 0 1)).all Party.ready = false ∧
    (∀ q ∈ [0, 5], ((notePosts boxF1 (collOp 0 1) [away q]).coll 0 3).any (fun k =>
      let ps := parties (notePosts boxF1 (collOp 0 1) [away q]) k (collOp 0 1)
      ps.all Party.ready && (ps.all (Party.agrees (collOp 0 1)) == (q == 0)) &&
      (!(q == 0) || okAnd (collRun ps (collOp 0 1) boxF1) (fun n _ => n.isSome))) = true) ∧
    (boxF1.coll 0 3) = some collGroup1 ∧ notePosts boxF1 (collOp 0 1) [] = boxF1 := by decide +kernel
/-- What is read and where it goes: SRC 0x40 and DST 0x80 of the device half of world 1, two elements of four bytes. -/
def collR (r : Nat) (op : Nat) : CollOp := { collOp r 1 with
  world := 1, by_ := { issuer0 with world := 1 }
  desc := BitVec.ofNat 512 (2 ^ 56 + 0x40 + (2 ^ 56 + 0x80) * 2 ^ 64 + 2 * 2 ^ 128 + op * 2 ^ 256 + 3 * 2 ^ 192 + 3 * 2 ^ 264) }
def partyR (op r : Nat) : Party := { rank := r, here := some (r, 0, collR r op), away := none, pkg := 0, die := r }
def boxCR : State := { boxX with
  dies := []
  mem := [(0x1800, 1), (0x1801, 0x20), (0x2000, 1), (0x2001, 0x30), (0x3000, 1), (0x3001, 0x40), (0x4000, 0x3F)] }
theorem test_collective_moves_met : (∀ op ∈ [0, 1, 2, 3, 4, 5, 6], ([partyR op 0].map (fun p => p.rank) = List.range 1) ∧
      bitsOf (collR 0 op).desc.toNat 208 16 < 1 ∧ bitsOf (collR 0 op).desc.toNat 256 4 = op ∧
      elemBytes (bitsOf (collR 0 op).desc.toNat 264 8) = some 4 ∧ bitsOf (collR 0 op).desc.toNat 128 40 = 2 ∧
      (∀ i < 2, okAnd ((partyR op 0).read 4 i boxCR) (fun v s => v == 0 && decide (s = boxCR)) = true)) ∧
    okAnd (translate (collR 0 0).asker (2 ^ 56 + 0x44) wantRead boxCR) (fun p t =>
      okAnd (atPlace p (engineRead 0 p.home 4) t) (fun _ _ => true)) = true ∧
    (2 ^ 56 + 0x44) % 32 + 4 ≤ 32 ∧ ¬ (2 ^ 56 + 0x5E) % 32 + 4 ≤ 32 ∧
    okAnd (collPlace (collR 0 0) (2 ^ 56 + 0x84) 4 7 boxCR) (fun ps _ =>
      ps.length == 1 && okAnd (({ dst := partyR 0 0, off := 1, xs := [7] } : Put).write 0 4 ps boxCR) (fun _ _ => true) &&
      ps.all (fun y => !isProtected boxCR (32 * (y.1.home / 32)) && decide (y.1.home % 32 + y.2.1 ≤ 32))) = true ∧
    memoryWf boxCR.mem = true ∧ (fmtF32.decode fmtF32.nan).isNan = true ∧
    ({ dst := { partyR 0 1 with here := none, pkg := 9 }, off := 0, xs := [7] } : Put).dst.here = none := by decide +kernel
/-- The member of rank 1 has not posted; both have, and nothing has moved for 1 ms; 1 ms is not over. -/
theorem test_no_progress_met : (boxG [(0, collOp 0 1)] 1000000).colls[0]? = some collGroup0 ∧ (collOp 0 1).includes 1 = true ∧
    (collOp 0 1).since + 1000000 ≤ (boxG [] 1000000).now ∧ (boxG [] 999999).now < (collOp 0 1).since + 1000000 ∧
    (∃ p ∈ parties (boxG [(0, collOp 0 1)] 1000000) collGroup0 (collOp 0 1), p.rank = 1 ∧ p.ready = false) ∧
    ((parties (boxG [(0, collOp 0 1), (1, collOp 1 1)] 1000000) collGroup0 (collOp 0 1)).all Party.ready = true ∧
      ∀ p ∈ parties (boxG [(0, collOp 0 1), (1, collOp 1 1)] 1000000) collGroup0 (collOp 0 1), ∀ x, p.here = some x →
        x.2.2.since + 1000000 ≤ 1000000) ∧
    lookupN ((boxG [(0, collOp 0 1)] 0).die 0).coll 0 = some (collOp 0 1) := by
  refine ⟨rfl, by decide +kernel, by decide, by decide, by decide +kernel, ⟨by decide +kernel, ?_⟩, by decide +kernel⟩
  intro p hp x hx
  have all : (parties (boxG [(0, collOp 0 1), (1, collOp 1 1)] 1000000) collGroup0 (collOp 0 1)).all (fun p =>
    p.here.all (fun x => decide (x.2.2.since + 1000000 ≤ 1000000))) = true := by decide +kernel
  have := List.all_eq_true.1 all p hp
  rw [hx] at this
  simpa using this
/-- A member of the group that has gone, and a record with a reserved bit. -/
theorem test_collective_checks_met_gone : (∃ y ∈ ({ collGroup0 with gone := [1] } : CollGroup).gone, (2 ≤ 6 ∨ y = 0)) ∧
    (boxG [] 0).coll 0 3 = some collGroup0 ∧ bitsOf (barrierDesc + 2 ^ 272) 272 240 ≠ 0 ∧ bitsOf barrierDesc 272 240 = 0 ∧
    bitsOf barrierDesc 224 32 = 0 := by decide +kernel

/-! ### Power, the meridian, trust -/

theorem test_power_met : hasBit (0x40000001 : Word) 30 = true ∧ 1 ≤ bitsOf (0x40000001 : Word).toNat 0 4 ∧
    bitsOf (0x40000008 : Word).toNat 0 4 ≤ 8 ∧ hasBit (monitorOf State.reset 0 0).ctl 30 = false ∧ hasBit (0x80000000 : Word) 31 = true ∧
    (([] : List (Nat × Nat)).map (fun x => x.2)).foldl (· + ·) 0 ≤ 50 ∧ 31 < 32 ∧ 7 < 8 := by decide
/-- In recovery and not; 45 of the 50 ns of a microsecond used, the microsecond over; a monitor of source 6 that is on, and one that is off. -/
def monitor6 (on : Nat) : Monitor := { monitorOf State.reset 0 0 with ctl := BitVec.ofNat 32 (2 ^ 30 * on + 6) }
theorem test_power_met_modes : State.reset.trust.recovery = false ∧ ({ State.reset.trust with recovery := true } : Trust).recovery = true ∧
    (([(1, 45)] : List (Nat × Nat)).filter (fun x => decide (1000 < x.1 + 1000))).map (fun x => x.2) = [45] ∧ min 10 (50 - 45) < 10 ∧
    (([(1, 45)] : List (Nat × Nat)).filter (fun x => decide (1001 < x.1 + 1000))) = [] ∧ min 10 (50 - 0) = 10 ∧
    hasBit (monitor6 1).ctl 30 = true ∧ bitsOf (monitor6 1).ctl.toNat 0 4 = 6 ∧ hasBit (monitor6 0).ctl 30 = false ∧
    lookupN (({ State.reset with dies := [{ Die.fresh 0 with monitors := [(0, monitor6 1)] }] } : State).die 0).monitors 0 = some (monitor6 1) := by
  decide +kernel
/-- The second of two missed surveys and the third; the 31st and 32nd of a silent member; a joiner at its time. -/
theorem test_meridian_met : (State.reset.power.group false).members.find? (fun m => m.id == 31) = some (Member.fresh 31) ∧
    (Member.fresh 31).state ≠ .evicted ∧ (Member.fresh 31).counts = true ∧ (Member.fresh 31).beat = false ∧
    ({ Member.fresh 31 with missed := 1 } : Member).missed < 2 ∧ 2 ≤ ({ Member.fresh 31 with missed := 2 } : Member).missed ∧
    31 ≤ ({ Member.fresh 31 with missed := 31, state := .silent } : Member).missed ∧
    ({ State.reset with now := 99999 } : State).now < (State.reset.power.survey + 1) * 100000 ∧
    (State.reset.power.survey + 1) * 100000 ≤ ({ State.reset with now := 100000 } : State).now ∧
    (∀ m ∈ State.reset.power.dies.members, m.state ≠ .silent) ∧ (∀ m ∈ State.reset.power.fabric.members, m.id = 5 → m.state = .evicted) := by
  decide +kernel
theorem test_meridian_met_members : ({ State.reset.power with fabric := { State.reset.power.fabric with members := [Member.fresh 5] } } : Power).fabric.members.find?
      (fun m => m.id == 5) = some (Member.fresh 5) ∧ (Member.fresh 5).state = .active ∧ 600 ≤ 600 ∧ 2100 ≤ 2100 ∧
    ({ Member.fresh 5 with announce := [(900, 7)] } : Member).announce = [(900, 7)] := by decide
/-- This package in a fabric group, ACTIVE, leaving, and in none; an announcement at the earliest time and a nanosecond before; a
group of which every member has been heard, and one with a SILENT member; rises that are due and that are not. -/
def fabric0 (st : MemberState) : Power := { State.reset.power with
  self := 5, fabric := { members := [{ Member.fresh 5 with state := st }, { Member.fresh 6 with limit := 600, beat := true }], ceiling := 500, rise := [(100000, 600)] } }
theorem test_meridian_met_fabric : ((fabric0 .active).fabric.members.map (fun m => m.id)).Nodup ∧
    ((fabric0 .active).mine.map (fun m => m.state)) = some .active ∧ ((fabric0 .leaving).mine.map (fun m => m.state)) = some .leaving ∧
    State.reset.power.mine = none ∧ ((fabric0 .active).fabric.members.find? (fun m => m.id == 5)).isSome = true ∧
    (Member.fresh 5).counts = true ∧ (0 + 1) * 100000 + 200000 ≤ 300000 ∧ ¬ (0 + 1) * 100000 + 200000 ≤ 299999 ∧ roundLimit 1000 < 2100 ∧
    (∀ m ∈ (fabric0 .leaving).fabric.members, m.state ≠ .silent ∧ (m.state = .active → m.beat = true)) ∧
    (fabric0 .leaving).fabric.ceiling < ((fabric0 .leaving).fabric.surveyed true 100000).least ∧
    (∃ m ∈ (fabric0 .silent).fabric.members, m.state = .silent) ∧ (∃ r ∈ (fabric0 .active).fabric.rise, r.1 ≤ 100000) ∧
    (∀ r ∈ (fabric0 .active).fabric.rise, 99999 < r.1) ∧
    (∃ m, (fabric0 .active).fabric.members.find? (fun m => m.id == 5) = some m ∧ m.state = .active) ∧
    (∃ m, (fabric0 .leaving).fabric.members.find? (fun m => m.id == 5) = some m ∧ m.state ≠ .active) ∧
    (∃ m ∈ (fabric0 .active).fabric.members, m.id = 5 ∧ m.state ≠ .evicted) := by
  refine ⟨by decide, by decide, by decide, by decide, by decide, rfl, by decide, by decide, by decide, by decide, by decide +kernel,
    by decide, by decide, by decide, ⟨_, rfl, rfl⟩, ⟨_, rfl, by decide⟩, by decide⟩
/-- The responder with its negotiation done and a session that is not yet secured. -/
def sess0 : Session := { id := 0, secured := false, keyNo := 0 }
def trust0 : Trust := { State.reset.trust with running := some image0, versioned := true, negotiated := true, sessions := [sess0] }
def boxT0 (t : Trust) : State := { box g0 with trust := t }
theorem test_spdm_met : State.reset.trust.running = none ∧ trust0.running ≠ none ∧ State.reset.trust.versioned = false ∧
    State.reset.trust.negotiated = false ∧ trust0.leaf < 1048576 ∧ ({ trust0 with leaf := 1048575 } : Trust).leaf < 1048576 ∧
    1048576 ≤ ({ trust0 with leaf := 1048576 } : Trust).leaf ∧ trust0.sessions.length < 16 ∧
    16 ≤ ({ trust0 with sessions := List.replicate 16 sess0 } : Trust).sessions.length ∧ (measurement (boxT0 trust0) 1).isSome = true ∧
    sessionOf (boxT0 trust0) 1 = none ∧ sessionOf (boxT0 trust0) 0 = some sess0 ∧
    sessionOf (boxT0 { trust0 with sessions := [{ sess0 with secured := true }] }) 0 = some { sess0 with secured := true } := by
  decide +kernel
def world2 (t : Tdi) : World := { world1 with tdi := t, secrets := [3], page := 0x10000 }
def boxU (t : Tdi) : State := { boxT0 { trust0 with sessions := [{ sess0 with secured := true }] } with worlds := [world0, world2 t] }
theorem test_interfaces_met : (∀ t ∈ [Tdi.unlocked, .locked, .run, .error], (boxU t).world (world2 t).id = some (world2 t)) ∧
    (world2 .run).id ≠ 0 ∧ memoryWf (boxU .run).mem = true ∧ (boxU .run).trust.running ≠ none ∧ (boxU .run).trust.negotiated = true ∧
    sessionOf (boxU .run) 0 = some { sess0 with secured := true } ∧ 15 < 16 ∧ ([9] : List Byte).length ≤ 4096 ∧
    3 ∈ (world2 .run).secrets ∧ 15 ∉ (world2 .run).secrets ∧ (boxU .run).trust.debugOpen = true ∧ (boxU .run).scrubs = [] := by
  decide +kernel
/-- The page of world 1's secrets in a protected granule that it owns; a reset under way, with aborts still to make and without. -/
def boxSec (t : Tdi) : State := { boxU t with
  trust := { (boxU t).trust with config := { (boxU t).trust.config with protect := [(0x10000, 0x10000)] } }
  dies := [{ Die.fresh 0 with owners := [(1, 1)] }] }
def queueD (d : Option Doom) : Queue := { queue0 with world := 1, doom := d }
def doom0 : Doom := { code := -4, next := 0, stop := none, retire := false, bad := false }
theorem test_secrets_met : let at_ := (world2 .run).page + 4096 * 15
    at_ % 4096 = 0 ∧ isProtected (boxSec .run) at_ = true ∧ isProtected (boxSec .run) (at_ + 4095) = true ∧
    granuleOwner (boxSec .run) at_ = (world2 .run).id ∧ isProtected (boxSec .run) ((world2 .run).page - 1) = false ∧
    (∀ k ∈ (boxSec .run).lines.plain, k / 128 ≠ at_ / 4096) ∧ memoryWf (boxSec .run).mem = true ∧
    (boxSec .run).world 1 = some (world2 .run) ∧ (world2 .run).resetting = none ∧
    ({ world2 .run with resetting := some 5 } : World).resetting = some 5 ∧ (∀ y ∈ (boxSec .run).queues, y.world ≠ 1) ∧
    abortsOver { boxSec .run with queues := [queueD (some doom0)] } 1 = false ∧
    abortsOver { boxSec .run with queues := [queueD none] } 1 = true ∧ ¬ 5 + 100000000 ≤ ({ boxSec .run with now := 100000004 } : State).now ∧
    5 + 100000000 ≤ ({ boxSec .run with now := 100000005 } : State).now := by decide +kernel
def cfg0 : BootConfig := { State.reset.trust.config with signed := true }
theorem test_boot_met : image0.signed = true ∧ State.reset.trust.rollback ≤ image0.version ∧ cfg0.signed = true ∧
    ({ State.reset.trust with rollback := 1 } : Trust).rollback > image0.version ∧
    ({ State.reset.trust with recovery := true } : Trust).recovery = true ∧ (boxT0 trust0).trust.running = some image0 ∧
    63 < 64 ∧ (boxT0 trust0).world 63 = none ∧ (boxDy { world0 with failed := true } 0).world 0 = some { world0 with failed := true } ∧
    ({ world0 with failed := true } : World).dying = none := by decide +kernel
/-- Records whose carve-outs have room (more than a quarter of the protected range) and have not; the flash as made and as committed. -/
theorem test_boot_met_flash : carveOk cfg0 = true ∧ carveOk { cfg0 with protect := [(0, 0x40000)], carve := [(0x40000, 0x10001)] } = true ∧
    carveOk { cfg0 with protect := [(0, 0x40000)], carve := [(0x40000, 0x10000)] } = false ∧ State.reset.trust.flash = none ∧
    State.reset.trust.flash.getD image0 = image0 ∧ ({ image0 with version := 1 } : BootImage) ≠ image0 ∧
    (box g0).trust.config.signed = false ∧ ({ world0 with failed := true } : World).resetting = none := by decide +kernel
/-- A living world without groups, with groups, and one that is being torn down; the members of a collective group. -/
theorem test_worlds_met : (boxDy world0 0).world 0 = some world0 ∧ world0.failed = false ∧ world0.dying = none ∧
    (∀ g ∈ ({ boxDy world0 0 with groups := [] } : State).groups, g.world ≠ 0) ∧ (∃ g ∈ (boxDy world0 0).groups, g.world = 0) ∧
    worldD.dying ≠ none ∧ (boxT0 trust0).trust.running ≠ none ∧
    (3, [(0, 0), (0, 1)]) ∈ ({ xlat := 0, tvec := 0, svec := 0, secretPage := 0, colls := [(3, [(0, 0), (0, 1)])] } : WorldConfig).colls :=
  ⟨rfl, rfl, rfl, by decide, ⟨g0, List.mem_cons_self, rfl⟩, by decide, by decide, List.mem_cons_self⟩
theorem test_owners_met : isProtected boxP (0 * 0x10000) = false ∧ isProtected { boxP with trust := { boxP.trust with
      config := { boxP.trust.config with protect := [(0, 0x20000)] } } } (1 * 0x10000) = true ∧
    (∀ x ∈ boxP.groups, x.world ≠ 5 ∧ x.world ≠ granuleOwner boxP 0x10000) ∧ (∃ x ∈ boxP.groups, x.world = 0 ∨ x.world = granuleOwner boxP 0) :=
  ⟨by decide +kernel, by decide +kernel, by intro x hx; rw [List.mem_singleton.1 hx]; decide +kernel,
    ⟨g0, List.mem_cons_self, .inl rfl⟩⟩
/-- A protected granule without groups of its world; its page with nothing dirty in a cache; sectors that come back. -/
theorem test_pages_met : let s : State := { boxSec .run with groups := [] }
    isProtected s (1 * 0x10000) = true ∧ memoryWf s.mem = true ∧ (∀ x ∈ s.groups, x.world ≠ granuleOwner s (1 * 0x10000)) ∧
    (∀ x ∈ s.groups, x.world ≠ 2) ∧ (∀ k ∈ s.cores, ∀ y ∈ k.dirty, y.1 / 0x1000 ≠ 16 * 1 + 3 % 16) ∧
    (∀ d ∈ s.dies, ∀ y ∈ d.dirty, y.1 / 0x1000 ≠ 16 * 1 + 3 % 16) ∧
    ([(9, none)] : List (BitVec 512 × Option Seal))[0]? = some (9, none) := by decide +kernel
/-- The frame of memory: an STL that completes, and lanes whose bytes end where another byte begins. -/
theorem test_accesses_met : memoryWf (box g1).mem = true ∧ Issues (box g1) c1 7 ∧
    (match exec (.stl 7 4 102 0 1) (box g1) with | .next _ => true | _ => false) = true ∧
    (match exec (.fenceSys 7) (box g1) with | .next _ => true | _ => false) = true ∧
    (match exec (.ld 7 94 6 6 0) (box g1) with | .next _ => true | _ => false) = true ∧
    okAnd (placeLanes c1 (laneAddrs c1.lanes (c1.val64 6)) wantWrite (box g1)) (fun ps _ =>
      ps.all (fun p => decide (0x3F < p.2.home ∧ p.2.home + 8 ≤ 0x48))) = true :=
  ⟨by decide, issues1, by decide +kernel, by decide +kernel, by decide +kernel, by decide +kernel⟩

/-! ### Ill-formed terms -/

theorem test_ill_uniform_code : firstIll (.ldu 7 95 97 6 0) = some .uniformCode := by decide
theorem test_ill_even_uniform : firstIll (.modset 7 101) = some .evenUniform := by decide
theorem test_ill_even_vector : firstIll (.waitr 7 9) = some .evenVector := by decide
theorem test_ill_promo_base : firstIll (.ldaP 7 6 126 0 1) = some .promoBase := by decide
theorem test_ill_sr_number : firstIll (.mfsr 7 22 32) = some .srNumber := by decide
theorem test_ill_quota_code : firstIll (.regq 7 1) = some .quotaCode := by decide
theorem test_ill_rmask_word : firstIll (.rmask 7 100 5) = some .rmaskWord := by decide
theorem test_ill_hmod_field : firstIll (.hmod 5 0 0) = some .hmodField := by decide
theorem test_ill_nttp_distance : firstIll (.nttpBr 7 1 2 5) = some .nttpDistance := by decide
theorem test_ill_nttp_same : firstIll (.nttpX 7 1 1 0) = some .nttpSame := by decide
theorem test_ill_reserved_word : firstIll (.reservedEncoding 0x06818104) = some .reservedWord := by decide
theorem test_ill_core_range : firstIll (.bankGate { die := 0, core := 192 } 0) = some .coreRange := by decide
theorem test_ill_quad_range : firstIll (.passGrant { die := 0, quad := 48 }) = some .quadRange := by decide
theorem test_ill_slot_range : firstIll (.yieldExpiry { die := 0, core := 0, slot := 32 } false) = some .slotRange := by decide
theorem test_ill_world_range : firstIll (.teardown 64) = some .worldRange := by decide
theorem test_ill_die_range : firstIll (.clamp 32 0) = some .dieRange := by decide

/-! ### Words of the spec's examples -/

theorem test_decode_arithmetic : decodeWord 0x06818104 = .row (.add 10 3 1 2) ∧ decodeWord 0x11C18104 = .row (.fma 7 3 1 2) ∧
    decodeWord 0x05C20300 = .row (.add 7 4 3 0) ∧ decodeWord 0x19C3840A = .row (.max 7 7 4 5) ∧
    decodeWord 0x19C4040B = .row (.maxNan 7 8 4 5) ∧ decodeWord 0x1DC20264 = .row (.addi 7 4 2 100) ∧
    decodeWord 0x39CB1602 = .row (.shiShl 7 22 22 2) := by decide +kernel
theorem test_decode_predicates : decodeWord 0x3DE1040A = .row (.cmp 7 4 2 4 5) ∧ decodeWord 0x4083040A = .row (.sel 2 6 4 5) ∧
    decodeWord 0x3DD08206 = .row (.cmp 7 2 1 2 3) ∧ decodeWord 0x3DE9020A = .row (.cmp 7 5 2 2 5) := by decide +kernel
theorem test_decode_moves : decodeWord 0x4DFC0002 = .row (.movi 7 120 2) ∧ decodeWord 0x4DC2D678 = .row (.movi 7 5 0x5678) ∧
    decodeWord 0xFC402468 = .row (.himm 0x2468) ∧ decodeWord 0xFCC00004 = .row (.hrcv 4) ∧ decodeWord 0xFC800003 = .row (.hstall 3) ∧
    decodeWord 0xFD800000 = .row .land ∧ decodeWord 0xE9CB0000 = .row (.mfsr 7 22 0) := by decide +kernel
theorem test_decode_memory : decodeWord 0x80430271 = .row (.ld 1 6 2 7 1) ∧ decodeWord 0xA9F26560 = .row (.ldu 7 100 101 6 0) ∧
    decodeWord 0x91C38440 = .row (.lda 7 7 4 2 0) ∧ decodeWord 0x95C30240 = .row (.stl 7 6 2 2 0) ∧
    decodeWord 0x98420201 = .row (.atomAdd 1 4 2 0 1) ∧ decodeWord 0xA1C00030 = .row (.fenceSys 7) ∧
    decodeWord 0xA1C00040 = .row (.fenceOrf 7) ∧ decodeWord 0xA1C00050 = .row (.fenceTfence 7) := by decide +kernel
theorem test_decode_control : decodeWord 0xCC400003 = .row (.brd 1 3) ∧ decodeWord 0xC9C00001 = .row (.bra 7 1) ∧
    decodeWord 0xD4C00600 = .row (.jmpi 3 6) ∧ decodeWord 0xB9F2E613 = .row (.bara 7 101 102 3) ∧
    decodeWord 0xB9C16523 = .row (.barw 7 2 101 3) ∧ decodeWord 0xE5C26600 = .row (.spawn 7 4 102) ∧
    decodeWord 0xE5C06710 = .row (.btime 7 103) ∧ decodeWord 0xE5C00020 = .row (.bflush 7) := by decide +kernel
theorem test_decode_system : decodeWord 0xE9C06440 = .row (.modset 7 100) ∧ decodeWord 0xEDC40020 = .row (.waitr 7 8) ∧
    decodeWord 0xF1FA0020 = .row (.ctxb 7 116) ∧ decodeWord 0xF1C07800 = .row (.xdone 7 120) ∧ decodeWord 0xF1C00010 = .row (.edone 7) ∧
    decodeWord 0xC1F26500 = .row (.collPost 7 100 101) ∧ decodeWord 0xC1F36410 = .row (.collWait 7 102 100) := by decide +kernel
theorem test_decode_beside : decodeWord 0x8DC30920 = .beside (.sts 7 6 9 2 0) ∧ decodeWord 0x85C21620 = .beside (.st 7 4 22 2 0) ∧
    decodeWord 0xADF47420 = .beside (.stu 7 104 116 2 0) ∧ decodeWord 0xDDC00000 = .beside (.exit 7) ∧
    decodeWord 0xEDC00003 = .beside (.sys 7 0 0 0 3) ∧ decodeWord 0xEDC00030 = .beside (.sys 7 0 0 3 0) ∧
    decodeWord 0xB1F26570 = .beside (.tile 7 100 101 7 0) ∧ decodeWord 0xBDC06821 = .beside (.mtx 7 0 104 2 1) ∧
    decodeWord 0xBDC00040 = .beside (.mtx 7 0 0 4 0) ∧ decodeWord 0x69F00004 = .beside (.nttb 7 96 0 2 0) := by decide +kernel

/-! ### Single steps, by hand from the rules -/

/-- Lane 0 of a register after a word on the small machine. -/
def lane0 (i : Instr) (r : Code) : Option Word :=
  match exec i (box g0) with
  | .next t => (t.group key0).map (fun g => g.bitsAt r 0)
  | _ => none
/-- A predicate after a word. -/
def pred0 (i : Instr) (n : Nat) : Option Word :=
  match exec i (box g0) with
  | .next t => (t.group key0).map (fun g => g.pred n)
  | _ => none
/-- The PC after a word. -/
def pc0 (i : Instr) : Option Word :=
  match exec i (box g0) with
  | .next t => ((t.group key0).bind (fun g => g.slot0)).map (fun p => p.pc)
  | _ => none
theorem test_add_wraps : lane0 (.add 7 30 3 2) 30 = some 6 := by decide +kernel
theorem test_add_sat : lane0 (.addSat 7 30 16 16) 30 = some 0x7F80FE02 := by decide +kernel
theorem test_sub : lane0 (.sub 7 30 1 2) 30 = some 0xFFFFFFFE := by decide +kernel
theorem test_mul_hi : lane0 (.mulHi 7 30 1 3) 30 = some 0xFFFFFFFF := by decide +kernel
theorem test_mul : lane0 (.mul 7 30 1 2) 30 = some 35 := by decide +kernel
theorem test_fma : lane0 (.fma 7 8 8 9) 8 = some 0x40400000 := by decide +kernel
theorem test_fma_neg : lane0 (.fmaNeg 7 9 8 8) 9 = some 0x3F800000 := by decide +kernel
theorem test_min : lane0 (.min 7 30 1 3) 30 = some 0xFFFFFFFF := by decide +kernel
theorem test_max : lane0 (.max 7 30 1 3) 30 = some 5 := by decide +kernel
theorem test_addi_negative : lane0 (.addi 7 30 1 0xFA) 30 = some 0xFFFFFFFF := by decide +kernel
theorem test_andn : lane0 (.andn 7 30 2 1) 30 = some 2 := by decide +kernel
theorem test_xnor : lane0 (.xnor 7 30 1 2) 30 = some 0xFFFFFFFD := by decide +kernel
theorem test_shi_sar : lane0 (.shiSar 7 30 3 31) 30 = some 0xFFFFFFFF := by decide +kernel
theorem test_shi_rol : lane0 (.shiRol 7 30 1 31) 30 = some 0x80000002 := by decide +kernel
theorem test_shl : lane0 (.shl 7 30 1 11) 30 = some 80 := by decide +kernel
theorem test_cmp_lt : pred0 (.cmp 7 2 1 3 1) 1 = some 0xFFFFFFFF := by decide +kernel
theorem test_sel_not : lane0 (.sel 2 30 1 2) 30 = some 7 := by decide +kernel
theorem test_neg : lane0 (.neg 7 30 1) 30 = some 0xFFFFFFFB := by decide +kernel
theorem test_popc : lane0 (.popc 7 30 3) 30 = some 32 := by decide +kernel
theorem test_clz : lane0 (.clz 7 30 1) 30 = some 29 := by decide +kernel
theorem test_brev : lane0 (.brev 7 30 1) 30 = some 0xA0000000 := by decide +kernel
theorem test_not : lane0 (.not 7 30 1) 30 = some 0xFFFFFFFA := by decide +kernel
theorem test_rcp : lane0 (.rcp 7 30 9) 30 = some 0x3F000000 := by decide +kernel
theorem test_sqrt : lane0 (.sqrt 7 30 8) 30 = some 0x3F800000 := by decide +kernel
theorem test_floor : lane0 (.floor 7 30 9) 30 = some 0x40000000 := by decide +kernel
theorem test_movi : lane0 (.movi 7 120 0x7FFF) 120 = some 0xFFFFFFFF := by decide +kernel
theorem test_gtag : lane0 (.gtag 7 30 8) 30 = some 8 := by decide +kernel
theorem test_pmov : pred0 (.pmov 7 100 3) 3 = some 0 := by decide +kernel
theorem test_bra : pc0 (.bra 7 2) = some 12 := by decide +kernel
theorem test_bra_back : pc0 (.bra 7 0x3FFFFF) = some 0 := by decide +kernel
theorem test_nop : pc0 .nop = some 4 := by decide +kernel
theorem test_elect : pred0 (.elect 7 2) 2 = some 1 := by decide +kernel
theorem test_fetch_word : (match step (State.reset.withFetchWord 32 0x4DFC0002) with
    | .next t => t.groups.map (fun g => g.bitsAt 120 0) == [2]
    | _ => false) = true ∧ decodeTableWord 32 0x4DFC0002 = some (.movi 7 120 2) := by decide +kernel

end Sys2Proof.Tests
end

section
/-! SUPPORT. The checks of R19 on the tags of a class V word, once for every form: which fault each raises, and when the
word comes to its effect. -/

namespace Sys2Proof.Machine

/-! ### The checks on tags -/

/-- A class V word has come to the checks on its tags (R19). -/
structure Wd.Judged (w : Wd) (s : State) (c : Cx) : Prop where
  cls     : w.cls = .v
  uniform : w.uniform = false
  lanes   : w.lanes c ≠ 0
  ok      : w.ok s c = true

/-- The conditions that need no value, in ordinary code, of a word that fits what stands before it (R17, R22). -/
theorem Wd.ok_of_fits {w : Wd} {s : State} {c : Cx} {gd : Guard} (hi : Issues s c gd) (hf : w.fits c.p = true)
    (hc : ∀ r ∈ w.codes, oneOk c.g.quota r = true) (hl : w.legal c = true) (hh : w.handler = true) : w.ok s c = true := by
  simp [Wd.ok, admitted_of_plain hi hh, hf, hl, List.all_eq_true.2 hc]

theorem issueWord_eq {w : Wd} {s : State} {c : Cx} (hi : AtIssue s c w.guard) (arg : Nat) :
    issueWord w s arg = .next (issueIn s w c arg) := by
  have hc : Cx.of s.now c.g c.sl c.p w.guard = c := hi.reads.symm
  simp only [issueWord, hi.cur, hi.group, hi.slot, hc]

/-- What is left of the checks: legality by the tags, VOID, and the tags accepted, in this order. -/
theorem issueIn_judged {w : Wd} {s : State} {c : Cx} (hi : Issues s c w.guard) (h : w.Judged s c) (arg : Nat) :
    issueIn s w c arg =
      if w.legalT c = false then trap s c.g c.sl c.p cIllegal
      else if ∃ r ∈ w.reads c, c.tag r = .void then trap s c.g c.sl c.p cVoid
      else if w.accept c = false then trap s c.g c.sl c.p cMismatch
      else perform s w c arg := by
  have ha : AtIssue s c w.guard := hi.toAtIssue
  have hw : w.waits s c = false := by simp [Wd.waits, issues_not_awaited ha]
  have hs : w.split c = false := by simp [Wd.split, h.uniform]
  have he : w.effective c = true := by simp [Wd.effective, h.cls]
  have hl : w.lanes c ≠ 0#32 := h.lanes
  simp [issueIn, hi.fresh, issues_not_stalled ha, issues_not_shortGuard ha, issues_not_short ha, issues_not_shortPreds ha,
    hl, h.ok, hw, hs, he]

section
variable {i : Instr} {w : Wd} {s : State} {c : Cx} (he : exec i s = issueWord w s) (hi : Issues s c w.guard)
  (h : w.Judged s c)
include he hi h

theorem traps_illegal (hl : w.legalT c = false) : Traps i s c cIllegal := by
  rw [Traps, he, issueWord_eq hi.toAtIssue, issueIn_judged hi h, if_pos hl]; rfl

theorem traps_void (hl : w.legalT c = true) (hr : ∃ r ∈ w.reads c, c.tag r = .void) : Traps i s c cVoid := by
  rw [Traps, he, issueWord_eq hi.toAtIssue, issueIn_judged hi h, if_neg (by simp [hl]), if_pos hr]; rfl

theorem traps_mismatch (hl : w.legalT c = true) (hr : ∀ r ∈ w.reads c, c.tag r ≠ .void) (ha : w.accept c = false) :
    Traps i s c cMismatch := by
  have hr : ¬ ∃ r ∈ w.reads c, c.tag r = .void := by simpa using hr
  rw [Traps, he, issueWord_eq hi.toAtIssue, issueIn_judged hi h, if_neg (by simp [hl]), if_neg hr, if_pos ha]; rfl

/-- A word that passes the checks and touches nothing outside its group completes with the results of its effect. -/
theorem does_of_judged {o : Out} (ht : w.touches = false) (hl : w.legalT c = true)
    (hr : ∀ r ∈ w.reads c, c.tag r ≠ .void) (ha : w.accept c = true) (hrun : w.run c s = .ok o s)
    (hn : (o.regs.map (fun x => x.code)).Nodup) (hp : (o.preds.map (fun x => x.1)).Nodup) : Does i s c o :=
  does_of_word he hi.toAtIssue
    { lanes := fun _ => h.lanes, ok := h.ok, legalT := hl, read := hr, accept := ha
      split := by simp [Wd.split, h.uniform], effective := by simp [Wd.effective, h.cls], alive := by simp [ht] }
    hrun hn hp

end

theorem mem_flex (c : Cx) (r : Code) : r ∈ c.flex r := by
  unfold Cx.flex; split <;> simp

/-! ### Values and results register by register -/

@[simp] theorem up_zero (r : Code) : up r 0 = r := by simp [up]

/-- The registers that a tag takes (R14). -/
theorem reg_of_tag {t : Tag} {j : Nat} (h : j ∈ List.range (if wide t then 2 else 1)) :
    j = 0 ∨ (wide t = true ∧ j = 1) := by
  rw [List.mem_range] at h
  split at h
  · next hw => exact (Nat.le_one_iff_eq_zero_or_eq_one.1 (Nat.le_of_lt_succ h)).imp_right fun e => ⟨hw, e⟩
  · exact .inl (Nat.lt_one_iff.1 h)

theorem outOf_eq_map (d : Code) (m : Word) (v : Nat → Nat) (t : Tag) (e : Option DWord) (he : wide t = true → e = none) :
    outOf d m v t e = (List.range (if wide t then 2 else 1)).map (fun j =>
      out32 (up d j) m (fun i => BitVec.ofNat 32 (v i / 2 ^ (32 * j))) t e) := by
  cases h : wide t with
  | false => simp [outOf, h]
  | true => simp [outOf, out64, h, he h, List.range_succ]

/-- Register `j` of a value is its 32 bits from `32 j` on (R99, R107). -/
theorem extract_valOf (c : Cx) {r : Code} {j : Nat} (i : Nat) (h : j = 0 ∨ (wide (c.tag r) = true ∧ j = 1)) :
    (BitVec.ofNat 64 (c.valOf r i)).extractLsb' (32 * j) 32 = c.val (up r j) i := by
  have h0 := (c.val r i).isLt
  have h1 := (c.val (up r 1) i).isLt
  apply BitVec.eq_of_toNat_eq
  rw [BitVec.extractLsb'_toNat, BitVec.toNat_ofNat, Nat.shiftRight_eq_div_pow]
  unfold Cx.valOf Cx.val64
  rcases h with rfl | ⟨hw, rfl⟩
  · split <;> simp <;> omega
  · simp only [hw, if_true]; omega

theorem valOf_lt (c : Cx) (r : Code) (i : Nat) : c.valOf r i < 2 ^ tagBits (c.tag r) := by
  have h0 := (c.val r i).isLt
  have h1 := (c.val (up r 1) i).isLt
  unfold Cx.valOf Cx.val64 tagBits
  split <;> omega

end Sys2Proof.Machine
end

section
/-! SUPPORT. AND, OR and XOR with their X variants (R134 of 07): a word on 64 bits is the word on each of the two registers. -/

namespace Sys2Proof.Machine

/-- An operation on pairs that works register by register. -/
def RegisterWise (F : DWord → DWord → DWord) (f : Word → Word → Word) : Prop :=
  ∀ x y k, k ≤ 32 → (F x y).extractLsb' k 32 = f (x.extractLsb' k 32) (y.extractLsb' k 32)

theorem registerWise_and : RegisterWise (fun x y => x &&& y) (fun x y => x &&& y) :=
  fun _ _ _ _ => BitVec.extractLsb'_and
theorem registerWise_or : RegisterWise (fun x y => x ||| y) (fun x y => x ||| y) :=
  fun _ _ _ _ => BitVec.extractLsb'_or
theorem registerWise_xor : RegisterWise (fun x y => x ^^^ y) (fun x y => x ^^^ y) :=
  fun _ _ _ _ => BitVec.extractLsb'_xor

theorem extract_not (x : DWord) {k : Nat} (h : k ≤ 32) : (~~~x).extractLsb' k 32 = ~~~(x.extractLsb' k 32) := by
  ext j hj
  have : k + j < 64 := by omega
  simp [this]

/-- B negated first: ANDN and ORN. -/
theorem RegisterWise.not_right {F : DWord → DWord → DWord} {f : Word → Word → Word} (h : RegisterWise F f) :
    RegisterWise (fun x y => F x (~~~y)) (fun x y => f x (~~~y)) :=
  fun x y k hk => by rw [h x (~~~y) k hk, extract_not y hk]

/-- The result negated: XNOR. -/
theorem RegisterWise.not_result {F : DWord → DWord → DWord} {f : Word → Word → Word} (h : RegisterWise F f) :
    RegisterWise (fun x y => ~~~(F x y)) (fun x y => ~~~(f x y)) :=
  fun x y k hk => by rw [extract_not _ hk, h x y k hk]

theorem logicTags_iff {t u : Tag} :
    logicTags t u = true ↔ t = u ∨ (t = .b32 ∧ wide u = false) ∨ (u = .b32 ∧ wide t = false) := by
  simp [logicTags, or_assoc]

/-- Tags that a logic word takes together are of one width. -/
theorem wide_of_logicTags {t u : Tag} (h : logicTags t u = true) : wide u = wide t := by
  rcases logicTags_iff.1 h with rfl | ⟨rfl, hu⟩ | ⟨rfl, ht⟩
  · rfl
  · exact hu
  · exact ht.symm

theorem isBfp_of_wide {t : Tag} (h : wide t = true) : isBfp t = false := by
  revert h; cases t <;> decide


/-- The results of a logic word (R134). -/
def logicOut (c : Cx) (d a b : Code) (t : Tag) (f : Word → Word → Word) : Out :=
  { regs := (List.range (if wide t then 2 else 1)).map (fun j =>
      out32 (up d j) c.lanes (fun i => f (c.val (up a j) i) (c.val (up b j) i)) t
        (if isBfp t then some (c.side a) else none)) }

section
variable {s : State} {c : Cx} {g : Guard} {d a b : Code} {t u : Tag} {F : DWord → DWord → DWord}
  (ha : Holds c a t) (hb : Holds c b u)
include ha hb

theorem logic_judged (hi : Issues s c g) (hp : Bare c) (hn : c.lanes ≠ 0) (hd : Accepts c d t) :
    (logic g d a b F).Judged s c :=
  ⟨rfl, rfl, hn, Wd.ok_of_fits hi (fits_of_bare hp) (by simp [logic, hd.quota, ha.quota, hb.quota]) rfl rfl⟩

theorem logic_legalT (hd : Accepts c d t) : (logic g d a b F).legalT c = true := by
  simp [logic, ha.flexOk, hb.flexOk, ha.tag, hd.destOk]

theorem logic_read (ht : t ≠ .void) (hu : u ≠ .void) : ∀ r ∈ (logic g d a b F).reads c, c.tag r ≠ .void := by
  intro r hr
  rcases List.mem_append.1 hr with hr | hr
  · exact ha.read ht r hr
  · exact hb.read hu r hr

theorem logic_accept : (logic g d a b F).accept c = logicTags t u := by
  simp [logic, ha.tag, hb.tag, ha.flexTag, hb.flexTag]

/-- The result register by register is the result of the value's whole width. -/
theorem logicOut_eq {f : Word → Word → Word} (hF : RegisterWise F f) (htu : logicTags t u = true) :
    logicOut c d a b t f =
      { regs := outOf d c.lanes (fun i => (F (BitVec.ofNat 64 (c.valOf a i)) (BitVec.ofNat 64 (c.valOf b i))).toNat) t
          (if isBfp t then some (c.side a) else none) } := by
  have hs : wide t = true → (if isBfp t then some (c.side a) else none) = none := fun h => by simp [isBfp_of_wide h]
  rw [logicOut, outOf_eq_map d _ _ t _ hs]
  congr 1
  refine List.map_congr_left fun j hj => ?_
  have hj := reg_of_tag hj
  congr 1
  funext i
  rw [← extract_valOf c i (r := a) (by rwa [ha.tag]),
    ← extract_valOf c i (r := b) (by rwa [hb.tag, wide_of_logicTags htu]), ← hF _ _ _ (by omega)]
  simp [BitVec.extractLsb', Nat.shiftRight_eq_div_pow]

/-- A logic word on tags that it takes completes with its results. -/
theorem logic_does (hi : Issues s c g) (hp : Bare c) (hn : c.lanes ≠ 0) (hd : Accepts c d t) {i : Instr}
    {f : Word → Word → Word} (he : exec i s = issueWord (logic g d a b F) s) (hF : RegisterWise F f)
    (ht : t ≠ .void) (hu : u ≠ .void) (htu : logicTags t u = true) : Does i s c (logicOut c d a b t f) := by
  rw [logicOut_eq ha hb hF htu]
  exact does_of_judged he hi (logic_judged ha hb hi hp hn hd) rfl (logic_legalT ha hb hd) (logic_read ha hb ht hu)
    ((logic_accept ha hb).trans htu) (by simp only [logic, ha.tag]; rfl) (outOf_nodup ..) List.nodup_nil

end

/-- The logic words of the opcode table. -/
theorem exec_logic {g : Guard} {d a b : Code} {i : Instr} (s : State)
    (h : i ∈ [Instr.and g d a b, .andn g d a b, .or g d a b, .orn g d a b, .xor g d a b, .xnor g d a b]) :
    ∃ F, exec i s = issueWord (logic g d a b F) s := by
  simp only [List.mem_cons, List.not_mem_nil, or_false] at h
  rcases h with rfl | rfl | rfl | rfl | rfl | rfl <;> exact ⟨_, rfl⟩

/-- Settles O3: 64-bit words work register by register, and the checks of R19 meet VOID before the tags. -/
theorem bitwiseLogic : Obligations.BitwiseLogic := by
  unfold Obligations.BitwiseLogic
  refine ⟨?_, ?_⟩
  · intro s c g d a b t u hi hp hn ht hu htu ha hb hd R
    have key {i : Instr} {F : DWord → DWord → DWord} {f : Word → Word → Word}
        (he : exec i s = issueWord (logic g d a b F) s) (hF : RegisterWise F f) : Does i s c (R f) :=
      logic_does ha hb hi hp hn hd he hF ht hu (logicTags_iff.2 htu)
    exact ⟨key rfl registerWise_and, key rfl registerWise_and.not_right, key rfl registerWise_or,
      key rfl registerWise_or.not_right, key rfl registerWise_xor, key rfl registerWise_xor.not_result⟩
  · intro s c g d a b i hmem hi hp hn
    obtain ⟨F, he⟩ := exec_logic s hmem
    refine ⟨?_, ?_⟩
    · intro t u ht hu hne h1 h2 ha hb hd
      have htu : logicTags t u = false := by
        rw [Bool.eq_false_iff, Ne, logicTags_iff]
        exact not_or.2 ⟨hne, not_or.2 ⟨h1, h2⟩⟩
      exact traps_mismatch he hi (logic_judged ha hb hi hp hn hd) (logic_legalT ha hb hd) (logic_read ha hb ht hu)
        ((logic_accept ha hb).trans htu)
    · intro t ha hv hd
      obtain ⟨u, hb, r, hr, hvoid⟩ : ∃ u, Holds c b u ∧ ∃ r ∈ (logic g d a b F).reads c, c.tag r = .void := by
        rcases hv with hb | ⟨rfl, u, hb⟩
        · exact ⟨_, hb, b, List.mem_append_right _ (mem_flex c b), hb.tag⟩
        · exact ⟨u, hb, a, List.mem_append_left _ (mem_flex c a), ha.tag⟩
      exact traps_void he hi (logic_judged ha hb hi hp hn hd) (logic_legalT ha hb hd) ⟨r, hr, hvoid⟩

end Sys2Proof.Machine
end

section
/-! SUPPORT. Words of one source (R126), of which the immediate shifts (R135 of 07), ADDI and MULI (R133 of 07) are made,
and the shifts by a register. -/

namespace Sys2Proof.Machine

/-! ### Words of one source -/

section
variable {s : State} {c : Cx} {g : Guard} {d a : Code} {rnd : Bool} {lat : Tag → Option Nat} {ok : Tag → Bool}
  {f : Cx → Tag → Nat → Nat × Word} {t : Tag} (ha : Holds c a t)
include ha

theorem oneSource_legalT (hd : Accepts c d t) : (oneSource g d a rnd lat ok id f).legalT c = true := by
  simp [oneSource, ha.flexOk, ha.tag, hd.destOk]

theorem oneSource_accept : (oneSource g d a rnd lat ok id f).accept c = ok t := by
  simp [oneSource, ha.tag, ha.flexTag]

/-- A word of one source that keeps the tag and sets no flag. -/
theorem oneSource_run {v : Nat → Nat} (ht : isBfp t = false) (hf : ∀ i, f c t (c.valOf a i) = (v i, 0)) :
    (oneSource g d a rnd lat ok id f).run c s = .ok { regs := outOf d c.lanes v t } s := by
  have h0 : laneFlags c.lanes (fun i => (v i, 0)) = 0 := joinFlags_zero _ _ fun _ _ => rfl
  simp only [oneSource, ha.tag, hf, ht, h0]
  rfl

end

/-! ### Shifts -/

/-- The tags of a shifted value. -/
theorem shiftTag_iff {t : Tag} : shiftTag t = true ↔ isInt32 t = true ∨ t = .s64 ∨ t = .n64 := by
  simp [shiftTag, or_assoc]

theorem not_void_of_shiftTag {t : Tag} (h : shiftTag t = true) : t ≠ .void := by
  rintro rfl; exact absurd h (by decide)

theorem not_bfp_of_shiftTag {t : Tag} (h : shiftTag t = true) : isBfp t = false := by
  revert h; cases t <;> decide

/-- A `w`-bit pattern as a signed integer lies between `-2^w` and `2^w`. -/
theorem intOf_bounds {w x : Nat} (h : x < 2 ^ w) : -2 ^ w ≤ intOf true w x ∧ intOf true w x < 2 ^ w := by
  have h : (x : Int) < 2 ^ w := by exact_mod_cast h
  unfold intOf
  split <;> omega

theorem wrap_neg_one (w : Nat) : wrap w (-1) = 2 ^ w - 1 := by
  have hpos : (0 : Int) < 2 ^ w := Int.pow_pos (by decide)
  have h : (-1 : Int) % 2 ^ w = 2 ^ w - 1 := by
    rw [← Int.add_emod_right, Int.emod_eq_of_lt (by omega) (by omega)]; omega
  have hc : ((2 ^ w : Nat) : Int) = 2 ^ w := Int.natCast_pow 2 w
  rw [wrap, h]
  omega

/-- An arithmetic shift by any count: from the width on, copies of the sign (R135). -/
theorem shiftBits_sar {w x : Nat} (n : Nat) (hx : x < 2 ^ w) : shiftBits .sar w x n =
    if n < w then wrap w (intOf true w x / 2 ^ n) else if intOf true w x < 0 then 2 ^ w - 1 else 0 := by
  obtain ⟨hlo, hhi⟩ := intOf_bounds hx
  show wrap w (intOf true w x / 2 ^ min n w) = _
  split
  · next hn => rw [Nat.min_eq_left (Nat.le_of_lt hn)]
  · next hn =>
    rw [Nat.min_eq_right (Nat.le_of_not_lt hn)]
    split
    · next hneg => rw [Int.ediv_eq_neg_one_of_neg_of_le hneg (by omega), wrap_neg_one]
    · next hneg => rw [Int.ediv_eq_zero_of_lt (by omega) hhi]; simp [wrap]

/-! ### Shifts by a register -/

section
variable {s : State} {c : Cx} {g : Guard} {d a b : Code} {k : Shift} {t : Tag} (ha : Holds c a t)
include ha

theorem shiftReg_judged (hi : Issues s c g) (hp : Bare c) (hn : c.lanes ≠ 0) (hd : Accepts c d t)
    (hb : oneOk c.g.quota b = true) : (shiftReg g d a b k).Judged s c :=
  ⟨rfl, rfl, hn, Wd.ok_of_fits hi (fits_of_bare hp) (by simp [shiftReg, hd.quota, ha.quota, hb]) rfl rfl⟩

theorem shiftReg_legalT (hd : Accepts c d t) : (shiftReg g d a b k).legalT c = true := by
  simp [shiftReg, ha.flexOk, ha.tag, hd.destOk]

theorem shiftReg_read (ht : t ≠ .void) (hb : c.tag b ≠ .void) : ∀ r ∈ (shiftReg g d a b k).reads c, c.tag r ≠ .void := by
  intro r hr
  rcases List.mem_append.1 hr with hr | hr
  · exact ha.read ht r hr
  · rwa [List.mem_singleton.1 hr]

theorem shiftReg_accept : (shiftReg g d a b k).accept c = (shiftTag t && isInt32 (c.tag b)) := by
  simp [shiftReg, ha.tag, ha.flexTag, Cx.intTag]

/-- A shift by a register completes with the result of its kind, by any count. -/
theorem shiftReg_does (hi : Issues s c g) (hp : Bare c) (hn : c.lanes ≠ 0) (hd : Accepts c d t) {i : Instr}
    {f : Nat → Nat → Nat} (he : exec i s = issueWord (shiftReg g d a b k) s)
    (hf : ∀ i n, shiftBits k (tagBits t) (c.valOf a i) n = f (c.valOf a i) n) (ht : shiftTag t = true)
    (hb : oneOk c.g.quota b = true) (hu : isInt32 (c.tag b) = true) :
    Does i s c { regs := outOf d c.lanes (fun i => f (c.valOf a i) (c.val b i).toNat) t } := by
  have hv : c.tag b ≠ .void := by intro h; rw [h] at hu; cases hu
  exact does_of_judged he hi (shiftReg_judged ha hi hp hn hd hb) rfl (shiftReg_legalT ha hd)
    (shiftReg_read ha (not_void_of_shiftTag ht) hv) (by rw [shiftReg_accept ha, ht, hu]; rfl)
    (by simp only [shiftReg, ha.tag, hf]; rfl) (outOf_nodup ..) List.nodup_nil

end

/-! ### Shifts by an immediate -/

section
variable {s : State} {c : Cx} {g : Guard} {d a : Code} {n : BitVec 6} {k : Shift} {t : Tag} (ha : Holds c a t)
include ha

theorem shiftImm_judged (hi : Issues s c g) (hp : Bare c) (hn : c.lanes ≠ 0) (hd : Accepts c d t) :
    (shiftImm g d a n k).Judged s c :=
  ⟨rfl, rfl, hn, Wd.ok_of_fits hi (fits_of_bare hp) (by simp [shiftImm, oneSource, hd.quota, ha.quota]) rfl rfl⟩

theorem shiftImm_legalT (hd : Accepts c d t) (ht : t ≠ .void) :
    (shiftImm g d a n k).legalT c = decide (n.toNat < tagBits t) := by
  simp [shiftImm, oneSource_legalT ha hd, ha.tag, ht]

theorem shiftImm_accept : (shiftImm g d a n k).accept c = shiftTag t := by
  simp only [shiftImm, oneSource_accept ha]

theorem shiftImm_run {f : Nat → Nat → Nat}
    (hf : ∀ i n, shiftBits k (tagBits t) (c.valOf a i) n = f (c.valOf a i) n) (ht : shiftTag t = true) :
    (shiftImm g d a n k).run c s = .ok { regs := outOf d c.lanes (fun i => f (c.valOf a i) n.toNat) t } s := by
  simp only [shiftImm]
  exact oneSource_run ha (not_bfp_of_shiftTag ht) fun i => by rw [hf]

/-- A shift by a count below the width completes with the result of its kind. -/
theorem shiftImm_does (hi : Issues s c g) (hp : Bare c) (hn : c.lanes ≠ 0) (hd : Accepts c d t) {i : Instr}
    {f : Nat → Nat → Nat} (he : exec i s = issueWord (shiftImm g d a n k) s)
    (hf : ∀ i n, shiftBits k (tagBits t) (c.valOf a i) n = f (c.valOf a i) n) (ht : shiftTag t = true)
    (hw : n.toNat < tagBits t) : Does i s c { regs := outOf d c.lanes (fun i => f (c.valOf a i) n.toNat) t } :=
  have hv := not_void_of_shiftTag ht
  does_of_judged he hi (shiftImm_judged ha hi hp hn hd) rfl ((shiftImm_legalT ha hd hv).trans (decide_eq_true hw))
    (ha.read hv) ((shiftImm_accept ha).trans ht) (shiftImm_run ha hf ht) (outOf_nodup ..) List.nodup_nil

end

/-- The shifts of the opcode table. -/
theorem exec_shiftReg {g : Guard} {d a b : Code} {i : Instr} (s : State)
    (h : i ∈ [Instr.shl g d a b, .shr g d a b, .sar g d a b, .rol g d a b]) :
    ∃ k, exec i s = issueWord (shiftReg g d a b k) s := by
  simp only [List.mem_cons, List.not_mem_nil, or_false] at h
  rcases h with rfl | rfl | rfl | rfl <;> exact ⟨_, rfl⟩

theorem exec_shiftImm {g : Guard} {d a : Code} {n : BitVec 6} {i : Instr} (s : State)
    (h : i ∈ [Instr.shiShl g d a n, .shiShr g d a n, .shiSar g d a n, .shiRol g d a n]) :
    ∃ k, exec i s = issueWord (shiftImm g d a n k) s := by
  simp only [List.mem_cons, List.not_mem_nil, or_false] at h
  rcases h with rfl | rfl | rfl | rfl <;> exact ⟨_, rfl⟩

/-! ### Immediate arithmetic -/

/-- A pattern read as signed is the pattern modulo `2^w`. -/
theorem intOf_emod (w x : Nat) : intOf true w x % 2 ^ w = x % 2 ^ w := by
  unfold intOf
  split
  · exact Int.sub_emod_right _ _
  · rfl

theorem wrap_congr {w : Nat} {x y : Int} (h : x % 2 ^ w = y % 2 ^ w) : wrap w x = wrap w y := by
  rw [wrap, wrap, h]

/-- The residue of the result rests on the residue of the first operand. -/
def KeepsResidues (op : Int → Int → Int) : Prop := ∀ x y k m, x % m = y % m → op x k % m = op y k % m

theorem keepsResidues_add : KeepsResidues (fun x y => x + y) :=
  fun x y k m h => by rw [Int.add_emod, h, ← Int.add_emod]

theorem keepsResidues_mul : KeepsResidues (fun x y => x * y) :=
  fun x y k m h => by rw [Int.mul_emod, h, ← Int.mul_emod]

theorem intOf_eq_toInt {w : Nat} (hw : 0 < w) (x : BitVec w) : intOf true w x.toNat = x.toInt := by
  have hp : 2 ^ w = 2 * 2 ^ (w - 1) := by rw [← Nat.pow_succ']; congr; omega
  have hc : 2 ^ (w - 1) ≤ x.toNat ↔ ¬ 2 * x.toNat < 2 ^ w := by omega
  by_cases h : 2 * x.toNat < 2 ^ w <;> simp [BitVec.toInt_eq_toNat_cond, intOf, hc, h]

/-- The immediate of RRI without HIMM (R23). -/
theorem imm_short {c : Cx} (i : BitVec 8) (h : c.p.himm = none) : c.imm i = i.toInt := by
  simp only [Cx.imm, h, intOf_eq_toInt (show 0 < 8 by decide)]

/-- The immediate of RRI with HIMM (R23). -/
theorem imm_long {c : Cx} (i : BitVec 8) {x : BitVec 22} (h : c.p.himm = some x) :
    c.imm i = (x ++ i : BitVec 30).toInt := by
  have hn : x.toNat * 256 + i.toNat = (x ++ i : BitVec 30).toNat := by
    rw [← Nat.shiftLeft_eq x.toNat 8, Nat.shiftLeft_add_eq_or_of_lt i.isLt, ← BitVec.toNat_append]
  simp only [Cx.imm, h, hn, intOf_eq_toInt (show 0 < 30 by decide)]

/-- The tags of ADDI and MULI (R133). -/
def immTag (t : Tag) : Bool := t == .s32 || t == .n32 || t == .s64 || t == .n64

theorem immTag_iff {t : Tag} : immTag t = true ↔ t = .s32 ∨ t = .n32 ∨ t = .s64 ∨ t = .n64 := by
  simp [immTag, or_assoc]

theorem not_void_of_immTag {t : Tag} (h : immTag t = true) : t ≠ .void := by
  rintro rfl; exact absurd h (by decide)

theorem not_bfp_of_immTag {t : Tag} (h : immTag t = true) : isBfp t = false := by
  revert h; cases t <;> decide

section
variable {s : State} {c : Cx} {g : Guard} {d a : Code} {im : BitVec 8} {op : Int → Int → Int} {t : Tag} (ha : Holds c a t)
include ha

theorem immediate_judged (hi : Issues s c g) (hr : c.p.hrcv = none) (hm : c.p.hmod = none) (hn : c.lanes ≠ 0)
    (hd : Accepts c d t) : (immediate g d a im op).Judged s c := by
  have hf : (immediate g d a im op).fits c.p = true := by
    cases e : c.p.himm <;> simp [Wd.fits, immediate, hr, hm, e]
  exact ⟨rfl, rfl, hn, Wd.ok_of_fits hi hf (by simp [immediate, oneSource, hd.quota, ha.quota]) rfl rfl⟩

theorem immediate_legalT (hd : Accepts c d t) : (immediate g d a im op).legalT c = true := by
  simp only [immediate, oneSource_legalT ha hd]

theorem immediate_accept : (immediate g d a im op).accept c = immTag t := by
  simp only [immediate, oneSource_accept ha, immTag]

/-- An operation that agrees with residues gives the same result on the pattern as on the signed value. -/
theorem immediate_run (hk : immTag t = true)
    (hop : KeepsResidues op) :
    (immediate g d a im op).run c s =
      .ok { regs := outOf d c.lanes (fun i => wrap (tagBits t) (op (c.valOf a i) (c.imm im))) t } s := by
  simp only [immediate]
  exact oneSource_run ha (not_bfp_of_immTag hk) fun i => by rw [wrap_congr (hop _ _ _ _ (intOf_emod _ _))]

/-- ADDI and MULI on the tags that they take (R133). -/
theorem immediate_does (hi : Issues s c g) (hr : c.p.hrcv = none) (hm : c.p.hmod = none) (hn : c.lanes ≠ 0)
    (hd : Accepts c d t) {i : Instr} (he : exec i s = issueWord (immediate g d a im op) s) (hk : immTag t = true)
    (hop : KeepsResidues op) :
    Does i s c { regs := outOf d c.lanes (fun i => wrap (tagBits t) (op (c.valOf a i) (c.imm im))) t } :=
  does_of_judged he hi (immediate_judged ha hi hr hm hn hd) rfl (immediate_legalT ha hd)
    (ha.read (not_void_of_immTag hk)) ((immediate_accept ha).trans hk) (immediate_run ha hk hop) (outOf_nodup ..)
    List.nodup_nil

theorem immediate_traps (hi : Issues s c g) (hr : c.p.hrcv = none) (hm : c.p.hmod = none) (hn : c.lanes ≠ 0)
    (hd : Accepts c d t) {i : Instr} (he : exec i s = issueWord (immediate g d a im op) s) (ht : t ≠ .void)
    (hk : immTag t = false) : Traps i s c cMismatch :=
  traps_mismatch he hi (immediate_judged ha hi hr hm hn hd) (immediate_legalT ha hd) (ha.read ht)
    ((immediate_accept ha).trans hk)

end

/-! ### The words as they are encoded -/

/-- A field that lies above the lower part of a word is a field of the upper part. -/
theorem extract_above {v w start len : Nat} {x : BitVec v} {y : BitVec w} {z : BitVec len}
    (hx : x.extractLsb' (start - w) len = z) (h : w ≤ start := by decide) : (x ++ y).extractLsb' start len = z :=
  (BitVec.extractLsb'_append_eq_of_le h).trans hx

/-- The fields of a word in the form RRI (R8). -/
theorem fields_rri (m : BitVec 6) (g : Guard) (d a : Code) (i : BitVec 8) :
    majOf (m ++ g ++ d ++ a ++ i) = m ∧ gOf (m ++ g ++ d ++ a ++ i) = g ∧ dOf (m ++ g ++ d ++ a ++ i) = d ∧
    aOf (m ++ g ++ d ++ a ++ i) = a ∧ i8Of (m ++ g ++ d ++ a ++ i) = i :=
  ⟨extract_above (extract_above (extract_above BitVec.extractLsb'_append_eq_left)),
    extract_above (extract_above (extract_above BitVec.extractLsb'_append_eq_right)),
    extract_above (extract_above BitVec.extractLsb'_append_eq_right), extract_above BitVec.extractLsb'_append_eq_right,
    BitVec.extractLsb'_append_eq_right⟩

/-- The fields of SHI: its kind and its count stand in the place of the immediate (R135). -/
theorem fields_shi (m : BitVec 6) (g : Guard) (d a : Code) (k : BitVec 2) (n : BitVec 6) :
    majOf (m ++ g ++ d ++ a ++ k ++ n) = m ∧ gOf (m ++ g ++ d ++ a ++ k ++ n) = g ∧
    dOf (m ++ g ++ d ++ a ++ k ++ n) = d ∧ aOf (m ++ g ++ d ++ a ++ k ++ n) = a ∧
    (m ++ g ++ d ++ a ++ k ++ n).extractLsb' 6 2 = k ∧ (m ++ g ++ d ++ a ++ k ++ n).extractLsb' 0 6 = n :=
  ⟨extract_above (extract_above (extract_above (extract_above BitVec.extractLsb'_append_eq_left))),
    extract_above (extract_above (extract_above (extract_above BitVec.extractLsb'_append_eq_right))),
    extract_above (extract_above (extract_above BitVec.extractLsb'_append_eq_right)),
    extract_above (extract_above BitVec.extractLsb'_append_eq_right), extract_above BitVec.extractLsb'_append_eq_right,
    BitVec.extractLsb'_append_eq_right⟩

/-- A word of MAJ 0x0E is SHI by its kind. -/
theorem decodeWord_shi (g : Guard) (d a : Code) (k : BitVec 2) (n : BitVec 6) :
    decodeWord (0x0E#6 ++ g ++ d ++ a ++ k ++ n) = decodeShi (0x0E#6 ++ g ++ d ++ a ++ k ++ n) := by
  simp only [decodeWord, (fields_shi 0x0E#6 g d a k n).1]
  rfl

theorem decodeWord_shi_kinds (g : Guard) (d a : Code) (n : BitVec 6) :
    decodeWord (0x0E#6 ++ g ++ d ++ a ++ 0#2 ++ n) = .row (.shiShl g d a n) ∧
    decodeWord (0x0E#6 ++ g ++ d ++ a ++ 1#2 ++ n) = .row (.shiShr g d a n) ∧
    decodeWord (0x0E#6 ++ g ++ d ++ a ++ 2#2 ++ n) = .row (.shiSar g d a n) ∧
    decodeWord (0x0E#6 ++ g ++ d ++ a ++ 3#2 ++ n) = .row (.shiRol g d a n) := by
  simp only [decodeWord_shi, decodeShi, fields_shi]
  exact ⟨rfl, rfl, rfl, rfl⟩

theorem decodeWord_immediates (g : Guard) (d a : Code) (im : BitVec 8) :
    decodeWord (0x07#6 ++ g ++ d ++ a ++ im) = .row (.addi g d a im) ∧
    decodeWord (0x08#6 ++ g ++ d ++ a ++ im) = .row (.muli g d a im) := by
  simp only [decodeWord, fields_rri]
  exact ⟨rfl, rfl⟩

/-- Settles O4: each shift is the result of its kind (SAR from the width on by the sign of the value), ADDI and MULI agree
with residues modulo `2^w`, and the checks of R19 come to the tags last. -/
theorem shiftsAndImmediates : Obligations.ShiftsAndImmediates := by
  unfold Obligations.ShiftsAndImmediates
  refine ⟨⟨?_, ?_, ?_⟩, ?_, ?_, ?_⟩
  · intro s c g d a b n t hi hp hn hs ha hd w shl shr sar rol R
    have ht := shiftTag_iff.2 hs
    have hsar : ∀ i n, shiftBits .sar (tagBits t) (c.valOf a i) n = sar (c.valOf a i) n :=
      fun i n => shiftBits_sar n (ha.tag ▸ valOf_lt c a i)
    refine ⟨fun u hu hb => ?_, fun hw => ?_⟩
    · intro k
      have key {i : Instr} {f : Nat → Nat → Nat} (e : Shift) (he : exec i s = issueWord (shiftReg g d a b e) s)
          (hf : ∀ i n, shiftBits e (tagBits t) (c.valOf a i) n = f (c.valOf a i) n) : Does i s c (R f k) :=
        shiftReg_does ha hi hp hn hd he hf ht hb.quota (hb.tag ▸ hu)
      exact ⟨key .shl rfl fun _ _ => rfl, key .shr rfl fun _ _ => rfl, key .sar rfl hsar, key .rol rfl fun _ _ => rfl⟩
    · intro k
      have key {i : Instr} {f : Nat → Nat → Nat} (e : Shift) (he : exec i s = issueWord (shiftImm g d a n e) s)
          (hf : ∀ i n, shiftBits e (tagBits t) (c.valOf a i) n = f (c.valOf a i) n) : Does i s c (R f k) :=
        shiftImm_does ha hi hp hn hd he hf ht hw
      exact ⟨key .shl rfl fun _ _ => rfl, key .shr rfl fun _ _ => rfl, key .sar rfl hsar, key .rol rfl fun _ _ => rfl⟩
  · intro s c g d a b n t hi hp hn hv ha hd shifted
    have hs : ¬ shifted → shiftTag t = false := fun h => by rwa [Bool.eq_false_iff, Ne, shiftTag_iff]
    refine ⟨fun i hmem hq hb hbad => ?_, fun i hmem => ?_⟩
    · obtain ⟨e, he⟩ := exec_shiftReg s hmem
      refine traps_mismatch he hi (shiftReg_judged ha hi hp hn hd hq) (shiftReg_legalT ha hd) (shiftReg_read ha hv hb) ?_
      rw [shiftReg_accept ha, Bool.and_eq_false_iff]
      exact hbad.imp_left hs
    · obtain ⟨e, he⟩ := exec_shiftImm s hmem
      refine ⟨fun hw => ?_, fun hw hbad => ?_⟩
      · exact traps_illegal he hi (shiftImm_judged ha hi hp hn hd)
          ((shiftImm_legalT ha hd hv).trans (decide_eq_false (Nat.not_lt.2 hw)))
      · exact traps_mismatch he hi (shiftImm_judged ha hi hp hn hd) ((shiftImm_legalT ha hd hv).trans (decide_eq_true hw))
          (ha.read hv) ((shiftImm_accept ha).trans (hs hbad))
  · exact decodeWord_shi_kinds
  · intro s c g d a im t hi hr hm hn hk ha hd w k R
    have him : c.imm im = k := by
      simp only [k]
      split
      · next h => exact imm_short im h
      · next h => exact imm_long im h
    have key {i : Instr} {op : Int → Int → Int} (he : exec i s = issueWord (immediate g d a im op) s)
        (hop : KeepsResidues op) : Does i s c (R op) := by
      have h := immediate_does ha hi hr hm hn hd he (immTag_iff.2 hk) hop
      rwa [him] at h
    exact ⟨key rfl keepsResidues_add, key rfl keepsResidues_mul⟩
  · intro s c g d a im t hi hr hm hn hv h1 h2 h3 h4 ha hd
    have hk : immTag t = false := by simp [immTag, h1, h2, h3, h4]
    exact ⟨immediate_traps ha hi hr hm hn hd rfl hv hk, immediate_traps ha hi hr hm hn hd rfl hv hk⟩
  · exact decodeWord_immediates

end Sys2Proof.Machine
end

section
/-! SUPPORT. CMP and CMP.AND (R136 of 07) by the order of their operands, and SEL (R137 of 07), whose guard selects. -/

namespace Sys2Proof.Machine

/-! ### Predicates as a word reads them -/

/-- Once every result has landed, a word reads a predicate as it stands (R29). -/
theorem seePred_of_atIssue {s : State} {c : Cx} {gd : Guard} (hi : AtIssue s c gd) (n : Nat) :
    seePred c.g c.sl c.p.cycle n = c.g.pred n := by
  simp [seePred, hi.written]

theorem maskOf_false : maskOf (fun _ => false) = 0 := by decide

/-! ### Conditions -/

/-- The conditions of R136 on two numbers. -/
def condHolds (k : Nat) (x y : Int) : Bool :=
  match k with
  | 0 => decide (x = y)
  | 1 => decide (x ≠ y)
  | 2 => decide (x < y)
  | 3 => decide (x ≤ y)
  | 4 => decide (y < x)
  | 5 => decide (y ≤ x)
  | 6 => false
  | _ => true

/-- The order of two integers is the sign of their difference. -/
theorem condOf_sub (k : Nat) (x y : Int) : condOf k (some (x - y)) = condHolds k x y := by
  have h : (x - y == 0) = decide (x = y) := by
    rw [Bool.eq_iff_iff, beq_iff_eq, decide_eq_true_eq, Int.sub_eq_zero]
  match k with
  | 0 => exact h
  | 1 => exact (congrArg not h).trans decide_not.symm
  | 2 | 3 | 4 | 5 => exact decide_eq_decide.2 (by omega)
  | 6 | _ + 7 => rfl

theorem condOf_some (k : Nat) (z : Int) : condOf k (some z) = condHolds k z 0 := by
  rw [← condOf_sub, Int.sub_zero]

/-- Operands that are not ordered: only the second and the seventh condition hold. -/
theorem condOf_none (k : BitVec 3) : condOf k.toNat none = (k == 1 || k == 6) := by
  revert k; decide

/-! ### Orders -/

theorem orderOf_signed {t : Tag} (h : t = .s32 ∨ t = .s64) (x y : Nat) :
    orderOf t x y = (some (intOf true (tagBits t) x - intOf true (tagBits t) y), 0) := by
  rcases h with rfl | rfl <;> rfl

theorem orderOf_unsigned {t : Tag} (h : t = .n32 ∨ t = .n64 ∨ t = .b32 ∨ t = .m64) (x y : Nat) :
    orderOf t x y = (some (intOf false (tagBits t) x - intOf false (tagBits t) y), 0) := by
  rcases h with rfl | rfl | rfl | rfl <;> rfl

theorem orderOf_float {t : Tag} {f : Fmt} (h : (t = .f32 ∧ f = fmtF32) ∨ (t = .f64 ∧ f = fmtF64)) (x y : Nat) :
    orderOf t x y = (cmpVal (f.decode x) (f.decode y),
      if (f.decode x).isSig || (f.decode y).isSig then fNV else 0) := by
  rcases h with ⟨rfl, rfl⟩ | ⟨rfl, rfl⟩ <;> simp [orderOf, sigFlag]

/-! ### CMP and CMP.AND -/

/-- Both operands lie below the modulus in every lane that takes part (R108). -/
def Cx.InRange (c : Cx) (a b : Code) : Prop :=
  ∀ i, hasBit c.lanes i → c.val64 a i < c.g.q.toNat ∧ c.val64 b i < c.g.q.toNat

/-- Condition `k` on operands of a tag is `f`, with the flags `fl`, in each lane (R136). -/
def Cx.Compares (c : Cx) (k : BitVec 3) (a b : Code) (t : Tag) (f : Nat → Bool) (fl : Nat → Word) : Prop :=
  ∀ i, condOf k.toNat (orderOf t (c.valOf a i) (c.valOf b i)).1 = f i ∧ (orderOf t (c.valOf a i) (c.valOf b i)).2 = fl i

/-- What CMP and, where `conj`, CMP.AND leave of conditions `f` with the flags `fl` (R136). -/
def compareOut (c : Cx) (p : BitVec 3) (conj : Bool) (f : Nat → Bool) (fl : Nat → Word) : Out :=
  { preds := [(p.toNat, c.lanes, if conj then c.g.pred p.toNat &&& maskOf f else maskOf f)]
    flags := joinFlags ((lanesOf c.lanes).map fl) }

theorem not_void_of_cmpTag {t : Tag} (h : cmpTag t = true) : t ≠ .void := by
  rintro rfl; exact absurd h (by decide)

section
variable {s : State} {c : Cx} {g : Guard} {k p : BitVec 3} {a b : Code} {conj : Bool} {t : Tag}
  (ha : Holds c a t) (hb : Holds c b t)
include ha hb

theorem compare_judged (hi : Issues s c g) (hp : Bare c) (hn : c.lanes ≠ 0) : (compare g k p a b conj).Judged s c :=
  ⟨rfl, rfl, hn, Wd.ok_of_fits hi (fits_of_bare hp) (by simp [compare, ha.quota, hb.quota]) rfl rfl⟩

theorem compare_legalT : (compare g k p a b conj).legalT c = true := by
  simp [compare, ha.flexOk, hb.flexOk]

theorem compare_accept : (compare g k p a b conj).accept c = cmpTag t := by
  simp [compare, ha.tag, hb.tag, ha.flexTag, hb.flexTag]

omit ha hb in
theorem outOfRange_of_inRange (h : c.InRange a b) : c.outOfRange c.lanes [a, b] = 0 := by
  unfold Cx.outOfRange
  rw [← maskOf_false]
  congr 1
  funext i
  cases hl : hasBit c.lanes i with
  | false => rfl
  | true =>
    obtain ⟨hx, hy⟩ := h i hl
    simp [hx, hy]

omit hb in
/-- The condition of each lane, by the order of its operands. -/
theorem compare_run (hi : AtIssue s c g) (hq : t = .m64 → c.InRange a b) {f : Nat → Bool} {fl : Nat → Word}
    (ho : c.Compares k a b t f fl) : (compare g k p a b conj).run c s = .ok (compareOut c p conj f fl) s := by
  have hr : ¬ (t = .m64 ∧ c.outOfRange c.lanes [a, b] ≠ 0) := fun h => h.2 (outOfRange_of_inRange (hq h.1))
  have hf : ∀ i, condOf k.toNat (orderOf t (c.valOf a i) (c.valOf b i)).1 = f i := fun i => (ho i).1
  have hfl : ∀ i, (orderOf t (c.valOf a i) (c.valOf b i)).2 = fl i := fun i => (ho i).2
  simp only [compare, ha.tag, if_neg hr, seePred_of_atIssue hi, hf, hfl]
  rfl

/-- A comparison of operands of a tag that it takes completes with its conditions and flags. -/
theorem compare_does (hi : Issues s c g) (hp : Bare c) (hn : c.lanes ≠ 0) (ht : cmpTag t = true)
    (hq : t = .m64 → c.InRange a b) {f : Nat → Bool} {fl : Nat → Word} (ho : c.Compares k a b t f fl) {i : Instr}
    (he : exec i s = issueWord (compare g k p a b conj) s) : Does i s c (compareOut c p conj f fl) :=
  have hv := not_void_of_cmpTag ht
  does_of_judged he hi (compare_judged ha hb hi hp hn) rfl (compare_legalT ha hb)
    (List.forall_mem_append.2 ⟨ha.read hv, hb.read hv⟩) ((compare_accept ha hb).trans ht)
    (compare_run ha hi.toAtIssue hq ho) List.nodup_nil (List.pairwise_singleton _ _)

end

/-! ### SEL -/

section
variable {s : State} {c : Cx} {g : Guard} {d a b : Code} {t u : Tag} (ha : Holds c a t) (hb : Holds c b u)
include ha hb

/-- SEL is checked where a lane is enabled, whatever its guard (R11, R137). -/
theorem select_judged (hi : Issues s c g) (hp : Bare c) (hn : c.en ≠ 0) (hd : Accepts c d t) :
    (select g d a b).Judged s c :=
  ⟨rfl, rfl, hn, Wd.ok_of_fits hi (fits_of_bare hp) (by simp [select, hd.quota, ha.quota, hb.quota]) rfl rfl⟩

theorem select_legalT (hd : Accepts c d t) : (select g d a b).legalT c = true := by
  simp [select, ha.flexOk, hb.flexOk, ha.tag, hd.destOk]

theorem select_read (ht : t ≠ .void) (hu : u ≠ .void) : ∀ r ∈ (select g d a b).reads c, c.tag r ≠ .void :=
  List.forall_mem_append.2 ⟨ha.read ht, hb.read hu⟩

theorem select_accept : (select g d a b).accept c = (t == u && !isBfp t) := by
  simp [select, ha.tag, hb.tag, ha.flexTag, hb.flexTag]

end

/-- The fields of a word in the form RRR (R8). -/
theorem fields_rrr (m : BitVec 6) (g : Guard) (d a b : Code) (x : BitVec 1) :
    majOf (m ++ g ++ d ++ a ++ b ++ x) = m ∧ gOf (m ++ g ++ d ++ a ++ b ++ x) = g ∧
    dOf (m ++ g ++ d ++ a ++ b ++ x) = d ∧ aOf (m ++ g ++ d ++ a ++ b ++ x) = a ∧
    bOf (m ++ g ++ d ++ a ++ b ++ x) = b ∧ xOf (m ++ g ++ d ++ a ++ b ++ x) = x :=
  ⟨extract_above (extract_above (extract_above (extract_above BitVec.extractLsb'_append_eq_left))),
    extract_above (extract_above (extract_above (extract_above BitVec.extractLsb'_append_eq_right))),
    extract_above (extract_above (extract_above BitVec.extractLsb'_append_eq_right)),
    extract_above (extract_above BitVec.extractLsb'_append_eq_right), extract_above BitVec.extractLsb'_append_eq_right,
    BitVec.extractLsb'_append_eq_right⟩

/-- A word of MAJ 0x10 is SEL, or by its X reserved (R33, R137). -/
theorem decodeWord_sel (g : Guard) (d a b : Code) (x : BitVec 1) :
    decodeWord (0x10#6 ++ g ++ d ++ a ++ b ++ x) = rowIf (x = 0) (.sel g d a b) (0x10#6 ++ g ++ d ++ a ++ b ++ x) := by
  simp only [decodeWord, fields_rrr]
  rfl

/-- Settles O5: a comparison is the condition on the order of each lane's operands; SEL is judged by the enabled lanes, and
the checks of R19 come to its tags last. -/
theorem comparisonAndSelection : Obligations.ComparisonAndSelection := by
  unfold Obligations.ComparisonAndSelection
  refine ⟨?_, ?_, ?_, ?_⟩
  · intro s c g k p a b t hi hp hn ha hb hq T C ints flts
    have key {f : Nat → Bool} {fl : Nat → Word} (ht : cmpTag t = true) (ho : c.Compares k a b t f fl) :
        C f (joinFlags ((lanesOf c.lanes).map fl)) :=
      ⟨compare_does ha hb hi hp hn ht hq ho (conj := false) rfl, compare_does ha hb hi hp hn ht hq ho (conj := true) rfl⟩
    have hints (sgn : Bool) (ht : cmpTag t = true) (ho : ∀ x y, orderOf t x y =
        (some (intOf sgn (tagBits t) x - intOf sgn (tagBits t) y), 0)) : ints sgn := by
      have h := key (fl := fun _ => 0) ht fun i => by rw [ho]; exact ⟨condOf_sub .., rfl⟩
      rwa [joinFlags_zero _ _ fun _ _ => rfl] at h
    have hflts {f : Fmt} (ht : cmpTag t = true) (hf : (t = .f32 ∧ f = fmtF32) ∨ (t = .f64 ∧ f = fmtF64)) :
        flts f := by
      refine key ht fun i => ?_
      rw [orderOf_float hf]
      refine ⟨?_, rfl⟩
      cases cmpVal (f.decode (c.valOf a i)) (f.decode (c.valOf b i)) with
      | none => exact condOf_none k
      | some z => exact condOf_some k.toNat z
    refine ⟨fun h => hints true ?_ (orderOf_signed h), fun h => hints false ?_ (orderOf_unsigned h), ?_, ?_⟩
    · rcases h with rfl | rfl <;> rfl
    · rcases h with rfl | rfl | rfl | rfl <;> rfl
    · rintro rfl; exact hflts rfl (.inl ⟨rfl, rfl⟩)
    · rintro rfl; exact hflts rfl (.inr ⟨rfl, rfl⟩)
  · intro s c g d a b t hi hp hn hv ht ha hb hd
    exact does_of_judged rfl hi (select_judged ha hb hi hp hn hd) rfl (select_legalT ha hb hd) (select_read ha hb hv hv)
      (by simp [select_accept ha hb, ht]) (by simp only [select, ha.tag]; rfl) (outOf_nodup ..) List.nodup_nil
  · intro s c g d a b t u hi hp hn hv hu ha hb hd hbad
    refine traps_mismatch rfl hi (select_judged ha hb hi hp hn hd) (select_legalT ha hb hd) (select_read ha hb hv hu) ?_
    rw [select_accept ha hb, Bool.and_eq_false_iff, beq_eq_false_iff_ne, Bool.not_eq_false']
    exact hbad
  · exact fun g d a b => ⟨decodeWord_sel g d a b 0, decodeWord_sel g d a b 1⟩

end Sys2Proof.Machine
end

section
/-! SUPPORT. MOV, MOVI, GTAG, STAG, MOVP and PMOV (R142, R143 of 07): words that move bits, tags and predicates as they
are. -/

namespace Sys2Proof.Machine

/-! ### Moves -/

section
variable {s : State} {c : Cx} {g : Guard} {d a : Code} (hi : Issues s c g) (hp : Bare c) (hn : c.lanes ≠ 0)
include hi hp hn

/-- MOV takes the bits, the tag and the side-file entry of A (R143). -/
theorem mov_does {t : Tag} (ht : t ≠ .void) (ha : Holds c a t) (hd : Accepts c d t) :
    Does (.mov g d a) s c { regs := outOf d c.lanes (c.valOf a) t (if isBfp t then some (c.side a) else none) } := by
  have hfl : laneFlags c.lanes (fun i => (c.valOf a i, 0)) = 0 := joinFlags_zero _ _ fun _ _ => rfl
  exact does_of_judged (show exec (.mov g d a) s = issueWord _ s from rfl) hi
    ⟨rfl, rfl, hn, Wd.ok_of_fits hi (fits_of_bare hp) (by simp [oneSource, hd.quota, ha.quota]) rfl rfl⟩ rfl
    (oneSource_legalT ha hd) (ha.read ht) (oneSource_accept ha)
    (by simp only [oneSource, ha.tag, hfl, id, Bool.and_self]; rfl) (outOf_nodup ..) List.nodup_nil

/-- GTAG reads no bits, so it takes VOID too (R143). -/
theorem gtag_does (hd : oneOk c.g.quota d = true) (ha : oneOk c.g.quota a = true) :
    Does (.gtag g d a) s c { regs := [out32 d c.lanes (fun _ => BitVec.ofNat 32 (tagCode (c.tag a))) .n32] } :=
  does_of_judged (show exec (.gtag g d a) s = issueWord _ s from rfl) hi
    ⟨rfl, rfl, hn, Wd.ok_of_fits hi (fits_of_bare hp) (by simp [hd, ha]) rfl rfl⟩ rfl rfl (by simp)
    rfl rfl (List.pairwise_singleton _ _) List.nodup_nil

theorem movp_does (n : BitVec 3) (hd : oneOk c.g.quota d = true) :
    Does (.movp g d n) s c { regs := [out32 d c.lanes (fun _ => c.g.pred n.toNat) .n32] } :=
  does_of_judged (show exec (.movp g d n) s = issueWord _ s from rfl) hi
    ⟨rfl, rfl, hn, Wd.ok_of_fits hi (fits_of_bare hp) (by simp [hd]) rfl rfl⟩ rfl rfl (by simp)
    rfl (by simp only [seePred_of_atIssue hi.toAtIssue]; rfl) (List.pairwise_singleton _ _) List.nodup_nil

end

theorem not_void_of_isInt32 {t : Tag} (h : isInt32 t = true) : t ≠ .void := by
  rintro rfl; exact absurd h (by decide)

theorem pmov_does {s : State} {c : Cx} {g : Guard} {a : Code} (n : BitVec 3) {u : Tag} (hi : Issues s c g) (hp : Bare c)
    (hn : c.lanes ≠ 0) (hu : isInt32 u = true) (ha : Holds c a u) :
    Does (.pmov g a n) s c { preds := [(n.toNat, c.lanes, maskOf (fun i => hasBit (c.val a i) i))] } :=
  does_of_judged (show exec (.pmov g a n) s = issueWord _ s from rfl) hi
    ⟨rfl, rfl, hn, Wd.ok_of_fits hi (fits_of_bare hp) (by simp [ha.quota]) rfl rfl⟩ rfl rfl
    (by simp [ha.tag, not_void_of_isInt32 hu]) (by simp [Cx.intTag, ha.tag, hu]) rfl List.nodup_nil
    (List.pairwise_singleton _ _)

/-! ### STAG -/

/-- The registers of a result are those that its tag takes, from the one named (R14). -/
theorem destRegs_eq_map (t : Tag) (r : Code) : destRegs t r = (List.range (if wide t then 2 else 1)).map (up r) := by
  cases h : wide t <;> simp [destRegs, h, List.range_succ]

theorem destRegs_nodup (t : Tag) (r : Code) : (destRegs t r).Nodup := by
  have := up_ne r 1 (by omega) (by omega)
  cases h : wide t <;> simp [destRegs, h, this.symm]

theorem retag_eq_out32 (g : Group) (r : Code) (m : Word) (t : Tag) :
    retag g r m t = out32 r m (g.bitsAt r) t (if isBfp t then some 0 else none) := rfl

/-- A pair starts at an even code, and its second register too lies below the quota (R13, R14). -/
theorem second_of_pairOk {q : Nat} {r : Code} (h : pairOk q r = true) : r.toNat % 2 = 0 ∧ oneOk q (up r 1) = true := by
  have := r.isLt
  simp only [pairOk, spanOk, Bool.and_eq_true, Bool.or_eq_true, decide_eq_true_eq] at h
  obtain ⟨heven, hspan⟩ := h
  have hup : (up r 1).toNat = r.toNat + 1 := by simp only [up, BitVec.toNat_ofNat]; omega
  simp only [oneOk, hup, decide_eq_true_eq]
  omega

/-- STAG by a code that names a tag: the registers that the tag takes keep their bits (R143). -/
theorem stag_does {s : State} {c : Cx} {g : Guard} {d a : Code} {t u : Tag} (hi : Issues s c g) (hp : Bare c)
    (hn : c.lanes ≠ 0) (hu : isInt32 u = true) (ha : Holds c a u) (hv : isVec a = false)
    (ht : codeTag (c.val a 0).toNat = some t) (hd : Accepts c d t) :
    Does (.stag g d a) s c { regs := (destRegs t d).map (fun r =>
      out32 r c.lanes (c.g.bitsAt r) t (if isBfp t then some 0 else none)) } := by
  have hpair : (!(wide t && d.toNat % 2 == 1) && (!wide t || oneOk c.g.quota (up d 1))) = true := by
    cases hw : wide t with
    | false => rfl
    | true =>
      obtain ⟨heven, hup⟩ := second_of_pairOk (hd.pair hw)
      simp [heven, hup]
  refine does_of_judged (show exec (.stag g d a) s = issueWord _ s from rfl) hi
    ⟨rfl, rfl, hn, Wd.ok_of_fits hi (fits_of_bare hp) (by simp [hd.quota, ha.quota]) (by simp [hv]) rfl⟩ rfl rfl
    (by simp [ha.tag, not_void_of_isInt32 hu]) ?_ ?_ (by simpa [Function.comp_def, out32] using destRegs_nodup t d)
    List.nodup_nil
  · simp only [Cx.intTag, ha.tag, hu, ht, hpair, Bool.and_self]
  · have hget : (get : M State) s = .ok s s := rfl
    simp only [bind, EStateM.bind, hget, ht, hi.group, retag_eq_out32]
    rfl

/-! ### MOVI -/

/-- The immediate of MOVI without HIMM (R23, R142). -/
theorem imm15_short {c : Cx} (i : BitVec 15) (h : c.p.himm = none) : c.imm15 i = i.signExtend 32 := by
  simp only [Cx.imm15, h, intOf_eq_toInt (show 0 < 15 by decide)]
  apply BitVec.eq_of_toNat_eq
  rw [BitVec.signExtend, BitVec.toNat_ofInt, BitVec.toNat_ofNat, wrap]
  omega

/-- The immediate of MOVI with HIMM (R23, R142). -/
theorem imm15_long {c : Cx} (i : BitVec 15) {x : BitVec 17} (h : c.p.himm = some (x.setWidth 22)) :
    c.imm15 i = (x ++ i : BitVec 32) := by
  have hx := x.isLt
  have hn : x.toNat * 2 ^ 15 + i.toNat = (x ++ i : BitVec 32).toNat := by
    rw [← Nat.shiftLeft_eq x.toNat 15, Nat.shiftLeft_add_eq_or_of_lt i.isLt, ← BitVec.toNat_append]
  have hb : bitsOf (x.setWidth 22).toNat 0 17 = x.toNat := by
    simp only [bitsOf, BitVec.toNat_setWidth]; omega
  simp only [Cx.imm15, h, hb, hn, BitVec.ofNat_toNat, BitVec.setWidth_eq]

/-- MOVI alone, or behind an HIMM of no more bits than it takes (R23). -/
theorem movi_does {s : State} {c : Cx} {g : Guard} {d : Code} (i : BitVec 15) (hi : Issues s c g)
    (hr : c.p.hrcv = none) (hm : c.p.hmod = none) (hn : c.lanes ≠ 0) (hd : oneOk c.g.quota d = true)
    (hh : ∀ h, c.p.himm = some h → bitsOf h.toNat 17 5 = 0) :
    Does (.movi g d i) s c { regs := [out32 d c.lanes (fun _ => c.imm15 i) .s32] } := by
  refine does_of_judged (show exec (.movi g d i) s = issueWord _ s from rfl) hi
    ⟨rfl, rfl, hn, Wd.ok_of_fits hi ?_ (by simp [hd]) rfl rfl⟩ rfl rfl (by simp) rfl rfl
    (List.pairwise_singleton _ _) List.nodup_nil
  cases e : c.p.himm with
  | none => simp [Wd.fits, hr, hm, e]
  | some h => simp [Wd.fits, hr, hm, e, hh h e]

/-- The fields of a word in the form RI (R8). -/
theorem fields_ri (m : BitVec 6) (g : Guard) (d : Code) (i : BitVec 15) :
    majOf (m ++ g ++ d ++ i) = m ∧ gOf (m ++ g ++ d ++ i) = g ∧ dOf (m ++ g ++ d ++ i) = d ∧
    i15Of (m ++ g ++ d ++ i) = i :=
  ⟨extract_above (extract_above BitVec.extractLsb'_append_eq_left),
    extract_above (extract_above BitVec.extractLsb'_append_eq_right), extract_above BitVec.extractLsb'_append_eq_right,
    BitVec.extractLsb'_append_eq_right⟩

theorem decodeWord_movi (g : Guard) (d : Code) (i : BitVec 15) :
    decodeWord (0x13#6 ++ g ++ d ++ i) = .row (.movi g d i) := by
  simp only [decodeWord, fields_ri]
  rfl

/-- Settles O9: each word's results are those of its own rule; STAG's tag decides which registers it takes, and the
immediate of MOVI is the number that HIMM makes of it. -/
theorem moves : Obligations.Moves := by
  unfold Obligations.Moves
  refine ⟨?_, ?_, decodeWord_movi⟩
  · intro s c g d a n hi hp hn
    refine ⟨fun t ht ha hd => mov_does hi hp hn ht ha hd, fun hd => ?_, fun u hu ha => ?_⟩
    · exact ⟨fun ha => gtag_does hi hp hn hd ha, movp_does hi hp hn n hd⟩
    · refine ⟨pmov_does n hi hp hn hu ha, fun t hv ht hd => ?_⟩
      have h := stag_does hi hp hn hu ha hv ht hd
      rwa [destRegs_eq_map, List.map_map] at h
  · intro s c g d im hi hr hm hn hd
    refine ⟨fun h => ?_, fun x h => ?_⟩
    · rw [← imm15_short im h]
      exact movi_does im hi hr hm hn hd fun _ e => by simp [h] at e
    · rw [← imm15_long im h]
      refine movi_does im hi hr hm hn hd fun y e => ?_
      have hx := x.isLt
      obtain rfl := Option.some.inj (h.symm.trans e)
      simp only [bitsOf, BitVec.toNat_setWidth]
      omega

end Sys2Proof.Machine
end
